-- ==== Sys2Proof/Word.lean ====
section
/-! DEFINITION. The byte and word types of the block (`spec/10_state.md`, `spec/20_memory.md`). -/

namespace Sys2Proof

/-- One byte of SRC or DST (R60, R63). -/
abbrev Byte := BitVec 8

/-- One 32-bit register or host word (R40, R42). -/
abbrev Word := BitVec 32

end Sys2Proof
end

