-- ==== Sys2Proof/Config.lean ====
section
/-! DEFINITION. The implementation parameters of `spec/00_scope.md` R6, and the free values: what the spec
calls unspecified and the machine goes on with. -/

namespace Sys2Proof.Config

/-- `BUFW` (R6, R132): width of the reader's bit buffer. -/
abbrev bufw : Nat := 40

/-- `LOOKAHEAD` (R6): the most bits one cursor operation may ask for. -/
abbrev lookahead : Nat := 32

/-- `W_MAX` (R6), also the largest height (R303). -/
abbrev wMax : Nat := 2147483647

/-- The largest table entry (R173): the make-up code chained by `PutRun` (R259). -/
abbrev maxMakeup : Nat := 2560

/-- The longest window of a run lookup (R161). -/
abbrev runWindow : Nat := 13

/-- The window of a mode lookup (R167). -/
abbrev modeWindow : Nat := 7

/-- The window of the EOL probe (R190, R191, R229). -/
abbrev eolWindow : Nat := 12

/-- DESIGN CHOICE (log 1): the value a 32-bit working register holds after the `n`-th RESET, which leaves it
unspecified (R44, R330): a free value, one for each register number and each RESET. -/
opaque freeWord (register n : Nat) : Word

/-- DESIGN CHOICE (log 1): the value a one-bit working register holds after the `n`-th RESET: a free value. -/
opaque freeFlag (register n : Nat) : Bool

/-- DESIGN CHOICE (log 1): the reader's `buf` after the `n`-th RESET: a free value. -/
opaque freeBuffer (n : Nat) : BitVec 40

/-- DESIGN CHOICE (log 1): a line array (entries and length) after the `n`-th RESET: a free value. -/
opaque freeLine (register n : Nat) : List Word

/-- DESIGN CHOICE (log 4): what address `a` of a memory holds that neither the host nor the block has written, one value
for each bank number and each address: a free value (R63: "a model must not assume any value"). -/
opaque unwrittenByte (bank a : Nat) : Byte

end Sys2Proof.Config
end

