-- ==== Sys2Proof/Syntax.lean ====
section
/-! DEFINITION. The instructions of the block: one constructor for each row of `spec/opcode_table.json`. -/

namespace Sys2Proof

/-- The two colours, WHITE = 0 and BLACK = 1 (`spec/00_scope.md` R10). -/
inductive Colour where
  | white
  | black
deriving DecidableEq, Repr

/-- `m`, the operand of `modeCode` (R174) and the result of `SelectMode` (R257). The last two are mode names the
encoder has no code for (U3). -/
inductive ModeName where
  | pass
  | horizontal
  | vertical (d : Int)
  | ext1d
  | ext2d
deriving DecidableEq, Repr

/-- Result of a run lookup (`spec/00_scope.md` R11, R161). -/
inductive RunResult where
  | run (n : Nat)
  | eol
  | zero
  | error
  | eod
deriving DecidableEq, Repr

/-- Result of a mode lookup (R11, R167); `vertical d` is V0, VR1..VR3, VL1..VL3 with its offset (R100, R107). -/
inductive ModeResult where
  | pass
  | horizontal
  | vertical (d : Int)
  | ext1d
  | ext2d
  | error
  | eod
deriving DecidableEq, Repr

/-- Which code set reads the codeword at the stream position (`spec/30_encoding.md` R92). -/
inductive Context where
  | white
  | black
  | mode
deriving DecidableEq, Repr

/-- The instructions: the codewords of the stream (R93 to R101), the tag bits (R105) and the unit operations with
their operands (R108). -/
inductive Instr where
  -- R93, R183: white terminating codes
  | w0
  | w1
  | w2
  | w3
  | w4
  | w5
  | w6
  | w7
  | w8
  | w9
  | w10
  | w11
  | w12
  | w13
  | w14
  | w15
  | w16
  | w17
  | w18
  | w19
  | w20
  | w21
  | w22
  | w23
  | w24
  | w25
  | w26
  | w27
  | w28
  | w29
  | w30
  | w31
  | w32
  | w33
  | w34
  | w35
  | w36
  | w37
  | w38
  | w39
  | w40
  | w41
  | w42
  | w43
  | w44
  | w45
  | w46
  | w47
  | w48
  | w49
  | w50
  | w51
  | w52
  | w53
  | w54
  | w55
  | w56
  | w57
  | w58
  | w59
  | w60
  | w61
  | w62
  | w63
  -- R94, R182: white make-up codes
  | mw64
  | mw128
  | mw192
  | mw256
  | mw320
  | mw384
  | mw448
  | mw512
  | mw576
  | mw640
  | mw704
  | mw768
  | mw832
  | mw896
  | mw960
  | mw1024
  | mw1088
  | mw1152
  | mw1216
  | mw1280
  | mw1344
  | mw1408
  | mw1472
  | mw1536
  | mw1600
  | mw1664
  | mw1728
  -- R95, R183: black terminating codes
  | b0
  | b1
  | b2
  | b3
  | b4
  | b5
  | b6
  | b7
  | b8
  | b9
  | b10
  | b11
  | b12
  | b13
  | b14
  | b15
  | b16
  | b17
  | b18
  | b19
  | b20
  | b21
  | b22
  | b23
  | b24
  | b25
  | b26
  | b27
  | b28
  | b29
  | b30
  | b31
  | b32
  | b33
  | b34
  | b35
  | b36
  | b37
  | b38
  | b39
  | b40
  | b41
  | b42
  | b43
  | b44
  | b45
  | b46
  | b47
  | b48
  | b49
  | b50
  | b51
  | b52
  | b53
  | b54
  | b55
  | b56
  | b57
  | b58
  | b59
  | b60
  | b61
  | b62
  | b63
  -- R96, R182: black make-up codes
  | mb64
  | mb128
  | mb192
  | mb256
  | mb320
  | mb384
  | mb448
  | mb512
  | mb576
  | mb640
  | mb704
  | mb768
  | mb832
  | mb896
  | mb960
  | mb1024
  | mb1088
  | mb1152
  | mb1216
  | mb1280
  | mb1344
  | mb1408
  | mb1472
  | mb1536
  | mb1600
  | mb1664
  | mb1728
  -- R97, R182: extended make-up codes, both colours
  | mx1792
  | mx1856
  | mx1920
  | mx1984
  | mx2048
  | mx2112
  | mx2176
  | mx2240
  | mx2304
  | mx2368
  | mx2432
  | mx2496
  | mx2560
  -- R98, R190: end of line
  | eol
  -- R99, R184: a fill bit (the result ZERO)
  | fillBit
  -- R100, R101: mode codes
  | v0
  | vr1
  | vl1
  | h
  | p
  | vr2
  | vl2
  | vr3
  | vl3
  | ext2d
  | ext1d
  -- R105, R190: tag bits
  | t1
  | t0
  -- R108: unit operations
  | reset
  | start
  | hasBits (n : Nat)
  | peekBits (n : Nat)
  | getBits (n : Nat)
  | clearBits (n : Nat)
  | look (n : Nat)
  | byteAlign
  | wordAlign
  | reverseBits
  | drain
  | putBits (v : Nat) (n : Nat)
  | putAlign
  | finish
  | decodeRun (colour : Colour)
  | decodeMode
  | termCode (colour : Colour) (n : Nat)
  | makeupCode (colour : Colour) (m : Nat)
  | modeCode (m : ModeName)
  | decodeStep
  | fillPixels (colour : Colour) (x0 : Nat) (x1 : Nat)
  | fillRun (n : Nat)
  | padRow
  | closeRow (align : Bool)
  | onEOL
  | onError
  | onEOD (fromMode : Bool)
  | record (pos : Nat)
  | findB
  | modeStep
  | countPixels (colour : Colour) (max : Nat)
  | selectMode (posA1 : Nat) (posB1 : Nat) (posB2 : Nat)
  | encodeStepG4
  | putRun (colour : Colour) (n : Nat)
  | encodeRowG31D
deriving DecidableEq, Repr

end Sys2Proof
end

