-- ==== Sys2Proof/WellFormed.lean ====
section
/-! DEFINITION. Well-formed instructions: the operand ranges that the rules state (`spec/93_implementation_defined.md`
U1, U3, U4), and operands that fit the 32-bit operand words of a unit command (log 5). -/

namespace Sys2Proof

/-- The operand of `modeCode` is in its domain (R174, U3). -/
def ModeName.encodable : ModeName → Bool
  | .pass => true
  | .horizontal => true
  | .vertical d => decide (-3 ≤ d) && decide (d ≤ 3)
  | .ext1d => false
  | .ext2d => false

/-- The operand checks of every instruction; codewords and tag bits have no operand to check (R91). -/
def Instr.wellFormed : Instr → Bool
  | .w0 | .w1 | .w2 | .w3 | .w4 | .w5 | .w6 | .w7 | .w8 | .w9 | .w10 | .w11 => true
  | .w12 | .w13 | .w14 | .w15 | .w16 | .w17 | .w18 | .w19 | .w20 | .w21 | .w22 | .w23 => true
  | .w24 | .w25 | .w26 | .w27 | .w28 | .w29 | .w30 | .w31 | .w32 | .w33 | .w34 | .w35 => true
  | .w36 | .w37 | .w38 | .w39 | .w40 | .w41 | .w42 | .w43 | .w44 | .w45 | .w46 | .w47 => true
  | .w48 | .w49 | .w50 | .w51 | .w52 | .w53 | .w54 | .w55 | .w56 | .w57 | .w58 | .w59 => true
  | .w60 | .w61 | .w62 | .w63 | .mw64 | .mw128 | .mw192 | .mw256 | .mw320 | .mw384 | .mw448 | .mw512 => true
  | .mw576 | .mw640 | .mw704 | .mw768 | .mw832 | .mw896 | .mw960 | .mw1024 | .mw1088 | .mw1152 | .mw1216 | .mw1280 => true
  | .mw1344 | .mw1408 | .mw1472 | .mw1536 | .mw1600 | .mw1664 | .mw1728 | .b0 | .b1 | .b2 | .b3 | .b4 => true
  | .b5 | .b6 | .b7 | .b8 | .b9 | .b10 | .b11 | .b12 | .b13 | .b14 | .b15 | .b16 => true
  | .b17 | .b18 | .b19 | .b20 | .b21 | .b22 | .b23 | .b24 | .b25 | .b26 | .b27 | .b28 => true
  | .b29 | .b30 | .b31 | .b32 | .b33 | .b34 | .b35 | .b36 | .b37 | .b38 | .b39 | .b40 => true
  | .b41 | .b42 | .b43 | .b44 | .b45 | .b46 | .b47 | .b48 | .b49 | .b50 | .b51 | .b52 => true
  | .b53 | .b54 | .b55 | .b56 | .b57 | .b58 | .b59 | .b60 | .b61 | .b62 | .b63 | .mb64 => true
  | .mb128 | .mb192 | .mb256 | .mb320 | .mb384 | .mb448 | .mb512 | .mb576 | .mb640 | .mb704 | .mb768 | .mb832 => true
  | .mb896 | .mb960 | .mb1024 | .mb1088 | .mb1152 | .mb1216 | .mb1280 | .mb1344 | .mb1408 | .mb1472 | .mb1536 | .mb1600 => true
  | .mb1664 | .mb1728 | .mx1792 | .mx1856 | .mx1920 | .mx1984 | .mx2048 | .mx2112 | .mx2176 | .mx2240 | .mx2304 | .mx2368 => true
  | .mx2432 | .mx2496 | .mx2560 | .eol | .fillBit | .v0 | .vr1 | .vl1 | .h | .p | .vr2 | .vl2 => true
  | .vr3 | .vl3 | .ext2d | .ext1d | .t1 | .t0 => true
  | .reset => true
  | .start => true
  | .hasBits n => decide (n ≤ 32)
  | .peekBits n => decide (n ≤ 32)
  | .getBits n => decide (n ≤ 32)
  | .clearBits n => decide (n ≤ 40)
  | .look n => decide (n ≤ 32)
  | .byteAlign => true
  | .wordAlign => true
  | .reverseBits => true
  | .drain => true
  | .putBits v n => decide (n ≤ 32) && decide (v < 2 ^ n)
  | .putAlign => true
  | .finish => true
  | .decodeRun _ => true
  | .decodeMode => true
  | .termCode _ n => decide (n ≤ 63)
  | .makeupCode _ m => decide (64 ≤ m) && decide (m ≤ 2560) && decide (m % 64 = 0)
  | .modeCode m => m.encodable
  | .decodeStep => true
  | .fillPixels _ x0 x1 => decide (x0 ≤ x1) && decide (x1 < 2 ^ 32)
  | .fillRun n => decide (n < 2 ^ 32)
  | .padRow => true
  | .closeRow _ => true
  | .onEOL => true
  | .onError => true
  | .onEOD _ => true
  | .record pos => decide (pos < 2 ^ 32)
  | .findB => true
  | .modeStep => true
  | .countPixels _ max => decide (max < 2 ^ 32)
  | .selectMode posA1 posB1 posB2 => decide (posA1 < 2 ^ 32) && decide (posB1 < 2 ^ 32) && decide (posB2 < 2 ^ 32)
  | .encodeStepG4 => true
  | .putRun _ n => decide (n < 2 ^ 32)
  | .encodeRowG31D => true

/-- `i` is well formed: every operand is in the range its rule states. -/
abbrev Instr.WellFormed (i : Instr) : Prop := i.wellFormed = true

end Sys2Proof
end

