-- ==== Sys2Proof/Decode.lean ====
section
/-! DEFINITION. The code tables (`spec/30_encoding.md` R93 to R101, R105, R108), the decoder of a codeword window, of
a tag bit and of a unit command, and the encoder. -/

namespace Sys2Proof

/-- Why a window or a command decodes to no instruction. -/
inductive DecodeError where
  /-- The lookup result EOD: no bit is left (R165). -/
  | endOfData
  /-- The lookup result ERROR: no codeword fits (R102, R162, R164, R169). -/
  | noCodeword
  /-- An OPSEL code that R108 does not list. -/
  | reservedSelect
  /-- An operand word with no meaning for this operation in the command layout of log 5. -/
  | reservedOperand
deriving DecidableEq, Repr

/-- What the decoder answers: an instruction, or a rejection by name. -/
inductive Decoded where
  | ok (i : Instr)
  | reject (e : DecodeError)
deriving DecidableEq, Repr

/-- One row of a run-length code table: the codeword, its run length, and its pattern of `len` bits. -/
structure CodeRow where
  instr : Instr
  value : Nat
  pattern : Nat
  len : Nat
deriving DecidableEq, Repr

/-- One row of the mode code table (R100). -/
structure ModeRow where
  instr : Instr
  result : ModeResult
  pattern : Nat
  len : Nat
deriving DecidableEq, Repr

/-- R93: white terminating codes. Part 0. -/
def whiteTerminating0 : List CodeRow := [
  ⟨.w0, 0, 0b00110101, 8⟩,
  ⟨.w1, 1, 0b000111, 6⟩,
  ⟨.w2, 2, 0b0111, 4⟩,
  ⟨.w3, 3, 0b1000, 4⟩,
  ⟨.w4, 4, 0b1011, 4⟩,
  ⟨.w5, 5, 0b1100, 4⟩,
  ⟨.w6, 6, 0b1110, 4⟩,
  ⟨.w7, 7, 0b1111, 4⟩,
  ⟨.w8, 8, 0b10011, 5⟩,
  ⟨.w9, 9, 0b10100, 5⟩,
  ⟨.w10, 10, 0b00111, 5⟩,
  ⟨.w11, 11, 0b01000, 5⟩,
  ⟨.w12, 12, 0b001000, 6⟩,
  ⟨.w13, 13, 0b000011, 6⟩,
  ⟨.w14, 14, 0b110100, 6⟩,
  ⟨.w15, 15, 0b110101, 6⟩]

/-- R93: white terminating codes. Part 1. -/
def whiteTerminating1 : List CodeRow := [
  ⟨.w16, 16, 0b101010, 6⟩,
  ⟨.w17, 17, 0b101011, 6⟩,
  ⟨.w18, 18, 0b0100111, 7⟩,
  ⟨.w19, 19, 0b0001100, 7⟩,
  ⟨.w20, 20, 0b0001000, 7⟩,
  ⟨.w21, 21, 0b0010111, 7⟩,
  ⟨.w22, 22, 0b0000011, 7⟩,
  ⟨.w23, 23, 0b0000100, 7⟩,
  ⟨.w24, 24, 0b0101000, 7⟩,
  ⟨.w25, 25, 0b0101011, 7⟩,
  ⟨.w26, 26, 0b0010011, 7⟩,
  ⟨.w27, 27, 0b0100100, 7⟩,
  ⟨.w28, 28, 0b0011000, 7⟩,
  ⟨.w29, 29, 0b00000010, 8⟩,
  ⟨.w30, 30, 0b00000011, 8⟩,
  ⟨.w31, 31, 0b00011010, 8⟩]

/-- R93: white terminating codes. Part 2. -/
def whiteTerminating2 : List CodeRow := [
  ⟨.w32, 32, 0b00011011, 8⟩,
  ⟨.w33, 33, 0b00010010, 8⟩,
  ⟨.w34, 34, 0b00010011, 8⟩,
  ⟨.w35, 35, 0b00010100, 8⟩,
  ⟨.w36, 36, 0b00010101, 8⟩,
  ⟨.w37, 37, 0b00010110, 8⟩,
  ⟨.w38, 38, 0b00010111, 8⟩,
  ⟨.w39, 39, 0b00101000, 8⟩,
  ⟨.w40, 40, 0b00101001, 8⟩,
  ⟨.w41, 41, 0b00101010, 8⟩,
  ⟨.w42, 42, 0b00101011, 8⟩,
  ⟨.w43, 43, 0b00101100, 8⟩,
  ⟨.w44, 44, 0b00101101, 8⟩,
  ⟨.w45, 45, 0b00000100, 8⟩,
  ⟨.w46, 46, 0b00000101, 8⟩,
  ⟨.w47, 47, 0b00001010, 8⟩]

/-- R93: white terminating codes. Part 3. -/
def whiteTerminating3 : List CodeRow := [
  ⟨.w48, 48, 0b00001011, 8⟩,
  ⟨.w49, 49, 0b01010010, 8⟩,
  ⟨.w50, 50, 0b01010011, 8⟩,
  ⟨.w51, 51, 0b01010100, 8⟩,
  ⟨.w52, 52, 0b01010101, 8⟩,
  ⟨.w53, 53, 0b00100100, 8⟩,
  ⟨.w54, 54, 0b00100101, 8⟩,
  ⟨.w55, 55, 0b01011000, 8⟩,
  ⟨.w56, 56, 0b01011001, 8⟩,
  ⟨.w57, 57, 0b01011010, 8⟩,
  ⟨.w58, 58, 0b01011011, 8⟩,
  ⟨.w59, 59, 0b01001010, 8⟩,
  ⟨.w60, 60, 0b01001011, 8⟩,
  ⟨.w61, 61, 0b00110010, 8⟩,
  ⟨.w62, 62, 0b00110011, 8⟩,
  ⟨.w63, 63, 0b00110100, 8⟩]

/-- R93: white terminating codes. -/
def whiteTerminating : List CodeRow := whiteTerminating0 ++ whiteTerminating1 ++ whiteTerminating2 ++ whiteTerminating3

/-- R94: white make-up codes. Part 0. -/
def whiteMakeup0 : List CodeRow := [
  ⟨.mw64, 64, 0b11011, 5⟩,
  ⟨.mw128, 128, 0b10010, 5⟩,
  ⟨.mw192, 192, 0b010111, 6⟩,
  ⟨.mw256, 256, 0b0110111, 7⟩,
  ⟨.mw320, 320, 0b00110110, 8⟩,
  ⟨.mw384, 384, 0b00110111, 8⟩,
  ⟨.mw448, 448, 0b01100100, 8⟩,
  ⟨.mw512, 512, 0b01100101, 8⟩,
  ⟨.mw576, 576, 0b01101000, 8⟩,
  ⟨.mw640, 640, 0b01100111, 8⟩,
  ⟨.mw704, 704, 0b011001100, 9⟩,
  ⟨.mw768, 768, 0b011001101, 9⟩,
  ⟨.mw832, 832, 0b011010010, 9⟩,
  ⟨.mw896, 896, 0b011010011, 9⟩,
  ⟨.mw960, 960, 0b011010100, 9⟩,
  ⟨.mw1024, 1024, 0b011010101, 9⟩]

/-- R94: white make-up codes. Part 1. -/
def whiteMakeup1 : List CodeRow := [
  ⟨.mw1088, 1088, 0b011010110, 9⟩,
  ⟨.mw1152, 1152, 0b011010111, 9⟩,
  ⟨.mw1216, 1216, 0b011011000, 9⟩,
  ⟨.mw1280, 1280, 0b011011001, 9⟩,
  ⟨.mw1344, 1344, 0b011011010, 9⟩,
  ⟨.mw1408, 1408, 0b011011011, 9⟩,
  ⟨.mw1472, 1472, 0b010011000, 9⟩,
  ⟨.mw1536, 1536, 0b010011001, 9⟩,
  ⟨.mw1600, 1600, 0b010011010, 9⟩,
  ⟨.mw1664, 1664, 0b011000, 6⟩,
  ⟨.mw1728, 1728, 0b010011011, 9⟩]

/-- R94: white make-up codes. -/
def whiteMakeup : List CodeRow := whiteMakeup0 ++ whiteMakeup1

/-- R95: black terminating codes. Part 0. -/
def blackTerminating0 : List CodeRow := [
  ⟨.b0, 0, 0b0000110111, 10⟩,
  ⟨.b1, 1, 0b010, 3⟩,
  ⟨.b2, 2, 0b11, 2⟩,
  ⟨.b3, 3, 0b10, 2⟩,
  ⟨.b4, 4, 0b011, 3⟩,
  ⟨.b5, 5, 0b0011, 4⟩,
  ⟨.b6, 6, 0b0010, 4⟩,
  ⟨.b7, 7, 0b00011, 5⟩,
  ⟨.b8, 8, 0b000101, 6⟩,
  ⟨.b9, 9, 0b000100, 6⟩,
  ⟨.b10, 10, 0b0000100, 7⟩,
  ⟨.b11, 11, 0b0000101, 7⟩,
  ⟨.b12, 12, 0b0000111, 7⟩,
  ⟨.b13, 13, 0b00000100, 8⟩,
  ⟨.b14, 14, 0b00000111, 8⟩,
  ⟨.b15, 15, 0b000011000, 9⟩]

/-- R95: black terminating codes. Part 1. -/
def blackTerminating1 : List CodeRow := [
  ⟨.b16, 16, 0b0000010111, 10⟩,
  ⟨.b17, 17, 0b0000011000, 10⟩,
  ⟨.b18, 18, 0b0000001000, 10⟩,
  ⟨.b19, 19, 0b00001100111, 11⟩,
  ⟨.b20, 20, 0b00001101000, 11⟩,
  ⟨.b21, 21, 0b00001101100, 11⟩,
  ⟨.b22, 22, 0b00000110111, 11⟩,
  ⟨.b23, 23, 0b00000101000, 11⟩,
  ⟨.b24, 24, 0b00000010111, 11⟩,
  ⟨.b25, 25, 0b00000011000, 11⟩,
  ⟨.b26, 26, 0b000011001010, 12⟩,
  ⟨.b27, 27, 0b000011001011, 12⟩,
  ⟨.b28, 28, 0b000011001100, 12⟩,
  ⟨.b29, 29, 0b000011001101, 12⟩,
  ⟨.b30, 30, 0b000001101000, 12⟩,
  ⟨.b31, 31, 0b000001101001, 12⟩]

/-- R95: black terminating codes. Part 2. -/
def blackTerminating2 : List CodeRow := [
  ⟨.b32, 32, 0b000001101010, 12⟩,
  ⟨.b33, 33, 0b000001101011, 12⟩,
  ⟨.b34, 34, 0b000011010010, 12⟩,
  ⟨.b35, 35, 0b000011010011, 12⟩,
  ⟨.b36, 36, 0b000011010100, 12⟩,
  ⟨.b37, 37, 0b000011010101, 12⟩,
  ⟨.b38, 38, 0b000011010110, 12⟩,
  ⟨.b39, 39, 0b000011010111, 12⟩,
  ⟨.b40, 40, 0b000001101100, 12⟩,
  ⟨.b41, 41, 0b000001101101, 12⟩,
  ⟨.b42, 42, 0b000011011010, 12⟩,
  ⟨.b43, 43, 0b000011011011, 12⟩,
  ⟨.b44, 44, 0b000001010100, 12⟩,
  ⟨.b45, 45, 0b000001010101, 12⟩,
  ⟨.b46, 46, 0b000001010110, 12⟩,
  ⟨.b47, 47, 0b000001010111, 12⟩]

/-- R95: black terminating codes. Part 3. -/
def blackTerminating3 : List CodeRow := [
  ⟨.b48, 48, 0b000001100100, 12⟩,
  ⟨.b49, 49, 0b000001100101, 12⟩,
  ⟨.b50, 50, 0b000001010010, 12⟩,
  ⟨.b51, 51, 0b000001010011, 12⟩,
  ⟨.b52, 52, 0b000000100100, 12⟩,
  ⟨.b53, 53, 0b000000110111, 12⟩,
  ⟨.b54, 54, 0b000000111000, 12⟩,
  ⟨.b55, 55, 0b000000100111, 12⟩,
  ⟨.b56, 56, 0b000000101000, 12⟩,
  ⟨.b57, 57, 0b000001011000, 12⟩,
  ⟨.b58, 58, 0b000001011001, 12⟩,
  ⟨.b59, 59, 0b000000101011, 12⟩,
  ⟨.b60, 60, 0b000000101100, 12⟩,
  ⟨.b61, 61, 0b000001011010, 12⟩,
  ⟨.b62, 62, 0b000001100110, 12⟩,
  ⟨.b63, 63, 0b000001100111, 12⟩]

/-- R95: black terminating codes. -/
def blackTerminating : List CodeRow := blackTerminating0 ++ blackTerminating1 ++ blackTerminating2 ++ blackTerminating3

/-- R96: black make-up codes. Part 0. -/
def blackMakeup0 : List CodeRow := [
  ⟨.mb64, 64, 0b0000001111, 10⟩,
  ⟨.mb128, 128, 0b000011001000, 12⟩,
  ⟨.mb192, 192, 0b000011001001, 12⟩,
  ⟨.mb256, 256, 0b000001011011, 12⟩,
  ⟨.mb320, 320, 0b000000110011, 12⟩,
  ⟨.mb384, 384, 0b000000110100, 12⟩,
  ⟨.mb448, 448, 0b000000110101, 12⟩,
  ⟨.mb512, 512, 0b0000001101100, 13⟩,
  ⟨.mb576, 576, 0b0000001101101, 13⟩,
  ⟨.mb640, 640, 0b0000001001010, 13⟩,
  ⟨.mb704, 704, 0b0000001001011, 13⟩,
  ⟨.mb768, 768, 0b0000001001100, 13⟩,
  ⟨.mb832, 832, 0b0000001001101, 13⟩,
  ⟨.mb896, 896, 0b0000001110010, 13⟩,
  ⟨.mb960, 960, 0b0000001110011, 13⟩,
  ⟨.mb1024, 1024, 0b0000001110100, 13⟩]

/-- R96: black make-up codes. Part 1. -/
def blackMakeup1 : List CodeRow := [
  ⟨.mb1088, 1088, 0b0000001110101, 13⟩,
  ⟨.mb1152, 1152, 0b0000001110110, 13⟩,
  ⟨.mb1216, 1216, 0b0000001110111, 13⟩,
  ⟨.mb1280, 1280, 0b0000001010010, 13⟩,
  ⟨.mb1344, 1344, 0b0000001010011, 13⟩,
  ⟨.mb1408, 1408, 0b0000001010100, 13⟩,
  ⟨.mb1472, 1472, 0b0000001010101, 13⟩,
  ⟨.mb1536, 1536, 0b0000001011010, 13⟩,
  ⟨.mb1600, 1600, 0b0000001011011, 13⟩,
  ⟨.mb1664, 1664, 0b0000001100100, 13⟩,
  ⟨.mb1728, 1728, 0b0000001100101, 13⟩]

/-- R96: black make-up codes. -/
def blackMakeup : List CodeRow := blackMakeup0 ++ blackMakeup1

/-- R97: extended make-up codes. -/
def extendedMakeup : List CodeRow := [
  ⟨.mx1792, 1792, 0b00000001000, 11⟩,
  ⟨.mx1856, 1856, 0b00000001100, 11⟩,
  ⟨.mx1920, 1920, 0b00000001101, 11⟩,
  ⟨.mx1984, 1984, 0b000000010010, 12⟩,
  ⟨.mx2048, 2048, 0b000000010011, 12⟩,
  ⟨.mx2112, 2112, 0b000000010100, 12⟩,
  ⟨.mx2176, 2176, 0b000000010101, 12⟩,
  ⟨.mx2240, 2240, 0b000000010110, 12⟩,
  ⟨.mx2304, 2304, 0b000000010111, 12⟩,
  ⟨.mx2368, 2368, 0b000000011100, 12⟩,
  ⟨.mx2432, 2432, 0b000000011101, 12⟩,
  ⟨.mx2496, 2496, 0b000000011110, 12⟩,
  ⟨.mx2560, 2560, 0b000000011111, 12⟩]

/-- R98: the end-of-line codeword; it carries no run length. -/
def eolRow : CodeRow := ⟨.eol, 0, 0b000000000001, 12⟩

/-- `RunSet(c)` of R161. -/
def runSet : Colour → List CodeRow
  | .white => whiteTerminating ++ whiteMakeup ++ extendedMakeup ++ [eolRow]
  | .black => blackTerminating ++ blackMakeup ++ extendedMakeup ++ [eolRow]

/-- R100: the nine mode codes and EXT2D, the patterns a mode lookup consumes. -/
def modeSet : List ModeRow := [
  ⟨.v0, .vertical 0, 0b1, 1⟩,
  ⟨.vr1, .vertical 1, 0b011, 3⟩,
  ⟨.vl1, .vertical (-1), 0b010, 3⟩,
  ⟨.h, .horizontal, 0b001, 3⟩,
  ⟨.p, .pass, 0b0001, 4⟩,
  ⟨.vr2, .vertical 2, 0b000011, 6⟩,
  ⟨.vl2, .vertical (-2), 0b000010, 6⟩,
  ⟨.vr3, .vertical 3, 0b0000011, 7⟩,
  ⟨.vl3, .vertical (-3), 0b0000010, 7⟩,
  ⟨.ext2d, .ext2d, 0b0000001, 7⟩]

/-- The codeword test of R161 and R167: the codeword lies in the `avail` real bits and begins the window `v` of
`width` bits. -/
def codewordFits (width v avail pattern len : Nat) : Bool :=
  decide (len ≤ avail) && decide (v >>> (width - len) = pattern)

/-- The codeword of `RunSet(colour)` that begins the 13-bit window `v` (R161, R162). -/
def lookupRun (colour : Colour) (v avail : Nat) : Option CodeRow :=
  (runSet colour).find? fun r => codewordFits 13 v avail r.pattern r.len

/-- The mode code or EXT2D that begins the 7-bit window `v` (R167, R169). -/
def lookupMode (v avail : Nat) : Option ModeRow :=
  modeSet.find? fun r => codewordFits 7 v avail r.pattern r.len

/-- The ZERO test of R161, R163: the next 12 bits are real and all zero. -/
def zeroWindow (v avail : Nat) : Bool :=
  decide (12 ≤ avail) && decide (v >>> 1 = 0)

/-- The width of the window a context looks at (R161, R167). -/
def Context.width : Context → Nat
  | .white => 13
  | .black => 13
  | .mode => 7

/-- The instruction a run context reads from its window (R161 to R165). -/
def decodeRunWindow (colour : Colour) (v avail : Nat) : Decoded :=
  if avail = 0 then .reject .endOfData
  else match lookupRun colour v avail with
    | some r => .ok r.instr
    | none => if zeroWindow v avail then .ok .fillBit else .reject .noCodeword

/-- The instruction the mode context reads from its window (R167 to R169). -/
def decodeModeWindow (v avail : Nat) : Decoded :=
  if avail = 0 then .reject .endOfData
  else match lookupMode v avail with
    | some r => .ok r.instr
    | none => if avail = 7 ∧ v = 0 then .ok .ext1d else .reject .noCodeword

/-- The instruction that a context reads from the window `v`, `avail` of whose bits are stream bits (R92, R106).
Total: every window has an answer. -/
def decodeWindow : Context → Nat → Nat → Decoded
  | .white, v, avail => decodeRunWindow .white v avail
  | .black, v, avail => decodeRunWindow .black v avail
  | .mode, v, avail => decodeModeWindow v avail

/-- The tag bit after an EOL in a G32D stream (R105): 1 announces a 1D line, 0 a 2D line. -/
def decodeTag : Bool → Instr
  | true => .t1
  | false => .t0

/-- Colour operand of a unit command (log 5): 0 is WHITE, 1 is BLACK (R10). -/
def decodeColour (w : Word) : Option Colour :=
  if w = 0 then some .white else if w = 1 then some .black else none

/-- One-bit operand of a unit command (log 5). -/
def decodeBit (w : Word) : Option Bool :=
  if w = 0 then some false else if w = 1 then some true else none

/-- Mode operand of a unit command (log 5): the second word is the vertical offset, two's complement. -/
def decodeModeName (x y : Word) : Option ModeName :=
  if x = 0 then some .pass
  else if x = 1 then some .horizontal
  else if x = 2 then some (.vertical y.toInt)
  else if x = 3 then some .ext1d
  else if x = 4 then some .ext2d
  else none

/-- An operation whose operands are all readable, or a rejection by name. -/
def withOperand {α : Type} (o : Option α) (f : α → Instr) : Decoded :=
  match o with
  | some a => .ok (f a)
  | none => .reject .reservedOperand

/-- The operation that an OPSEL code selects (R108), its operands in the words `x`, `y`, `z` (log 5). Total. -/
def decodeSelect (opsel : Byte) (x y z : Word) : Decoded :=
  match opsel.toNat with
  | 0x00 => .ok .reset
  | 0x01 => .ok .start
  | 0x10 => .ok (.hasBits x.toNat)
  | 0x11 => .ok (.peekBits x.toNat)
  | 0x12 => .ok (.getBits x.toNat)
  | 0x13 => .ok (.clearBits x.toNat)
  | 0x14 => .ok (.look x.toNat)
  | 0x15 => .ok .byteAlign
  | 0x16 => .ok .wordAlign
  | 0x17 => .ok .reverseBits
  | 0x18 => .ok .drain
  | 0x19 => .ok (.putBits x.toNat y.toNat)
  | 0x1A => .ok .putAlign
  | 0x1B => .ok .finish
  | 0x20 => withOperand (decodeColour x) fun k => .decodeRun k
  | 0x21 => .ok .decodeMode
  | 0x22 => withOperand (decodeColour x) fun k => .termCode k y.toNat
  | 0x23 => withOperand (decodeColour x) fun k => .makeupCode k y.toNat
  | 0x24 => withOperand (decodeModeName x y) fun k => .modeCode k
  | 0x30 => .ok .decodeStep
  | 0x31 => withOperand (decodeColour x) fun k => .fillPixels k y.toNat z.toNat
  | 0x32 => .ok (.fillRun x.toNat)
  | 0x33 => .ok .padRow
  | 0x34 => withOperand (decodeBit x) fun k => .closeRow k
  | 0x35 => .ok .onEOL
  | 0x36 => .ok .onError
  | 0x37 => withOperand (decodeBit x) fun k => .onEOD k
  | 0x38 => .ok (.record x.toNat)
  | 0x40 => .ok .findB
  | 0x41 => .ok .modeStep
  | 0x50 => withOperand (decodeColour x) fun k => .countPixels k y.toNat
  | 0x51 => .ok (.selectMode x.toNat y.toNat z.toNat)
  | 0x52 => .ok .encodeStepG4
  | 0x53 => withOperand (decodeColour x) fun k => .putRun k y.toNat
  | 0x54 => .ok .encodeRowG31D
  | _ => .reject .reservedSelect

/-- What an instruction is encoded as: a codeword of a context, a tag bit, or a unit command. -/
inductive Encoded where
  | code (context : Context) (pattern len : Nat)
  | tag (bit : Bool)
  | select (opsel : Byte) (x y z : Word)
deriving DecidableEq, Repr

/-- The colour operand word (log 5). -/
def encodeColour : Colour → Word
  | .white => 0
  | .black => 1

/-- The one-bit operand word (log 5). -/
def encodeBit : Bool → Word
  | false => 0
  | true => 1

/-- The first mode operand word (log 5). -/
def encodeModeName : ModeName → Word
  | .pass => 0
  | .horizontal => 1
  | .vertical _ => 2
  | .ext1d => 3
  | .ext2d => 4

/-- The second mode operand word (log 5): the vertical offset. -/
def encodeOffset : ModeName → Word
  | .pass => 0
  | .horizontal => 0
  | .vertical d => BitVec.ofInt 32 d
  | .ext1d => 0
  | .ext2d => 0

/-- The encoding of an instruction, from the tables R93 to R101, R105 and R108. A codeword of both run contexts (R97,
R98, R99) is given in the white one. -/
def encode : Instr → Encoded
  | .w0 => .code .white 0b00110101 8
  | .w1 => .code .white 0b000111 6
  | .w2 => .code .white 0b0111 4
  | .w3 => .code .white 0b1000 4
  | .w4 => .code .white 0b1011 4
  | .w5 => .code .white 0b1100 4
  | .w6 => .code .white 0b1110 4
  | .w7 => .code .white 0b1111 4
  | .w8 => .code .white 0b10011 5
  | .w9 => .code .white 0b10100 5
  | .w10 => .code .white 0b00111 5
  | .w11 => .code .white 0b01000 5
  | .w12 => .code .white 0b001000 6
  | .w13 => .code .white 0b000011 6
  | .w14 => .code .white 0b110100 6
  | .w15 => .code .white 0b110101 6
  | .w16 => .code .white 0b101010 6
  | .w17 => .code .white 0b101011 6
  | .w18 => .code .white 0b0100111 7
  | .w19 => .code .white 0b0001100 7
  | .w20 => .code .white 0b0001000 7
  | .w21 => .code .white 0b0010111 7
  | .w22 => .code .white 0b0000011 7
  | .w23 => .code .white 0b0000100 7
  | .w24 => .code .white 0b0101000 7
  | .w25 => .code .white 0b0101011 7
  | .w26 => .code .white 0b0010011 7
  | .w27 => .code .white 0b0100100 7
  | .w28 => .code .white 0b0011000 7
  | .w29 => .code .white 0b00000010 8
  | .w30 => .code .white 0b00000011 8
  | .w31 => .code .white 0b00011010 8
  | .w32 => .code .white 0b00011011 8
  | .w33 => .code .white 0b00010010 8
  | .w34 => .code .white 0b00010011 8
  | .w35 => .code .white 0b00010100 8
  | .w36 => .code .white 0b00010101 8
  | .w37 => .code .white 0b00010110 8
  | .w38 => .code .white 0b00010111 8
  | .w39 => .code .white 0b00101000 8
  | .w40 => .code .white 0b00101001 8
  | .w41 => .code .white 0b00101010 8
  | .w42 => .code .white 0b00101011 8
  | .w43 => .code .white 0b00101100 8
  | .w44 => .code .white 0b00101101 8
  | .w45 => .code .white 0b00000100 8
  | .w46 => .code .white 0b00000101 8
  | .w47 => .code .white 0b00001010 8
  | .w48 => .code .white 0b00001011 8
  | .w49 => .code .white 0b01010010 8
  | .w50 => .code .white 0b01010011 8
  | .w51 => .code .white 0b01010100 8
  | .w52 => .code .white 0b01010101 8
  | .w53 => .code .white 0b00100100 8
  | .w54 => .code .white 0b00100101 8
  | .w55 => .code .white 0b01011000 8
  | .w56 => .code .white 0b01011001 8
  | .w57 => .code .white 0b01011010 8
  | .w58 => .code .white 0b01011011 8
  | .w59 => .code .white 0b01001010 8
  | .w60 => .code .white 0b01001011 8
  | .w61 => .code .white 0b00110010 8
  | .w62 => .code .white 0b00110011 8
  | .w63 => .code .white 0b00110100 8
  | .mw64 => .code .white 0b11011 5
  | .mw128 => .code .white 0b10010 5
  | .mw192 => .code .white 0b010111 6
  | .mw256 => .code .white 0b0110111 7
  | .mw320 => .code .white 0b00110110 8
  | .mw384 => .code .white 0b00110111 8
  | .mw448 => .code .white 0b01100100 8
  | .mw512 => .code .white 0b01100101 8
  | .mw576 => .code .white 0b01101000 8
  | .mw640 => .code .white 0b01100111 8
  | .mw704 => .code .white 0b011001100 9
  | .mw768 => .code .white 0b011001101 9
  | .mw832 => .code .white 0b011010010 9
  | .mw896 => .code .white 0b011010011 9
  | .mw960 => .code .white 0b011010100 9
  | .mw1024 => .code .white 0b011010101 9
  | .mw1088 => .code .white 0b011010110 9
  | .mw1152 => .code .white 0b011010111 9
  | .mw1216 => .code .white 0b011011000 9
  | .mw1280 => .code .white 0b011011001 9
  | .mw1344 => .code .white 0b011011010 9
  | .mw1408 => .code .white 0b011011011 9
  | .mw1472 => .code .white 0b010011000 9
  | .mw1536 => .code .white 0b010011001 9
  | .mw1600 => .code .white 0b010011010 9
  | .mw1664 => .code .white 0b011000 6
  | .mw1728 => .code .white 0b010011011 9
  | .b0 => .code .black 0b0000110111 10
  | .b1 => .code .black 0b010 3
  | .b2 => .code .black 0b11 2
  | .b3 => .code .black 0b10 2
  | .b4 => .code .black 0b011 3
  | .b5 => .code .black 0b0011 4
  | .b6 => .code .black 0b0010 4
  | .b7 => .code .black 0b00011 5
  | .b8 => .code .black 0b000101 6
  | .b9 => .code .black 0b000100 6
  | .b10 => .code .black 0b0000100 7
  | .b11 => .code .black 0b0000101 7
  | .b12 => .code .black 0b0000111 7
  | .b13 => .code .black 0b00000100 8
  | .b14 => .code .black 0b00000111 8
  | .b15 => .code .black 0b000011000 9
  | .b16 => .code .black 0b0000010111 10
  | .b17 => .code .black 0b0000011000 10
  | .b18 => .code .black 0b0000001000 10
  | .b19 => .code .black 0b00001100111 11
  | .b20 => .code .black 0b00001101000 11
  | .b21 => .code .black 0b00001101100 11
  | .b22 => .code .black 0b00000110111 11
  | .b23 => .code .black 0b00000101000 11
  | .b24 => .code .black 0b00000010111 11
  | .b25 => .code .black 0b00000011000 11
  | .b26 => .code .black 0b000011001010 12
  | .b27 => .code .black 0b000011001011 12
  | .b28 => .code .black 0b000011001100 12
  | .b29 => .code .black 0b000011001101 12
  | .b30 => .code .black 0b000001101000 12
  | .b31 => .code .black 0b000001101001 12
  | .b32 => .code .black 0b000001101010 12
  | .b33 => .code .black 0b000001101011 12
  | .b34 => .code .black 0b000011010010 12
  | .b35 => .code .black 0b000011010011 12
  | .b36 => .code .black 0b000011010100 12
  | .b37 => .code .black 0b000011010101 12
  | .b38 => .code .black 0b000011010110 12
  | .b39 => .code .black 0b000011010111 12
  | .b40 => .code .black 0b000001101100 12
  | .b41 => .code .black 0b000001101101 12
  | .b42 => .code .black 0b000011011010 12
  | .b43 => .code .black 0b000011011011 12
  | .b44 => .code .black 0b000001010100 12
  | .b45 => .code .black 0b000001010101 12
  | .b46 => .code .black 0b000001010110 12
  | .b47 => .code .black 0b000001010111 12
  | .b48 => .code .black 0b000001100100 12
  | .b49 => .code .black 0b000001100101 12
  | .b50 => .code .black 0b000001010010 12
  | .b51 => .code .black 0b000001010011 12
  | .b52 => .code .black 0b000000100100 12
  | .b53 => .code .black 0b000000110111 12
  | .b54 => .code .black 0b000000111000 12
  | .b55 => .code .black 0b000000100111 12
  | .b56 => .code .black 0b000000101000 12
  | .b57 => .code .black 0b000001011000 12
  | .b58 => .code .black 0b000001011001 12
  | .b59 => .code .black 0b000000101011 12
  | .b60 => .code .black 0b000000101100 12
  | .b61 => .code .black 0b000001011010 12
  | .b62 => .code .black 0b000001100110 12
  | .b63 => .code .black 0b000001100111 12
  | .mb64 => .code .black 0b0000001111 10
  | .mb128 => .code .black 0b000011001000 12
  | .mb192 => .code .black 0b000011001001 12
  | .mb256 => .code .black 0b000001011011 12
  | .mb320 => .code .black 0b000000110011 12
  | .mb384 => .code .black 0b000000110100 12
  | .mb448 => .code .black 0b000000110101 12
  | .mb512 => .code .black 0b0000001101100 13
  | .mb576 => .code .black 0b0000001101101 13
  | .mb640 => .code .black 0b0000001001010 13
  | .mb704 => .code .black 0b0000001001011 13
  | .mb768 => .code .black 0b0000001001100 13
  | .mb832 => .code .black 0b0000001001101 13
  | .mb896 => .code .black 0b0000001110010 13
  | .mb960 => .code .black 0b0000001110011 13
  | .mb1024 => .code .black 0b0000001110100 13
  | .mb1088 => .code .black 0b0000001110101 13
  | .mb1152 => .code .black 0b0000001110110 13
  | .mb1216 => .code .black 0b0000001110111 13
  | .mb1280 => .code .black 0b0000001010010 13
  | .mb1344 => .code .black 0b0000001010011 13
  | .mb1408 => .code .black 0b0000001010100 13
  | .mb1472 => .code .black 0b0000001010101 13
  | .mb1536 => .code .black 0b0000001011010 13
  | .mb1600 => .code .black 0b0000001011011 13
  | .mb1664 => .code .black 0b0000001100100 13
  | .mb1728 => .code .black 0b0000001100101 13
  | .mx1792 => .code .white 0b00000001000 11
  | .mx1856 => .code .white 0b00000001100 11
  | .mx1920 => .code .white 0b00000001101 11
  | .mx1984 => .code .white 0b000000010010 12
  | .mx2048 => .code .white 0b000000010011 12
  | .mx2112 => .code .white 0b000000010100 12
  | .mx2176 => .code .white 0b000000010101 12
  | .mx2240 => .code .white 0b000000010110 12
  | .mx2304 => .code .white 0b000000010111 12
  | .mx2368 => .code .white 0b000000011100 12
  | .mx2432 => .code .white 0b000000011101 12
  | .mx2496 => .code .white 0b000000011110 12
  | .mx2560 => .code .white 0b000000011111 12
  | .eol => .code .white 0b000000000001 12
  | .fillBit => .code .white 0b000000000000 12
  | .v0 => .code .mode 0b1 1
  | .vr1 => .code .mode 0b011 3
  | .vl1 => .code .mode 0b010 3
  | .h => .code .mode 0b001 3
  | .p => .code .mode 0b0001 4
  | .vr2 => .code .mode 0b000011 6
  | .vl2 => .code .mode 0b000010 6
  | .vr3 => .code .mode 0b0000011 7
  | .vl3 => .code .mode 0b0000010 7
  | .ext2d => .code .mode 0b0000001 7
  | .ext1d => .code .mode 0b0000000 7
  | .t1 => .tag true
  | .t0 => .tag false
  | .reset => .select 0x00 0 0 0
  | .start => .select 0x01 0 0 0
  | .hasBits n => .select 0x10 (BitVec.ofNat 32 n) 0 0
  | .peekBits n => .select 0x11 (BitVec.ofNat 32 n) 0 0
  | .getBits n => .select 0x12 (BitVec.ofNat 32 n) 0 0
  | .clearBits n => .select 0x13 (BitVec.ofNat 32 n) 0 0
  | .look n => .select 0x14 (BitVec.ofNat 32 n) 0 0
  | .byteAlign => .select 0x15 0 0 0
  | .wordAlign => .select 0x16 0 0 0
  | .reverseBits => .select 0x17 0 0 0
  | .drain => .select 0x18 0 0 0
  | .putBits v n => .select 0x19 (BitVec.ofNat 32 v) (BitVec.ofNat 32 n) 0
  | .putAlign => .select 0x1A 0 0 0
  | .finish => .select 0x1B 0 0 0
  | .decodeRun colour => .select 0x20 (encodeColour colour) 0 0
  | .decodeMode => .select 0x21 0 0 0
  | .termCode colour n => .select 0x22 (encodeColour colour) (BitVec.ofNat 32 n) 0
  | .makeupCode colour m => .select 0x23 (encodeColour colour) (BitVec.ofNat 32 m) 0
  | .modeCode m => .select 0x24 (encodeModeName m) (encodeOffset m) 0
  | .decodeStep => .select 0x30 0 0 0
  | .fillPixels colour x0 x1 => .select 0x31 (encodeColour colour) (BitVec.ofNat 32 x0) (BitVec.ofNat 32 x1)
  | .fillRun n => .select 0x32 (BitVec.ofNat 32 n) 0 0
  | .padRow => .select 0x33 0 0 0
  | .closeRow align => .select 0x34 (encodeBit align) 0 0
  | .onEOL => .select 0x35 0 0 0
  | .onError => .select 0x36 0 0 0
  | .onEOD fromMode => .select 0x37 (encodeBit fromMode) 0 0
  | .record pos => .select 0x38 (BitVec.ofNat 32 pos) 0 0
  | .findB => .select 0x40 0 0 0
  | .modeStep => .select 0x41 0 0 0
  | .countPixels colour max => .select 0x50 (encodeColour colour) (BitVec.ofNat 32 max) 0
  | .selectMode posA1 posB1 posB2 => .select 0x51 (BitVec.ofNat 32 posA1) (BitVec.ofNat 32 posB1) (BitVec.ofNat 32 posB2)
  | .encodeStepG4 => .select 0x52 0 0 0
  | .putRun colour n => .select 0x53 (encodeColour colour) (BitVec.ofNat 32 n) 0
  | .encodeRowG31D => .select 0x54 0 0 0

/-- The decoder on an encoding: a codeword stands left-justified in a full window of its context. -/
def decodeEncoded : Encoded → Decoded
  | .code ctx pattern len => decodeWindow ctx (pattern <<< (ctx.width - len)) ctx.width
  | .tag b => .ok (decodeTag b)
  | .select opsel x y z => decodeSelect opsel x y z

/-- The 13-bit window `v` is a codeword of `RunSet(colour)`, or the fill window, followed by zeros only. -/
def exactRunWord (colour : Colour) (v : Nat) : Bool :=
  match lookupRun colour v 13 with
  | some r => decide (v = r.pattern <<< (13 - r.len))
  | none => zeroWindow v 13

/-- The 13-bit window `v` is a mode code followed by zeros only. -/
def exactModeWord (v : Nat) : Bool :=
  match lookupMode (v >>> 6) 7 with
  | some r => decide (v = r.pattern <<< (13 - r.len))
  | none => false

/-- The context a bare 13-bit window is read in (log 16): a window carries no context (R92), so the first of mode,
white, black in which it is one codeword and zeros. -/
def tableContext (v : Nat) : Context :=
  if exactModeWord v then .mode
  else if exactRunWord .white v then .white
  else if exactRunWord .black v then .black
  else .white

/-- A bare 13-bit window in the context `tableContext` picks. -/
def decodeBareWindow (v : Nat) : Decoded :=
  match tableContext v with
  | .mode => decodeWindow .mode (v >>> 6) 7
  | ctx => decodeWindow ctx v 13

/-- What a bare word of the opcode table decodes to: a word of at most 8 bits is a unit command's OPSEL code with
operand words of zeros, a longer one a 13-bit window, bit 12 first in the stream (log 16). -/
def decodeBareWord (nbits w : Nat) : Decoded :=
  if nbits ≤ 8 then decodeSelect (BitVec.ofNat 8 w) (BitVec.ofNat 32 (w >>> 8)) 0 0
  else decodeBareWindow (w % 2 ^ 13)

/-- The host's question: the instruction that the decoder reads from the table word `w`. -/
def decodeTableWord (nbits w : Nat) : Option Instr :=
  match decodeBareWord nbits w with
  | .ok i => some i
  | .reject _ => none

end Sys2Proof
end

