-- ==== Sys2Proof/Machine/State.lean ====
section
/-! DEFINITION. The state of the block as plain data (`spec/10_state.md`), the reasons a step can stop, and the state
after reset. -/

namespace Sys2Proof.Machine

/-- `CFG.OP` (R40). -/
inductive JobOp where
  | decodeG3
  | decodeG4
  | encodeG4
  | encodeG31D
deriving DecidableEq, Repr

/-- The stream kind of a decode job (R41). -/
inductive Kind where
  | g3_1d
  | g3_2d
  | g4
deriving DecidableEq, Repr

/-- `line_mode` (R27): L1D = 0, L2D = 1. -/
inductive LineMode where
  | l1d
  | l2d
deriving DecidableEq, Repr

/-- `STATUS.STATE` (R42): 0 to 3. -/
inductive JobState where
  | idle
  | run
  | done
  | fault
deriving DecidableEq, Repr

/-- `STATUS.STOP` (R42): 0 to 5. -/
inductive StopCode where
  | none
  | height
  | eob
  | eod
  | lenient
  | encoded
deriving DecidableEq, Repr

/-- `STATUS.FAULT_CODE` (R301): 0 to 4. `format` is defined and raised by no rule (R307). -/
inductive FaultCode where
  | none
  | config
  | size
  | capacity
  | format
deriving DecidableEq, Repr

/-- The CFG registers (R40). Reserved bits are ignored on write and read as 0 (U7), so they are not stored. -/
structure Cfg where
  /-- `OP[1:0]`. -/
  op : BitVec 2
  /-- `WIDTH`. -/
  width : Word
  /-- `HEIGHT`; 0 = unknown. -/
  height : Word
  /-- `FLAGS[5:0]`: LSB2MSB, ROW_ALIGN, BLACK_IS_1, HAS_EOL, HAS_EOB, DEST_FIXED, from bit 0 up. -/
  flags : BitVec 6
  /-- `OPTIONS[0]`: G32D. -/
  options : BitVec 1
  /-- `SRC_LEN`. -/
  srcLen : Word
  /-- `DST_CAP`. -/
  dstCap : Word
deriving DecidableEq, Repr

/-- The STATUS registers (R42); the numbers are exact (R9, log 9). -/
structure Status where
  state : JobState
  stop : StopCode
  rows : Nat
  endedOnEod : Bool
  faultCode : FaultCode
  outLen : Nat
  srcUsed : Nat
deriving DecidableEq, Repr

/-- The reader cursor (R21). -/
structure Reader where
  /-- Bit buffer, valid bits left-justified. -/
  buf : BitVec 40
  /-- Count of valid bits in `buf`. -/
  cnt : Nat
  /-- Bytes pulled from SRC so far. -/
  consumed : Nat
  /-- Total source length in bytes. -/
  len : Nat
  /-- Fill-order flag (R62). -/
  rev : Bool
deriving DecidableEq, Repr

/-- The writer cursor (R26). -/
structure Writer where
  /-- Bits of the byte being assembled, left-justified. -/
  wacc : Byte
  /-- Count of valid bits in `wacc`. -/
  wn : Nat
  /-- Complete bytes written to DST so far. -/
  wlen : Nat
deriving DecidableEq, Repr

/-- The two byte memories (R37, R74): separate spaces. -/
inductive Bank where
  | src
  | dst
deriving DecidableEq, Repr

/-- A byte memory: the bytes written so far, with their addresses. -/
structure Memory where
  /-- Which of the two memories it is: what is not listed is another byte in each. -/
  bank : Bank
  /-- The written bytes, addresses strictly rising. -/
  cells : List Host.Cell
deriving DecidableEq, Repr

/-- Every listed address is `a` or above, and they rise strictly. -/
def risingFrom (a : Nat) : List Host.Cell → Bool
  | [] => true
  | (b, _) :: rest => decide (a ≤ b) && risingFrom (b + 1) rest

/-- The canonical form of a memory: addresses strictly rising. No listed byte is one that an unlisted address is known
to read as, since that is a free value (log 4). -/
def Memory.wf (m : Memory) : Bool := risingFrom 0 m.cells

/-- The job registers a host can write (R40). -/
inductive CfgReg where
  | op
  | width
  | height
  | flags
  | options
  | srcLen
  | dstCap
deriving DecidableEq, Repr

/-- The registers a host can read (R40, R42). -/
inductive HostReg where
  | cfg (r : CfgReg)
  | state
  | stop
  | rows
  | endedOnEod
  | faultCode
  | outLen
  | srcUsed
deriving DecidableEq, Repr

/-- What a host can do to the block between two steps (R40, R43, R77, R313). `select` drives a unit or issues RESET or
START by its OPSEL code, with three operand words (log 5); `idle` does nothing and lets the block make one step. -/
inductive HostCommand where
  | select (opsel : Byte) (x y z : Word)
  | writeCfg (reg : CfgReg) (v : Word)
  | readReg (reg : HostReg)
  | writeSrc (a : Nat) (v : Byte)
  | readSrc (a : Nat)
  | writeDst (a : Nat) (v : Byte)
  | readDst (a : Nat)
  | idle
deriving DecidableEq, Repr

/-- The value that a unit operation or a host read returned last (log 7), or the Stop or the fault that ended a unit
operation driven on its own (log 25): the model's own register. -/
inductive OpResult where
  | none
  | flag (b : Bool)
  | bits (v : Nat)
  | window (v avail : Nat)
  | run (r : RunResult)
  | mode (r : ModeResult)
  | code (pattern len : Nat)
  | positions (b1 b2 : Nat)
  | count (n : Nat)
  | selected (m : ModeName)
  | register (v : Nat)
  | byte (v : Byte)
  /-- The operation reached `Stop(reason)` with no job in RUN (log 25). -/
  | stopped (reason : StopCode)
  /-- The operation reached `raise` with no job in RUN (log 25). -/
  | raised (code : FaultCode)
deriving DecidableEq, Repr

/-- The whole machine (`spec/10_state.md`). The last three fields are the model's own (logs 1, 6, 7). -/
structure State where
  /-- Job registers (R40). -/
  cfg : Cfg
  /-- Result registers (R42). -/
  status : Status
  /-- Reader cursor (R21). -/
  reader : Reader
  /-- Writer cursor (R26). -/
  writer : Writer
  /-- Current position, also the pixels placed so far in the row (R27, R28). -/
  a0 : Nat
  /-- `a0` stands for the imaginary position before column 0 (R27). -/
  atStart : Bool
  /-- Current colour (R27). -/
  c : Colour
  /-- Sum of make-up values since the last terminating code (R27). -/
  acc : Nat
  /-- Run codes still owed by a HORIZONTAL mode code (R27). -/
  hphase : Nat
  /-- The previous lookup returned ZERO (R27). -/
  afterZero : Bool
  /-- How the current row is coded (R27). -/
  lineMode : LineMode
  /-- Rows closed so far (R27). -/
  rows : Nat
  /-- Row `rows` of DST has been initialised (R27). -/
  rowOpen : Bool
  /-- Rows DST can hold (R27). -/
  capRows : Nat
  /-- Row being encoded (R36). -/
  y : Nat
  /-- Next changing element (R36). -/
  a1 : Nat
  /-- The changing element after `a1` (R36). -/
  a2 : Nat
  /-- `FindB` on `ref` (R36). -/
  b1 : Nat
  /-- `FindB` on `ref` (R36). -/
  b2 : Nat
  /-- Changing elements of the current line; `cur_len` is its length (R31). -/
  cur : List Nat
  /-- Changing elements of the reference line; `ref_len` is its length (R31). -/
  ref : List Nat
  /-- Input memory (R60). -/
  src : Memory
  /-- Output memory (R63). -/
  dst : Memory
  /-- What the last unit operation or host read returned (log 7). -/
  result : OpResult
  /-- Host commands not yet taken, the next one first (log 6). -/
  commands : List HostCommand
  /-- RESETs taken so far: the counter that the free values of Config are applied to (log 1). -/
  resets : Nat
deriving DecidableEq, Repr

/-- A step that stops. -/
inductive Fault where
  /-- Raised by a host write or read of SRC at an address that no SRC_LEN reaches (R40, R60; log 20). Safe: no rule of
  the block makes such an access. -/
  | noSuchAddress
  /-- Raised by the row start of an ENCODE_G4 step whose raster ends inside the row: the loop of ScanRow (R256) would
  never end (log 14). Safe: START's SizeFault test (R288) keeps it out of every job in which the host drives no
  `EncodeStepG4` of its own (log 28). -/
  | rasterExhausted
deriving DecidableEq, Repr

/-- An instruction or a host command that the model gives no meaning. -/
inductive Refusal where
  /-- Raised by exec for an instruction without a meaning. Safe. -/
  | notModelled (mnemonic : String)
  /-- Raised by step for an OPSEL code that R108 does not list. Safe: the spec gives it no effect. -/
  | reservedSelect
  /-- Raised by step for an operand word outside the command layout of log 5. Safe: no instruction has it. -/
  | reservedOperand
  /-- Raised by a reader or writer operation with n > 32, or putBits with v ≥ 2^n (U1). Safe: "refuse". -/
  | bitCountOutOfContract
  /-- Raised by getBits, clearBits and a codeword or tag bit that needs more bits than are left (U2). Safe: "refuse". -/
  | bitsBeyondBuffer
  /-- Raised by termCode, makeupCode and modeCode outside their tables (U3). Safe: "refuse". -/
  | outsideCodeTable
  /-- Raised by Fill, Record, SelectMode with positions out of range (U4). Safe: "refuse". -/
  | operandOutOfRange
  /-- Raised by a unit operation while a job is in RUN (U5). Safe: "refuse". -/
  | unitOperationDuringRun
  /-- Raised by a step operation, a codeword or a tag bit outside a running job (U5). Safe: "refuse". -/
  | stepOperationOutsideRun
  /-- Raised by a step operation of a running job that is not where that step is entered (R180, R223, R258; log 23).
  Safe: the spec gives it no effect there. -/
  | stepNotEntered
  /-- Raised by a host access to SRC or DST while a job is in RUN (U6). Safe: the spec leaves it unspecified. -/
  | hostAccessDuringRun
deriving DecidableEq, Repr

/-- The machine right after reset (R44): STATUS all zero, STATE = IDLE. Every other register is unspecified by the
spec; the values here are a DESIGN CHOICE (log 2), zero as R332 allows. -/
def State.reset : State where
  cfg := { op := 0, width := 0, height := 0, flags := 0, options := 0, srcLen := 0, dstCap := 0 }
  status := { state := .idle, stop := .none, rows := 0, endedOnEod := false, faultCode := .none, outLen := 0,
              srcUsed := 0 }
  reader := { buf := 0, cnt := 0, consumed := 0, len := 0, rev := false }
  writer := { wacc := 0, wn := 0, wlen := 0 }
  a0 := 0
  atStart := false
  c := .white
  acc := 0
  hphase := 0
  afterZero := false
  lineMode := .l1d
  rows := 0
  rowOpen := false
  capRows := 0
  y := 0
  a1 := 0
  a2 := 0
  b1 := 0
  b2 := 0
  cur := []
  ref := []
  src := { bank := .src, cells := [] }
  dst := { bank := .dst, cells := [] }
  result := .none
  commands := []
  resets := 0

end Sys2Proof.Machine
end

