-- ==== Sys2Proof/Machine/Operands.lean ====
section
/-! DEFINITION. Operand forms: the fields of CFG that the rules read, the derived sizes and kinds, the addresses of
`spec/42_g3_decoder.md` R202, the pixel fields, the changing-element operands and the command operands. -/

namespace Sys2Proof.Machine

/-- `CFG.OP` (R40). -/
def Cfg.job (g : Cfg) : JobOp :=
  match g.op.toNat with
  | 0 => .decodeG3
  | 1 => .decodeG4
  | 2 => .encodeG4
  | _ => .encodeG31D

/-- `W` (R6). -/
def State.imageWidth (s : State) : Nat := s.cfg.width.toNat

/-- `H` (R6); 0 = unknown. -/
def State.imageHeight (s : State) : Nat := s.cfg.height.toNat

/-- `STRIDE = ceil(W/8)` (R6). -/
def State.stride (s : State) : Nat := (s.imageWidth + 7) / 8

/-- `CFG.SRC_LEN` (R40). -/
def State.srcLen (s : State) : Nat := s.cfg.srcLen.toNat

/-- `CFG.DST_CAP` (R40). -/
def State.dstCap (s : State) : Nat := s.cfg.dstCap.toNat

/-- `FLAGS.LSB2MSB` (R40). -/
def State.lsb2msb (s : State) : Bool := s.cfg.flags.getLsbD 0

/-- `FLAGS.ROW_ALIGN` (R40). -/
def State.rowAlign (s : State) : Bool := s.cfg.flags.getLsbD 1

/-- `FLAGS.BLACK_IS_1` (R40). -/
def State.blackIs1 (s : State) : Bool := s.cfg.flags.getLsbD 2

/-- `FLAGS.HAS_EOL` (R40). -/
def State.hasEol (s : State) : Bool := s.cfg.flags.getLsbD 3

/-- `FLAGS.HAS_EOB` (R40). -/
def State.hasEob (s : State) : Bool := s.cfg.flags.getLsbD 4

/-- `FLAGS.DEST_FIXED` (R40). -/
def State.destFixed (s : State) : Bool := s.cfg.flags.getLsbD 5

/-- `OPTIONS.G32D` (R40). -/
def State.g32d (s : State) : Bool := s.cfg.options.getLsbD 0

/-- `CFG.OP` is a decode job (R40). -/
def JobOp.isDecode : JobOp → Bool
  | .decodeG3 => true
  | .decodeG4 => true
  | .encodeG4 => false
  | .encodeG31D => false

/-- `kind` (R41); an encode job has none (log 19). -/
def State.kind (s : State) : Option Kind :=
  match s.cfg.job with
  | .decodeG3 => if s.g32d then some .g3_2d else some .g3_1d
  | .decodeG4 => some .g4
  | .encodeG4 => none
  | .encodeG31D => none

/-- `STATUS.STATE = RUN`. -/
def State.running (s : State) : Bool := decide (s.status.state = .run)

/-- A decode job is in RUN: what `DecodeStep` and the codewords require (R181, U5). -/
def State.decoding (s : State) : Bool := s.running && s.cfg.job.isDecode

/-- The context of the codeword at the stream position (R92). -/
def State.context (s : State) : Context :=
  if s.lineMode = .l1d ∨ 0 < s.hphase then
    match s.c with
    | .white => .white
    | .black => .black
  else .mode

/-- `P`, the stream position in bits (R24); 0 where `cnt` exceeds `8*consumed`, against R22 (DESIGN CHOICE, log 32). -/
def Reader.position (r : Reader) : Nat := 8 * r.consumed - r.cnt

/-- The bits left in the stream (R142). -/
def Reader.bitsLeft (r : Reader) : Nat := 8 * (r.len - r.consumed) + r.cnt

/-- The reversal of the bits of a byte (R62). -/
def reverseByte (b : Byte) : Byte := b.reverse

/-- The byte that holds pixel `x` of a row (R64, R202). -/
def pixelByte (base x : Nat) : Nat := base + x / 8

/-- The bit of that byte that is pixel `x` (R64, R202). -/
def pixelBit (x : Nat) : Nat := 7 - x % 8

/-- The first byte of row `rows` of DST (R202). -/
def State.rowBase (s : State) : Nat := s.rows * s.stride

/-- Byte `b` with bit `k` set to `v`. -/
def setByteBit (b : Byte) (k : Nat) (v : Bool) : Byte :=
  if v then b ||| (1#8 <<< k) else b &&& ~~~(1#8 <<< k)

/-- The other colour (R10). -/
def oppositeColour : Colour → Colour
  | .white => .black
  | .black => .white

/-- The number of a colour (R10): the parity of the entries that change to the other colour (R222). -/
def colourNumber : Colour → Nat
  | .white => 0
  | .black => 1

/-- The search of `FindB` (R222) over the entries from index `k` on, `k` of the wanted parity: `(b1, b2)`. -/
def findChange (atStart : Bool) (a0 w : Nat) : List Nat → Nat × Nat
  | [] => (w, w)
  | [b] => if atStart || decide (a0 < b) then (b, w) else (w, w)
  | b :: b' :: rest => if atStart || decide (a0 < b) then (b, b') else findChange atStart a0 w rest

/-- `FindB` on a line of changing elements (R222). -/
def State.findOn (s : State) (line : List Nat) : Nat × Nat :=
  findChange s.atStart s.a0 s.imageWidth (line.drop (colourNumber s.c))

/-- `(b1, b2)`: `FindB` on the reference line (R222). -/
def State.findB (s : State) : Nat × Nat := s.findOn s.ref

/-- `(a1, a2)`: `FindB` on the line being encoded (R255). -/
def State.findA (s : State) : Nat × Nat := s.findOn s.cur

/-- `a1 = min(max(b1 + d, a0), W)` (R226). -/
def State.verticalTarget (s : State) (d : Int) : Nat :=
  min (max ((s.findB.1 : Int) + d) s.a0).toNat s.imageWidth

/-- `e = min(a0 + n, W)` (R188, R195). -/
def State.runEnd (s : State) (n : Nat) : Nat := min (s.a0 + n) s.imageWidth

end Sys2Proof.Machine
end

