-- ==== Sys2Proof/Machine/Flags.lean ====
section
/-! DEFINITION. The one-bit state of R30, the colour-to-bit mapping of R65, and what the host reads in the coded
registers. The block has no arithmetic condition codes (R30). -/

namespace Sys2Proof.Machine

/-- `bit(colour)` (R65): 1 iff (colour = BLACK) = (blackIs1 = 1). -/
def State.bit (s : State) (k : Colour) : Bool := decide (k = .black) == s.blackIs1

/-- The white byte (R65): 0xFF when `blackIs1 = 0`, 0x00 when `blackIs1 = 1`. -/
def State.whiteByte (s : State) : Byte := if s.blackIs1 then 0x00 else 0xFF

/-- `c <- opp(c) ; at_start <- 0` (R188, R226). -/
def State.flipColour (s : State) : State := { s with c := oppositeColour s.c, atStart := false }

/-- `acc <- 0 ; hphase <- 0 ; after_zero <- 0` (R190). -/
def State.dropRun (s : State) : State := { s with acc := 0, hphase := 0, afterZero := false }

/-- `after_zero <- 1` (R184). -/
def State.markZero (s : State) : State := { s with afterZero := true }

/-- The tag bit (R105, R190): 1 = the next line is 1D coded, 0 = 2D coded. -/
def lineModeOfTag (tag : Bool) : LineMode := if tag then .l1d else .l2d

/-- A one-bit register as the host reads it. -/
def bitValue (b : Bool) : Nat := if b then 1 else 0

/-- `STATUS.STATE` as the host reads it (R42). -/
def JobState.code : JobState → Nat
  | .idle => 0
  | .run => 1
  | .done => 2
  | .fault => 3

/-- `STATUS.STOP` as the host reads it (R42). -/
def StopCode.code : StopCode → Nat
  | .none => 0
  | .height => 1
  | .eob => 2
  | .eod => 3
  | .lenient => 4
  | .encoded => 5

/-- `STATUS.FAULT_CODE` as the host reads it (R301). -/
def FaultCode.code : FaultCode → Nat
  | .none => 0
  | .config => 1
  | .size => 2
  | .capacity => 3
  | .format => 4

end Sys2Proof.Machine
end

