-- ==== Sys2Proof/Machine/Ops.lean ====
section
/-! DEFINITION. The named operations over memory, cursors and registers that the meanings share, the fault entry of
R304 and the stops of R194. A fault of the spec is a next state, so an operation that can raise one answers a `Flow`. -/

namespace Sys2Proof.Machine

/-! ### Memory -/

/-- The byte that a list of cells holds at an address; `d` where it lists none. -/
def readCells (d : Byte) : List Host.Cell → Nat → Byte
  | [], _ => d
  | (b, v) :: rest, a => if a = b then v else readCells d rest a

/-- The cells with `v` at address `a`, addresses kept rising. -/
def writeCells : List Host.Cell → Nat → Byte → List Host.Cell
  | [], a, v => [(a, v)]
  | (b, w) :: rest, a, v =>
    if a < b then (a, v) :: (b, w) :: rest
    else if a = b then (a, v) :: rest
    else (b, w) :: writeCells rest a v

/-- What an address that is not listed reads as: a free value (DESIGN CHOICE, log 4), because the spec gives SRC and DST
no contents before the host's or the block's first write and lets no model assume any (R60, R63). -/
def unlistedByte (bank : Bank) (a : Nat) : Byte :=
  match bank with
  | .src => Config.unwrittenByte 0 a
  | .dst => Config.unwrittenByte 1 a

/-- One byte of a memory. -/
def Memory.read (m : Memory) (a : Nat) : Byte := readCells (unlistedByte m.bank a) m.cells a

/-- `m[a] <- v`. -/
def Memory.write (m : Memory) (a : Nat) (v : Byte) : Memory := { m with cells := writeCells m.cells a v }

/-- `n` bytes from address `a` upwards set to `v`. -/
def Memory.fillBytes (v : Byte) : Nat → Nat → Memory → Memory
  | 0, _, m => m
  | n + 1, a, m => Memory.fillBytes v n (a + 1) (m.write a v)

/-- Pixel `x` of the row at `base` (R64). -/
def Memory.pixel (m : Memory) (base x : Nat) : Bool := (m.read (pixelByte base x)).getLsbD (pixelBit x)

/-- Pixel `x` of the row at `base` set to `v`: a read-modify-write of one byte (R73, R186). -/
def Memory.setPixel (m : Memory) (base x : Nat) (v : Bool) : Memory :=
  m.write (pixelByte base x) (setByteBit (m.read (pixelByte base x)) (pixelBit x) v)

/-- The loop of `Fill` (R186): `n` pixels from `x` on set to `v`. -/
def Memory.drawPixels (base : Nat) (v : Bool) : Nat → Nat → Memory → Memory
  | 0, _, m => m
  | n + 1, x, m => Memory.drawPixels base v n (x + 1) (m.setPixel base x v)

/-! ### Named updates -/

/-- Replace the reader cursor. -/
def State.setReader (s : State) (r : Reader) : State := { s with reader := r }

/-- Replace the writer cursor. -/
def State.setWriter (s : State) (w : Writer) : State := { s with writer := w }

/-- Replace the output memory. -/
def State.setDst (s : State) (m : Memory) : State := { s with dst := m }

/-- Replace the STATUS registers. -/
def State.setStatus (s : State) (t : Status) : State := { s with status := t }

/-- Leave the value that a unit operation returns (log 7). -/
def State.setResult (s : State) (r : OpResult) : State := { s with result := r }

/-- Replace the pending host commands (log 6). -/
def State.setCommands (s : State) (l : List HostCommand) : State := { s with commands := l }

/-! ### Steps that a fault can end -/

/-- Where a step stands: it goes on, or a `raise` has ended it (R304: "no later statement of the step is executed"). -/
inductive Flow where
  | go (s : State)
  | halt (s : State)
deriving DecidableEq, Repr

/-- Go on with `f`, unless the step has ended. -/
def Flow.bind : Flow → (State → Flow) → Flow
  | .go s, f => f s
  | .halt s, _ => .halt s

/-- The state the step leaves. -/
def Flow.state : Flow → State
  | .go s => s
  | .halt s => s

/-- A step that ended, with or without a fault of the spec: a next state. -/
def Flow.out (w : Flow) : Host.Outcome State Fault Refusal := .next w.state

/-! ### Fault entry and stops -/

/-- What `raise F` writes to STATUS (R304): the block's one trap entry. -/
def State.enterFault (s : State) (code : FaultCode) (rows used : Nat) : State :=
  s.setStatus { state := .fault, stop := .none, rows := rows, endedOnEod := false, faultCode := code, outLen := 0,
                srcUsed := used }

/-- `raise F` (R304) inside a step. With no job in RUN, where a unit operation is driven on its own, there is no job to
end: R309, R310 and R314 let nothing but START and RESET change STATE then, and R286 lets STATUS keep its values, so the
operation ends and leaves the fault in `result` (DEDUCED, log 25). -/
def State.raise (s : State) (code : FaultCode) (rows used : Nat) : State :=
  if s.running then s.enterFault code rows used else s.setResult (.raised code)

/-- CapacityFault of `OpenRow` (R185, R304), raised in decode jobs: `STATUS.ROWS <- rows` (log 12). -/
def State.raiseDecodeCapacity (s : State) : State := s.raise .capacity s.rows s.reader.consumed

/-- CapacityFault of `putBits` (R144, R304), raised in encode jobs: `STATUS.ROWS <- y` (log 12). -/
def State.raiseEncodeCapacity (s : State) : State := s.raise .capacity s.y s.reader.consumed

/-- A fault raised by START (R304, R314): `ROWS` and `SRC_USED` are 0. -/
def State.raiseAtStart (s : State) (code : FaultCode) : State := s.enterFault code 0 0

/-- `Stop(reason)` (R194). With no job in RUN there is no job to end, and it leaves its reason in `result` (R286, R309,
R314; DEDUCED, log 25). -/
def State.stop (s : State) (reason : StopCode) : State :=
  if s.running then
    s.setStatus { s.status with
      state := .done, stop := reason, rows := s.rows, endedOnEod := decide (reason = .eod),
      outLen := s.stride * s.rows, srcUsed := s.reader.consumed }
  else s.setResult (.stopped reason)

/-- The end of an encode body (R251, R266), after `finish()`. -/
def State.endEncode (s : State) : State :=
  s.setStatus { s.status with
    state := .done, stop := .encoded, rows := s.imageHeight, srcUsed := s.reader.consumed }

/-! ### Reader cursor (`spec/40_bitcursor.md` R131 to R141) -/

/-- `SRC[consumed]` after the fill-order stage (R60, R62). -/
def Reader.fetchByte (src : Memory) (r : Reader) : Byte :=
  if r.rev then reverseByte (src.read r.consumed) else src.read r.consumed

/-- `buf[BUFW−1−cnt : BUFW−8−cnt] <- b` (R131). -/
def insertByte (buf : BitVec 40) (cnt : Nat) (b : Byte) : BitVec 40 :=
  (buf &&& ~~~((0xFF#40) <<< (32 - cnt))) ||| ((b.zeroExtend 40) <<< (32 - cnt))

/-- One iteration of the refill (R131). -/
def Reader.pull (src : Memory) (r : Reader) : Reader :=
  { r with buf := insertByte r.buf r.cnt (r.fetchByte src), cnt := r.cnt + 8, consumed := r.consumed + 1 }

/-- The refill loop of `hasBits(n)` (R131), at most `fuel` iterations. -/
def Reader.refill (src : Memory) (n : Nat) : Nat → Reader → Reader
  | 0, r => r
  | fuel + 1, r =>
    if r.cnt < n ∧ r.consumed < r.len then Reader.refill src n fuel (r.pull src) else r

/-- The state `hasBits(n)` leaves, n ≤ 32: at most four bytes are ever needed (R132). It keeps `P` (R143). -/
def Reader.fillTo (src : Memory) (n : Nat) (r : Reader) : Reader := Reader.refill src n 5 r

/-- `buf[BUFW−1 : BUFW−n]` as a number, first stream bit most significant (R133, R136): bits P..P+n−1, zero-padded
(R143). -/
def Reader.window (n : Nat) (r : Reader) : Nat := r.buf.toNat >>> (40 - n)

/-- `avail = min(cnt, n)` (R136): after the refill min(n, 8*len − P) (R143). -/
def Reader.avail (n : Nat) (r : Reader) : Nat := min r.cnt n

/-- `clearBits(n)`, n ≤ cnt (R135): `P += n` (R143). -/
def Reader.clear (n : Nat) (r : Reader) : Reader := { r with buf := r.buf <<< n, cnt := r.cnt - n }

/-- `byteAlign()` (R139): `P` to the next byte boundary (R143). -/
def Reader.byteAlign (r : Reader) : Reader := r.clear (r.cnt % 8)

/-- `wordAlign()` (R140): `P` to the next 16-bit boundary or the end (R143). On a cursor that RESET left without R22, where
`consumed - cnt/8` would be negative, it is taken as 0 (DESIGN CHOICE, log 32). -/
def Reader.wordAlign (src : Memory) (r : Reader) : Reader :=
  let r := r.byteAlign
  if (r.consumed - r.cnt / 8) % 2 = 1 then
    let r := r.fillTo src 8
    if 8 ≤ r.cnt then r.clear 8 else r
  else r

/-- `reverseBits()` (R141). -/
def Reader.reverseBits (r : Reader) : Reader := { r with rev := !r.rev, buf := 0, cnt := 0, consumed := 0 }

/-- The loop of `drain()` (R138), at most `fuel` iterations. -/
def Reader.drainLoop (src : Memory) : Nat → Reader → Reader
  | 0, r => r
  | fuel + 1, r =>
    let r := r.fillTo src 1
    if 1 ≤ r.cnt then Reader.drainLoop src fuel (r.clear r.cnt) else r

/-- `drain()` (R138): `P` to the end (R143); one iteration empties the buffer, each later one takes a byte. -/
def Reader.drain (src : Memory) (r : Reader) : Reader := Reader.drainLoop src (r.len - r.consumed + 2) r

/-- `hasBits(n)` on the machine's reader: the refill. -/
def State.fillTo (s : State) (n : Nat) : State := s.setReader (s.reader.fillTo s.src n)

/-- `clearBits(n)` on the machine's reader. -/
def State.clear (s : State) (n : Nat) : State := s.setReader (s.reader.clear n)

/-- The one-bit skip of the ERROR policy (R191). A bit is pulled when none is buffered, and nothing is skipped when no
bit is left: both can only follow an EXT2D (DEDUCED, log 10). -/
def State.skipBit (s : State) : State :=
  let s := s.fillTo 1
  if 1 ≤ s.reader.cnt then s.clear 1 else s

/-! ### Writer cursor (R144 to R146) -/

/-- One iteration of the loop of `putBits` (R144). A CapacityFault leaves wn = 8 (log 24); from there on a bit goes to
`wacc[0]` and wn counts on, so that no byte completes before START or RESET (DESIGN CHOICE, log 31). -/
def State.putBit (s : State) (v : Bool) : Flow :=
  let w := { s.writer with wacc := setByteBit s.writer.wacc (7 - s.writer.wn) v, wn := s.writer.wn + 1 }
  if w.wn = 8 then
    if s.dstCap ≤ w.wlen then .halt (s.setWriter w).raiseEncodeCapacity
    else .go ((s.setDst (s.dst.write w.wlen w.wacc)).setWriter { wacc := 0, wn := 0, wlen := w.wlen + 1 })
  else .go (s.setWriter w)

/-- `putBits(v, n)` (R144): bits n−1 down to 0 of `v`. -/
def State.putBits (v : Nat) : Nat → State → Flow
  | 0, s => .go s
  | n + 1, s => (s.putBit (v.testBit n)).bind (State.putBits v n)

/-- `putAlign()` (R145). -/
def State.putAlign (s : State) : Flow :=
  if 0 < s.writer.wn then State.putBits 0 (8 - s.writer.wn) s else .go s

/-- `finish()` (R146). -/
def State.finish (s : State) : Flow :=
  s.putAlign.bind fun s => .go (s.setStatus { s.status with outLen := s.writer.wlen })

/-! ### The pixel store (`spec/42_g3_decoder.md` R185 to R188) -/

/-- The bytes of row `rows` set to white, the row marked open (R185). -/
def State.initRow (s : State) : State :=
  { s with dst := s.dst.fillBytes s.whiteByte s.stride s.rowBase, rowOpen := true }

/-- `OpenRow` (R185). -/
def State.openRow (s : State) : Flow :=
  if s.rowOpen then .go s
  else if s.capRows ≤ s.rows then
    if s.destFixed then .halt s.raiseDecodeCapacity
    else .go { s with capRows := max 1 (2 * s.capRows) }.initRow
  else .go s.initRow

/-- The pixels x0 .. x1−1 of the open row drawn in a colour (R186). -/
def State.draw (s : State) (k : Colour) (x0 x1 : Nat) : State :=
  s.setDst (s.dst.drawPixels s.rowBase (s.bit k) (x1 - x0) x0)

/-- `Fill(colour, x0, x1)` (R186). -/
def State.fill (s : State) (k : Colour) (x0 x1 : Nat) : Flow :=
  s.openRow.bind fun s => .go (s.draw k x0 x1)

/-- The list `cur` after a changing element at `p` (R187): equal to the last entry, the two cancel. -/
def recordChange (line : List Nat) (p : Nat) : List Nat :=
  if line.getLast? = some p then line.dropLast else line ++ [p]

/-- `Record(p)` (R187). Driven on its own with positions that do not rise it may make `cur` longer than W and LINE_CAP, where
the model sets no bound (DESIGN CHOICE, log 30). -/
def State.record (s : State) (p : Nat) : State :=
  if s.imageWidth ≤ p then s else { s with cur := recordChange s.cur p }

/-- `a0 <- e`. -/
def State.moveTo (s : State) (e : Nat) : State := { s with a0 := e }

/-- `FillRun(n)` (R188). -/
def State.fillRun (s : State) (n : Nat) : Flow :=
  let e := s.runEnd n
  (s.fill s.c s.a0 e).bind fun s => .go ((s.moveTo e).record e).flipColour

/-! ### Row events (R189 to R193) -/

/-- The registers of a row start, `ref` taken from `cur` (R189, R34). -/
def State.nextRow (s : State) : State :=
  { s with rows := s.rows + 1, ref := s.cur, cur := [], c := .white, a0 := 0, atStart := true, acc := 0, hphase := 0,
           afterZero := false, rowOpen := false,
           lineMode := if s.kind = some .g3_2d then .l2d else s.lineMode }

/-- `CloseRow(align)` (R189). -/
def State.closeRow (s : State) (align : Bool) : State :=
  let s := s.nextRow
  let s := if align && s.rowAlign then s.setReader s.reader.byteAlign else s
  if s.imageHeight ≠ 0 ∧ s.rows = s.imageHeight then s.stop .height else s

/-- The last statement of R183, R224 and R226: a row that has reached W is closed. -/
def State.closeIfFull (s : State) : State := if s.imageWidth ≤ s.a0 then s.closeRow true else s

/-- `PadRow` (R192). -/
def State.padRow (s : State) : Flow :=
  let s := if s.c = .black then { s.record s.a0 with c := .white } else s
  (s.fill .white s.a0 s.imageWidth).bind fun s => .go (s.moveTo s.imageWidth)

/-- The condition of the G32D leniency (R193, R231). -/
def State.lenientStop (s : State) (fromMode : Bool) : Bool :=
  decide (s.kind = some .g3_2d) && fromMode && s.atStart && decide (s.imageHeight ≠ 0)
    && decide (s.rows + 1 = s.imageHeight)

/-- `OnEOD(from_mode)` (R193). Its `CloseRow(align = 0)` is `nextRow`: every field that a `Stop(HEIGHT)` of it writes is
overwritten by the `Stop(EOD)` that follows (R193, R194). -/
def State.onEOD (s : State) (fromMode : Bool) : Flow :=
  if s.lenientStop fromMode then .go (s.stop .lenient)
  else (if 0 < s.a0 then s.padRow.bind fun s => .go s.nextRow else .go s).bind fun s => .go (s.stop .eod)

/-- The tag bit taken: `getBits(1)` done and `line_mode` set (R190, R105). -/
def State.takeTag (s : State) (tag : Bool) : State := { s.clear 1 with lineMode := lineModeOfTag tag }

/-- The end-of-block test of R190: with HAS_EOB, an EOL that follows at once is consumed and ends the job. -/
def State.endOfBlock (s : State) : State :=
  if s.hasEob then
    let s := s.fillTo 12
    if s.reader.window 12 = 1 ∧ s.reader.avail 12 = 12 then (s.clear 12).stop .eob else s
  else s

/-- The part of `OnEOL` after the row is settled (R190): the tag bit in G32D, then the end-of-block test. -/
def State.afterEOL (s : State) : Flow :=
  if s.kind = some .g3_2d then
    let s := s.fillTo 1
    if s.reader.cnt < 1 then s.onEOD false
    else .go (s.takeTag (decide (s.reader.window 1 = 1))).endOfBlock
  else .go s.endOfBlock

/-- The row part of `OnEOL` (R190): a begun row is padded and closed, otherwise only the colour and `cur` are reset. -/
def State.settleRow (s : State) : Flow :=
  if 0 < s.a0 then s.padRow.bind fun s => .go (s.closeRow false)
  else .go { s with c := .white, cur := [], atStart := true }

/-- `OnEOL` (R190). -/
def State.onEOL (s : State) : Flow :=
  s.dropRun.settleRow.bind fun s => if s.running then s.afterEOL else .go s

/-- The resynchronising scan of R191, at most `fuel` iterations. -/
def State.scanForEOL : Nat → State → Flow
  | 0, s => .go s
  | fuel + 1, s =>
    let s := s.fillTo 12
    if s.reader.avail 12 < 12 then (s.setReader (s.reader.drain s.src)).onEOD false
    else if s.reader.window 12 = 1 then .go s
    else State.scanForEOL fuel (s.clear (if s.rowAlign then 8 else 1))

/-- The scan with an iteration for every bit left and one more. -/
def State.resync (s : State) : Flow := State.scanForEOL (s.reader.bitsLeft + 1) s

/-- `OnError` (R191). -/
def State.onError (s : State) : Flow :=
  if s.hasEol then
    (s.dropRun.padRow.bind fun s => .go (s.closeRow true)).bind fun s => if s.running then s.resync else .go s
  else .go { s with afterZero := false }.skipBit

end Sys2Proof.Machine
end

