-- ==== Sys2Proof/Machine/CodeTables.lean ====
section
/-! DEFINITION. The code table unit (`spec/41_code_tables.md`): the decode lookups on the stream, the encode lookups,
the fetch of the instruction at the stream position, and what a codeword's meaning does around its own rule. -/

namespace Sys2Proof.Machine

/-! ### Decode lookups -/

/-- `decodeRun(c)` (R161 to R165): the result, and the state after it. -/
def State.decodeRun (s : State) (k : Colour) : RunResult × State :=
  let s := s.fillTo 13
  if s.reader.avail 13 = 0 then (.eod, s)
  else match lookupRun k (s.reader.window 13) (s.reader.avail 13) with
    | some r => (if r.instr = .eol then .eol else .run r.value, s.clear r.len)
    | none => (if zeroWindow (s.reader.window 13) (s.reader.avail 13) then .zero else .error, s)

/-- `decodeMode()` (R167 to R169). -/
def State.decodeMode (s : State) : ModeResult × State :=
  let s := s.fillTo 7
  if s.reader.avail 7 = 0 then (.eod, s)
  else match lookupMode (s.reader.window 7) (s.reader.avail 7) with
    | some r => (r.result, s.clear r.len)
    | none => (if s.reader.avail 7 = 7 ∧ s.reader.window 7 = 0 then .ext1d else .error, s)

/-! ### Fetching the instruction at the stream position -/

/-- The reader filled for the lookup of the current context (R161, R167). -/
def State.fetchFill (s : State) : State := s.fillTo s.context.width

/-- The instruction at the stream position, read in the context of R92; nothing is consumed. -/
def State.fetch (s : State) : Decoded :=
  decodeWindow s.context (s.fetchFill.reader.window s.context.width) (s.fetchFill.reader.avail s.context.width)

/-- A lookup that finds no codeword (R102, R162, R169): the ERROR policy (R191). -/
def State.streamError (s : State) : Flow := s.fetchFill.onError

/-- A lookup at the end of the data (R165): `OnEOD` (R193). -/
def State.streamEnd (s : State) : Flow := s.fetchFill.onEOD (decide (s.context = .mode))

/-- A codeword of a run context, `len` bits long: the lookup's refill and consumption (R161), then its rule. -/
def runCodeword (len : Nat) (rule : State → Flow) (s : State) : Host.Outcome State Fault Refusal :=
  if s.decoding then
    if (s.fillTo 13).reader.cnt < len then .refused .bitsBeyondBuffer
    else (rule ((s.fillTo 13).clear len)).out
  else .refused .stepOperationOutsideRun

/-- A codeword of the mode context, `len` bits consumed (R167), then its rule. -/
def modeCodeword (len : Nat) (rule : State → Flow) (s : State) : Host.Outcome State Fault Refusal :=
  if s.decoding then
    if (s.fillTo 7).reader.cnt < len then .refused .bitsBeyondBuffer
    else (rule ((s.fillTo 7).clear len)).out
  else .refused .stepOperationOutsideRun

/-- A unit operation driven on its own (R43): refused while a job is in RUN (U5). -/
def unitOperation (f : State → Host.Outcome State Fault Refusal) (s : State) : Host.Outcome State Fault Refusal :=
  if s.running then .refused .unitOperationDuringRun else f s

/-- A step operation (U5, log 23): refused outside RUN, and where its rule says the step is not entered. -/
def stepOperation (entered : Bool) (f : State → Flow) (s : State) : Host.Outcome State Fault Refusal :=
  if s.running then (if entered then (f s).out else .refused .stepNotEntered) else .refused .stepOperationOutsideRun

/-! ### Encode lookups -/

/-- The terminating codes of a colour (R93, R95). -/
def terminatingTable : Colour → List CodeRow
  | .white => whiteTerminating
  | .black => blackTerminating

/-- The make-up codes of a colour, the shared extended ones after its own (R94, R96, R97). -/
def makeupTable : Colour → List CodeRow
  | .white => whiteMakeup ++ extendedMakeup
  | .black => blackMakeup ++ extendedMakeup

/-- `termCode(c, n)` (R172): (pattern, length); none outside 0..63 (U3). -/
def termCode (k : Colour) (n : Nat) : Option (Nat × Nat) :=
  ((terminatingTable k).find? fun r => decide (r.value = n)).map fun r => (r.pattern, r.len)

/-- `makeupCode(c, m)` (R173): (pattern, length); none outside the multiples of 64 in 64..2560 (U3). -/
def makeupCode (k : Colour) (m : Nat) : Option (Nat × Nat) :=
  ((makeupTable k).find? fun r => decide (r.value = m)).map fun r => (r.pattern, r.len)

/-- The mode result a mode name stands for (R174); the two extensions have no code (U3). -/
def encodableMode : ModeName → Option ModeResult
  | .pass => some .pass
  | .horizontal => some .horizontal
  | .vertical d => some (.vertical d)
  | .ext1d => none
  | .ext2d => none

/-- `modeCode(m)` (R174): (pattern, length); none outside the nine modes (U3). -/
def modeCode (m : ModeName) : Option (Nat × Nat) :=
  match encodableMode m with
  | some e => (modeSet.find? fun r => decide (r.result = e)).map fun r => (r.pattern, r.len)
  | none => none

/-- `eolCode` (R175). -/
def eolCode : Option (Nat × Nat) := some (eolRow.pattern, eolRow.len)

/-- `putCode(p, L)` (`spec/44_encoder.md`): the codeword put to the writer. The callers stay inside the tables (U3), so
the absent code is never put. -/
def State.putCode (s : State) (code : Option (Nat × Nat)) : Flow :=
  match code with
  | some (pattern, len) => State.putBits pattern len s
  | none => .go s

/-- A unit's encode lookup as a result (log 7), refused outside the table (U3). -/
def codeResult (code : Option (Nat × Nat)) (s : State) : Host.Outcome State Fault Refusal :=
  match code with
  | some (pattern, len) => .next (s.setResult (.code pattern len))
  | none => .refused .outsideCodeTable

end Sys2Proof.Machine
end

