-- ==== Sys2Proof/Machine/BitCursor.lean ====
section
/-! DEFINITION. The operations of the unit fax_codec_bitcursor: `spec/40_bitcursor.md`. -/

namespace Sys2Proof.Machine

/-- `hasBits(n)` (R131), n ≤ 32 (U1). -/
def execHasBits (n : Nat) (s : State) : Host.Outcome State Fault Refusal :=
  unitOperation (fun s => if 32 < n then .refused .bitCountOutOfContract
    else .next ((s.fillTo n).setResult (.flag (decide (n ≤ (s.fillTo n).reader.cnt))))) s

/-- `peekBits(n)` (R133), n ≤ 32 (U1). -/
def execPeekBits (n : Nat) (s : State) : Host.Outcome State Fault Refusal :=
  unitOperation (fun s => if 32 < n then .refused .bitCountOutOfContract
    else .next ((s.fillTo n).setResult (.bits ((s.fillTo n).reader.window n)))) s

/-- `getBits(n)` (R134), n ≤ 32 (U1), with n bits left (U2). -/
def execGetBits (n : Nat) (s : State) : Host.Outcome State Fault Refusal :=
  unitOperation (fun s => if 32 < n then .refused .bitCountOutOfContract
    else if (s.fillTo n).reader.cnt < n then .refused .bitsBeyondBuffer
    else .next (((s.fillTo n).clear n).setResult (.bits ((s.fillTo n).reader.window n)))) s

/-- `clearBits(n)` (R135), n ≤ cnt (U2). -/
def execClearBits (n : Nat) (s : State) : Host.Outcome State Fault Refusal :=
  unitOperation (fun s => if s.reader.cnt < n then .refused .bitsBeyondBuffer else .next (s.clear n)) s

/-- `look(n)` (R136), n ≤ 32 (U1; `look(0)` runs, log 15). -/
def execLook (n : Nat) (s : State) : Host.Outcome State Fault Refusal :=
  unitOperation (fun s => if 32 < n then .refused .bitCountOutOfContract
    else .next ((s.fillTo n).setResult (.window ((s.fillTo n).reader.window n) ((s.fillTo n).reader.avail n)))) s

/-- `byteAlign()` (R139). -/
def execByteAlign (s : State) : Host.Outcome State Fault Refusal :=
  unitOperation (fun s => .next (s.setReader s.reader.byteAlign)) s

/-- `wordAlign()` (R140). -/
def execWordAlign (s : State) : Host.Outcome State Fault Refusal :=
  unitOperation (fun s => .next (s.setReader (s.reader.wordAlign s.src))) s

/-- `reverseBits()` (R141). -/
def execReverseBits (s : State) : Host.Outcome State Fault Refusal :=
  unitOperation (fun s => .next (s.setReader s.reader.reverseBits)) s

/-- `drain()` (R138). -/
def execDrain (s : State) : Host.Outcome State Fault Refusal :=
  unitOperation (fun s => .next (s.setReader (s.reader.drain s.src))) s

/-- `putBits(v, n)` (R144), n ≤ 32 and v < 2^n (U1). -/
def execPutBits (v : Nat) (n : Nat) (s : State) : Host.Outcome State Fault Refusal :=
  unitOperation (fun s => if 32 < n ∨ 2 ^ n ≤ v then .refused .bitCountOutOfContract
    else (State.putBits v n s).out) s

/-- `putAlign()` (R145). -/
def execPutAlign (s : State) : Host.Outcome State Fault Refusal :=
  unitOperation (fun s => s.putAlign.out) s

/-- `finish()` (R146). -/
def execFinish (s : State) : Host.Outcome State Fault Refusal :=
  unitOperation (fun s => s.finish.out) s


end Sys2Proof.Machine
end

