-- ==== Sys2Proof/Machine/Decoding.lean ====
section
/-! DEFINITION. The rules of the run codes (`spec/42_g3_decoder.md` R181 to R184) and of the mode codes
(`spec/43_g4_predictor.md` R223 to R229), and the decode step by lookup result. -/

namespace Sys2Proof.Machine

/-! ### Run codes -/

/-- `MakeUp(v)` (R182). -/
def State.makeUp (v : Nat) (s : State) : State := { s with acc := s.acc + v }

/-- The end of `Terminate` (R183): a run owed by a horizontal mode is paid, and a full row is closed when none is owed. -/
def State.payRun (s : State) : State :=
  let s := { s with hphase := s.hphase - 1 }
  if s.hphase = 0 then s.closeIfFull else s

/-- `Terminate(v)` (R183). -/
def State.terminate (v : Nat) (s : State) : Flow :=
  ({ s with acc := 0 }.fillRun (s.acc + v)).bind fun s => .go s.payRun

/-- A terminating code: after a ZERO it is an error (R181, R184), otherwise R183. -/
def State.terminatingRule (v : Nat) (s : State) : Flow := if s.afterZero then s.onError else s.terminate v

/-- A make-up code: after a ZERO it is an error (R181, R184), otherwise R182. -/
def State.makeupRule (v : Nat) (s : State) : Flow := if s.afterZero then s.onError else .go (s.makeUp v)

/-- A fill bit (R184): one bit is consumed and `after_zero` set. -/
def State.zeroRule (s : State) : Flow := .go s.markZero

/-- `RunStep` (R181), by the result of the lookup. -/
def State.runStep (s : State) : Flow :=
  match s.decodeRun s.c with
  | (.run v, s') => if 64 ≤ v then s'.makeupRule v else s'.terminatingRule v
  | (.eol, s') => s'.onEOL
  | (.zero, s') => (s'.clear 1).zeroRule
  | (.error, s') => s'.onError
  | (.eod, s') => s'.onEOD false

/-! ### Mode codes -/

/-- `DoPass` (R224). -/
def State.doPass (s : State) : Flow :=
  let e := min s.findB.2 s.imageWidth
  (s.fill s.c s.a0 e).bind fun s => .go { s with a0 := e, atStart := false }.closeIfFull

/-- HORIZONTAL (R225). -/
def State.doHorizontal (s : State) : Flow := .go { s with hphase := 2 }

/-- `DoVertical(d)` (R226). -/
def State.doVertical (d : Int) (s : State) : Flow :=
  let a1 := s.verticalTarget d
  (s.fill s.c s.a0 a1).bind fun s => .go ((s.moveTo a1).record a1).flipColour.closeIfFull

/-- `DoExt1D` (R229): fill, an end of line, or an error, by a 12-bit window. -/
def State.doExt1D (s : State) : Flow :=
  let s := s.fillTo 12
  if s.reader.avail 12 = 12 ∧ s.reader.window 12 = 0 then .go (s.clear 1)
  else if s.reader.avail 12 = 12 ∧ s.reader.window 12 = 1 then (s.clear 12).onEOL
  else s.onError

/-- `ModeStep` (R223), by the result of the lookup. -/
def State.modeStep (s : State) : Flow :=
  match s.decodeMode with
  | (.pass, s') => s'.doPass
  | (.horizontal, s') => s'.doHorizontal
  | (.vertical d, s') => s'.doVertical d
  | (.ext2d, s') => s'.onError
  | (.ext1d, s') => s'.doExt1D
  | (.error, s') => s'.onError
  | (.eod, s') => s'.onEOD true

/-- `DecodeStep` (R181). -/
def State.decodeStep (s : State) : Flow :=
  if s.lineMode = .l1d ∨ 0 < s.hphase then s.runStep else s.modeStep

end Sys2Proof.Machine
end

