-- ==== Sys2Proof/Machine/BlackCodes.lean ====
section
/-! DEFINITION. The black run codes: `spec/30_encoding.md` R95, R96. -/

namespace Sys2Proof.Machine

/-- `B0` (R95, R183). -/
def execB0 (s : State) : Host.Outcome State Fault Refusal :=
  runCodeword 10 (State.terminatingRule 0) s

/-- `B1` (R95, R183). -/
def execB1 (s : State) : Host.Outcome State Fault Refusal :=
  runCodeword 3 (State.terminatingRule 1) s

/-- `B2` (R95, R183). -/
def execB2 (s : State) : Host.Outcome State Fault Refusal :=
  runCodeword 2 (State.terminatingRule 2) s

/-- `B3` (R95, R183). -/
def execB3 (s : State) : Host.Outcome State Fault Refusal :=
  runCodeword 2 (State.terminatingRule 3) s

/-- `B4` (R95, R183). -/
def execB4 (s : State) : Host.Outcome State Fault Refusal :=
  runCodeword 3 (State.terminatingRule 4) s

/-- `B5` (R95, R183). -/
def execB5 (s : State) : Host.Outcome State Fault Refusal :=
  runCodeword 4 (State.terminatingRule 5) s

/-- `B6` (R95, R183). -/
def execB6 (s : State) : Host.Outcome State Fault Refusal :=
  runCodeword 4 (State.terminatingRule 6) s

/-- `B7` (R95, R183). -/
def execB7 (s : State) : Host.Outcome State Fault Refusal :=
  runCodeword 5 (State.terminatingRule 7) s

/-- `B8` (R95, R183). -/
def execB8 (s : State) : Host.Outcome State Fault Refusal :=
  runCodeword 6 (State.terminatingRule 8) s

/-- `B9` (R95, R183). -/
def execB9 (s : State) : Host.Outcome State Fault Refusal :=
  runCodeword 6 (State.terminatingRule 9) s

/-- `B10` (R95, R183). -/
def execB10 (s : State) : Host.Outcome State Fault Refusal :=
  runCodeword 7 (State.terminatingRule 10) s

/-- `B11` (R95, R183). -/
def execB11 (s : State) : Host.Outcome State Fault Refusal :=
  runCodeword 7 (State.terminatingRule 11) s

/-- `B12` (R95, R183). -/
def execB12 (s : State) : Host.Outcome State Fault Refusal :=
  runCodeword 7 (State.terminatingRule 12) s

/-- `B13` (R95, R183). -/
def execB13 (s : State) : Host.Outcome State Fault Refusal :=
  runCodeword 8 (State.terminatingRule 13) s

/-- `B14` (R95, R183). -/
def execB14 (s : State) : Host.Outcome State Fault Refusal :=
  runCodeword 8 (State.terminatingRule 14) s

/-- `B15` (R95, R183). -/
def execB15 (s : State) : Host.Outcome State Fault Refusal :=
  runCodeword 9 (State.terminatingRule 15) s

/-- `B16` (R95, R183). -/
def execB16 (s : State) : Host.Outcome State Fault Refusal :=
  runCodeword 10 (State.terminatingRule 16) s

/-- `B17` (R95, R183). -/
def execB17 (s : State) : Host.Outcome State Fault Refusal :=
  runCodeword 10 (State.terminatingRule 17) s

/-- `B18` (R95, R183). -/
def execB18 (s : State) : Host.Outcome State Fault Refusal :=
  runCodeword 10 (State.terminatingRule 18) s

/-- `B19` (R95, R183). -/
def execB19 (s : State) : Host.Outcome State Fault Refusal :=
  runCodeword 11 (State.terminatingRule 19) s

/-- `B20` (R95, R183). -/
def execB20 (s : State) : Host.Outcome State Fault Refusal :=
  runCodeword 11 (State.terminatingRule 20) s

/-- `B21` (R95, R183). -/
def execB21 (s : State) : Host.Outcome State Fault Refusal :=
  runCodeword 11 (State.terminatingRule 21) s

/-- `B22` (R95, R183). -/
def execB22 (s : State) : Host.Outcome State Fault Refusal :=
  runCodeword 11 (State.terminatingRule 22) s

/-- `B23` (R95, R183). -/
def execB23 (s : State) : Host.Outcome State Fault Refusal :=
  runCodeword 11 (State.terminatingRule 23) s

/-- `B24` (R95, R183). -/
def execB24 (s : State) : Host.Outcome State Fault Refusal :=
  runCodeword 11 (State.terminatingRule 24) s

/-- `B25` (R95, R183). -/
def execB25 (s : State) : Host.Outcome State Fault Refusal :=
  runCodeword 11 (State.terminatingRule 25) s

/-- `B26` (R95, R183). -/
def execB26 (s : State) : Host.Outcome State Fault Refusal :=
  runCodeword 12 (State.terminatingRule 26) s

/-- `B27` (R95, R183). -/
def execB27 (s : State) : Host.Outcome State Fault Refusal :=
  runCodeword 12 (State.terminatingRule 27) s

/-- `B28` (R95, R183). -/
def execB28 (s : State) : Host.Outcome State Fault Refusal :=
  runCodeword 12 (State.terminatingRule 28) s

/-- `B29` (R95, R183). -/
def execB29 (s : State) : Host.Outcome State Fault Refusal :=
  runCodeword 12 (State.terminatingRule 29) s

/-- `B30` (R95, R183). -/
def execB30 (s : State) : Host.Outcome State Fault Refusal :=
  runCodeword 12 (State.terminatingRule 30) s

/-- `B31` (R95, R183). -/
def execB31 (s : State) : Host.Outcome State Fault Refusal :=
  runCodeword 12 (State.terminatingRule 31) s

/-- `B32` (R95, R183). -/
def execB32 (s : State) : Host.Outcome State Fault Refusal :=
  runCodeword 12 (State.terminatingRule 32) s

/-- `B33` (R95, R183). -/
def execB33 (s : State) : Host.Outcome State Fault Refusal :=
  runCodeword 12 (State.terminatingRule 33) s

/-- `B34` (R95, R183). -/
def execB34 (s : State) : Host.Outcome State Fault Refusal :=
  runCodeword 12 (State.terminatingRule 34) s

/-- `B35` (R95, R183). -/
def execB35 (s : State) : Host.Outcome State Fault Refusal :=
  runCodeword 12 (State.terminatingRule 35) s

/-- `B36` (R95, R183). -/
def execB36 (s : State) : Host.Outcome State Fault Refusal :=
  runCodeword 12 (State.terminatingRule 36) s

/-- `B37` (R95, R183). -/
def execB37 (s : State) : Host.Outcome State Fault Refusal :=
  runCodeword 12 (State.terminatingRule 37) s

/-- `B38` (R95, R183). -/
def execB38 (s : State) : Host.Outcome State Fault Refusal :=
  runCodeword 12 (State.terminatingRule 38) s

/-- `B39` (R95, R183). -/
def execB39 (s : State) : Host.Outcome State Fault Refusal :=
  runCodeword 12 (State.terminatingRule 39) s

/-- `B40` (R95, R183). -/
def execB40 (s : State) : Host.Outcome State Fault Refusal :=
  runCodeword 12 (State.terminatingRule 40) s

/-- `B41` (R95, R183). -/
def execB41 (s : State) : Host.Outcome State Fault Refusal :=
  runCodeword 12 (State.terminatingRule 41) s

/-- `B42` (R95, R183). -/
def execB42 (s : State) : Host.Outcome State Fault Refusal :=
  runCodeword 12 (State.terminatingRule 42) s

/-- `B43` (R95, R183). -/
def execB43 (s : State) : Host.Outcome State Fault Refusal :=
  runCodeword 12 (State.terminatingRule 43) s

/-- `B44` (R95, R183). -/
def execB44 (s : State) : Host.Outcome State Fault Refusal :=
  runCodeword 12 (State.terminatingRule 44) s

/-- `B45` (R95, R183). -/
def execB45 (s : State) : Host.Outcome State Fault Refusal :=
  runCodeword 12 (State.terminatingRule 45) s

/-- `B46` (R95, R183). -/
def execB46 (s : State) : Host.Outcome State Fault Refusal :=
  runCodeword 12 (State.terminatingRule 46) s

/-- `B47` (R95, R183). -/
def execB47 (s : State) : Host.Outcome State Fault Refusal :=
  runCodeword 12 (State.terminatingRule 47) s

/-- `B48` (R95, R183). -/
def execB48 (s : State) : Host.Outcome State Fault Refusal :=
  runCodeword 12 (State.terminatingRule 48) s

/-- `B49` (R95, R183). -/
def execB49 (s : State) : Host.Outcome State Fault Refusal :=
  runCodeword 12 (State.terminatingRule 49) s

/-- `B50` (R95, R183). -/
def execB50 (s : State) : Host.Outcome State Fault Refusal :=
  runCodeword 12 (State.terminatingRule 50) s

/-- `B51` (R95, R183). -/
def execB51 (s : State) : Host.Outcome State Fault Refusal :=
  runCodeword 12 (State.terminatingRule 51) s

/-- `B52` (R95, R183). -/
def execB52 (s : State) : Host.Outcome State Fault Refusal :=
  runCodeword 12 (State.terminatingRule 52) s

/-- `B53` (R95, R183). -/
def execB53 (s : State) : Host.Outcome State Fault Refusal :=
  runCodeword 12 (State.terminatingRule 53) s

/-- `B54` (R95, R183). -/
def execB54 (s : State) : Host.Outcome State Fault Refusal :=
  runCodeword 12 (State.terminatingRule 54) s

/-- `B55` (R95, R183). -/
def execB55 (s : State) : Host.Outcome State Fault Refusal :=
  runCodeword 12 (State.terminatingRule 55) s

/-- `B56` (R95, R183). -/
def execB56 (s : State) : Host.Outcome State Fault Refusal :=
  runCodeword 12 (State.terminatingRule 56) s

/-- `B57` (R95, R183). -/
def execB57 (s : State) : Host.Outcome State Fault Refusal :=
  runCodeword 12 (State.terminatingRule 57) s

/-- `B58` (R95, R183). -/
def execB58 (s : State) : Host.Outcome State Fault Refusal :=
  runCodeword 12 (State.terminatingRule 58) s

/-- `B59` (R95, R183). -/
def execB59 (s : State) : Host.Outcome State Fault Refusal :=
  runCodeword 12 (State.terminatingRule 59) s

/-- `B60` (R95, R183). -/
def execB60 (s : State) : Host.Outcome State Fault Refusal :=
  runCodeword 12 (State.terminatingRule 60) s

/-- `B61` (R95, R183). -/
def execB61 (s : State) : Host.Outcome State Fault Refusal :=
  runCodeword 12 (State.terminatingRule 61) s

/-- `B62` (R95, R183). -/
def execB62 (s : State) : Host.Outcome State Fault Refusal :=
  runCodeword 12 (State.terminatingRule 62) s

/-- `B63` (R95, R183). -/
def execB63 (s : State) : Host.Outcome State Fault Refusal :=
  runCodeword 12 (State.terminatingRule 63) s

/-- `MB64` (R96, R182). -/
def execMb64 (s : State) : Host.Outcome State Fault Refusal :=
  runCodeword 10 (State.makeupRule 64) s

/-- `MB128` (R96, R182). -/
def execMb128 (s : State) : Host.Outcome State Fault Refusal :=
  runCodeword 12 (State.makeupRule 128) s

/-- `MB192` (R96, R182). -/
def execMb192 (s : State) : Host.Outcome State Fault Refusal :=
  runCodeword 12 (State.makeupRule 192) s

/-- `MB256` (R96, R182). -/
def execMb256 (s : State) : Host.Outcome State Fault Refusal :=
  runCodeword 12 (State.makeupRule 256) s

/-- `MB320` (R96, R182). -/
def execMb320 (s : State) : Host.Outcome State Fault Refusal :=
  runCodeword 12 (State.makeupRule 320) s

/-- `MB384` (R96, R182). -/
def execMb384 (s : State) : Host.Outcome State Fault Refusal :=
  runCodeword 12 (State.makeupRule 384) s

/-- `MB448` (R96, R182). -/
def execMb448 (s : State) : Host.Outcome State Fault Refusal :=
  runCodeword 12 (State.makeupRule 448) s

/-- `MB512` (R96, R182). -/
def execMb512 (s : State) : Host.Outcome State Fault Refusal :=
  runCodeword 13 (State.makeupRule 512) s

/-- `MB576` (R96, R182). -/
def execMb576 (s : State) : Host.Outcome State Fault Refusal :=
  runCodeword 13 (State.makeupRule 576) s

/-- `MB640` (R96, R182). -/
def execMb640 (s : State) : Host.Outcome State Fault Refusal :=
  runCodeword 13 (State.makeupRule 640) s

/-- `MB704` (R96, R182). -/
def execMb704 (s : State) : Host.Outcome State Fault Refusal :=
  runCodeword 13 (State.makeupRule 704) s

/-- `MB768` (R96, R182). -/
def execMb768 (s : State) : Host.Outcome State Fault Refusal :=
  runCodeword 13 (State.makeupRule 768) s

/-- `MB832` (R96, R182). -/
def execMb832 (s : State) : Host.Outcome State Fault Refusal :=
  runCodeword 13 (State.makeupRule 832) s

/-- `MB896` (R96, R182). -/
def execMb896 (s : State) : Host.Outcome State Fault Refusal :=
  runCodeword 13 (State.makeupRule 896) s

/-- `MB960` (R96, R182). -/
def execMb960 (s : State) : Host.Outcome State Fault Refusal :=
  runCodeword 13 (State.makeupRule 960) s

/-- `MB1024` (R96, R182). -/
def execMb1024 (s : State) : Host.Outcome State Fault Refusal :=
  runCodeword 13 (State.makeupRule 1024) s

/-- `MB1088` (R96, R182). -/
def execMb1088 (s : State) : Host.Outcome State Fault Refusal :=
  runCodeword 13 (State.makeupRule 1088) s

/-- `MB1152` (R96, R182). -/
def execMb1152 (s : State) : Host.Outcome State Fault Refusal :=
  runCodeword 13 (State.makeupRule 1152) s

/-- `MB1216` (R96, R182). -/
def execMb1216 (s : State) : Host.Outcome State Fault Refusal :=
  runCodeword 13 (State.makeupRule 1216) s

/-- `MB1280` (R96, R182). -/
def execMb1280 (s : State) : Host.Outcome State Fault Refusal :=
  runCodeword 13 (State.makeupRule 1280) s

/-- `MB1344` (R96, R182). -/
def execMb1344 (s : State) : Host.Outcome State Fault Refusal :=
  runCodeword 13 (State.makeupRule 1344) s

/-- `MB1408` (R96, R182). -/
def execMb1408 (s : State) : Host.Outcome State Fault Refusal :=
  runCodeword 13 (State.makeupRule 1408) s

/-- `MB1472` (R96, R182). -/
def execMb1472 (s : State) : Host.Outcome State Fault Refusal :=
  runCodeword 13 (State.makeupRule 1472) s

/-- `MB1536` (R96, R182). -/
def execMb1536 (s : State) : Host.Outcome State Fault Refusal :=
  runCodeword 13 (State.makeupRule 1536) s

/-- `MB1600` (R96, R182). -/
def execMb1600 (s : State) : Host.Outcome State Fault Refusal :=
  runCodeword 13 (State.makeupRule 1600) s

/-- `MB1664` (R96, R182). -/
def execMb1664 (s : State) : Host.Outcome State Fault Refusal :=
  runCodeword 13 (State.makeupRule 1664) s

/-- `MB1728` (R96, R182). -/
def execMb1728 (s : State) : Host.Outcome State Fault Refusal :=
  runCodeword 13 (State.makeupRule 1728) s


end Sys2Proof.Machine
end

