-- ==== Sys2Proof/Machine/Encoding.lean ====
section
/-! DEFINITION. The encoder's operations (`spec/44_encoder.md` R251 to R266) and the steps of the two encode jobs. -/

namespace Sys2Proof.Machine

/-! ### Reading the raster -/

/-- The next `k` raster bits are there and all equal to `b` (R254). -/
def State.uniform (s : State) (b : Bool) (k : Nat) : Bool :=
  decide (s.reader.avail k = k) && decide (s.reader.window k = if b then 2 ^ k - 1 else 0)

/-- The loop of `CountPixels` (R254), at most `fuel` iterations: `left` pixels may still be counted, `n` are. -/
def State.countLoop (b : Bool) : Nat → Nat → Nat → State → Nat × State
  | 0, _, n, s => (n, s)
  | fuel + 1, left, n, s =>
    if left = 0 then (n, s)
    else
      let s := if 24 ≤ left then s.fillTo 24 else s
      if 24 ≤ left ∧ s.uniform b 24 then State.countLoop b fuel (left - 24) (n + 24) (s.clear 24)
      else
        let s := if 8 ≤ left then s.fillTo 8 else s
        if 8 ≤ left ∧ s.uniform b 8 then State.countLoop b fuel (left - 8) (n + 8) (s.clear 8)
        else
          let s := s.fillTo 1
          if s.uniform b 1 then State.countLoop b fuel (left - 1) (n + 1) (s.clear 1) else (n, s)

/-- `CountPixels(colour, max)` (R254): the count, and the state after it. Every iteration counts at least one pixel. -/
def State.countPixels (s : State) (k : Colour) (max : Nat) : Nat × State := State.countLoop (s.bit k) max max 0 s

/-- The loop of `ScanRow` (R256), at most `fuel` iterations; none when it has not reached W by then. -/
def State.scanLoop : Nat → Nat → Colour → State → Option State
  | 0, x, _, s => if s.imageWidth ≤ x then some s else none
  | fuel + 1, x, k, s =>
    if s.imageWidth ≤ x then some s
    else
      let (n, s) := s.countPixels k (s.imageWidth - x)
      let s := if x + n < s.imageWidth then { s with cur := s.cur ++ [x + n] } else s
      State.scanLoop fuel (x + n) (oppositeColour k) s

/-- `ScanRow` (R256). Only the first run can be empty while the raster lasts, so W + 1 iterations reach W; none when the
raster ends inside the row and the loop would never end (log 14). -/
def State.scanRow (s : State) : Option State :=
  (State.scanLoop (s.imageWidth + 1) 0 .white { s with cur := [] }).map fun s => s.setReader s.reader.byteAlign

/-! ### Mode selection and emission -/

/-- `SelectMode(a1, b1, b2)` (R257). -/
def selectMode (a1 b1 b2 : Nat) : ModeName :=
  if b2 < a1 then .pass
  else if a1 ≤ b1 + 3 ∧ b1 ≤ a1 + 3 then .vertical ((a1 : Int) - b1)
  else .horizontal

/-- The make-up part of `PutRun` (R259): `m` is a multiple of 64, chained by 2560; at most `fuel` codewords. -/
def State.putMakeups (k : Colour) : Nat → Nat → State → Flow
  | 0, _, s => .go s
  | fuel + 1, m, s =>
    if 2560 < m then (s.putCode (makeupCode k 2560)).bind (State.putMakeups k fuel (m - 2560))
    else if 0 < m then s.putCode (makeupCode k m)
    else .go s

/-- `PutRun(colour, n)` (R259). -/
def State.putRun (k : Colour) (n : Nat) (s : State) : Flow :=
  (State.putMakeups k (n / 64 + 1) (64 * (n / 64)) s).bind fun s => s.putCode (termCode k (n % 64))

/-- `EncodeStepG4` (R258). `SelectMode` never answers an extension. -/
def State.encodeStepG4 (s : State) : Flow :=
  let a := s.findA
  let b := s.findB
  let s := { s with a1 := a.1, a2 := a.2, b1 := b.1, b2 := b.2 }
  (match selectMode a.1 b.1 b.2 with
    | .vertical d => (s.putCode (modeCode (.vertical d))).bind fun s =>
        .go { s with a0 := a.1, c := oppositeColour s.c }
    | .horizontal => (s.putCode (modeCode .horizontal)).bind fun s =>
        (State.putRun s.c (a.1 - s.a0) s).bind fun s =>
        (State.putRun (oppositeColour s.c) (a.2 - a.1) s).bind fun s => .go (s.moveTo a.2)
    | .pass => (s.putCode (modeCode .pass)).bind fun s => .go (s.moveTo b.2)
    | .ext1d => .go s
    | .ext2d => .go s).bind
  fun s => .go { s with atStart := false }

/-! ### The steps of an ENCODE_G4 job (R251) -/

/-- Between two rows: the first step of the job, or a row that has reached W (log 13). After an `EncodeStepG4` that the
host drove in the middle of the job, which R251 does not provide for, the job goes on from these two registers all the
same (DESIGN CHOICE, log 28). -/
def State.atRowStart (s : State) : Bool := s.atStart || decide (s.imageWidth ≤ s.a0)

/-- The row start work of R251, R252, done by the first step of a row. -/
def State.startRowG4 (s : State) : Option State :=
  if s.atRowStart then s.scanRow.map fun s => { s with a0 := 0, atStart := true, c := .white } else some s

/-- The end of the job (R251, R264): `finish()`, then STATUS. -/
def State.finishEncode (s : State) : Flow := s.finish.bind fun s => .go s.endEncode

/-- The end-of-block marker of R251, R263. -/
def State.putEOFB (s : State) : Flow :=
  if s.hasEob then (s.putCode eolCode).bind fun s => s.putCode eolCode else .go s

/-- The row alignment of R262. -/
def State.alignRow (s : State) : Flow := if s.rowAlign then s.putAlign else .go s

/-- The row end work of R251, R261, R262, and after the last row the trailer. -/
def State.endRowG4 (s : State) : Flow :=
  s.alignRow.bind fun s =>
    let s := { s with ref := s.cur, cur := [], y := s.y + 1 }
    if s.imageHeight ≤ s.y then s.putEOFB.bind State.finishEncode else .go s

/-- One step of an ENCODE_G4 job (R12, R251): one mode selection, with the row start before a row's first and the row
end after its last. -/
def State.jobStepG4 (s : State) : Host.Outcome State Fault Refusal :=
  match s.startRowG4 with
  | some s => (s.encodeStepG4.bind fun s => if s.imageWidth ≤ s.a0 then s.endRowG4 else .go s).out
  | none => .fault .rasterExhausted

/-! ### One-dimensional encoding (R265, R266) -/

/-- The row end of R265: the raster's padding skipped, the output aligned. -/
def State.endRasterRow (s : State) : Flow := (s.setReader s.reader.byteAlign).alignRow

/-- The loop of `EncodeRowG31D` (R265), at most `fuel` iterations. -/
def State.rowLoopG31D : Nat → Nat → Colour → State → Flow
  | 0, _, _, s => .go s
  | fuel + 1, x, k, s =>
    if s.imageWidth ≤ x then .go s
    else
      let (n, s) := s.countPixels k (s.imageWidth - x)
      (State.putRun k n s).bind (State.rowLoopG31D fuel (x + n) (oppositeColour k))

/-- `EncodeRowG31D` (R265). Where the raster ends inside the row, every further run is empty and still emits at least two
bits, so from wn < 8 the loop ends by CapacityFault (log 14): W + 1 runs and one for every bit of room are enough. From the
wn = 8 that an earlier CapacityFault left, no byte completes and the rule's loop would never end; the model ends it after
these runs without a fault (DESIGN CHOICE, log 31). -/
def State.encodeRowG31D (s : State) : Flow :=
  (State.rowLoopG31D (s.imageWidth + 8 * s.dstCap + 9) 0 .white s).bind State.endRasterRow

/-- The row start of an ENCODE_G31D step: `x` and `col` of R265 are held in `a0` and `c` (log 13). -/
def State.startRowG31D (s : State) : State :=
  if s.atRowStart then { s with a0 := 0, c := .white } else s

/-- The row end of an ENCODE_G31D step, and after the last row `finish()` and STATUS (R266). -/
def State.endRowG31D (s : State) : Flow :=
  s.endRasterRow.bind fun s =>
    let s := { s with y := s.y + 1 }
    if s.imageHeight ≤ s.y then s.finishEncode else .go s

/-- One step of an ENCODE_G31D job (R12, R265): one run. -/
def State.jobStepG31D (s : State) : Flow :=
  let s := s.startRowG31D
  let r := s.countPixels s.c (s.imageWidth - s.a0)
  (State.putRun s.c r.1 r.2).bind fun s =>
    let s := { s with a0 := s.a0 + r.1, c := oppositeColour s.c, atStart := false }
    if s.imageWidth ≤ s.a0 then s.endRowG31D else .go s

end Sys2Proof.Machine
end

