-- ==== Sys2Proof/Machine/EncoderUnit.lean ====
section
/-! DEFINITION. The operations of the unit fax_g4_encoder_mode_selector: `spec/44_encoder.md`. -/

namespace Sys2Proof.Machine

/-- `CountPixels(colour, max)` (R254). -/
def execCountPixels (colour : Colour) (max : Nat) (s : State) : Host.Outcome State Fault Refusal :=
  unitOperation (fun s => .next ((s.countPixels colour max).2.setResult (.count (s.countPixels colour max).1))) s

/-- `SelectMode(a1, b1, b2)` (R257), positions in 0..W (U4). -/
def execSelectMode (posA1 : Nat) (posB1 : Nat) (posB2 : Nat) (s : State) : Host.Outcome State Fault Refusal :=
  unitOperation (fun s => if s.imageWidth < posA1 ∨ s.imageWidth < posB1 ∨ s.imageWidth < posB2 then .refused .operandOutOfRange
    else .next (s.setResult (.selected (selectMode posA1 posB1 posB2)))) s

/-- `EncodeStepG4` (R258): in an ENCODE_G4 job in RUN, with a0 < W (log 23). How the job goes on after it is the model's
choice (DESIGN CHOICE, log 28). -/
def execEncodeStepG4 (s : State) : Host.Outcome State Fault Refusal :=
  stepOperation (decide (s.cfg.job = .encodeG4) && decide (s.a0 < s.imageWidth)) State.encodeStepG4 s

/-- `PutRun(colour, n)` (R259). -/
def execPutRun (colour : Colour) (n : Nat) (s : State) : Host.Outcome State Fault Refusal :=
  unitOperation (fun s => (State.putRun colour n s).out) s

/-- `EncodeRowG31D` (R265): a whole row. -/
def execEncodeRowG31D (s : State) : Host.Outcome State Fault Refusal :=
  unitOperation (fun s => s.encodeRowG31D.out) s


end Sys2Proof.Machine
end

