-- ==== Sys2Proof/Machine/ExtendedCodes.lean ====
section
/-! DEFINITION. The extended make-up codes of both colours: `spec/30_encoding.md` R97. -/

namespace Sys2Proof.Machine

/-- `MX1792` (R97, R182). -/
def execMx1792 (s : State) : Host.Outcome State Fault Refusal :=
  runCodeword 11 (State.makeupRule 1792) s

/-- `MX1856` (R97, R182). -/
def execMx1856 (s : State) : Host.Outcome State Fault Refusal :=
  runCodeword 11 (State.makeupRule 1856) s

/-- `MX1920` (R97, R182). -/
def execMx1920 (s : State) : Host.Outcome State Fault Refusal :=
  runCodeword 11 (State.makeupRule 1920) s

/-- `MX1984` (R97, R182). -/
def execMx1984 (s : State) : Host.Outcome State Fault Refusal :=
  runCodeword 12 (State.makeupRule 1984) s

/-- `MX2048` (R97, R182). -/
def execMx2048 (s : State) : Host.Outcome State Fault Refusal :=
  runCodeword 12 (State.makeupRule 2048) s

/-- `MX2112` (R97, R182). -/
def execMx2112 (s : State) : Host.Outcome State Fault Refusal :=
  runCodeword 12 (State.makeupRule 2112) s

/-- `MX2176` (R97, R182). -/
def execMx2176 (s : State) : Host.Outcome State Fault Refusal :=
  runCodeword 12 (State.makeupRule 2176) s

/-- `MX2240` (R97, R182). -/
def execMx2240 (s : State) : Host.Outcome State Fault Refusal :=
  runCodeword 12 (State.makeupRule 2240) s

/-- `MX2304` (R97, R182). -/
def execMx2304 (s : State) : Host.Outcome State Fault Refusal :=
  runCodeword 12 (State.makeupRule 2304) s

/-- `MX2368` (R97, R182). -/
def execMx2368 (s : State) : Host.Outcome State Fault Refusal :=
  runCodeword 12 (State.makeupRule 2368) s

/-- `MX2432` (R97, R182). -/
def execMx2432 (s : State) : Host.Outcome State Fault Refusal :=
  runCodeword 12 (State.makeupRule 2432) s

/-- `MX2496` (R97, R182). -/
def execMx2496 (s : State) : Host.Outcome State Fault Refusal :=
  runCodeword 12 (State.makeupRule 2496) s

/-- `MX2560` (R97, R182). -/
def execMx2560 (s : State) : Host.Outcome State Fault Refusal :=
  runCodeword 12 (State.makeupRule 2560) s


end Sys2Proof.Machine
end

