-- ==== Sys2Proof/Machine/G3Unit.lean ====
section
/-! DEFINITION. The operations of the unit fax_g3_runlength_decoder: `spec/42_g3_decoder.md`. -/

namespace Sys2Proof.Machine

/-- `DecodeStep` (R181): the step of a decode job in RUN (R180, U5). -/
def execDecodeStep (s : State) : Host.Outcome State Fault Refusal :=
  stepOperation s.cfg.job.isDecode State.decodeStep s

/-- `Fill(colour, x0, x1)` (R186), x0 ≤ x1 ≤ W (U4). -/
def execFillPixels (colour : Colour) (x0 : Nat) (x1 : Nat) (s : State) : Host.Outcome State Fault Refusal :=
  unitOperation (fun s => if x1 < x0 ∨ s.imageWidth < x1 then .refused .operandOutOfRange
    else (s.fill colour x0 x1).out) s

/-- `FillRun(n)` (R188). It runs also where a0 > W, which U4 leaves to the model: no pixel is drawn, the row is opened, and
a0 becomes W (DESIGN CHOICE, log 29). -/
def execFillRun (n : Nat) (s : State) : Host.Outcome State Fault Refusal :=
  unitOperation (fun s => (s.fillRun n).out) s

/-- `PadRow` (R192), also where a0 > W (DESIGN CHOICE, log 29). -/
def execPadRow (s : State) : Host.Outcome State Fault Refusal :=
  unitOperation (fun s => s.padRow.out) s

/-- `CloseRow(align)` (R189). -/
def execCloseRow (align : Bool) (s : State) : Host.Outcome State Fault Refusal :=
  unitOperation (fun s => .next (s.closeRow align)) s

/-- `OnEOL` (R190), its `PadRow` as in log 29. -/
def execOnEOL (s : State) : Host.Outcome State Fault Refusal :=
  unitOperation (fun s => s.onEOL.out) s

/-- `OnError` (R191), its `PadRow` as in log 29. -/
def execOnError (s : State) : Host.Outcome State Fault Refusal :=
  unitOperation (fun s => s.onError.out) s

/-- `OnEOD(from_mode)` (R193), its `PadRow` as in log 29. -/
def execOnEOD (fromMode : Bool) (s : State) : Host.Outcome State Fault Refusal :=
  unitOperation (fun s => (s.onEOD fromMode).out) s

/-- `Record(p)` (R187), p ≤ W (U4); `cur` has no bound (DESIGN CHOICE, log 30). -/
def execRecord (pos : Nat) (s : State) : Host.Outcome State Fault Refusal :=
  unitOperation (fun s => if s.imageWidth < pos then .refused .operandOutOfRange else .next (s.record pos)) s


end Sys2Proof.Machine
end

