-- ==== Sys2Proof/Machine/G4Unit.lean ====
section
/-! DEFINITION. The operations of the unit fax_g4_2d_predictor: `spec/43_g4_predictor.md`. -/

namespace Sys2Proof.Machine

/-- `FindB` (R222): a pure function of the registers. -/
def execFindB (s : State) : Host.Outcome State Fault Refusal :=
  unitOperation (fun s => .next (s.setResult (.positions s.findB.1 s.findB.2))) s

/-- `ModeStep` (R223): entered in a decode job when the mode context reads the next codeword. -/
def execModeStep (s : State) : Host.Outcome State Fault Refusal :=
  stepOperation (s.cfg.job.isDecode && decide (s.context = .mode)) State.modeStep s


end Sys2Proof.Machine
end

