-- ==== Sys2Proof/Machine/JobLayer.lean ====
section
/-! DEFINITION. The job layer (`spec/45_jobs.md`, `spec/70_reset_and_hazards.md`): RESET, START, the job step, and the
host's reads and writes of registers and memories. -/

namespace Sys2Proof.Machine

/-- The STATUS registers that START and RESET clear, `STATE` given (R282, R330). -/
def clearedStatus (state : JobState) : Status :=
  { state := state, stop := .none, rows := 0, endedOnEod := false, faultCode := .none, outLen := 0, srcUsed := 0 }

/-- A one-bit working register after RESET: a free value as a colour. -/
def freeColour (register n : Nat) : Colour := if Config.freeFlag register n then .black else .white

/-- `RESET` (R330): STATUS is zero, `STATE` is IDLE. CFG, SRC and DST are not written (R40, R330; log 3); every working
register is unspecified (R44) and takes a free value (log 1), within its width. -/
def State.resetBlock (s : State) : State :=
  let n := s.resets
  { s with
    status := clearedStatus .idle
    reader := { buf := Config.freeBuffer n, cnt := (Config.freeWord 0 n).toNat % 41, consumed := (Config.freeWord 1 n).toNat,
                len := (Config.freeWord 2 n).toNat, rev := Config.freeFlag 0 n }
    writer := { wacc := (Config.freeWord 3 n).truncate 8, wn := (Config.freeWord 4 n).toNat % 8,
                wlen := (Config.freeWord 5 n).toNat }
    a0 := (Config.freeWord 6 n).toNat
    atStart := Config.freeFlag 1 n
    c := freeColour 2 n
    acc := (Config.freeWord 7 n).toNat
    hphase := (Config.freeWord 8 n).toNat % 3
    afterZero := Config.freeFlag 3 n
    lineMode := lineModeOfTag (Config.freeFlag 4 n)
    rows := (Config.freeWord 9 n).toNat
    rowOpen := Config.freeFlag 5 n
    capRows := (Config.freeWord 10 n).toNat
    y := (Config.freeWord 11 n).toNat
    a1 := (Config.freeWord 12 n).toNat
    a2 := (Config.freeWord 13 n).toNat
    b1 := (Config.freeWord 14 n).toNat
    b2 := (Config.freeWord 15 n).toNat
    cur := (Config.freeLine 0 n).map BitVec.toNat
    ref := (Config.freeLine 1 n).map BitVec.toNat
    resets := n + 1 }

/-- The ConfigFault test of R282, R303. -/
def State.configFaulty (s : State) : Bool :=
  decide (s.imageWidth = 0) || decide (Config.wMax < s.imageWidth) || decide (Config.wMax < s.imageHeight)
    || (decide (s.imageHeight = 0) && decide (s.cfg.job ≠ .decodeG3))

/-- The SizeFault test of R282, R288, R305. -/
def State.rasterTooSmall (s : State) : Bool := !s.cfg.job.isDecode && decide (s.srcLen < s.stride * s.imageHeight)

/-- The reader and the registers that `JobInit` writes for every job (R283). -/
def State.initCommon (s : State) : State :=
  { s with
    reader := { buf := 0, cnt := 0, consumed := 0, len := s.srcLen, rev := s.cfg.job.isDecode && s.lsb2msb }
    cur := []
    ref := []
    a0 := 0
    atStart := true
    c := .white }

/-- The decode part of `JobInit` (R283). -/
def State.initDecode (s : State) : State :=
  { s with
    acc := 0
    hphase := 0
    afterZero := false
    lineMode := if s.kind = some .g3_1d then .l1d else .l2d
    rows := 0
    rowOpen := false
    capRows := s.dstCap / s.stride }

/-- The encode part of `JobInit` (R283). -/
def State.initEncode (s : State) : State := { s with writer := { wacc := 0, wn := 0, wlen := 0 }, y := 0 }

/-- `JobInit` (R283). -/
def State.jobInit (s : State) : State :=
  if s.cfg.job.isDecode then s.initCommon.initDecode else s.initCommon.initEncode

/-- `START` (R282). -/
def State.startJob (s : State) : State :=
  if s.running then s
  else
    let s := s.setStatus (clearedStatus s.status.state)
    if s.configFaulty then s.raiseAtStart .config
    else if s.rasterTooSmall then s.raiseAtStart .size
    else s.jobInit.setStatus { s.status with state := .run }

/-! ### The host's register file and memories (R40, R42, R77, R313, R338) -/

/-- A CFG register as the host reads it (R40, U7). -/
def Cfg.readReg (g : Cfg) : CfgReg → Nat
  | .op => g.op.toNat
  | .width => g.width.toNat
  | .height => g.height.toNat
  | .flags => g.flags.toNat
  | .options => g.options.toNat
  | .srcLen => g.srcLen.toNat
  | .dstCap => g.dstCap.toNat

/-- A CFG register written: reserved bits are ignored (R40, U7). -/
def Cfg.writeReg (g : Cfg) (v : Word) : CfgReg → Cfg
  | .op => { g with op := v.truncate 2 }
  | .width => { g with width := v }
  | .height => { g with height := v }
  | .flags => { g with flags := v.truncate 6 }
  | .options => { g with options := v.truncate 1 }
  | .srcLen => { g with srcLen := v }
  | .dstCap => { g with dstCap := v }

/-- A register as the host reads it (R40, R42). In RUN the spec gives the host the reads of STATUS (R313) and does not say
what a read of a CFG register answers (R40 gives that access while STATE is not RUN): it answers the value the register
holds, which R338 keeps (DESIGN CHOICE, log 27). -/
def State.readReg (s : State) : HostReg → Nat
  | .cfg r => s.cfg.readReg r
  | .state => s.status.state.code
  | .stop => s.status.stop.code
  | .rows => s.status.rows
  | .endedOnEod => bitValue s.status.endedOnEod
  | .faultCode => s.status.faultCode.code
  | .outLen => s.status.outLen
  | .srcUsed => s.status.srcUsed

/-- A host write of a CFG register: ignored in RUN (R338). -/
def State.hostWriteCfg (s : State) (reg : CfgReg) (v : Word) : State :=
  if s.running then s else { s with cfg := s.cfg.writeReg v reg }

/-- A host access to SRC: not in RUN (U6), and only where some SRC_LEN reaches (R40, log 20). -/
def hostSrc (a : Nat) (f : State → State) (s : State) : Host.Outcome State Fault Refusal :=
  if s.running then .refused .hostAccessDuringRun
  else if a < 2 ^ 32 - 1 then .next (f s) else .fault .noSuchAddress

/-- A host access to DST: not in RUN (U6); DST has no upper end (R67). -/
def hostDst (f : State → State) (s : State) : Host.Outcome State Fault Refusal :=
  if s.running then .refused .hostAccessDuringRun else .next (f s)

end Sys2Proof.Machine
end

