-- ==== Sys2Proof/Machine/JobUnit.lean ====
section
/-! DEFINITION. The operations of the job layer: `spec/45_jobs.md`, `spec/70_reset_and_hazards.md`. -/

namespace Sys2Proof.Machine

/-- `RESET` (R330), in any state. -/
def execReset (s : State) : Host.Outcome State Fault Refusal :=
  .next s.resetBlock

/-- `START` (R282): ignored in RUN (R338). -/
def execStart (s : State) : Host.Outcome State Fault Refusal :=
  .next s.startJob


end Sys2Proof.Machine
end

