-- ==== Sys2Proof/Machine/LineCodes.lean ====
section
/-! DEFINITION. End of line, fill bits and the tag bit: `spec/30_encoding.md` R98, R99, R105. -/

namespace Sys2Proof.Machine

/-- `EOL` (R98, R190). -/
def execEol (s : State) : Host.Outcome State Fault Refusal :=
  runCodeword 12 State.onEOL s

/-- `FILL` (R99, R184): a window of 12 zero bits, one of which is consumed. -/
def execFillBit (s : State) : Host.Outcome State Fault Refusal :=
  runCodeword 1 State.zeroRule s

/-- The tag bit `tag` read by `getBits(1)` (R105, R134, R190). -/
def tagBit (tag : Bool) (s : State) : Host.Outcome State Fault Refusal :=
  if s.decoding then
    if (s.fillTo 1).reader.cnt < 1 then .refused .bitsBeyondBuffer else .next ((s.fillTo 1).takeTag tag)
  else .refused .stepOperationOutsideRun

/-- `T1` (R105, R190): the next line is one-dimensionally coded. -/
def execT1 (s : State) : Host.Outcome State Fault Refusal :=
  tagBit true s

/-- `T0` (R105, R190): the next line is two-dimensionally coded. -/
def execT0 (s : State) : Host.Outcome State Fault Refusal :=
  tagBit false s


end Sys2Proof.Machine
end

