-- ==== Sys2Proof/Machine/ModeCodes.lean ====
section
/-! DEFINITION. The mode codes: `spec/30_encoding.md` R100, R101. -/

namespace Sys2Proof.Machine

/-- `V0` (R100, R226), d = 0. -/
def execV0 (s : State) : Host.Outcome State Fault Refusal :=
  modeCodeword 1 (State.doVertical 0) s

/-- `VR1` (R100, R226), d = 1. -/
def execVr1 (s : State) : Host.Outcome State Fault Refusal :=
  modeCodeword 3 (State.doVertical 1) s

/-- `VL1` (R100, R226), d = -1. -/
def execVl1 (s : State) : Host.Outcome State Fault Refusal :=
  modeCodeword 3 (State.doVertical (-1)) s

/-- `VR2` (R100, R226), d = 2. -/
def execVr2 (s : State) : Host.Outcome State Fault Refusal :=
  modeCodeword 6 (State.doVertical 2) s

/-- `VL2` (R100, R226), d = -2. -/
def execVl2 (s : State) : Host.Outcome State Fault Refusal :=
  modeCodeword 6 (State.doVertical (-2)) s

/-- `VR3` (R100, R226), d = 3. -/
def execVr3 (s : State) : Host.Outcome State Fault Refusal :=
  modeCodeword 7 (State.doVertical 3) s

/-- `VL3` (R100, R226), d = -3. -/
def execVl3 (s : State) : Host.Outcome State Fault Refusal :=
  modeCodeword 7 (State.doVertical (-3)) s

/-- `H`, HORIZONTAL (R100, R225). -/
def execH (s : State) : Host.Outcome State Fault Refusal :=
  modeCodeword 3 State.doHorizontal s

/-- `P`, PASS (R100, R224). -/
def execP (s : State) : Host.Outcome State Fault Refusal :=
  modeCodeword 4 State.doPass s

/-- `EXT2D` (R101, R228): seven bits consumed, then the ERROR policy. -/
def execExt2d (s : State) : Host.Outcome State Fault Refusal :=
  modeCodeword 7 State.onError s

/-- `EXT1D` (R101, R229): nothing consumed, then the 12-bit probe. -/
def execExt1d (s : State) : Host.Outcome State Fault Refusal :=
  modeCodeword 0 State.doExt1D s


end Sys2Proof.Machine
end

