-- ==== Sys2Proof/Machine/TableUnit.lean ====
section
/-! DEFINITION. The operations of the unit fax_huffman_code_table: `spec/41_code_tables.md`. -/

namespace Sys2Proof.Machine

/-- `decodeRun(c)` (R161). -/
def execDecodeRun (colour : Colour) (s : State) : Host.Outcome State Fault Refusal :=
  unitOperation (fun s => .next ((s.decodeRun colour).2.setResult (.run (s.decodeRun colour).1))) s

/-- `decodeMode()` (R167). -/
def execDecodeMode (s : State) : Host.Outcome State Fault Refusal :=
  unitOperation (fun s => .next (s.decodeMode.2.setResult (.mode s.decodeMode.1))) s

/-- `termCode(c, n)` (R172), n ≤ 63 (U3). -/
def execTermCode (colour : Colour) (n : Nat) (s : State) : Host.Outcome State Fault Refusal :=
  unitOperation (codeResult (termCode colour n)) s

/-- `makeupCode(c, m)` (R173), m a multiple of 64 in 64..2560 (U3). -/
def execMakeupCode (colour : Colour) (m : Nat) (s : State) : Host.Outcome State Fault Refusal :=
  unitOperation (codeResult (makeupCode colour m)) s

/-- `modeCode(m)` (R174), m one of the nine modes (U3). -/
def execModeCode (m : ModeName) (s : State) : Host.Outcome State Fault Refusal :=
  unitOperation (codeResult (modeCode m)) s


end Sys2Proof.Machine
end

