-- ==== Sys2Proof/Machine/WhiteCodes.lean ====
section
/-! DEFINITION. The white run codes: `spec/30_encoding.md` R93, R94. -/

namespace Sys2Proof.Machine

/-- `W0` (R93, R183). -/
def execW0 (s : State) : Host.Outcome State Fault Refusal :=
  runCodeword 8 (State.terminatingRule 0) s

/-- `W1` (R93, R183). -/
def execW1 (s : State) : Host.Outcome State Fault Refusal :=
  runCodeword 6 (State.terminatingRule 1) s

/-- `W2` (R93, R183). -/
def execW2 (s : State) : Host.Outcome State Fault Refusal :=
  runCodeword 4 (State.terminatingRule 2) s

/-- `W3` (R93, R183). -/
def execW3 (s : State) : Host.Outcome State Fault Refusal :=
  runCodeword 4 (State.terminatingRule 3) s

/-- `W4` (R93, R183). -/
def execW4 (s : State) : Host.Outcome State Fault Refusal :=
  runCodeword 4 (State.terminatingRule 4) s

/-- `W5` (R93, R183). -/
def execW5 (s : State) : Host.Outcome State Fault Refusal :=
  runCodeword 4 (State.terminatingRule 5) s

/-- `W6` (R93, R183). -/
def execW6 (s : State) : Host.Outcome State Fault Refusal :=
  runCodeword 4 (State.terminatingRule 6) s

/-- `W7` (R93, R183). -/
def execW7 (s : State) : Host.Outcome State Fault Refusal :=
  runCodeword 4 (State.terminatingRule 7) s

/-- `W8` (R93, R183). -/
def execW8 (s : State) : Host.Outcome State Fault Refusal :=
  runCodeword 5 (State.terminatingRule 8) s

/-- `W9` (R93, R183). -/
def execW9 (s : State) : Host.Outcome State Fault Refusal :=
  runCodeword 5 (State.terminatingRule 9) s

/-- `W10` (R93, R183). -/
def execW10 (s : State) : Host.Outcome State Fault Refusal :=
  runCodeword 5 (State.terminatingRule 10) s

/-- `W11` (R93, R183). -/
def execW11 (s : State) : Host.Outcome State Fault Refusal :=
  runCodeword 5 (State.terminatingRule 11) s

/-- `W12` (R93, R183). -/
def execW12 (s : State) : Host.Outcome State Fault Refusal :=
  runCodeword 6 (State.terminatingRule 12) s

/-- `W13` (R93, R183). -/
def execW13 (s : State) : Host.Outcome State Fault Refusal :=
  runCodeword 6 (State.terminatingRule 13) s

/-- `W14` (R93, R183). -/
def execW14 (s : State) : Host.Outcome State Fault Refusal :=
  runCodeword 6 (State.terminatingRule 14) s

/-- `W15` (R93, R183). -/
def execW15 (s : State) : Host.Outcome State Fault Refusal :=
  runCodeword 6 (State.terminatingRule 15) s

/-- `W16` (R93, R183). -/
def execW16 (s : State) : Host.Outcome State Fault Refusal :=
  runCodeword 6 (State.terminatingRule 16) s

/-- `W17` (R93, R183). -/
def execW17 (s : State) : Host.Outcome State Fault Refusal :=
  runCodeword 6 (State.terminatingRule 17) s

/-- `W18` (R93, R183). -/
def execW18 (s : State) : Host.Outcome State Fault Refusal :=
  runCodeword 7 (State.terminatingRule 18) s

/-- `W19` (R93, R183). -/
def execW19 (s : State) : Host.Outcome State Fault Refusal :=
  runCodeword 7 (State.terminatingRule 19) s

/-- `W20` (R93, R183). -/
def execW20 (s : State) : Host.Outcome State Fault Refusal :=
  runCodeword 7 (State.terminatingRule 20) s

/-- `W21` (R93, R183). -/
def execW21 (s : State) : Host.Outcome State Fault Refusal :=
  runCodeword 7 (State.terminatingRule 21) s

/-- `W22` (R93, R183). -/
def execW22 (s : State) : Host.Outcome State Fault Refusal :=
  runCodeword 7 (State.terminatingRule 22) s

/-- `W23` (R93, R183). -/
def execW23 (s : State) : Host.Outcome State Fault Refusal :=
  runCodeword 7 (State.terminatingRule 23) s

/-- `W24` (R93, R183). -/
def execW24 (s : State) : Host.Outcome State Fault Refusal :=
  runCodeword 7 (State.terminatingRule 24) s

/-- `W25` (R93, R183). -/
def execW25 (s : State) : Host.Outcome State Fault Refusal :=
  runCodeword 7 (State.terminatingRule 25) s

/-- `W26` (R93, R183). -/
def execW26 (s : State) : Host.Outcome State Fault Refusal :=
  runCodeword 7 (State.terminatingRule 26) s

/-- `W27` (R93, R183). -/
def execW27 (s : State) : Host.Outcome State Fault Refusal :=
  runCodeword 7 (State.terminatingRule 27) s

/-- `W28` (R93, R183). -/
def execW28 (s : State) : Host.Outcome State Fault Refusal :=
  runCodeword 7 (State.terminatingRule 28) s

/-- `W29` (R93, R183). -/
def execW29 (s : State) : Host.Outcome State Fault Refusal :=
  runCodeword 8 (State.terminatingRule 29) s

/-- `W30` (R93, R183). -/
def execW30 (s : State) : Host.Outcome State Fault Refusal :=
  runCodeword 8 (State.terminatingRule 30) s

/-- `W31` (R93, R183). -/
def execW31 (s : State) : Host.Outcome State Fault Refusal :=
  runCodeword 8 (State.terminatingRule 31) s

/-- `W32` (R93, R183). -/
def execW32 (s : State) : Host.Outcome State Fault Refusal :=
  runCodeword 8 (State.terminatingRule 32) s

/-- `W33` (R93, R183). -/
def execW33 (s : State) : Host.Outcome State Fault Refusal :=
  runCodeword 8 (State.terminatingRule 33) s

/-- `W34` (R93, R183). -/
def execW34 (s : State) : Host.Outcome State Fault Refusal :=
  runCodeword 8 (State.terminatingRule 34) s

/-- `W35` (R93, R183). -/
def execW35 (s : State) : Host.Outcome State Fault Refusal :=
  runCodeword 8 (State.terminatingRule 35) s

/-- `W36` (R93, R183). -/
def execW36 (s : State) : Host.Outcome State Fault Refusal :=
  runCodeword 8 (State.terminatingRule 36) s

/-- `W37` (R93, R183). -/
def execW37 (s : State) : Host.Outcome State Fault Refusal :=
  runCodeword 8 (State.terminatingRule 37) s

/-- `W38` (R93, R183). -/
def execW38 (s : State) : Host.Outcome State Fault Refusal :=
  runCodeword 8 (State.terminatingRule 38) s

/-- `W39` (R93, R183). -/
def execW39 (s : State) : Host.Outcome State Fault Refusal :=
  runCodeword 8 (State.terminatingRule 39) s

/-- `W40` (R93, R183). -/
def execW40 (s : State) : Host.Outcome State Fault Refusal :=
  runCodeword 8 (State.terminatingRule 40) s

/-- `W41` (R93, R183). -/
def execW41 (s : State) : Host.Outcome State Fault Refusal :=
  runCodeword 8 (State.terminatingRule 41) s

/-- `W42` (R93, R183). -/
def execW42 (s : State) : Host.Outcome State Fault Refusal :=
  runCodeword 8 (State.terminatingRule 42) s

/-- `W43` (R93, R183). -/
def execW43 (s : State) : Host.Outcome State Fault Refusal :=
  runCodeword 8 (State.terminatingRule 43) s

/-- `W44` (R93, R183). -/
def execW44 (s : State) : Host.Outcome State Fault Refusal :=
  runCodeword 8 (State.terminatingRule 44) s

/-- `W45` (R93, R183). -/
def execW45 (s : State) : Host.Outcome State Fault Refusal :=
  runCodeword 8 (State.terminatingRule 45) s

/-- `W46` (R93, R183). -/
def execW46 (s : State) : Host.Outcome State Fault Refusal :=
  runCodeword 8 (State.terminatingRule 46) s

/-- `W47` (R93, R183). -/
def execW47 (s : State) : Host.Outcome State Fault Refusal :=
  runCodeword 8 (State.terminatingRule 47) s

/-- `W48` (R93, R183). -/
def execW48 (s : State) : Host.Outcome State Fault Refusal :=
  runCodeword 8 (State.terminatingRule 48) s

/-- `W49` (R93, R183). -/
def execW49 (s : State) : Host.Outcome State Fault Refusal :=
  runCodeword 8 (State.terminatingRule 49) s

/-- `W50` (R93, R183). -/
def execW50 (s : State) : Host.Outcome State Fault Refusal :=
  runCodeword 8 (State.terminatingRule 50) s

/-- `W51` (R93, R183). -/
def execW51 (s : State) : Host.Outcome State Fault Refusal :=
  runCodeword 8 (State.terminatingRule 51) s

/-- `W52` (R93, R183). -/
def execW52 (s : State) : Host.Outcome State Fault Refusal :=
  runCodeword 8 (State.terminatingRule 52) s

/-- `W53` (R93, R183). -/
def execW53 (s : State) : Host.Outcome State Fault Refusal :=
  runCodeword 8 (State.terminatingRule 53) s

/-- `W54` (R93, R183). -/
def execW54 (s : State) : Host.Outcome State Fault Refusal :=
  runCodeword 8 (State.terminatingRule 54) s

/-- `W55` (R93, R183). -/
def execW55 (s : State) : Host.Outcome State Fault Refusal :=
  runCodeword 8 (State.terminatingRule 55) s

/-- `W56` (R93, R183). -/
def execW56 (s : State) : Host.Outcome State Fault Refusal :=
  runCodeword 8 (State.terminatingRule 56) s

/-- `W57` (R93, R183). -/
def execW57 (s : State) : Host.Outcome State Fault Refusal :=
  runCodeword 8 (State.terminatingRule 57) s

/-- `W58` (R93, R183). -/
def execW58 (s : State) : Host.Outcome State Fault Refusal :=
  runCodeword 8 (State.terminatingRule 58) s

/-- `W59` (R93, R183). -/
def execW59 (s : State) : Host.Outcome State Fault Refusal :=
  runCodeword 8 (State.terminatingRule 59) s

/-- `W60` (R93, R183). -/
def execW60 (s : State) : Host.Outcome State Fault Refusal :=
  runCodeword 8 (State.terminatingRule 60) s

/-- `W61` (R93, R183). -/
def execW61 (s : State) : Host.Outcome State Fault Refusal :=
  runCodeword 8 (State.terminatingRule 61) s

/-- `W62` (R93, R183). -/
def execW62 (s : State) : Host.Outcome State Fault Refusal :=
  runCodeword 8 (State.terminatingRule 62) s

/-- `W63` (R93, R183). -/
def execW63 (s : State) : Host.Outcome State Fault Refusal :=
  runCodeword 8 (State.terminatingRule 63) s

/-- `MW64` (R94, R182). -/
def execMw64 (s : State) : Host.Outcome State Fault Refusal :=
  runCodeword 5 (State.makeupRule 64) s

/-- `MW128` (R94, R182). -/
def execMw128 (s : State) : Host.Outcome State Fault Refusal :=
  runCodeword 5 (State.makeupRule 128) s

/-- `MW192` (R94, R182). -/
def execMw192 (s : State) : Host.Outcome State Fault Refusal :=
  runCodeword 6 (State.makeupRule 192) s

/-- `MW256` (R94, R182). -/
def execMw256 (s : State) : Host.Outcome State Fault Refusal :=
  runCodeword 7 (State.makeupRule 256) s

/-- `MW320` (R94, R182). -/
def execMw320 (s : State) : Host.Outcome State Fault Refusal :=
  runCodeword 8 (State.makeupRule 320) s

/-- `MW384` (R94, R182). -/
def execMw384 (s : State) : Host.Outcome State Fault Refusal :=
  runCodeword 8 (State.makeupRule 384) s

/-- `MW448` (R94, R182). -/
def execMw448 (s : State) : Host.Outcome State Fault Refusal :=
  runCodeword 8 (State.makeupRule 448) s

/-- `MW512` (R94, R182). -/
def execMw512 (s : State) : Host.Outcome State Fault Refusal :=
  runCodeword 8 (State.makeupRule 512) s

/-- `MW576` (R94, R182). -/
def execMw576 (s : State) : Host.Outcome State Fault Refusal :=
  runCodeword 8 (State.makeupRule 576) s

/-- `MW640` (R94, R182). -/
def execMw640 (s : State) : Host.Outcome State Fault Refusal :=
  runCodeword 8 (State.makeupRule 640) s

/-- `MW704` (R94, R182). -/
def execMw704 (s : State) : Host.Outcome State Fault Refusal :=
  runCodeword 9 (State.makeupRule 704) s

/-- `MW768` (R94, R182). -/
def execMw768 (s : State) : Host.Outcome State Fault Refusal :=
  runCodeword 9 (State.makeupRule 768) s

/-- `MW832` (R94, R182). -/
def execMw832 (s : State) : Host.Outcome State Fault Refusal :=
  runCodeword 9 (State.makeupRule 832) s

/-- `MW896` (R94, R182). -/
def execMw896 (s : State) : Host.Outcome State Fault Refusal :=
  runCodeword 9 (State.makeupRule 896) s

/-- `MW960` (R94, R182). -/
def execMw960 (s : State) : Host.Outcome State Fault Refusal :=
  runCodeword 9 (State.makeupRule 960) s

/-- `MW1024` (R94, R182). -/
def execMw1024 (s : State) : Host.Outcome State Fault Refusal :=
  runCodeword 9 (State.makeupRule 1024) s

/-- `MW1088` (R94, R182). -/
def execMw1088 (s : State) : Host.Outcome State Fault Refusal :=
  runCodeword 9 (State.makeupRule 1088) s

/-- `MW1152` (R94, R182). -/
def execMw1152 (s : State) : Host.Outcome State Fault Refusal :=
  runCodeword 9 (State.makeupRule 1152) s

/-- `MW1216` (R94, R182). -/
def execMw1216 (s : State) : Host.Outcome State Fault Refusal :=
  runCodeword 9 (State.makeupRule 1216) s

/-- `MW1280` (R94, R182). -/
def execMw1280 (s : State) : Host.Outcome State Fault Refusal :=
  runCodeword 9 (State.makeupRule 1280) s

/-- `MW1344` (R94, R182). -/
def execMw1344 (s : State) : Host.Outcome State Fault Refusal :=
  runCodeword 9 (State.makeupRule 1344) s

/-- `MW1408` (R94, R182). -/
def execMw1408 (s : State) : Host.Outcome State Fault Refusal :=
  runCodeword 9 (State.makeupRule 1408) s

/-- `MW1472` (R94, R182). -/
def execMw1472 (s : State) : Host.Outcome State Fault Refusal :=
  runCodeword 9 (State.makeupRule 1472) s

/-- `MW1536` (R94, R182). -/
def execMw1536 (s : State) : Host.Outcome State Fault Refusal :=
  runCodeword 9 (State.makeupRule 1536) s

/-- `MW1600` (R94, R182). -/
def execMw1600 (s : State) : Host.Outcome State Fault Refusal :=
  runCodeword 9 (State.makeupRule 1600) s

/-- `MW1664` (R94, R182). -/
def execMw1664 (s : State) : Host.Outcome State Fault Refusal :=
  runCodeword 6 (State.makeupRule 1664) s

/-- `MW1728` (R94, R182). -/
def execMw1728 (s : State) : Host.Outcome State Fault Refusal :=
  runCodeword 9 (State.makeupRule 1728) s


end Sys2Proof.Machine
end

