-- ==== Sys2Proof/Machine/Dispatch.lean ====
section
/-! DEFINITION. The dispatch of every instruction to its meaning. -/

namespace Sys2Proof.Machine

def exec (i : Instr) (s : State) : Host.Outcome State Fault Refusal :=
  match i with
  | .w0 => Sys2Proof.Machine.execW0 s
  | .w1 => Sys2Proof.Machine.execW1 s
  | .w2 => Sys2Proof.Machine.execW2 s
  | .w3 => Sys2Proof.Machine.execW3 s
  | .w4 => Sys2Proof.Machine.execW4 s
  | .w5 => Sys2Proof.Machine.execW5 s
  | .w6 => Sys2Proof.Machine.execW6 s
  | .w7 => Sys2Proof.Machine.execW7 s
  | .w8 => Sys2Proof.Machine.execW8 s
  | .w9 => Sys2Proof.Machine.execW9 s
  | .w10 => Sys2Proof.Machine.execW10 s
  | .w11 => Sys2Proof.Machine.execW11 s
  | .w12 => Sys2Proof.Machine.execW12 s
  | .w13 => Sys2Proof.Machine.execW13 s
  | .w14 => Sys2Proof.Machine.execW14 s
  | .w15 => Sys2Proof.Machine.execW15 s
  | .w16 => Sys2Proof.Machine.execW16 s
  | .w17 => Sys2Proof.Machine.execW17 s
  | .w18 => Sys2Proof.Machine.execW18 s
  | .w19 => Sys2Proof.Machine.execW19 s
  | .w20 => Sys2Proof.Machine.execW20 s
  | .w21 => Sys2Proof.Machine.execW21 s
  | .w22 => Sys2Proof.Machine.execW22 s
  | .w23 => Sys2Proof.Machine.execW23 s
  | .w24 => Sys2Proof.Machine.execW24 s
  | .w25 => Sys2Proof.Machine.execW25 s
  | .w26 => Sys2Proof.Machine.execW26 s
  | .w27 => Sys2Proof.Machine.execW27 s
  | .w28 => Sys2Proof.Machine.execW28 s
  | .w29 => Sys2Proof.Machine.execW29 s
  | .w30 => Sys2Proof.Machine.execW30 s
  | .w31 => Sys2Proof.Machine.execW31 s
  | .w32 => Sys2Proof.Machine.execW32 s
  | .w33 => Sys2Proof.Machine.execW33 s
  | .w34 => Sys2Proof.Machine.execW34 s
  | .w35 => Sys2Proof.Machine.execW35 s
  | .w36 => Sys2Proof.Machine.execW36 s
  | .w37 => Sys2Proof.Machine.execW37 s
  | .w38 => Sys2Proof.Machine.execW38 s
  | .w39 => Sys2Proof.Machine.execW39 s
  | .w40 => Sys2Proof.Machine.execW40 s
  | .w41 => Sys2Proof.Machine.execW41 s
  | .w42 => Sys2Proof.Machine.execW42 s
  | .w43 => Sys2Proof.Machine.execW43 s
  | .w44 => Sys2Proof.Machine.execW44 s
  | .w45 => Sys2Proof.Machine.execW45 s
  | .w46 => Sys2Proof.Machine.execW46 s
  | .w47 => Sys2Proof.Machine.execW47 s
  | .w48 => Sys2Proof.Machine.execW48 s
  | .w49 => Sys2Proof.Machine.execW49 s
  | .w50 => Sys2Proof.Machine.execW50 s
  | .w51 => Sys2Proof.Machine.execW51 s
  | .w52 => Sys2Proof.Machine.execW52 s
  | .w53 => Sys2Proof.Machine.execW53 s
  | .w54 => Sys2Proof.Machine.execW54 s
  | .w55 => Sys2Proof.Machine.execW55 s
  | .w56 => Sys2Proof.Machine.execW56 s
  | .w57 => Sys2Proof.Machine.execW57 s
  | .w58 => Sys2Proof.Machine.execW58 s
  | .w59 => Sys2Proof.Machine.execW59 s
  | .w60 => Sys2Proof.Machine.execW60 s
  | .w61 => Sys2Proof.Machine.execW61 s
  | .w62 => Sys2Proof.Machine.execW62 s
  | .w63 => Sys2Proof.Machine.execW63 s
  | .mw64 => Sys2Proof.Machine.execMw64 s
  | .mw128 => Sys2Proof.Machine.execMw128 s
  | .mw192 => Sys2Proof.Machine.execMw192 s
  | .mw256 => Sys2Proof.Machine.execMw256 s
  | .mw320 => Sys2Proof.Machine.execMw320 s
  | .mw384 => Sys2Proof.Machine.execMw384 s
  | .mw448 => Sys2Proof.Machine.execMw448 s
  | .mw512 => Sys2Proof.Machine.execMw512 s
  | .mw576 => Sys2Proof.Machine.execMw576 s
  | .mw640 => Sys2Proof.Machine.execMw640 s
  | .mw704 => Sys2Proof.Machine.execMw704 s
  | .mw768 => Sys2Proof.Machine.execMw768 s
  | .mw832 => Sys2Proof.Machine.execMw832 s
  | .mw896 => Sys2Proof.Machine.execMw896 s
  | .mw960 => Sys2Proof.Machine.execMw960 s
  | .mw1024 => Sys2Proof.Machine.execMw1024 s
  | .mw1088 => Sys2Proof.Machine.execMw1088 s
  | .mw1152 => Sys2Proof.Machine.execMw1152 s
  | .mw1216 => Sys2Proof.Machine.execMw1216 s
  | .mw1280 => Sys2Proof.Machine.execMw1280 s
  | .mw1344 => Sys2Proof.Machine.execMw1344 s
  | .mw1408 => Sys2Proof.Machine.execMw1408 s
  | .mw1472 => Sys2Proof.Machine.execMw1472 s
  | .mw1536 => Sys2Proof.Machine.execMw1536 s
  | .mw1600 => Sys2Proof.Machine.execMw1600 s
  | .mw1664 => Sys2Proof.Machine.execMw1664 s
  | .mw1728 => Sys2Proof.Machine.execMw1728 s
  | .b0 => Sys2Proof.Machine.execB0 s
  | .b1 => Sys2Proof.Machine.execB1 s
  | .b2 => Sys2Proof.Machine.execB2 s
  | .b3 => Sys2Proof.Machine.execB3 s
  | .b4 => Sys2Proof.Machine.execB4 s
  | .b5 => Sys2Proof.Machine.execB5 s
  | .b6 => Sys2Proof.Machine.execB6 s
  | .b7 => Sys2Proof.Machine.execB7 s
  | .b8 => Sys2Proof.Machine.execB8 s
  | .b9 => Sys2Proof.Machine.execB9 s
  | .b10 => Sys2Proof.Machine.execB10 s
  | .b11 => Sys2Proof.Machine.execB11 s
  | .b12 => Sys2Proof.Machine.execB12 s
  | .b13 => Sys2Proof.Machine.execB13 s
  | .b14 => Sys2Proof.Machine.execB14 s
  | .b15 => Sys2Proof.Machine.execB15 s
  | .b16 => Sys2Proof.Machine.execB16 s
  | .b17 => Sys2Proof.Machine.execB17 s
  | .b18 => Sys2Proof.Machine.execB18 s
  | .b19 => Sys2Proof.Machine.execB19 s
  | .b20 => Sys2Proof.Machine.execB20 s
  | .b21 => Sys2Proof.Machine.execB21 s
  | .b22 => Sys2Proof.Machine.execB22 s
  | .b23 => Sys2Proof.Machine.execB23 s
  | .b24 => Sys2Proof.Machine.execB24 s
  | .b25 => Sys2Proof.Machine.execB25 s
  | .b26 => Sys2Proof.Machine.execB26 s
  | .b27 => Sys2Proof.Machine.execB27 s
  | .b28 => Sys2Proof.Machine.execB28 s
  | .b29 => Sys2Proof.Machine.execB29 s
  | .b30 => Sys2Proof.Machine.execB30 s
  | .b31 => Sys2Proof.Machine.execB31 s
  | .b32 => Sys2Proof.Machine.execB32 s
  | .b33 => Sys2Proof.Machine.execB33 s
  | .b34 => Sys2Proof.Machine.execB34 s
  | .b35 => Sys2Proof.Machine.execB35 s
  | .b36 => Sys2Proof.Machine.execB36 s
  | .b37 => Sys2Proof.Machine.execB37 s
  | .b38 => Sys2Proof.Machine.execB38 s
  | .b39 => Sys2Proof.Machine.execB39 s
  | .b40 => Sys2Proof.Machine.execB40 s
  | .b41 => Sys2Proof.Machine.execB41 s
  | .b42 => Sys2Proof.Machine.execB42 s
  | .b43 => Sys2Proof.Machine.execB43 s
  | .b44 => Sys2Proof.Machine.execB44 s
  | .b45 => Sys2Proof.Machine.execB45 s
  | .b46 => Sys2Proof.Machine.execB46 s
  | .b47 => Sys2Proof.Machine.execB47 s
  | .b48 => Sys2Proof.Machine.execB48 s
  | .b49 => Sys2Proof.Machine.execB49 s
  | .b50 => Sys2Proof.Machine.execB50 s
  | .b51 => Sys2Proof.Machine.execB51 s
  | .b52 => Sys2Proof.Machine.execB52 s
  | .b53 => Sys2Proof.Machine.execB53 s
  | .b54 => Sys2Proof.Machine.execB54 s
  | .b55 => Sys2Proof.Machine.execB55 s
  | .b56 => Sys2Proof.Machine.execB56 s
  | .b57 => Sys2Proof.Machine.execB57 s
  | .b58 => Sys2Proof.Machine.execB58 s
  | .b59 => Sys2Proof.Machine.execB59 s
  | .b60 => Sys2Proof.Machine.execB60 s
  | .b61 => Sys2Proof.Machine.execB61 s
  | .b62 => Sys2Proof.Machine.execB62 s
  | .b63 => Sys2Proof.Machine.execB63 s
  | .mb64 => Sys2Proof.Machine.execMb64 s
  | .mb128 => Sys2Proof.Machine.execMb128 s
  | .mb192 => Sys2Proof.Machine.execMb192 s
  | .mb256 => Sys2Proof.Machine.execMb256 s
  | .mb320 => Sys2Proof.Machine.execMb320 s
  | .mb384 => Sys2Proof.Machine.execMb384 s
  | .mb448 => Sys2Proof.Machine.execMb448 s
  | .mb512 => Sys2Proof.Machine.execMb512 s
  | .mb576 => Sys2Proof.Machine.execMb576 s
  | .mb640 => Sys2Proof.Machine.execMb640 s
  | .mb704 => Sys2Proof.Machine.execMb704 s
  | .mb768 => Sys2Proof.Machine.execMb768 s
  | .mb832 => Sys2Proof.Machine.execMb832 s
  | .mb896 => Sys2Proof.Machine.execMb896 s
  | .mb960 => Sys2Proof.Machine.execMb960 s
  | .mb1024 => Sys2Proof.Machine.execMb1024 s
  | .mb1088 => Sys2Proof.Machine.execMb1088 s
  | .mb1152 => Sys2Proof.Machine.execMb1152 s
  | .mb1216 => Sys2Proof.Machine.execMb1216 s
  | .mb1280 => Sys2Proof.Machine.execMb1280 s
  | .mb1344 => Sys2Proof.Machine.execMb1344 s
  | .mb1408 => Sys2Proof.Machine.execMb1408 s
  | .mb1472 => Sys2Proof.Machine.execMb1472 s
  | .mb1536 => Sys2Proof.Machine.execMb1536 s
  | .mb1600 => Sys2Proof.Machine.execMb1600 s
  | .mb1664 => Sys2Proof.Machine.execMb1664 s
  | .mb1728 => Sys2Proof.Machine.execMb1728 s
  | .mx1792 => Sys2Proof.Machine.execMx1792 s
  | .mx1856 => Sys2Proof.Machine.execMx1856 s
  | .mx1920 => Sys2Proof.Machine.execMx1920 s
  | .mx1984 => Sys2Proof.Machine.execMx1984 s
  | .mx2048 => Sys2Proof.Machine.execMx2048 s
  | .mx2112 => Sys2Proof.Machine.execMx2112 s
  | .mx2176 => Sys2Proof.Machine.execMx2176 s
  | .mx2240 => Sys2Proof.Machine.execMx2240 s
  | .mx2304 => Sys2Proof.Machine.execMx2304 s
  | .mx2368 => Sys2Proof.Machine.execMx2368 s
  | .mx2432 => Sys2Proof.Machine.execMx2432 s
  | .mx2496 => Sys2Proof.Machine.execMx2496 s
  | .mx2560 => Sys2Proof.Machine.execMx2560 s
  | .eol => Sys2Proof.Machine.execEol s
  | .fillBit => Sys2Proof.Machine.execFillBit s
  | .v0 => Sys2Proof.Machine.execV0 s
  | .vr1 => Sys2Proof.Machine.execVr1 s
  | .vl1 => Sys2Proof.Machine.execVl1 s
  | .h => Sys2Proof.Machine.execH s
  | .p => Sys2Proof.Machine.execP s
  | .vr2 => Sys2Proof.Machine.execVr2 s
  | .vl2 => Sys2Proof.Machine.execVl2 s
  | .vr3 => Sys2Proof.Machine.execVr3 s
  | .vl3 => Sys2Proof.Machine.execVl3 s
  | .ext2d => Sys2Proof.Machine.execExt2d s
  | .ext1d => Sys2Proof.Machine.execExt1d s
  | .t1 => Sys2Proof.Machine.execT1 s
  | .t0 => Sys2Proof.Machine.execT0 s
  | .reset => Sys2Proof.Machine.execReset s
  | .start => Sys2Proof.Machine.execStart s
  | .hasBits n => Sys2Proof.Machine.execHasBits n s
  | .peekBits n => Sys2Proof.Machine.execPeekBits n s
  | .getBits n => Sys2Proof.Machine.execGetBits n s
  | .clearBits n => Sys2Proof.Machine.execClearBits n s
  | .look n => Sys2Proof.Machine.execLook n s
  | .byteAlign => Sys2Proof.Machine.execByteAlign s
  | .wordAlign => Sys2Proof.Machine.execWordAlign s
  | .reverseBits => Sys2Proof.Machine.execReverseBits s
  | .drain => Sys2Proof.Machine.execDrain s
  | .putBits v n => Sys2Proof.Machine.execPutBits v n s
  | .putAlign => Sys2Proof.Machine.execPutAlign s
  | .finish => Sys2Proof.Machine.execFinish s
  | .decodeRun colour => Sys2Proof.Machine.execDecodeRun colour s
  | .decodeMode => Sys2Proof.Machine.execDecodeMode s
  | .termCode colour n => Sys2Proof.Machine.execTermCode colour n s
  | .makeupCode colour m => Sys2Proof.Machine.execMakeupCode colour m s
  | .modeCode m => Sys2Proof.Machine.execModeCode m s
  | .decodeStep => Sys2Proof.Machine.execDecodeStep s
  | .fillPixels colour x0 x1 => Sys2Proof.Machine.execFillPixels colour x0 x1 s
  | .fillRun n => Sys2Proof.Machine.execFillRun n s
  | .padRow => Sys2Proof.Machine.execPadRow s
  | .closeRow align => Sys2Proof.Machine.execCloseRow align s
  | .onEOL => Sys2Proof.Machine.execOnEOL s
  | .onError => Sys2Proof.Machine.execOnError s
  | .onEOD fromMode => Sys2Proof.Machine.execOnEOD fromMode s
  | .record pos => Sys2Proof.Machine.execRecord pos s
  | .findB => Sys2Proof.Machine.execFindB s
  | .modeStep => Sys2Proof.Machine.execModeStep s
  | .countPixels colour max => Sys2Proof.Machine.execCountPixels colour max s
  | .selectMode posA1 posB1 posB2 => Sys2Proof.Machine.execSelectMode posA1 posB1 posB2 s
  | .encodeStepG4 => Sys2Proof.Machine.execEncodeStepG4 s
  | .putRun colour n => Sys2Proof.Machine.execPutRun colour n s
  | .encodeRowG31D => Sys2Proof.Machine.execEncodeRowG31D s

end Sys2Proof.Machine
end

