-- ==== Sys2Proof/Machine/Stepping.lean ====
section
/-! DEFINITION. What a step does around an instruction's meaning: the dispatch of a decoded instruction, the lookup
results that are no instruction, the host's accesses, and the placing of a word for the next fetch. -/

namespace Sys2Proof.Machine

/-- A decode step (R180, R181): the instruction at the stream position runs; ERROR and EOD have their rules (R191,
R193). -/
def decodeDispatch (run : Instr → State → Host.Outcome State Fault Refusal) (s : State) :
    Host.Outcome State Fault Refusal :=
  match s.fetch with
  | .ok i => run i s
  | .reject .endOfData => s.streamEnd.out
  | .reject _ => s.streamError.out

/-- A unit command (R43, R108): the selected operation runs; a code or an operand word without a meaning is refused. -/
def selectDispatch (run : Instr → State → Host.Outcome State Fault Refusal) (d : Decoded) (s : State) :
    Host.Outcome State Fault Refusal :=
  match d with
  | .ok i => run i s
  | .reject .reservedOperand => .refused .reservedOperand
  | .reject _ => .refused .reservedSelect

/-- A host command that is no unit command (R40, R42, R77, R313, R338). A register is read in every state; what a CFG
register answers in RUN is the model's choice (DESIGN CHOICE, log 27). -/
def hostAccess (cmd : HostCommand) (s : State) : Host.Outcome State Fault Refusal :=
  match cmd with
  | .select _ _ _ _ => .next s
  | .idle => .next s
  | .writeCfg reg v => .next (s.hostWriteCfg reg v)
  | .readReg reg => .next (s.setResult (.register (s.readReg reg)))
  | .writeSrc a v => hostSrc a (fun s => { s with src := s.src.write a v }) s
  | .readSrc a => hostSrc a (fun s => s.setResult (.byte (s.src.read a))) s
  | .writeDst a v => hostDst (fun s => s.setDst (s.dst.write a v)) s
  | .readDst a => hostDst (fun s => s.setResult (.byte (s.dst.read a))) s

/-- The CFG of a decode job of two bytes of SRC whose first codeword is read in the context `ctx`: DECODE_G3 without
G32D for a run context, DECODE_G4 for the mode context; a width of 0, which no job can have (R303), becomes 1728. -/
def Cfg.forContext (g : Cfg) (ctx : Context) : Cfg :=
  { g with
    op := if ctx = .mode then 1 else 0
    options := 0
    width := if g.width = 0 then 1728 else g.width
    srcLen := 2 }

/-- `s` as a running decode job at stream position 0 of two bytes of SRC that hold the 13-bit window `v`, bit 12 first,
in the context `ctx` (log 16). -/
def State.withStreamWord (s : State) (ctx : Context) (v : Nat) : State :=
  { s with
    cfg := s.cfg.forContext ctx
    status := { s.status with state := .run }
    reader := { buf := 0, cnt := 0, consumed := 0, len := 2, rev := false }
    c := if ctx = .black then .black else .white
    hphase := 0
    lineMode := if ctx = .mode then .l2d else .l1d
    src := (s.src.write 0 (BitVec.ofNat 8 (v >>> 5))).write 1 (BitVec.ofNat 8 (v <<< 3))
    commands := [] }

/-- `s` as a running ENCODE_G4 job at the start of a row (log 16). -/
def State.withEncodeJob (s : State) : State :=
  { s with
    cfg := { s.cfg with op := 2, width := if s.cfg.width = 0 then 1728 else s.cfg.width }
    status := { s.status with state := .run }
    a0 := 0 }

/-- `s` where the unit command `opsel` has its effect: a step operation in a running job of its kind, any other one
outside RUN (U5). -/
def State.readyFor (s : State) (opsel : Byte) : State :=
  if opsel = 0x30 then s.withStreamWord .white 0
  else if opsel = 0x41 then s.withStreamWord .mode 0
  else if opsel = 0x52 then s.withEncodeJob
  else if s.running then { s with status := { s.status with state := .idle } }
  else s

/-- `s` with one unit command pending, so that the next step runs it (log 16). -/
def State.withSelect (s : State) (opsel : Byte) (x y z : Word) : State :=
  { s.readyFor opsel with commands := [.select opsel x y z] }

end Sys2Proof.Machine
end

