-- ==== Sys2Proof/Machine/Step.lean ====
section
/-! DEFINITION. One step of the machine, and the placing of a table word where the next step fetches it. -/

namespace Sys2Proof.Machine

/-- The block's own step (R12, R180, R284, R285, R313): nothing outside RUN; in a decode job the instruction at the
stream position, or the lookup result that is no instruction; in an encode job one step of its body. -/
def blockStep (s : State) : Host.Outcome State Fault Refusal :=
  if s.running then
    match s.cfg.job with
    | .decodeG3 => decodeDispatch exec s
    | .decodeG4 => decodeDispatch exec s
    | .encodeG4 => s.jobStepG4
    | .encodeG31D => s.jobStepG31D.out
  else .next s

/-- One step: the next host command, or the block's own step where the host does nothing (log 6). -/
def step (s : State) : Host.Outcome State Fault Refusal :=
  match s.commands with
  | [] => blockStep s
  | .idle :: rest => blockStep (s.setCommands rest)
  | .select opsel x y z :: rest => selectDispatch exec (decodeSelect opsel x y z) (s.setCommands rest)
  | cmd :: rest => hostAccess cmd (s.setCommands rest)

/-- `s` with the table word `w` where the very next step fetches it (log 16): a unit command as the only host command,
or a codeword as the first bits of SRC in a running decode job whose context reads it. -/
def State.withFetchWord (s : State) (nbits w : Nat) : State :=
  if nbits ≤ 8 then s.withSelect (BitVec.ofNat 8 w) (BitVec.ofNat 32 (w >>> 8)) 0 0
  else s.withStreamWord (tableContext (w % 2 ^ 13)) (w % 2 ^ 13)

end Sys2Proof.Machine
end

