-- ==== Sys2Proof/Safety.lean ====
section
/-! DEFINITION. The terms in which claims are stated: the abstract bit stream behind the cursors, the pixels of a row,
the bits an encoder owes, and the conditions that hold of a safe run (`spec/10_state.md` R22, R26, R29, R32). None of
these is used by the machine. -/

namespace Sys2Proof.Machine

/-! ### The bit stream of SRC (R8, R62, R143) -/

/-- Byte `i` of the stream, after the fill-order stage (R62). -/
def streamByte (src : Memory) (rev : Bool) (i : Nat) : Byte :=
  if rev then reverseByte (src.read i) else src.read i

/-- Bit `k` of the stream (R8). -/
def streamBit (src : Memory) (rev : Bool) (k : Nat) : Bool := (streamByte src rev (k / 8)).getLsbD (7 - k % 8)

/-- The `n` stream bits from bit `k` on, the first one first. -/
def streamBits (src : Memory) (rev : Bool) (k n : Nat) : List Bool :=
  (List.range n).map fun j => streamBit src rev (k + j)

/-- A bit string as an unsigned number, its first bit most significant (R8). -/
def bitsValue (l : List Bool) : Nat := l.foldl (fun v b => 2 * v + b.toNat) 0

/-- The cursor invariant (R22): the valid bits are the stream bits from `P` on, every bit below them is 0. -/
abbrev Reader.Ok (src : Memory) (r : Reader) : Prop :=
  r.cnt ≤ 40 ∧ r.consumed ≤ r.len ∧ r.cnt ≤ 8 * r.consumed ∧
  ∀ j, j < 40 → r.buf.getLsbD (39 - j) = (decide (j < r.cnt) && streamBit src r.rev (r.position + j))

/-- The stream bits the reader has left (R142). -/
def Reader.rest (src : Memory) (r : Reader) : List Bool := streamBits src r.rev r.position (8 * r.len - r.position)

/-- The number that `look(n)` answers (R136): the next `n` bits of the stream, zeros after its end. -/
def Reader.ahead (src : Memory) (r : Reader) (n : Nat) : Nat :=
  bitsValue ((r.rest src).take n) * 2 ^ (n - ((r.rest src).take n).length)

/-- `r'` is `r` after it moved `k` bits on: the position advanced, the source and the fill order kept, the cursor
invariant true (R22, R24). How far the buffer runs ahead is not said (R25). -/
structure Reader.Moved (src : Memory) (r : Reader) (k : Nat) (r' : Reader) : Prop where
  ok : r'.Ok src
  position : r'.position = r.position + k
  len : r'.len = r.len
  rev : r'.rev = r.rev

/-- The bits from the position to the next byte boundary, `k` bits on (R139). -/
def Reader.toByte (r : Reader) (k : Nat) : Nat := 8 * ((r.position + k + 7) / 8) - r.position

/-! ### The abstract cursor (R143) -/

/-- The abstract cursor of R143: over the bit string of SRC, its only state the position. -/
structure AbstractCursor where
  bits : List Bool
  pos : Nat
deriving DecidableEq, Repr

/-- The abstract cursor that a reader stands for (R143): `buf`, `cnt` and `consumed` show in nothing but `P`. -/
def Reader.abstract (src : Memory) (r : Reader) : AbstractCursor :=
  { bits := streamBits src r.rev 0 (8 * r.len), pos := r.position }

/-- The bits from the position on. -/
def AbstractCursor.left (a : AbstractCursor) : List Bool := a.bits.drop a.pos

/-- Bits P..P+n−1 as a number, zero-padded after the end (R143). -/
def AbstractCursor.look (a : AbstractCursor) (n : Nat) : Nat :=
  bitsValue (a.left.take n ++ List.replicate (n - a.left.length) false)

/-- The reader operations that R143 lists, with `peekBits` and `getBits`, which R133 and R134 make of them. -/
inductive ReaderOp where
  | hasBits (n : Nat)
  | peekBits (n : Nat)
  | getBits (n : Nat)
  | clearBits (n : Nat)
  | look (n : Nat)
  | byteAlign
  | wordAlign
  | drain
deriving DecidableEq, Repr

/-- The unit operation of the machine that it is (R108). -/
def ReaderOp.instr : ReaderOp → Instr
  | .hasBits n => .hasBits n
  | .peekBits n => .peekBits n
  | .getBits n => .getBits n
  | .clearBits n => .clearBits n
  | .look n => .look n
  | .byteAlign => .byteAlign
  | .wordAlign => .wordAlign
  | .drain => .drain

/-- What it returns on the abstract cursor (R143); none for an operation that returns no value. -/
def ReaderOp.answer (a : AbstractCursor) : ReaderOp → Option OpResult
  | .hasBits n => some (.flag (decide (n ≤ a.left.length)))
  | .peekBits n => some (.bits (a.look n))
  | .getBits n => some (.bits (a.look n))
  | .clearBits _ => none
  | .look n => some (.window (a.look n) (min n a.left.length))
  | .byteAlign => none
  | .wordAlign => none
  | .drain => none

/-- Where it moves the abstract cursor (R143). -/
def ReaderOp.target (a : AbstractCursor) : ReaderOp → Nat
  | .hasBits _ => a.pos
  | .peekBits _ => a.pos
  | .getBits n => a.pos + n
  | .clearBits n => a.pos + n
  | .look _ => a.pos
  | .byteAlign => 8 * ((a.pos + 7) / 8)
  | .wordAlign => min (16 * ((a.pos + 15) / 16)) a.bits.length
  | .drain => a.bits.length

/-- What `result` holds after each operation of a sequence, and the cursor at its end, on the abstract cursor; `v` is what
it holds before. -/
def abstractOps : List ReaderOp → OpResult → AbstractCursor → List OpResult × AbstractCursor
  | [], _, a => ([], a)
  | op :: ops, v, a =>
    let v := (op.answer a).getD v
    let rest := abstractOps ops v { a with pos := op.target a }
    (v :: rest.1, rest.2)

/-- The same on the machine; none where one of the operations is refused (U1, U2). -/
def machineOps : List ReaderOp → State → Option (List OpResult × State)
  | [], s => some ([], s)
  | op :: ops, s =>
    match exec op.instr s with
    | .next t => (machineOps ops t).map fun rest => (t.result :: rest.1, rest.2)
    | _ => none

/-! ### Lookups on a bit string (R161 to R169) -/

/-- The low `n` bits of `v`, the most significant first (R144). -/
def bitsOf (v n : Nat) : List Bool := (List.range n).map fun i => v.testBit (n - 1 - i)

/-- The bit string begins with twelve zeros: fill (R99, R163). -/
def fillAhead (bits : List Bool) : Bool := (List.replicate 12 false).isPrefixOf bits

/-- The bit string begins with the EOL codeword (R98). -/
def eolAhead (bits : List Bool) : Bool := (bitsOf 1 12).isPrefixOf bits

/-- The row of `RunSet(k)` whose codeword begins the bit string (R161). -/
def runRowAhead (k : Colour) (bits : List Bool) : Option CodeRow :=
  (runSet k).find? fun r => (bitsOf r.pattern r.len).isPrefixOf bits

/-- The mode code or EXT2D that begins the bit string (R167). -/
def modeRowAhead (bits : List Bool) : Option ModeRow :=
  modeSet.find? fun r => (bitsOf r.pattern r.len).isPrefixOf bits

/-- What a run lookup answers on a bit string, and how many bits it consumes (R161 to R165). -/
def runAhead (k : Colour) (bits : List Bool) : RunResult × Nat :=
  if bits = [] then (.eod, 0)
  else match runRowAhead k bits with
    | some r => (if r.instr = .eol then .eol else .run r.value, r.len)
    | none => (if fillAhead bits then .zero else .error, 0)

/-- What a mode lookup answers on a bit string, and how many bits it consumes (R167 to R169). -/
def modeAhead (bits : List Bool) : ModeResult × Nat :=
  if bits = [] then (.eod, 0)
  else match modeRowAhead bits with
    | some r => (r.result, r.len)
    | none => (if (List.replicate 7 false).isPrefixOf bits then .ext1d else .error, 0)

/-- The instruction that a run context reads from a bit string (R92, R106). -/
def runInstrAhead (k : Colour) (bits : List Bool) : Decoded :=
  if bits = [] then .reject .endOfData
  else match runRowAhead k bits with
    | some r => .ok r.instr
    | none => if fillAhead bits then .ok .fillBit else .reject .noCodeword

/-- The instruction that a context reads from a bit string (R92, R106). -/
def instrAhead : Context → List Bool → Decoded
  | .white, bits => runInstrAhead .white bits
  | .black, bits => runInstrAhead .black bits
  | .mode, bits =>
    if bits = [] then .reject .endOfData
    else match modeRowAhead bits with
      | some r => .ok r.instr
      | none => if (List.replicate 7 false).isPrefixOf bits then .ok .ext1d else .reject .noCodeword

/-! ### Memories -/

/-- Both memories are in canonical form. -/
abbrev State.memoriesOk (s : State) : Prop := s.src.wf = true ∧ s.dst.wf = true

/-! ### Pixels (R61, R64, R65) -/

/-- The colour that a stored bit is (R65, R253). -/
def State.colourOf (s : State) (b : Bool) : Colour := if b = s.blackIs1 then .black else .white

/-- Pixels 0 .. n−1 of row `r` of a bitmap or raster (R61, R64). -/
def State.rowPixels (s : State) (m : Memory) (r n : Nat) : List Colour :=
  (List.range n).map fun x => s.colourOf (m.pixel (r * s.stride) x)

/-- The changing elements of a line of pixels (R31, R234): the positions, from `x` on, whose colour differs from the
pixel before; `prev` is the colour of the pixel before the first. -/
def changes : Colour → Nat → List Colour → List Nat
  | _, _, [] => []
  | prev, x, p :: ps => if p = prev then changes p (x + 1) ps else x :: changes p (x + 1) ps

/-- Bit `j` of byte `a` of DST after pixels x0 .. x1−1 of the current row are drawn in a colour (R185, R186): a row that
was not open is white first. -/
def State.drawnBit (s : State) (k : Colour) (x0 x1 a j : Nat) : Bool :=
  if s.rowBase ≤ a ∧ a < s.rowBase + s.stride then
    if x0 ≤ 8 * (a - s.rowBase) + (7 - j) ∧ 8 * (a - s.rowBase) + (7 - j) < x1 then s.bit k
    else if s.rowOpen then (s.dst.read a).getLsbD j else s.bit .white
  else (s.dst.read a).getLsbD j

/-- `m` is DST after that drawing: every byte of the address space is said. -/
def State.Drawn (s : State) (k : Colour) (x0 x1 : Nat) (m : Memory) : Prop :=
  ∀ a j, j < 8 → (m.read a).getLsbD j = s.drawnBit k x0 x1 a j

/-- OpenRow raises no CapacityFault (R185). -/
abbrev State.RoomForRow (s : State) : Prop := s.rowOpen = true ∨ s.rows < s.capRows ∨ s.destFixed = false

/-- `cap_rows` after OpenRow (R185, R196). -/
def State.grownRows (s : State) : Nat :=
  if s.rowOpen = true ∨ s.rows < s.capRows then s.capRows else max 1 (2 * s.capRows)

/-! ### Row events (R189 to R194) -/

/-- STATUS after `Stop(reason)` with `rows` rows closed and `used` bytes pulled (R194). -/
def State.stoppedStatus (s : State) (reason : StopCode) (rows used : Nat) : Status :=
  { state := .done, stop := reason, rows := rows, endedOnEod := decide (reason = .eod), faultCode := s.status.faultCode,
    outLen := s.stride * rows, srcUsed := used }

/-- STATUS after a CapacityFault (R304). -/
def capacityStatus (rows used : Nat) : Status :=
  { state := .fault, stop := .none, rows := rows, endedOnEod := false, faultCode := .capacity, outLen := 0,
    srcUsed := used }

/-- The row that is closed is row H − 1: the job stops (R189). -/
abbrev State.LastRow (s : State) : Prop := s.imageHeight ≠ 0 ∧ s.rows + 1 = s.imageHeight

/-- `s` after its row, whose changing elements are `line`, is closed with the reader at `rd` (R189); the last row of a known
height reaches Stop(HEIGHT), which with no job in RUN writes no STATUS (log 25). -/
def State.rowClosed (s : State) (line : List Nat) (rd : Reader) : State :=
  { s with
    reader := rd
    rows := s.rows + 1
    ref := line
    cur := []
    c := .white
    a0 := 0
    atStart := true
    acc := 0
    hphase := 0
    afterZero := false
    rowOpen := false
    lineMode := if s.kind = some .g3_2d then .l2d else s.lineMode
    status := if s.LastRow ∧ s.running = true then s.stoppedStatus .height (s.rows + 1) rd.consumed else s.status
    result := if s.LastRow ∧ s.running = false then .stopped .height else s.result }

/-- `u`, what a step of `s` had written before, after `Stop(reason)` has ended it: a job in RUN stops (R194), with none in
RUN the reason is left in `result` (R314, log 25). -/
def State.endedBy (s : State) (reason : StopCode) (u : State) : State :=
  { u with
    status := if s.running then s.stoppedStatus reason u.rows u.reader.consumed else s.status
    result := if s.running then s.result else .stopped reason }

/-- `s` after a CapacityFault that reports `rows` rows: a job in RUN ends in FAULT (R304), with none in RUN the fault is
left in `result` (R314, log 25). -/
def State.faulted (s : State) (rows : Nat) : State :=
  { s with
    status := if s.running then capacityStatus rows s.reader.consumed else s.status
    result := if s.running then s.result else .raised .capacity }

/-- How far the reader moves when a row is closed with align = 1 after `k` bits were consumed (R189). -/
def State.closeMove (s : State) (k : Nat) : Nat := if s.rowAlign then s.reader.toByte k else k

/-- The changing elements of the row once the rest of it is white (R192). -/
def State.paddedLine (s : State) : List Nat :=
  if s.c = .black ∧ s.a0 < s.imageWidth then recordChange s.cur s.a0 else s.cur

/-- `s` with DST `m` after its row was opened (R185). -/
def State.opened (s : State) (m : Memory) : State := { s with dst := m, rowOpen := true, capRows := s.grownRows }

/-- `s` with the registers of an EOL at a row start (R190). -/
def State.framed (s : State) : State :=
  { s with acc := 0, hphase := 0, afterZero := false, c := .white, cur := [], atStart := true }

/-- What follows an EOL once the row is settled (R190): why the job stops, if it does, how the next line is coded, and how
many bits are consumed. -/
def State.eolTail (s : State) (bits : List Bool) : Option StopCode × LineMode × Nat :=
  if s.kind = some .g3_2d then
    match bits with
    | [] => (some .eod, s.lineMode, 0)
    | tag :: bits =>
      if s.hasEob ∧ eolAhead bits then (some .eob, lineModeOfTag tag, 13) else (none, lineModeOfTag tag, 1)
  else if s.hasEob ∧ eolAhead bits then (some .eob, s.lineMode, 12)
  else (none, s.lineMode, 0)

/-- `s`, its row settled, after that, with the reader at `rd` (R190). -/
def State.afterTail (s : State) (bits : List Bool) (rd : Reader) : State :=
  { s with
    reader := rd
    lineMode := (s.eolTail bits).2.1
    status := match (s.eolTail bits).1 with
      | none => s.status
      | some reason => s.stoppedStatus reason s.rows rd.consumed }

/-- Where the resynchronising scan finds an EOL, in moves of `d` bits (R191). -/
def scanAhead (d : Nat) (bits : List Bool) : Option Nat :=
  (List.range (bits.length + 1)).find? fun j => eolAhead (bits.drop (d * j))

/-! ### What a writer has written (R26, R144) -/

/-- The output stream so far: the bytes below `wlen`, then the `wn` bits of the byte being assembled. -/
def State.written (s : State) : List Bool :=
  streamBits s.dst false 0 (8 * s.writer.wlen) ++ (List.range s.writer.wn).map fun j => s.writer.wacc.getLsbD (7 - j)

/-- The writer invariant (R26). -/
abbrev Writer.Ok (w : Writer) : Prop := w.wn < 8 ∧ ∀ j, j < 8 → w.wn ≤ j → w.wacc.getLsbD (7 - j) = false

/-- `n` more bits fit below DST_CAP (R144): they complete no byte, or every byte they complete has room. -/
abbrev State.RoomForBits (s : State) (n : Nat) : Prop :=
  s.writer.wn + n < 8 ∨ s.writer.wlen + (s.writer.wn + n) / 8 ≤ s.dstCap

/-- `t` is `s` after the writer took `bits` (R144): they follow what was written before, DST changes only where bytes
were completed, and nothing but the writer and DST changes. -/
structure State.Wrote (s : State) (bits : List Bool) (t : State) : Prop where
  same : t = { s with dst := t.dst, writer := t.writer }
  written : t.written = s.written ++ bits
  position : 8 * t.writer.wlen + t.writer.wn = 8 * s.writer.wlen + s.writer.wn + bits.length
  outside : ∀ a, a < s.writer.wlen ∨ t.writer.wlen ≤ a → t.dst.read a = s.dst.read a
  writer_ok : t.writer.Ok
  dst_wf : t.dst.wf = true

/-- `t` is `s` after the writer, given `bits` that do not all fit below DST_CAP, has met a CapacityFault (R144, R304): every
byte below DST_CAP that they complete is in DST, no other byte of it changes, and the fault is entered. -/
structure State.Overflowed (s : State) (bits : List Bool) (t : State) : Prop where
  same : t = ({ s with dst := t.dst, writer := t.writer } : State).faulted s.y
  wlen : t.writer.wlen = max s.writer.wlen s.dstCap
  written : streamBits t.dst false 0 (8 * t.writer.wlen) = (s.written ++ bits).take (8 * t.writer.wlen)
  outside : ∀ a, a < s.writer.wlen ∨ t.writer.wlen ≤ a → t.dst.read a = s.dst.read a
  dst_wf : t.dst.wf = true

/-- The bits of a codeword; an absent one has none. -/
def codeBits (code : Option (Nat × Nat)) : List Bool :=
  match code with
  | some (pattern, len) => bitsOf pattern len
  | none => []

/-- The make-up values of a run length (R259): 2560 as often as more than 2560 remains, then the rest. -/
def makeupValues (n : Nat) : List Nat :=
  let m := 64 * (n / 64)
  List.replicate ((m - 1) / 2560) 2560 ++ if 0 < m then [m - 2560 * ((m - 1) / 2560)] else []

/-- The bits that code a run (R259): its make-up codes, then one terminating code. -/
def runBits (k : Colour) (n : Nat) : List Bool :=
  (makeupValues n).flatMap (fun m => codeBits (makeupCode k m)) ++ codeBits (termCode k (n % 64))

/-- The bits that code a line one-dimensionally (R265): alternating runs from white on; `n` pixels of colour `k` stand
before the first pixel of the list. -/
def lineBits : Colour → Nat → List Colour → List Bool
  | k, n, [] => runBits k n
  | k, n, p :: ps => if p = k then lineBits k (n + 1) ps else runBits k n ++ lineBits p 1 ps

/-- The mode that `EncodeStepG4` selects (R257, R258). -/
def State.selected (s : State) : ModeName := selectMode s.findA.1 s.findB.1 s.findB.2

/-- The bits that `EncodeStepG4` puts (R258): the mode code, and in horizontal mode the two runs. -/
def State.stepBits (s : State) : List Bool :=
  match s.selected with
  | .horizontal => codeBits (modeCode .horizontal) ++
      (runBits s.c (s.findA.1 - s.a0) ++ runBits (oppositeColour s.c) (s.findA.2 - s.findA.1))
  | m => codeBits (modeCode m)

/-- Where `EncodeStepG4` moves `a0` (R258). -/
def State.stepTarget (s : State) : Nat :=
  match s.selected with
  | .pass => s.findB.2
  | .horizontal => s.findA.2
  | _ => s.findA.1

/-- The colour after `EncodeStepG4` (R258): only a vertical mode flips it. -/
def State.stepColour (s : State) : Colour :=
  match s.selected with
  | .vertical _ => oppositeColour s.c
  | _ => s.c

/-- `bits`, and where `also` says so the zero bits that complete the byte in which they end (R145). -/
def State.completed (s : State) (also : Bool) (bits : List Bool) : List Bool :=
  bits ++ if also then List.replicate ((8 - (s.writer.wn + bits.length) % 8) % 8) false else []

/-- What a step that ends row `y` of an encode job puts, `bits` being its own codes: the row alignment of R262, and after
the last row the end-of-block marker of R263 (ENCODE_G4 only) and the zero bits of R264. -/
def State.rowEndBits (s : State) (bits : List Bool) : List Bool :=
  let row := s.completed s.rowAlign bits
  if s.y + 1 < s.imageHeight then row
  else s.completed true (row ++ if s.hasEob ∧ s.cfg.job = .encodeG4 then bitsOf 1 12 ++ bitsOf 1 12 else [])

/-- STATUS after such a step, with `outLen` bytes written and `used` pulled: the job goes on, or after the last row is done
(R251, R266, R289). -/
def State.rowEndStatus (s : State) (outLen used : Nat) : Status :=
  if s.y + 1 < s.imageHeight then s.status
  else { state := .done, stop := .encoded, rows := s.imageHeight, endedOnEod := s.status.endedOnEod,
         faultCode := s.status.faultCode, outLen := outLen, srcUsed := used }

/-- `y` where such a step meets a CapacityFault: still the row's number while the row itself does not fit, and one more in
the trailer (R251). -/
def State.faultRow (s : State) (bits : List Bool) : Nat :=
  if s.RoomForBits (s.completed s.rowAlign bits).length then s.y + 1 else s.y

/-- `o` is one mode selection of an ENCODE_G4 job from `s`, with the row end and the trailer where the selection reaches W
(R251, R258, R261 to R264), or the writer's CapacityFault. -/
def State.StepsG4 (s : State) (o : Host.Outcome State Fault Refusal) : Prop :=
  let p : State := { s with a1 := s.findA.1, a2 := s.findA.2, b1 := s.findB.1, b2 := s.findB.2 }
  let bits := if s.stepTarget < s.imageWidth then s.stepBits else s.rowEndBits s.stepBits
  (s.RoomForBits bits.length → ∃ t, p.Wrote bits t ∧
    if s.stepTarget < s.imageWidth then o = .next { t with a0 := s.stepTarget, c := s.stepColour, atStart := false }
    else o = .next { t with
      a0 := s.stepTarget, c := s.stepColour, atStart := false, ref := s.cur, cur := [], y := s.y + 1
      status := s.rowEndStatus t.writer.wlen s.reader.consumed }) ∧
  (¬ s.RoomForBits bits.length → ∃ t, o = .next t ∧ State.Overflowed { p with
    a0 := t.a0, c := t.c, atStart := t.atStart, ref := t.ref, cur := t.cur
    y := if s.stepTarget < s.imageWidth then s.y else s.faultRow s.stepBits } bits t)

/-- `o` is one run of an ENCODE_G31D job from `s` with `n` pixels of colour `k` from `x` on, with the row end and the trailer
where the run reaches W (R265, R266), or the writer's CapacityFault. -/
def State.StepsG31D (s : State) (x : Nat) (k : Colour) (n : Nat) (o : Host.Outcome State Fault Refusal) : Prop :=
  let bits := if x + n < s.imageWidth then runBits k n else s.rowEndBits (runBits k n)
  (s.RoomForBits bits.length → ∃ rd t, s.Wrote bits t ∧
    if x + n < s.imageWidth then s.reader.Moved s.src n rd ∧
      o = .next { t with reader := rd, a0 := x + n, c := oppositeColour k, atStart := false }
    else s.reader.Moved s.src (s.reader.toByte n) rd ∧ o = .next { t with
      reader := rd, a0 := x + n, c := oppositeColour k, atStart := false, y := s.y + 1
      status := s.rowEndStatus t.writer.wlen rd.consumed }) ∧
  (¬ s.RoomForBits bits.length → ∃ t, o = .next t ∧
    (s.reader.Moved s.src n t.reader ∨ s.reader.Moved s.src (s.reader.toByte n) t.reader) ∧ State.Overflowed { s with
      reader := t.reader, a0 := t.a0, c := t.c, atStart := t.atStart
      y := if x + n < s.imageWidth then s.y else s.faultRow (runBits k n) } bits t)

/-! ### Where the error policy is entered -/

/-- `o` is what the machine answers in a running decode job where R191 is entered `k` bits on: a window without codeword,
EXT2D (R228), EXT1D before neither fill nor EOL (R229), or a run code after a ZERO (R184). -/
def State.MeetsError (s : State) (k : Nat) (o : Host.Outcome State Fault Refusal) : Prop :=
  s.decoding = true ∧
  ((k = 0 ∧ s.commands = [] ∧ s.fetch = .reject .noCodeword ∧ o = step s) ∨
   (k = 7 ∧ 7 ≤ 8 * s.reader.len - s.reader.position ∧ o = exec .ext2d s) ∨
   (k = 0 ∧ fillAhead (s.reader.rest s.src) = false ∧ eolAhead (s.reader.rest s.src) = false ∧ o = exec .ext1d s) ∨
   (∃ c r, (r ∈ terminatingTable c ∨ r ∈ makeupTable c) ∧ s.afterZero = true ∧ k = r.len ∧
     r.len ≤ 8 * s.reader.len - s.reader.position ∧ o = exec r.instr s))

/-! ### Conditions of a safe run -/

/-- A line array (R32): strictly increasing, every entry a pixel position. -/
abbrev LineOk (w : Nat) (line : List Nat) : Prop := line.Pairwise (· < ·) ∧ ∀ p ∈ line, p < w

/-- The decoder's invariants between the steps of a job in RUN (R22, R29, R32, R193, R233). -/
structure State.DecodeOk (s : State) : Prop where
  width_pos : 0 < s.imageWidth
  a0_le : s.a0 ≤ s.imageWidth
  a0_lt : s.hphase = 0 → s.a0 < s.imageWidth
  start : s.atStart = true → s.a0 = 0 ∧ s.c = .white ∧ s.cur = []
  cur_ok : LineOk s.imageWidth s.cur
  cur_le : ∀ p ∈ s.cur, p ≤ s.a0
  ref_ok : LineOk s.imageWidth s.ref
  parity : s.a0 < s.imageWidth → s.cur.length % 2 = colourNumber s.c
  hphase_le : s.hphase ≤ 2
  hphase_mode : 0 < s.hphase → s.lineMode = .l2d
  rows_lt : s.imageHeight ≠ 0 → s.rows < s.imageHeight
  row_open : 0 < s.a0 → s.rowOpen = true
  kind_1d : s.kind = some .g3_1d → s.lineMode = .l1d
  kind_g4 : s.kind = some .g4 → s.lineMode = .l2d
  reader_ok : s.reader.Ok s.src

/-- The encoder's invariants between the steps of a job in RUN (R22, R26, R36, R253, R288): the raster is large enough,
and the raster reader stands where the row, or its next run, begins. -/
structure State.EncodeOk (s : State) : Prop where
  width_pos : 0 < s.imageWidth
  y_lt : s.y < s.imageHeight
  raster : s.stride * s.imageHeight ≤ s.srcLen
  reader_len : s.reader.len = s.srcLen
  reader_rev : s.reader.rev = false
  reader_ok : s.reader.Ok s.src
  writer_ok : s.writer.Ok
  position : s.reader.position = 8 * s.stride *
    (if s.atRowStart then s.y else if s.cfg.job = .encodeG4 then s.y + 1 else s.y) +
    (if s.atRowStart ∨ s.cfg.job = .encodeG4 then 0 else s.a0)
  a0_le : s.a0 ≤ s.imageWidth
  cur_ok : s.cfg.job = .encodeG4 → LineOk s.imageWidth s.cur
  ref_ok : s.cfg.job = .encodeG4 → LineOk s.imageWidth s.ref

/-- The invariants of the job in RUN, whichever it is. -/
def State.JobOk (s : State) : Prop :=
  s.running = true → (s.cfg.job.isDecode = true → s.DecodeOk) ∧ (s.cfg.job.isDecode = false → s.EncodeOk)

/-- The STATUS registers as R42, R194 and R307 allow them: `ENDED_ON_EOD` is 1 iff `STOP` is EOD, a job in RUN has not
stopped and has no fault, and FormatFault is never produced. -/
abbrev Status.Ok (t : Status) : Prop :=
  t.endedOnEod = decide (t.stop = .eod) ∧ (t.state = .run → t.stop = .none ∧ t.faultCode = .none) ∧ t.faultCode ≠ .format

/-- `ref` and `cur` describe the pixels of DST (R221, R234): `ref` lists the changing elements of the row before, `cur`
those of the pixels placed in the current row, and `a0` itself when the colour has just changed there. -/
def State.LineSound (s : State) : Prop :=
  s.ref = (if s.rows = 0 then [] else changes .white 0 (s.rowPixels s.dst (s.rows - 1) s.imageWidth)) ∧
  s.cur = changes .white 0 (s.rowPixels s.dst s.rows s.a0) ++
    (if s.a0 < s.imageWidth ∧ (s.rowPixels s.dst s.rows s.a0).getLast?.getD .white ≠ s.c then [s.a0] else [])

/-- `t` is `s` with `BLACK_IS_1` inverted (R199): the opened rows of DST complemented, every other register equal. -/
structure State.Inverted (s t : State) : Prop where
  same : t = { s with cfg := { s.cfg with flags := s.cfg.flags ^^^ 4#6 }, dst := t.dst }
  rows : ∀ r i, r < s.rows ∨ (r = s.rows ∧ s.rowOpen = true) → i < s.stride →
    t.dst.read (r * s.stride + i) = ~~~ s.dst.read (r * s.stride + i)

end Sys2Proof.Machine
end

