-- ==== Sys2Proof/Certificates/Slice0/Obligations.lean ====
section
/-! DEFINITION. The statements for the provers. Each formalises rules of `spec/`, named in its docstring; `s` is the state
before, and a next state is written as `s` with the fields that change, so that every other register, both memories and
every flag not named are unchanged. A reader after a move is said by `Reader.Moved` (how far its buffer runs ahead is left
out, R25), DST after a drawing by `State.Drawn` (every byte of it), an output after an append by `State.Wrote`. -/

section Statements

open Sys2Proof Sys2Proof.Machine

/-! ### Encoding -/

/-- R91, R93 to R101, R105, R108: every well-formed instruction, with every operand its encoding admits, is read back from
its own encoding. The operand words are the model's command layout (log 5). -/
def Obligations.EncodeDecodeRoundTrip : Prop :=
  ∀ i : Instr, i.WellFormed → decodeEncoded (encode i) = .ok i

/-- R106, R161, R167: the codewords of a context are a prefix code, so a codeword that begins the window and lies in its
real bits is the one that a lookup finds, whatever bits follow it. -/
def Obligations.AtMostOneCodeword : Prop :=
  (∀ (k : Colour) (r : CodeRow) (v avail : Nat), r ∈ runSet k → v < 2 ^ 13 → avail ≤ 13 → r.len ≤ avail →
    v >>> (13 - r.len) = r.pattern → lookupRun k v avail = some r) ∧
  (∀ (r : ModeRow) (v avail : Nat), r ∈ modeSet → v < 2 ^ 7 → avail ≤ 7 → r.len ≤ avail →
    v >>> (7 - r.len) = r.pattern → lookupMode v avail = some r)

/-- R93 to R101, R105, R108: words written out from the tables decode to the instructions they stand for. The operand words
of the unit command (0x53, 1, 70) = PutRun(black, 70) are the model's command layout (log 5). -/
def Obligations.WrittenWordsDecode : Prop :=
  decodeWindow .white 0b0011010100000 13 = .ok .w0 ∧ decodeWindow .white 0b1101100000000 13 = .ok .mw64 ∧
  decodeWindow .black 0b0000110111000 13 = .ok .b0 ∧ decodeWindow .black 0b0000001101100 13 = .ok .mb512 ∧
  decodeWindow .white 0b0000000111100 13 = .ok .mx2496 ∧ decodeWindow .black 0b0000000000010 13 = .ok .eol ∧
  decodeWindow .white 0b0000000000001 13 = .ok .fillBit ∧ decodeWindow .mode 0b0000010 7 = .ok .vl3 ∧
  decodeWindow .mode 0b0000001 7 = .ok .ext2d ∧ decodeWindow .mode 0b0000000 7 = .ok .ext1d ∧
  decodeTag true = .t1 ∧ decodeSelect 0x53 1 70 0 = .ok (.putRun .black 70)

/-- R102, R164, R168: on a full window a run lookup has no result but ERROR exactly when the first eight bits are zero and
the next four are neither 0000 nor 0001, and a mode lookup always has one. -/
def Obligations.FullWindowsWithoutCodeword : Prop :=
  (∀ (k : Colour) (v : Nat), v < 2 ^ 13 → (decodeRunWindow k v 13 = .reject .noCodeword ↔
    v / 2 ^ 5 = 0 ∧ v / 2 % 16 ≠ 0 ∧ v / 2 % 16 ≠ 1)) ∧
  (∀ v : Nat, v < 2 ^ 7 → ∃ i, decodeModeWindow v 7 = .ok i)

/-- R92, R106, R161 to R169: the instruction fetched is the one that begins the stream in the current context; a codeword
that does not lie in the real bits is not one. -/
def Obligations.FetchReadsTheStream : Prop :=
  ∀ s : State, s.reader.Ok s.src → s.fetch = instrAhead s.context (s.reader.rest s.src)

/-! ### The lookups (`spec/41_code_tables.md`) -/

/-- R161 to R169: `decodeRun` and `decodeMode` answer what begins the stream, consume exactly the codeword they return, and
change nothing else. The result register is the model's (log 7). -/
def Obligations.LookupsReadTheStream : Prop :=
  ∀ s : State, s.running = false → s.reader.Ok s.src →
    (∀ k, ∃ rd, s.reader.Moved s.src (runAhead k (s.reader.rest s.src)).2 rd ∧
      exec (.decodeRun k) s = .next { s with reader := rd, result := .run (runAhead k (s.reader.rest s.src)).1 }) ∧
    (∃ rd, s.reader.Moved s.src (modeAhead (s.reader.rest s.src)).2 rd ∧
      exec .decodeMode s = .next { s with reader := rd, result := .mode (modeAhead (s.reader.rest s.src)).1 })

/-- R178: for every row of the run tables, `decodeRun` on a stream that begins with its pattern answers its value and
consumes its length, and `termCode` or `makeupCode` answers the pattern for the value. -/
def Obligations.TablesAreConsistent : Prop :=
  ∀ (k : Colour) (s : State) (r : CodeRow), s.running = false → s.reader.Ok s.src →
    r ∈ terminatingTable k ∨ r ∈ makeupTable k →
    (bitsOf r.pattern r.len).isPrefixOf (s.reader.rest s.src) = true →
    (∃ rd, s.reader.Moved s.src r.len rd ∧
      exec (.decodeRun k) s = .next { s with reader := rd, result := .run (.run r.value) }) ∧
    (r ∈ terminatingTable k → exec (.termCode k r.value) s = .next { s with result := .code r.pattern r.len }) ∧
    (r ∈ makeupTable k → exec (.makeupCode k r.value) s = .next { s with result := .code r.pattern r.len })

/-- R172, R173, R174, U3: the encode lookups answer the pattern and length of the tables on their whole domains, and are
refused outside them. -/
def Obligations.EncodeLookups : Prop :=
  ∀ s : State, s.running = false →
    (∀ k n, n ≤ 63 → ∃ r ∈ terminatingTable k, r.value = n ∧
      exec (.termCode k n) s = .next { s with result := .code r.pattern r.len }) ∧
    (∀ k n, 63 < n → exec (.termCode k n) s = .refused .outsideCodeTable) ∧
    (∀ k m, 64 ≤ m → m ≤ 2560 → m % 64 = 0 → ∃ r ∈ makeupTable k, r.value = m ∧
      exec (.makeupCode k m) s = .next { s with result := .code r.pattern r.len }) ∧
    (∀ k m, m < 64 ∨ 2560 < m ∨ m % 64 ≠ 0 → exec (.makeupCode k m) s = .refused .outsideCodeTable) ∧
    (∀ m pattern len, (m, pattern, len) ∈ [(ModeName.pass, 0b0001, 4), (.horizontal, 0b001, 3), (.vertical (-3), 0b0000010, 7),
        (.vertical (-2), 0b000010, 6), (.vertical (-1), 0b010, 3), (.vertical 0, 0b1, 1), (.vertical 1, 0b011, 3),
        (.vertical 2, 0b000011, 6), (.vertical 3, 0b0000011, 7)] →
      exec (.modeCode m) s = .next { s with result := .code pattern len }) ∧
    (∀ m : ModeName, m.encodable = false → exec (.modeCode m) s = .refused .outsideCodeTable)

/-! ### The bit cursor (`spec/40_bitcursor.md`) -/

/-- R131, R133, R134, R136, R143: `hasBits`, `peekBits`, `look` and `getBits` answer from the stream bits at the position,
zeros after its end; only `getBits` moves the position, and `hasBits` pulls only the bytes it needs. R136 gives `look(n)`
for n from 1: that `look(0)` runs and answers no bits is the model's reading (log 15). -/
def Obligations.ReaderLooks : Prop :=
  ∀ (s : State) (n : Nat), s.running = false → s.reader.Ok s.src → n ≤ 32 →
    (∃ rd, s.reader.Moved s.src 0 rd ∧
      rd.consumed = min s.reader.len (s.reader.consumed + (n - s.reader.cnt + 7) / 8) ∧
      exec (.hasBits n) s = .next { s with reader := rd, result := .flag (decide (n ≤ 8 * s.reader.len - s.reader.position)) } ∧
      exec (.peekBits n) s = .next { s with reader := rd, result := .bits (s.reader.ahead s.src n) } ∧
      exec (.look n) s = .next { s with
        reader := rd, result := .window (s.reader.ahead s.src n) (min n (8 * s.reader.len - s.reader.position)) }) ∧
    (n ≤ 8 * s.reader.len - s.reader.position → ∃ rd, s.reader.Moved s.src n rd ∧
      exec (.getBits n) s = .next { s with reader := rd, result := .bits (s.reader.ahead s.src n) })

/-- R135, R138, R139, R140, R141, R143: where `clearBits`, `byteAlign`, `wordAlign`, `drain` and `reverseBits` leave the
reader; nothing else changes. -/
def Obligations.ReaderMoves : Prop :=
  ∀ s : State, s.running = false → s.reader.Ok s.src →
    (∀ n, n ≤ s.reader.cnt → ∃ rd, s.reader.Moved s.src n rd ∧ rd.consumed = s.reader.consumed ∧
      exec (.clearBits n) s = .next { s with reader := rd }) ∧
    (∃ rd, s.reader.Moved s.src (s.reader.toByte 0) rd ∧ rd.consumed = s.reader.consumed ∧
      exec .byteAlign s = .next { s with reader := rd }) ∧
    (∃ rd, s.reader.Moved s.src (min (16 * ((s.reader.position + 15) / 16)) (8 * s.reader.len) - s.reader.position) rd ∧
      exec .wordAlign s = .next { s with reader := rd }) ∧
    (∃ rd, s.reader.Moved s.src (8 * s.reader.len - s.reader.position) rd ∧ rd.consumed = rd.len ∧ rd.cnt = 0 ∧
      exec .drain s = .next { s with reader := rd }) ∧
    exec .reverseBits s = .next { s with
      reader := { buf := 0, cnt := 0, consumed := 0, len := s.reader.len, rev := !s.reader.rev } }

/-- R26, R144, R145, R146, R259: with room below DST_CAP the writer appends the bits given (`putBits`), zero bits up to the
next byte boundary (`putAlign`), these and OUT_LEN (`finish`), or the codewords of a run (`PutRun`): make-up codes, 2560 as
often as more remains, then one terminating code. -/
def Obligations.WriterAppends : Prop :=
  ∀ s : State, s.running = false → s.writer.Ok → s.dst.wf = true →
    (∀ v n, n ≤ 32 → v < 2 ^ n → s.RoomForBits n →
      ∃ t, s.Wrote (bitsOf v n) t ∧ exec (.putBits v n) s = .next t) ∧
    (s.RoomForBits ((8 - s.writer.wn) % 8) → ∃ t, s.Wrote (List.replicate ((8 - s.writer.wn) % 8) false) t ∧
      t.writer.wn = 0 ∧ exec .putAlign s = .next t ∧
      exec .finish s = .next { t with status := { s.status with outLen := t.writer.wlen } }) ∧
    (∀ k n, s.RoomForBits (runBits k n).length → ∃ t, s.Wrote (runBits k n) t ∧ exec (.putRun k n) s = .next t)

/-- R144, R306: the writer without room for a byte that is completed: every byte below DST_CAP that the bits complete stays
written, no other byte of DST changes, and the operation ends there. That with no job in RUN it leaves the fault in `result`
and STATUS as it was is the model's reading (log 25, with log 7). -/
def Obligations.WriterOverflows : Prop :=
  ∀ s : State, s.running = false → s.writer.Ok → s.dst.wf = true →
    (∀ v n, n ≤ 32 → v < 2 ^ n → ¬ s.RoomForBits n → ∃ t, s.Overflowed (bitsOf v n) t ∧ exec (.putBits v n) s = .next t) ∧
    (¬ s.RoomForBits ((8 - s.writer.wn) % 8) → ∃ t, s.Overflowed (List.replicate ((8 - s.writer.wn) % 8) false) t ∧
      exec .putAlign s = .next t ∧ exec .finish s = .next t) ∧
    (∀ k n, ¬ s.RoomForBits (runBits k n).length → ∃ t, s.Overflowed (runBits k n) t ∧ exec (.putRun k n) s = .next t)

/-- U1, U2, U4: a unit operation outside its contract is refused, and changes nothing. -/
def Obligations.OutOfContractIsRefused : Prop :=
  ∀ s : State, s.running = false →
    (∀ n, 32 < n → exec (.hasBits n) s = .refused .bitCountOutOfContract ∧
      exec (.peekBits n) s = .refused .bitCountOutOfContract ∧ exec (.getBits n) s = .refused .bitCountOutOfContract ∧
      exec (.look n) s = .refused .bitCountOutOfContract) ∧
    (∀ n, s.reader.Ok s.src → n ≤ 32 → 8 * s.reader.len - s.reader.position < n →
      exec (.getBits n) s = .refused .bitsBeyondBuffer) ∧
    (∀ n, s.reader.cnt < n → exec (.clearBits n) s = .refused .bitsBeyondBuffer) ∧
    (∀ v n, 32 < n ∨ 2 ^ n ≤ v → exec (.putBits v n) s = .refused .bitCountOutOfContract) ∧
    (∀ k x0 x1, x1 < x0 ∨ s.imageWidth < x1 → exec (.fillPixels k x0 x1) s = .refused .operandOutOfRange) ∧
    (∀ p, s.imageWidth < p → exec (.record p) s = .refused .operandOutOfRange) ∧
    (∀ a1 b1 b2, s.imageWidth < a1 ∨ s.imageWidth < b1 ∨ s.imageWidth < b2 →
      exec (.selectMode a1 b1 b2) s = .refused .operandOutOfRange)

/-- U5, R181: while a job is in RUN a unit operation is refused, and outside RUN a step operation is; a codeword or a tag
bit has its effect in a running decode job only. Which operations are step operations is the model's reading (log 23), and
so is the stop of a bare codeword outside a job (log 11). -/
def Obligations.UnitOperationsAndRun : Prop :=
  (∀ (s : State) (i : Instr), s.decoding = false →
    (∃ context pattern len, encode i = .code context pattern len) ∨ (∃ bit, encode i = .tag bit) →
    exec i s = .refused .stepOperationOutsideRun) ∧
  ∀ (s : State) (opsel : Byte) (x y z : Word) (i : Instr), decodeSelect opsel x y z = .ok i →
    (s.running = true → 0x10 ≤ opsel.toNat → opsel ≠ 0x30 → opsel ≠ 0x41 → opsel ≠ 0x52 →
      exec i s = .refused .unitOperationDuringRun) ∧
    (s.running = false → opsel = 0x30 ∨ opsel = 0x41 ∨ opsel = 0x52 → exec i s = .refused .stepOperationOutsideRun)

/-! ### The codewords of a decode job (`spec/42_g3_decoder.md`, `spec/43_g4_predictor.md`) -/

/-- R182, R184: in a running decode job every make-up code adds its value to `acc` and changes nothing else; one that
follows a ZERO does not. -/
def Obligations.MakeUpCodesAccumulate : Prop :=
  ∀ (k : Colour) (r : CodeRow) (s : State), r ∈ makeupTable k → s.decoding = true → s.reader.Ok s.src →
    r.len ≤ 8 * s.reader.len - s.reader.position → s.afterZero = false →
    ∃ rd, s.reader.Moved s.src r.len rd ∧ exec r.instr s = .next { s with reader := rd, acc := s.acc + r.value }

/-- R183, R185 to R188, R195: a terminating code fills the run in the current colour, clamped to the row, records the change,
flips the colour and pays a run owed by a horizontal mode; here the row goes on. -/
def Obligations.TerminatingCodesFill : Prop :=
  ∀ (k : Colour) (r : CodeRow) (s : State), r ∈ terminatingTable k → s.decoding = true → s.reader.Ok s.src →
    r.len ≤ 8 * s.reader.len - s.reader.position → s.afterZero = false → s.dst.wf = true → s.RoomForRow →
    s.a0 + (s.acc + r.value) < s.imageWidth ∨ 2 ≤ s.hphase →
    ∃ rd m, s.reader.Moved s.src r.len rd ∧ m.wf = true ∧ s.Drawn s.c s.a0 (s.runEnd (s.acc + r.value)) m ∧
      exec r.instr s = .next { s.opened m with
        reader := rd
        acc := 0
        a0 := s.runEnd (s.acc + r.value)
        cur := if s.imageWidth ≤ s.runEnd (s.acc + r.value) then s.cur
               else recordChange s.cur (s.runEnd (s.acc + r.value))
        c := oppositeColour s.c
        atStart := false
        hphase := s.hphase - 1 }

/-- R183, R189, R194, R195: a terminating code whose run reaches the image width, with no further run owed, fills the row to
its end and closes it; the last row of an image of known height ends the job. -/
def Obligations.TerminatingCodesCloseRow : Prop :=
  ∀ (k : Colour) (r : CodeRow) (s : State), r ∈ terminatingTable k → s.decoding = true → s.reader.Ok s.src →
    r.len ≤ 8 * s.reader.len - s.reader.position → s.afterZero = false → s.dst.wf = true → s.RoomForRow →
    s.imageWidth ≤ s.a0 + (s.acc + r.value) → s.hphase ≤ 1 →
    ∃ rd m, s.reader.Moved s.src (s.closeMove r.len) rd ∧ m.wf = true ∧ s.Drawn s.c s.a0 s.imageWidth m ∧
      exec r.instr s = .next ((s.opened m).rowClosed s.cur rd)

/-- R226, R187: a vertical code draws to `a1` = b1 + d, clamped between `a0` and W, moves there, records the change and flips
the colour; at W it closes the row. -/
def Obligations.VerticalCodes : Prop :=
  ∀ (r : ModeRow) (d : Int) (s : State), r ∈ modeSet → r.result = .vertical d → s.decoding = true → s.reader.Ok s.src →
    r.len ≤ 8 * s.reader.len - s.reader.position → s.dst.wf = true → s.RoomForRow →
    let a1 := (min (max ((s.findB.1 : Int) + d) s.a0) s.imageWidth).toNat
    ∃ m, m.wf = true ∧ s.Drawn s.c s.a0 a1 m ∧
      (a1 < s.imageWidth → ∃ rd, s.reader.Moved s.src r.len rd ∧ exec r.instr s = .next { s.opened m with
        reader := rd, a0 := a1, cur := recordChange s.cur a1, c := oppositeColour s.c, atStart := false }) ∧
      (s.imageWidth ≤ a1 → ∃ rd, s.reader.Moved s.src (s.closeMove r.len) rd ∧
        exec r.instr s = .next ((s.opened m).rowClosed s.cur rd))

/-- R224: the pass code draws to `b2` in the current colour and moves there; the colour is not flipped and nothing is
recorded; at W it closes the row. -/
def Obligations.PassCode : Prop :=
  ∀ s : State, s.decoding = true → s.reader.Ok s.src → 4 ≤ 8 * s.reader.len - s.reader.position → s.dst.wf = true →
    s.RoomForRow →
    ∃ m, m.wf = true ∧ s.Drawn s.c s.a0 (min s.findB.2 s.imageWidth) m ∧
      (s.findB.2 < s.imageWidth → ∃ rd, s.reader.Moved s.src 4 rd ∧ exec .p s = .next { s.opened m with
        reader := rd, a0 := s.findB.2, atStart := false }) ∧
      (s.imageWidth ≤ s.findB.2 → ∃ rd, s.reader.Moved s.src (s.closeMove 4) rd ∧
        exec .p s = .next ((s.opened m).rowClosed s.cur rd))

/-- R225, R184, R229, R105: the codewords that only steer: `H` owes two runs, a fill bit sets `after_zero`, `EXT1D` before
twelve zeros skips one bit, and the tag bits choose how the next line is coded. In a job the tag bit is read inside the step
of its EOL, in G32D streams only (R105, R190); that T1 and T0 are instructions of their own in every kind of decode job is
the model's reading (log 11). -/
def Obligations.SteeringCodes : Prop :=
  ∀ s : State, s.decoding = true → s.reader.Ok s.src →
    (3 ≤ 8 * s.reader.len - s.reader.position → ∃ rd, s.reader.Moved s.src 3 rd ∧
      exec .h s = .next { s with reader := rd, hphase := 2 }) ∧
    (1 ≤ 8 * s.reader.len - s.reader.position → ∃ rd, s.reader.Moved s.src 1 rd ∧
      exec .fillBit s = .next { s with reader := rd, afterZero := true }) ∧
    (fillAhead (s.reader.rest s.src) = true → ∃ rd, s.reader.Moved s.src 1 rd ∧
      exec .ext1d s = .next { s with reader := rd }) ∧
    (1 ≤ 8 * s.reader.len - s.reader.position → ∃ rd, s.reader.Moved s.src 1 rd ∧
      exec .t1 s = .next { s with reader := rd, lineMode := .l1d } ∧
      exec .t0 s = .next { s with reader := rd, lineMode := .l2d })

/-- R190, R229: an end of line, read by a run lookup or found behind EXT1D: a begun row is padded white and closed, at a row
start only the row's registers are reset; then, unless that row was the last, the tag bit of a G32D stream and the
end-of-block test. -/
def Obligations.EndOfLine : Prop :=
  ∀ (s : State) (i : Instr), s.decoding = true → s.reader.Ok s.src →
    (i = .eol ∧ 12 ≤ 8 * s.reader.len - s.reader.position) ∨ (i = .ext1d ∧ eolAhead (s.reader.rest s.src) = true) →
    let after := (s.reader.rest s.src).drop 12
    (s.a0 = 0 → ∃ rd, s.reader.Moved s.src (12 + (s.framed.eolTail after).2.2) rd ∧
      exec i s = .next (s.framed.afterTail after rd)) ∧
    (0 < s.a0 → s.dst.wf = true → s.RoomForRow → ∃ rd m, m.wf = true ∧ s.Drawn .white s.a0 s.imageWidth m ∧
      if s.LastRow then
        s.reader.Moved s.src 12 rd ∧ exec i s = .next ((s.opened m).rowClosed s.paddedLine rd)
      else
        s.reader.Moved s.src (12 + (((s.opened m).rowClosed s.paddedLine rd).eolTail after).2.2) rd ∧
        exec i s = .next (((s.opened m).rowClosed s.paddedLine rd).afterTail after rd))

/-- R191, R227, R228, R229, R184: the error policy without HAS_EOL: one bit is skipped after what the lookup consumed, and
every register but the reader and `after_zero` keeps its value. It is the rule for a window without codeword, for EXT2D,
for EXT1D before neither fill nor EOL, for a run code after a ZERO, and for `OnError` driven on its own. That nothing is
skipped at the end of the data is the model's reading (log 10). -/
def Obligations.ErrorSkipsABit : Prop :=
  ∀ (s : State) (k : Nat) (o : Host.Outcome State Fault Refusal), s.reader.Ok s.src → s.hasEol = false →
    s.MeetsError k o ∨ (k = 0 ∧ s.running = false ∧ o = exec .onError s) →
    ∃ rd, s.reader.Moved s.src (min (k + 1) (8 * s.reader.len - s.reader.position)) rd ∧
      o = .next { s with reader := rd, afterZero := false }

/-- R191, R227, R228, R229, R184: the error policy with HAS_EOL: the row is padded white and closed, also when nothing of it
was decoded; unless that ends the job, the stream is scanned, bit by bit or with ROW_ALIGN byte by byte, up to the next EOL,
which is left for the next step; where there is none the data is drained and the job ends. -/
def Obligations.ErrorGivesUpTheRow : Prop :=
  ∀ (s : State) (k : Nat) (o : Host.Outcome State Fault Refusal), s.reader.Ok s.src → s.hasEol = true →
    s.dst.wf = true → s.RoomForRow → s.MeetsError k o →
    let d := if s.rowAlign then 8 else 1
    let past := (s.reader.rest s.src).drop (s.closeMove k)
    ∃ rd m, m.wf = true ∧ s.Drawn .white s.a0 s.imageWidth m ∧
      if s.LastRow then
        s.reader.Moved s.src (s.closeMove k) rd ∧ o = .next ((s.opened m).rowClosed s.paddedLine rd)
      else
        match scanAhead d past with
        | some j => s.reader.Moved s.src (s.closeMove k + d * j) rd ∧
            o = .next ((s.opened m).rowClosed s.paddedLine rd)
        | none => s.reader.Moved s.src (8 * s.reader.len - s.reader.position) rd ∧
            o = .next { (s.opened m).rowClosed s.paddedLine rd with
              status := s.stoppedStatus .eod (s.rows + 1) rd.consumed }

/-- R193, R194, R231: the end of the data, met by a step or given to `OnEOD` driven on its own: a begun row is padded, closed
and counted, and the job stops with EOD, or with LENIENT where a G32D mode lookup meets it at the start of the last row.
The model's readings: the operand `from_mode` of the unit command (log 18), no kind with an encode OP (log 19), and that
with no job in RUN the stop is left in `result` and STATUS as it was (log 25, with log 7).
That its `PadRow` runs where a0 > W, and that Record sets `cur` no bound, are the model's choices (logs 29, 30). -/
def Obligations.EndOfData : Prop :=
  ∀ (s : State) (mode : Bool) (o : Host.Outcome State Fault Refusal), s.reader.Ok s.src →
    (s.decoding = true ∧ s.commands = [] ∧ s.reader.rest s.src = [] ∧ mode = decide (s.context = .mode) ∧ o = step s) ∨
    (s.running = false ∧ o = exec (.onEOD mode) s) →
    let lenient := s.kind = some .g3_2d ∧ mode = true ∧ s.atStart = true ∧ s.LastRow
    ∃ rd, s.reader.Moved s.src 0 rd ∧
      (lenient → o = .next (s.endedBy .lenient { s with reader := rd })) ∧
      (¬ lenient → s.a0 = 0 → o = .next (s.endedBy .eod { s with reader := rd })) ∧
      (¬ lenient → 0 < s.a0 → s.dst.wf = true → s.RoomForRow → ∃ m, m.wf = true ∧ s.Drawn .white s.a0 s.imageWidth m ∧
        o = .next (s.endedBy .eod ((s.opened m).rowClosed s.paddedLine rd)))

/-- R185, R191, R304, R306, R308: a codeword that must open a row which a fixed destination has no room for ends the job in
FAULT: no byte of DST is written, STATUS is written as the fault entry says, and what the step wrote before stays written.
The same where the error policy with HAS_EOL must pad such a row. -/
def Obligations.DecodeCapacityFault : Prop :=
  ∀ s : State, s.decoding = true → s.reader.Ok s.src → ¬ s.RoomForRow →
    (∀ k, ∀ r ∈ terminatingTable k, r.len ≤ 8 * s.reader.len - s.reader.position → s.afterZero = false →
      ∃ rd, s.reader.Moved s.src r.len rd ∧
        exec r.instr s = .next { s with reader := rd, acc := 0, status := capacityStatus s.rows rd.consumed }) ∧
    (∀ r ∈ modeSet, ∀ d, r.result = .vertical d ∨ r.result = .pass → r.len ≤ 8 * s.reader.len - s.reader.position →
      ∃ rd, s.reader.Moved s.src r.len rd ∧
        exec r.instr s = .next { s with reader := rd, status := capacityStatus s.rows rd.consumed }) ∧
    (∀ k o, s.hasEol = true → s.MeetsError k o → ∃ rd, s.reader.Moved s.src k rd ∧ o = .next { s with
      reader := rd, acc := 0, hphase := 0, afterZero := false, cur := s.paddedLine, c := .white
      status := capacityStatus s.rows rd.consumed })

/-- R180, R181, R223: `DecodeStep` of a running decode job runs the instruction at the stream position and answers a next
state, whatever the stream; `ModeStep` is the same step where the mode context reads it. That it is refused, as a step
not entered, elsewhere is the model's reading (log 23). -/
def Obligations.DecodeStepRunsTheCodeword : Prop :=
  ∀ s : State, s.decoding = true →
    (∀ i, s.fetch = .ok i → exec .decodeStep s = exec i s) ∧
    (s.commands = [] → exec .decodeStep s = step s) ∧
    (∃ t, exec .decodeStep s = .next t) ∧
    (s.context = .mode → exec .modeStep s = exec .decodeStep s) ∧
    (s.context ≠ .mode → exec .modeStep s = .refused .stepNotEntered)

/-! ### The pixel store and the row operations -/

/-- R185, R186, R65, R66: `Fill` opens the row, its bytes white with the padding, and draws exactly the pixels x0 .. x1−1;
every other bit of DST keeps its value. Where a fixed destination has no room for the row, it ends with a CapacityFault,
which with no job in RUN is left in `result` (the model's reading, log 25, with log 7), and writes nothing else. -/
def Obligations.FillDraws : Prop :=
  ∀ (s : State) (k : Colour) (x0 x1 : Nat), s.running = false → x0 ≤ x1 → x1 ≤ s.imageWidth →
    (s.dst.wf = true → s.RoomForRow →
      ∃ m, m.wf = true ∧ s.Drawn k x0 x1 m ∧ exec (.fillPixels k x0 x1) s = .next (s.opened m)) ∧
    (¬ s.RoomForRow → exec (.fillPixels k x0 x1) s = .next { s with result := .raised .capacity })

/-- R188, R195: `FillRun` draws n pixels in the current colour, clamped to the row, moves `a0`, records the change and flips
the colour; where a fixed destination has no room for the row it ends with a CapacityFault, left in `result` (the model's
reading, log 25, with log 7), and writes nothing else. That it runs where a0 > W, and that Record sets `cur` no bound,
are the model's choices (logs 29, 30). -/
def Obligations.FillRunAdvances : Prop :=
  ∀ (s : State) (n : Nat), s.running = false →
    (s.dst.wf = true → s.RoomForRow →
      ∃ m, m.wf = true ∧ s.Drawn s.c s.a0 (min (s.a0 + n) s.imageWidth) m ∧
        exec (.fillRun n) s = .next { s.opened m with
          a0 := min (s.a0 + n) s.imageWidth
          cur := if s.imageWidth ≤ s.a0 + n then s.cur else recordChange s.cur (s.a0 + n)
          c := oppositeColour s.c
          atStart := false }) ∧
    (¬ s.RoomForRow → exec (.fillRun n) s = .next { s with result := .raised .capacity })

/-- R192, R189: `PadRow` whitens the rest of the row and withdraws or notes the change at `a0` (where a fixed destination has
no room for the row, CapacityFault follows that note); `CloseRow` closes the row, with the stream aligned where its
operand and ROW_ALIGN ask for it. The model's readings: the operand of `CloseRow` (log 18), no kind with an encode OP
(log 19), and that with no job in RUN a fault or a stop is left in `result` and STATUS as it was (log 25, with log 7).
That `PadRow` runs where a0 > W, and that Record sets `cur` no bound, are the model's choices (logs 29, 30). -/
def Obligations.PadAndCloseRow : Prop :=
  ∀ s : State, s.running = false →
    (s.dst.wf = true → s.RoomForRow → ∃ m, m.wf = true ∧ s.Drawn .white s.a0 s.imageWidth m ∧
      exec .padRow s = .next { s.opened m with a0 := s.imageWidth, cur := s.paddedLine, c := .white }) ∧
    (¬ s.RoomForRow → exec .padRow s = .next { s with cur := s.paddedLine, c := .white, result := .raised .capacity }) ∧
    (s.reader.Ok s.src → ∃ rd, s.reader.Moved s.src (s.closeMove 0) rd ∧
      exec (.closeRow true) s = .next (s.rowClosed s.cur rd)) ∧
    exec (.closeRow false) s = .next (s.rowClosed s.cur s.reader)

/-- R190, R191: `OnEOL`, and `OnError` with HAS_EOL, driven on their own: the row part of the rule, or the CapacityFault of its
padding. That with no job in RUN they return after it, and leave a fault or a stop in `result`, is the model's reading
(log 25, with log 7), and so is that there is no kind with an encode OP (log 19).
That their `PadRow` runs where a0 > W, and that Record sets `cur` no bound, are the model's choices (logs 29, 30). -/
def Obligations.RowEventsOutsideRun : Prop :=
  ∀ s : State, s.running = false →
    (s.a0 = 0 → exec .onEOL s = .next s.framed) ∧
    (s.dst.wf = true → s.RoomForRow → ∃ m, m.wf = true ∧ s.Drawn .white s.a0 s.imageWidth m ∧
      (0 < s.a0 → exec .onEOL s = .next ((s.opened m).rowClosed s.paddedLine s.reader)) ∧
      (s.hasEol = true → s.reader.Ok s.src → ∃ rd, s.reader.Moved s.src (s.closeMove 0) rd ∧
        exec .onError s = .next ((s.opened m).rowClosed s.paddedLine rd))) ∧
    (¬ s.RoomForRow →
      let u : State := { s with
        acc := 0, hphase := 0, afterZero := false, cur := s.paddedLine, c := .white, result := .raised .capacity }
      (0 < s.a0 → exec .onEOL s = .next u) ∧ (s.hasEol = true → exec .onError s = .next u))

/-- R187: `Record` stores no position from W on, cancels an equal last entry, and otherwise appends. That it
appends also where the positions do not rise, and `cur` grows beyond W, is the model's choice (log 30). -/
def Obligations.RecordNotesAChange : Prop :=
  ∀ (s : State) (p : Nat), s.running = false →
    (p = s.imageWidth → exec (.record p) s = .next s) ∧
    (∀ line, p < s.imageWidth → s.cur = line ++ [p] → exec (.record p) s = .next { s with cur := line }) ∧
    (p < s.imageWidth → s.cur.getLast? ≠ some p → exec (.record p) s = .next { s with cur := s.cur ++ [p] })

/-- R222, R33: `FindB` answers the first entry of `ref` whose index has the parity of the colour and that lies right of `a0`
(at a row start every entry does) and the entry after it, each W when there is none. -/
def Obligations.FindBSearchesRef : Prop :=
  ∀ s : State, s.running = false → ∃ b1 b2, exec .findB s = .next { s with result := .positions b1 b2 } ∧
    ((∃ j, s.ref[2 * j + colourNumber s.c]? = some b1 ∧ (s.atStart = true ∨ s.a0 < b1) ∧
        (∀ j' < j, ∀ b, s.ref[2 * j' + colourNumber s.c]? = some b → ¬ (s.atStart = true ∨ s.a0 < b)) ∧
        b2 = s.ref[2 * j + colourNumber s.c + 1]?.getD s.imageWidth) ∨
      ((∀ j b, s.ref[2 * j + colourNumber s.c]? = some b → ¬ (s.atStart = true ∨ s.a0 < b)) ∧
        b1 = s.imageWidth ∧ b2 = s.imageWidth))

/-! ### The encoder (`spec/44_encoder.md`) -/

/-- R254: `CountPixels` answers the number of consecutive raster bits of the colour from the reader position, at most max, and
moves the reader by exactly that number. -/
def Obligations.CountPixelsCounts : Prop :=
  ∀ (s : State) (k : Colour) (max : Nat), s.running = false → s.reader.Ok s.src →
    let n := (((s.reader.rest s.src).take max).takeWhile fun b => s.colourOf b = k).length
    ∃ rd, s.reader.Moved s.src n rd ∧ exec (.countPixels k max) s = .next { s with reader := rd, result := .count n }

/-- R257: `SelectMode` makes its tests in the order written: pass when b2 < a1, then vertical when |a1 − b1| ≤ 3, else
horizontal. -/
def Obligations.SelectModeDecides : Prop :=
  ∀ (s : State) (a1 b1 b2 : Nat), s.running = false → a1 ≤ s.imageWidth → b1 ≤ s.imageWidth → b2 ≤ s.imageWidth →
    (b2 < a1 → exec (.selectMode a1 b1 b2) s = .next { s with result := .selected .pass }) ∧
    (a1 ≤ b2 → ((a1 : Int) - b1).natAbs ≤ 3 →
      exec (.selectMode a1 b1 b2) s = .next { s with result := .selected (.vertical ((a1 : Int) - b1)) }) ∧
    (a1 ≤ b2 → 3 < ((a1 : Int) - b1).natAbs →
      exec (.selectMode a1 b1 b2) s = .next { s with result := .selected .horizontal })

/-- R258: one mode selection of an ENCODE_G4 job: the code of the mode selected from `cur` and `ref`, and in horizontal mode
the two runs, are written; `a0`, the colour, `at_start` and the four positions change as the rule says, or the writer's
CapacityFault ends the step. -/
def Obligations.EncodeStepG4Emits : Prop :=
  ∀ s : State, s.running = true → s.cfg.job = .encodeG4 → s.a0 < s.imageWidth → s.writer.Ok → s.dst.wf = true →
    (s.RoomForBits s.stepBits.length → ∃ t, s.Wrote s.stepBits t ∧ exec .encodeStepG4 s = .next { t with
      a1 := s.findA.1, a2 := s.findA.2, b1 := s.findB.1, b2 := s.findB.2
      a0 := s.stepTarget, c := s.stepColour, atStart := false }) ∧
    (¬ s.RoomForBits s.stepBits.length → ∃ t, exec .encodeStepG4 s = .next t ∧ State.Overflowed { s with
      a1 := s.findA.1, a2 := s.findA.2, b1 := s.findB.1, b2 := s.findB.2 } s.stepBits t)

/-- R265, R262: `EncodeRowG31D` writes the alternating runs of the row from white on, skips the row's padding, and with
ROW_ALIGN completes the last byte with zeros; without room it ends with the writer's CapacityFault, left in `result` (the
model's reading, log 25, with log 7). -/
def Obligations.EncodeRowG31DWritesTheRuns : Prop :=
  ∀ s : State, s.running = false → s.reader.Ok s.src → s.writer.Ok → s.dst.wf = true → 0 < s.imageWidth →
    s.imageWidth ≤ 8 * s.reader.len - s.reader.position →
    let bits := s.completed s.rowAlign (lineBits .white 0 (((s.reader.rest s.src).take s.imageWidth).map s.colourOf))
    (s.RoomForBits bits.length → ∃ rd t, s.reader.Moved s.src (s.reader.toByte s.imageWidth) rd ∧ s.Wrote bits t ∧
      exec .encodeRowG31D s = .next { t with reader := rd }) ∧
    (¬ s.RoomForBits bits.length → ∃ t, exec .encodeRowG31D s = .next t ∧
      State.Overflowed { s with reader := t.reader } bits t)

/-- R251, R252, R253, R256: the first step of a row of an ENCODE_G4 job scans raster row `y`: `cur` becomes the positions whose
pixel differs from the one before, the registers are those of a row start, and the step is a mode selection from there,
which may also end the row and the job. -/
def Obligations.EncodeRowStartScans : Prop :=
  ∀ s : State, s.running = true → s.cfg.job = .encodeG4 → s.commands = [] → s.EncodeOk → s.dst.wf = true →
    s.atRowStart = true →
    ∃ rd, rd.Ok s.src ∧ rd.position = 8 * s.stride * (s.y + 1) ∧ rd.len = s.reader.len ∧ rd.rev = s.reader.rev ∧
      State.StepsG4 { s with
        reader := rd, cur := changes .white 0 (s.rowPixels s.src s.y s.imageWidth), a0 := 0, atStart := true, c := .white }
        (step s)

/-- R251, R258, R261 to R266, R285, R289: every other step of the encode jobs. ENCODE_G4 inside a row: one mode selection.
ENCODE_G31D: one run, the next of the row's pixels (R265's `x` and `col` are held in `a0` and `c`, log 13). In both the step
that reaches W ends the row: alignment, swap, and after the last row the trailer and STATUS. An encode job that is done
reports H rows and the bytes written, one that met a CapacityFault the rows encoded so far. -/
def Obligations.EncodeJobSteps : Prop :=
  ∀ s : State, s.running = true → s.commands = [] → s.EncodeOk → s.dst.wf = true →
    (s.cfg.job = .encodeG4 → s.atRowStart = false → s.StepsG4 (step s)) ∧
    (s.cfg.job = .encodeG31D →
      let x := if s.atRowStart then 0 else s.a0
      let k := if s.atRowStart then .white else s.c
      let n := (((s.rowPixels s.src s.y s.imageWidth).drop x).takeWhile fun p => decide (p = k)).length
      s.StepsG31D x k n (step s)) ∧
    (∀ t, s.cfg.job.isDecode = false → step s = .next t →
      (t.status.state = .done → t.writer.wn = 0 ∧ t.status = {
        state := .done, stop := .encoded, rows := s.imageHeight, endedOnEod := s.status.endedOnEod
        faultCode := s.status.faultCode, outLen := t.writer.wlen, srcUsed := t.reader.consumed }) ∧
      (t.status.state = .fault → t.status = capacityStatus t.y t.reader.consumed))

/-- R104, R182, R183, R259: a run decodes to the run that was encoded: where the stream goes on with the bits that `PutRun`
writes for n pixels of the current colour, and the row goes on after them, as many steps as they have codewords leave the
decoder as one run of n pixels does. -/
def Obligations.RunRoundTrip : Prop :=
  ∀ (s : State) (n : Nat), s.decoding = true → s.commands = [] → s.reader.Ok s.src → s.lineMode = .l1d ∨ 0 < s.hphase →
    s.afterZero = false → s.acc = 0 → s.dst.wf = true → s.RoomForRow → s.a0 + n < s.imageWidth →
    (runBits s.c n).isPrefixOf (s.reader.rest s.src) = true →
    ∃ rd m, s.reader.Moved s.src (runBits s.c n).length rd ∧ m.wf = true ∧ s.Drawn s.c s.a0 (s.a0 + n) m ∧
      Host.Core.run Sys2Proof.core ((makeupValues n).length + 1) s = .next { s.opened m with
        reader := rd
        a0 := s.a0 + n
        cur := recordChange s.cur (s.a0 + n)
        c := oppositeColour s.c
        atStart := false
        hphase := s.hphase - 1 }

/-! ### RESET, START and the host -/

/-- R330, R44: RESET in any state clears STATUS, `STATE` to IDLE, and touches neither SRC nor DST; CFG and the host's commands
are kept, which is the model's reading (log 3). What it leaves in the working registers is unspecified and not said here. -/
def Obligations.ResetClearsStatus : Prop :=
  ∀ s : State, ∃ t, exec .reset s = .next t ∧
    t.status = { state := .idle, stop := .none, rows := 0, endedOnEod := false, faultCode := .none, outLen := 0,
                 srcUsed := 0 } ∧
    t.src = s.src ∧ t.dst = s.dst ∧ t.cfg = s.cfg ∧ t.commands = s.commands ∧ t.result = s.result

/-- R282, R303, R305, R308, R338: START tests in the order written: ignored in RUN; ConfigFault, then SizeFault, which write
nothing but STATUS; otherwise the job is in RUN. -/
def Obligations.StartTestsInOrder : Prop :=
  ∀ s : State,
    let faulty := s.imageWidth = 0 ∨ 2 ^ 31 - 1 < s.imageWidth ∨ 2 ^ 31 - 1 < s.imageHeight ∨
      (s.imageHeight = 0 ∧ s.cfg.job ≠ .decodeG3)
    let small := s.cfg.job.isDecode = false ∧ s.srcLen < (s.imageWidth + 7) / 8 * s.imageHeight
    (s.running = true → exec .start s = .next s) ∧
    (s.running = false → faulty → exec .start s = .next { s with status :=
      { state := .fault, stop := .none, rows := 0, endedOnEod := false, faultCode := .config, outLen := 0, srcUsed := 0 } }) ∧
    (s.running = false → ¬ faulty → small → exec .start s = .next { s with status :=
      { state := .fault, stop := .none, rows := 0, endedOnEod := false, faultCode := .size, outLen := 0, srcUsed := 0 } }) ∧
    (s.running = false → ¬ faulty → ¬ small → ∃ t, exec .start s = .next t ∧ t.status =
      { state := .run, stop := .none, rows := 0, endedOnEod := false, faultCode := .none, outLen := 0, srcUsed := 0 })

/-- R283: START of a job that passes the tests writes every working register as JobInit says: a decode job its registers, an
encode job its own. -/
def Obligations.StartInitialisesTheJob : Prop :=
  ∀ s : State, s.running = false → s.imageWidth ≠ 0 → s.imageWidth ≤ 2 ^ 31 - 1 → s.imageHeight ≤ 2 ^ 31 - 1 →
    (s.imageHeight = 0 → s.cfg.job = .decodeG3) →
    let run : Status :=
      { state := .run, stop := .none, rows := 0, endedOnEod := false, faultCode := .none, outLen := 0, srcUsed := 0 }
    (s.cfg.job.isDecode = true → exec .start s = .next { s with
      status := run
      reader := { buf := 0, cnt := 0, consumed := 0, len := s.srcLen, rev := s.lsb2msb }
      cur := [], ref := [], a0 := 0, atStart := true, c := .white
      acc := 0, hphase := 0, afterZero := false
      lineMode := if s.kind = some .g3_1d then .l1d else .l2d
      rows := 0, rowOpen := false, capRows := s.dstCap / s.stride }) ∧
    (s.cfg.job.isDecode = false → s.stride * s.imageHeight ≤ s.srcLen → exec .start s = .next { s with
      status := run
      reader := { buf := 0, cnt := 0, consumed := 0, len := s.srcLen, rev := false }
      cur := [], ref := [], a0 := 0, atStart := true, c := .white
      writer := { wacc := 0, wn := 0, wlen := 0 }, y := 0 })

/-- R12, R43, R180: a step runs the instruction that is fetched: a codeword at the stream position of a running decode job, or
the unit command that the host issues. The command list is the model's (log 6). -/
def Obligations.StepRunsTheInstruction : Prop :=
  ∀ (s : State) (i : Instr),
    (s.commands = [] → s.decoding = true → s.fetch = .ok i → step s = exec i s) ∧
    (∀ opsel x y z rest, s.commands = .select opsel x y z :: rest → decodeSelect opsel x y z = .ok i →
      step s = exec i (s.setCommands rest))

/-- R40, R42, R338, U7: a host write of a CFG register is ignored in RUN; outside RUN it stores the defined bits of that
register and keeps the others, and a read answers them, with the reserved bits 0; every STATUS register is read in every
state as its code or number. That ROWS, OUT_LEN and SRC_USED answer the exact number, also from 2^32 on, is the model's choice
(log 21); the command list and the result register are its own (logs 6, 7), and what a CFG read in RUN answers is not said
(log 27). -/
def Obligations.HostRegisters : Prop :=
  ∀ (s : State) (reg : CfgReg) (v : Word) (rest : List HostCommand),
    (s.commands = .writeCfg reg v :: rest → s.running = true → step s = .next { s with commands := rest }) ∧
    (s.commands = .writeCfg reg v :: .readReg (.cfg reg) :: rest → s.running = false →
      ∃ t u n, step s = .next t ∧ t = { s with cfg := t.cfg, commands := t.commands } ∧
        (∀ other, other ≠ reg → t.cfg.readReg other = s.cfg.readReg other) ∧
        step t = .next u ∧ u = { t with result := .register n, commands := rest } ∧
        n = match reg with
          | .op => v.toNat % 4
          | .flags => v.toNat % 64
          | .options => v.toNat % 2
          | _ => v.toNat) ∧
    (∀ r, s.commands = .readReg (.cfg r) :: rest → s.running = false →
      step s = .next { s with commands := rest, result := .register (s.cfg.readReg r) }) ∧
    (∀ r n, (r, n) ∈ [
        (HostReg.state, match s.status.state with | .idle => 0 | .run => 1 | .done => 2 | .fault => 3),
        (.stop, match s.status.stop with
          | .none => 0 | .height => 1 | .eob => 2 | .eod => 3 | .lenient => 4 | .encoded => 5),
        (.rows, s.status.rows), (.endedOnEod, if s.status.endedOnEod then 1 else 0),
        (.faultCode, match s.status.faultCode with | .none => 0 | .config => 1 | .size => 2 | .capacity => 3 | .format => 4),
        (.outLen, s.status.outLen), (.srcUsed, s.status.srcUsed)] →
      s.commands = .readReg r :: rest → step s = .next { s with commands := rest, result := .register n })

/-- R60, R63, R77, U6: outside RUN a host write of SRC or DST sets that one byte, which then reads back, and a host read
answers the byte; in RUN the access is refused; SRC has no byte beyond what an SRC_LEN can reach, which is the model's bound
(log 20). -/
def Obligations.HostMemories : Prop :=
  ∀ (s : State) (a : Nat) (v : Byte) (rest : List HostCommand),
    (s.commands = .writeDst a v :: rest → s.running = false → s.dst.wf = true →
      ∃ m, m.wf = true ∧ (∀ b, m.read b = if b = a then v else s.dst.read b) ∧
        step s = .next { s with dst := m, commands := rest }) ∧
    (s.commands = .writeSrc a v :: rest → s.running = false → s.src.wf = true → a ≤ 2 ^ 32 - 2 →
      ∃ m, m.wf = true ∧ (∀ b, m.read b = if b = a then v else s.src.read b) ∧
        step s = .next { s with src := m, commands := rest }) ∧
    (s.commands = .readDst a :: rest → s.running = false →
      step s = .next { s with result := .byte (s.dst.read a), commands := rest }) ∧
    (s.commands = .readSrc a :: rest → s.running = false → a ≤ 2 ^ 32 - 2 →
      step s = .next { s with result := .byte (s.src.read a), commands := rest }) ∧
    (s.commands = .writeSrc a v :: rest ∨ s.commands = .readSrc a :: rest → s.running = false → 2 ^ 32 - 2 < a →
      step s = .fault .noSuchAddress) ∧
    (s.commands = .writeDst a v :: rest ∨ s.commands = .writeSrc a v :: rest ∨ s.commands = .readDst a :: rest ∨
      s.commands = .readSrc a :: rest → s.running = true → step s = .refused .hostAccessDuringRun)

/-! ### The whole machine -/

/-- R44 and the model's reset values (log 2): after reset STATUS is clear, the memories list nothing (what they hold is then
a free value, log 4), and every invariant stated below holds. -/
def Obligations.ResetState : Prop :=
  State.reset.status = { state := .idle, stop := .none, rows := 0, endedOnEod := false, faultCode := .none, outLen := 0,
                         srcUsed := 0 } ∧
  State.reset.src.cells = [] ∧ State.reset.dst.cells = [] ∧ State.reset.memoriesOk ∧
  Status.Ok State.reset.status ∧ State.reset.JobOk ∧ State.reset.running = false

/-- R40, R60: no instruction writes CFG or SRC. That RESET keeps CFG too, which R44, R330 and U10 leave unspecified, is the
model's reading (log 3). -/
def Obligations.CfgAndSrcAreReadOnly : Prop :=
  (∀ (i : Instr) (s t : State), exec i s = .next t → t.cfg = s.cfg ∧ t.src = s.src ∧ t.commands = s.commands) ∧
  (∀ s t : State, s.commands = [] → step s = .next t → t.cfg = s.cfg ∧ t.src = s.src ∧ t.commands = [])

/-- Every step keeps both memories in canonical form: the written bytes listed with addresses strictly rising (log 4). -/
def Obligations.MemoriesStayCanonical : Prop :=
  ∀ s t : State, s.memoriesOk → step s = .next t → t.memoriesOk

/-- R22, R29, R32, R233: the decoder's invariants are kept by every step of the machine, whatever the host's command, and
hold when a decode job starts. -/
def Obligations.DecoderInvariantsKept : Prop :=
  ∀ s t : State, step s = .next t →
    (s.running = true → s.cfg.job.isDecode = true → s.DecodeOk) →
    (t.running = true → t.cfg.job.isDecode = true → t.DecodeOk)

/-- R22, R26, R36, R253, R288: the encoder's invariants are kept by every step of the machine and hold when an encode job
starts, except by a host that drives `EncodeStepG4` in the middle of a job, where R251 scans a row first (logs 23 and
28). -/
def Obligations.EncoderInvariantsKept : Prop :=
  ∀ s t : State, s.memoriesOk → step s = .next t → (∀ x y z rest, s.commands ≠ .select 0x52 x y z :: rest) →
    (s.running = true → s.cfg.job.isDecode = false → s.EncodeOk) →
    (t.running = true → t.cfg.job.isDecode = false → t.EncodeOk)

/-- R42, R194, R301, R307: `ENDED_ON_EOD` is 1 iff `STOP` is EOD, a job in RUN has neither stopped nor faulted, and no step
produces FormatFault. -/
def Obligations.StatusStaysConsistent : Prop :=
  ∀ s t : State, Status.Ok s.status → step s = .next t → Status.Ok t.status

/-- R314, R286, R309, R310, R313: nothing but RESET leads from RUN to IDLE, and nothing but START leads into RUN; outside RUN
the block does nothing of its own, and no command but RESET and START changes STATE, or any other register of STATUS but
OUT_LEN, which only `finish` writes (R146): FAULT is left by nothing else, and no second fault occurs in it. That a unit
operation which reaches Stop or raise outside RUN keeps STATUS is the model's reading (log 25). -/
def Obligations.StateTransitions : Prop :=
  (∀ s : State, s.commands = [] → s.running = false → step s = .next s) ∧
  ∀ s t : State, step s = .next t →
    (s.running = true → t.status.state = .idle → ∃ x y z rest, s.commands = .select 0x00 x y z :: rest) ∧
    (s.running = false → t.running = true → ∃ x y z rest, s.commands = .select 0x01 x y z :: rest) ∧
    (s.running = false → (∀ x y z rest, s.commands ≠ .select 0x00 x y z :: rest ∧ s.commands ≠ .select 0x01 x y z :: rest) →
      t.status = { s.status with outLen := t.status.outLen } ∧
      ((∀ x y z rest, s.commands ≠ .select 0x1B x y z :: rest) → t.status = s.status))

/-- R306: with DEST_FIXED = 0 no step of a decode job raises CapacityFault. -/
def Obligations.NoCapacityFaultUnlessFixed : Prop :=
  ∀ s t : State, s.decoding = true → s.commands = [] → s.destFixed = false → step s = .next t → t.status.state ≠ .fault

/-- R110, R200, R302: a job that START began never meets a fault or a refusal of the model: in every state that keeps the
invariants the block's own step answers a next state. -/
def Obligations.JobsNeverGetStuck : Prop :=
  ∀ s : State, s.memoriesOk → s.JobOk → s.commands = [] → ∃ t, step s = .next t

/-- R197, R24: every step of a decode job moves the stream position forward or ends the job. -/
def Obligations.DecodeStepsProgress : Prop :=
  ∀ s t : State, s.decoding = true → s.DecodeOk → s.commands = [] → step s = .next t →
    t.running = true → s.reader.position < t.reader.position

/-- R197, R284, R342: a decode job ends within 8*SRC_LEN + 1 steps of its START, whatever the input. -/
def Obligations.DecodeJobsEnd : Prop :=
  ∀ s t : State, s.running = false → s.cfg.job.isDecode = true → s.commands = [] → exec .start s = .next t →
    ∃ n u, n ≤ 8 * s.srcLen + 1 ∧ Host.Core.run Sys2Proof.core n t = .next u ∧ u.running = false

/-- R285, R342: an encode job ends within H * (2*W + 2) steps of its START. -/
def Obligations.EncodeJobsEnd : Prop :=
  ∀ s t : State, s.running = false → s.cfg.job.isDecode = false → s.commands = [] → s.memoriesOk → exec .start s = .next t →
    ∃ n u, n ≤ s.imageHeight * (2 * s.imageWidth + 2) ∧ Host.Core.run Sys2Proof.core n t = .next u ∧ u.running = false

/-- R25, R143: look-ahead is hidden: two states of a decode job that differ only in how far the buffer runs ahead take steps
that differ only in that and in `STATUS.SRC_USED`. -/
def Obligations.LookAheadIsHidden : Prop :=
  ∀ (s : State) (r : Reader), s.decoding = true → s.commands = [] → s.reader.Ok s.src → s.reader.Moved s.src 0 r →
    ∃ t u, step s = .next t ∧ step { s with reader := r } = .next u ∧
      u = { t with reader := u.reader, status := { t.status with srcUsed := u.status.srcUsed } } ∧
      t.reader.Moved s.src 0 u.reader

/-- R199, R65, R66: inversion: two decode jobs that differ only in BLACK_IS_1 take the same steps, and the rows they draw,
padding included, are complements of each other. -/
def Obligations.InversionComplementsTheRows : Prop :=
  ∀ s s' t : State, s.decoding = true → s.commands = [] → s.DecodeOk → s.dst.wf = true → s'.dst.wf = true →
    s.Inverted s' → step s = .next t → ∃ t', step s' = .next t' ∧ t.Inverted t'

/-- R234, R32, R198, R221: soundness of the reference line: between the steps of a decode job `ref` lists exactly the changing
elements of the pixels of the row before, and `cur` those of the pixels placed so far; it holds when the job starts. -/
def Obligations.LinesDescribeThePixels : Prop :=
  (∀ s t : State, s.decoding = true → s.commands = [] → s.DecodeOk → s.dst.wf = true → s.LineSound → step s = .next t →
    t.running = true → t.LineSound) ∧
  (∀ s t : State, s.running = false → s.cfg.job.isDecode = true → exec .start s = .next t → t.running = true → t.LineSound)

end Statements
end

