-- ==== Sys2Proof/Laws/State.lean ====
section
/-! SUPPORT. One lemma for each field of State and each named update, true by rfl; the same for the fields of CFG. -/

namespace Sys2Proof.Machine

/-! ### setReader -/

@[simp] theorem setReader_cfg (s : State) (r : Reader) : (s.setReader r).cfg = s.cfg := rfl
@[simp] theorem setReader_status (s : State) (r : Reader) : (s.setReader r).status = s.status := rfl
@[simp] theorem setReader_reader (s : State) (r : Reader) : (s.setReader r).reader = r := rfl
@[simp] theorem setReader_writer (s : State) (r : Reader) : (s.setReader r).writer = s.writer := rfl
@[simp] theorem setReader_a0 (s : State) (r : Reader) : (s.setReader r).a0 = s.a0 := rfl
@[simp] theorem setReader_atStart (s : State) (r : Reader) : (s.setReader r).atStart = s.atStart := rfl
@[simp] theorem setReader_c (s : State) (r : Reader) : (s.setReader r).c = s.c := rfl
@[simp] theorem setReader_acc (s : State) (r : Reader) : (s.setReader r).acc = s.acc := rfl
@[simp] theorem setReader_hphase (s : State) (r : Reader) : (s.setReader r).hphase = s.hphase := rfl
@[simp] theorem setReader_afterZero (s : State) (r : Reader) : (s.setReader r).afterZero = s.afterZero := rfl
@[simp] theorem setReader_lineMode (s : State) (r : Reader) : (s.setReader r).lineMode = s.lineMode := rfl
@[simp] theorem setReader_rows (s : State) (r : Reader) : (s.setReader r).rows = s.rows := rfl
@[simp] theorem setReader_rowOpen (s : State) (r : Reader) : (s.setReader r).rowOpen = s.rowOpen := rfl
@[simp] theorem setReader_capRows (s : State) (r : Reader) : (s.setReader r).capRows = s.capRows := rfl
@[simp] theorem setReader_y (s : State) (r : Reader) : (s.setReader r).y = s.y := rfl
@[simp] theorem setReader_a1 (s : State) (r : Reader) : (s.setReader r).a1 = s.a1 := rfl
@[simp] theorem setReader_a2 (s : State) (r : Reader) : (s.setReader r).a2 = s.a2 := rfl
@[simp] theorem setReader_b1 (s : State) (r : Reader) : (s.setReader r).b1 = s.b1 := rfl
@[simp] theorem setReader_b2 (s : State) (r : Reader) : (s.setReader r).b2 = s.b2 := rfl
@[simp] theorem setReader_cur (s : State) (r : Reader) : (s.setReader r).cur = s.cur := rfl
@[simp] theorem setReader_ref (s : State) (r : Reader) : (s.setReader r).ref = s.ref := rfl
@[simp] theorem setReader_src (s : State) (r : Reader) : (s.setReader r).src = s.src := rfl
@[simp] theorem setReader_dst (s : State) (r : Reader) : (s.setReader r).dst = s.dst := rfl
@[simp] theorem setReader_result (s : State) (r : Reader) : (s.setReader r).result = s.result := rfl
@[simp] theorem setReader_commands (s : State) (r : Reader) : (s.setReader r).commands = s.commands := rfl
@[simp] theorem setReader_resets (s : State) (r : Reader) : (s.setReader r).resets = s.resets := rfl
@[simp] theorem setReader_imageWidth (s : State) (r : Reader) : (s.setReader r).imageWidth = s.imageWidth := rfl
@[simp] theorem setReader_imageHeight (s : State) (r : Reader) : (s.setReader r).imageHeight = s.imageHeight := rfl
@[simp] theorem setReader_stride (s : State) (r : Reader) : (s.setReader r).stride = s.stride := rfl
@[simp] theorem setReader_srcLen (s : State) (r : Reader) : (s.setReader r).srcLen = s.srcLen := rfl
@[simp] theorem setReader_dstCap (s : State) (r : Reader) : (s.setReader r).dstCap = s.dstCap := rfl
@[simp] theorem setReader_rowAlign (s : State) (r : Reader) : (s.setReader r).rowAlign = s.rowAlign := rfl
@[simp] theorem setReader_blackIs1 (s : State) (r : Reader) : (s.setReader r).blackIs1 = s.blackIs1 := rfl
@[simp] theorem setReader_hasEol (s : State) (r : Reader) : (s.setReader r).hasEol = s.hasEol := rfl
@[simp] theorem setReader_hasEob (s : State) (r : Reader) : (s.setReader r).hasEob = s.hasEob := rfl
@[simp] theorem setReader_destFixed (s : State) (r : Reader) : (s.setReader r).destFixed = s.destFixed := rfl
@[simp] theorem setReader_kind (s : State) (r : Reader) : (s.setReader r).kind = s.kind := rfl
@[simp] theorem setReader_whiteByte (s : State) (r : Reader) : (s.setReader r).whiteByte = s.whiteByte := rfl
@[simp] theorem setReader_running (s : State) (r : Reader) : (s.setReader r).running = s.running := rfl

/-! ### setWriter -/

@[simp] theorem setWriter_cfg (s : State) (w : Writer) : (s.setWriter w).cfg = s.cfg := rfl
@[simp] theorem setWriter_status (s : State) (w : Writer) : (s.setWriter w).status = s.status := rfl
@[simp] theorem setWriter_reader (s : State) (w : Writer) : (s.setWriter w).reader = s.reader := rfl
@[simp] theorem setWriter_writer (s : State) (w : Writer) : (s.setWriter w).writer = w := rfl
@[simp] theorem setWriter_a0 (s : State) (w : Writer) : (s.setWriter w).a0 = s.a0 := rfl
@[simp] theorem setWriter_atStart (s : State) (w : Writer) : (s.setWriter w).atStart = s.atStart := rfl
@[simp] theorem setWriter_c (s : State) (w : Writer) : (s.setWriter w).c = s.c := rfl
@[simp] theorem setWriter_acc (s : State) (w : Writer) : (s.setWriter w).acc = s.acc := rfl
@[simp] theorem setWriter_hphase (s : State) (w : Writer) : (s.setWriter w).hphase = s.hphase := rfl
@[simp] theorem setWriter_afterZero (s : State) (w : Writer) : (s.setWriter w).afterZero = s.afterZero := rfl
@[simp] theorem setWriter_lineMode (s : State) (w : Writer) : (s.setWriter w).lineMode = s.lineMode := rfl
@[simp] theorem setWriter_rows (s : State) (w : Writer) : (s.setWriter w).rows = s.rows := rfl
@[simp] theorem setWriter_rowOpen (s : State) (w : Writer) : (s.setWriter w).rowOpen = s.rowOpen := rfl
@[simp] theorem setWriter_capRows (s : State) (w : Writer) : (s.setWriter w).capRows = s.capRows := rfl
@[simp] theorem setWriter_y (s : State) (w : Writer) : (s.setWriter w).y = s.y := rfl
@[simp] theorem setWriter_a1 (s : State) (w : Writer) : (s.setWriter w).a1 = s.a1 := rfl
@[simp] theorem setWriter_a2 (s : State) (w : Writer) : (s.setWriter w).a2 = s.a2 := rfl
@[simp] theorem setWriter_b1 (s : State) (w : Writer) : (s.setWriter w).b1 = s.b1 := rfl
@[simp] theorem setWriter_b2 (s : State) (w : Writer) : (s.setWriter w).b2 = s.b2 := rfl
@[simp] theorem setWriter_cur (s : State) (w : Writer) : (s.setWriter w).cur = s.cur := rfl
@[simp] theorem setWriter_ref (s : State) (w : Writer) : (s.setWriter w).ref = s.ref := rfl
@[simp] theorem setWriter_src (s : State) (w : Writer) : (s.setWriter w).src = s.src := rfl
@[simp] theorem setWriter_dst (s : State) (w : Writer) : (s.setWriter w).dst = s.dst := rfl
@[simp] theorem setWriter_result (s : State) (w : Writer) : (s.setWriter w).result = s.result := rfl
@[simp] theorem setWriter_commands (s : State) (w : Writer) : (s.setWriter w).commands = s.commands := rfl
@[simp] theorem setWriter_resets (s : State) (w : Writer) : (s.setWriter w).resets = s.resets := rfl
@[simp] theorem setWriter_imageWidth (s : State) (w : Writer) : (s.setWriter w).imageWidth = s.imageWidth := rfl
@[simp] theorem setWriter_imageHeight (s : State) (w : Writer) : (s.setWriter w).imageHeight = s.imageHeight := rfl
@[simp] theorem setWriter_stride (s : State) (w : Writer) : (s.setWriter w).stride = s.stride := rfl
@[simp] theorem setWriter_srcLen (s : State) (w : Writer) : (s.setWriter w).srcLen = s.srcLen := rfl
@[simp] theorem setWriter_dstCap (s : State) (w : Writer) : (s.setWriter w).dstCap = s.dstCap := rfl
@[simp] theorem setWriter_rowAlign (s : State) (w : Writer) : (s.setWriter w).rowAlign = s.rowAlign := rfl
@[simp] theorem setWriter_blackIs1 (s : State) (w : Writer) : (s.setWriter w).blackIs1 = s.blackIs1 := rfl
@[simp] theorem setWriter_hasEol (s : State) (w : Writer) : (s.setWriter w).hasEol = s.hasEol := rfl
@[simp] theorem setWriter_hasEob (s : State) (w : Writer) : (s.setWriter w).hasEob = s.hasEob := rfl
@[simp] theorem setWriter_destFixed (s : State) (w : Writer) : (s.setWriter w).destFixed = s.destFixed := rfl
@[simp] theorem setWriter_kind (s : State) (w : Writer) : (s.setWriter w).kind = s.kind := rfl
@[simp] theorem setWriter_whiteByte (s : State) (w : Writer) : (s.setWriter w).whiteByte = s.whiteByte := rfl
@[simp] theorem setWriter_running (s : State) (w : Writer) : (s.setWriter w).running = s.running := rfl

/-! ### setDst -/

@[simp] theorem setDst_cfg (s : State) (m : Memory) : (s.setDst m).cfg = s.cfg := rfl
@[simp] theorem setDst_status (s : State) (m : Memory) : (s.setDst m).status = s.status := rfl
@[simp] theorem setDst_reader (s : State) (m : Memory) : (s.setDst m).reader = s.reader := rfl
@[simp] theorem setDst_writer (s : State) (m : Memory) : (s.setDst m).writer = s.writer := rfl
@[simp] theorem setDst_a0 (s : State) (m : Memory) : (s.setDst m).a0 = s.a0 := rfl
@[simp] theorem setDst_atStart (s : State) (m : Memory) : (s.setDst m).atStart = s.atStart := rfl
@[simp] theorem setDst_c (s : State) (m : Memory) : (s.setDst m).c = s.c := rfl
@[simp] theorem setDst_acc (s : State) (m : Memory) : (s.setDst m).acc = s.acc := rfl
@[simp] theorem setDst_hphase (s : State) (m : Memory) : (s.setDst m).hphase = s.hphase := rfl
@[simp] theorem setDst_afterZero (s : State) (m : Memory) : (s.setDst m).afterZero = s.afterZero := rfl
@[simp] theorem setDst_lineMode (s : State) (m : Memory) : (s.setDst m).lineMode = s.lineMode := rfl
@[simp] theorem setDst_rows (s : State) (m : Memory) : (s.setDst m).rows = s.rows := rfl
@[simp] theorem setDst_rowOpen (s : State) (m : Memory) : (s.setDst m).rowOpen = s.rowOpen := rfl
@[simp] theorem setDst_capRows (s : State) (m : Memory) : (s.setDst m).capRows = s.capRows := rfl
@[simp] theorem setDst_y (s : State) (m : Memory) : (s.setDst m).y = s.y := rfl
@[simp] theorem setDst_a1 (s : State) (m : Memory) : (s.setDst m).a1 = s.a1 := rfl
@[simp] theorem setDst_a2 (s : State) (m : Memory) : (s.setDst m).a2 = s.a2 := rfl
@[simp] theorem setDst_b1 (s : State) (m : Memory) : (s.setDst m).b1 = s.b1 := rfl
@[simp] theorem setDst_b2 (s : State) (m : Memory) : (s.setDst m).b2 = s.b2 := rfl
@[simp] theorem setDst_cur (s : State) (m : Memory) : (s.setDst m).cur = s.cur := rfl
@[simp] theorem setDst_ref (s : State) (m : Memory) : (s.setDst m).ref = s.ref := rfl
@[simp] theorem setDst_src (s : State) (m : Memory) : (s.setDst m).src = s.src := rfl
@[simp] theorem setDst_dst (s : State) (m : Memory) : (s.setDst m).dst = m := rfl
@[simp] theorem setDst_result (s : State) (m : Memory) : (s.setDst m).result = s.result := rfl
@[simp] theorem setDst_commands (s : State) (m : Memory) : (s.setDst m).commands = s.commands := rfl
@[simp] theorem setDst_resets (s : State) (m : Memory) : (s.setDst m).resets = s.resets := rfl
@[simp] theorem setDst_imageWidth (s : State) (m : Memory) : (s.setDst m).imageWidth = s.imageWidth := rfl
@[simp] theorem setDst_imageHeight (s : State) (m : Memory) : (s.setDst m).imageHeight = s.imageHeight := rfl
@[simp] theorem setDst_stride (s : State) (m : Memory) : (s.setDst m).stride = s.stride := rfl
@[simp] theorem setDst_srcLen (s : State) (m : Memory) : (s.setDst m).srcLen = s.srcLen := rfl
@[simp] theorem setDst_dstCap (s : State) (m : Memory) : (s.setDst m).dstCap = s.dstCap := rfl
@[simp] theorem setDst_rowAlign (s : State) (m : Memory) : (s.setDst m).rowAlign = s.rowAlign := rfl
@[simp] theorem setDst_blackIs1 (s : State) (m : Memory) : (s.setDst m).blackIs1 = s.blackIs1 := rfl
@[simp] theorem setDst_hasEol (s : State) (m : Memory) : (s.setDst m).hasEol = s.hasEol := rfl
@[simp] theorem setDst_hasEob (s : State) (m : Memory) : (s.setDst m).hasEob = s.hasEob := rfl
@[simp] theorem setDst_destFixed (s : State) (m : Memory) : (s.setDst m).destFixed = s.destFixed := rfl
@[simp] theorem setDst_kind (s : State) (m : Memory) : (s.setDst m).kind = s.kind := rfl
@[simp] theorem setDst_whiteByte (s : State) (m : Memory) : (s.setDst m).whiteByte = s.whiteByte := rfl
@[simp] theorem setDst_running (s : State) (m : Memory) : (s.setDst m).running = s.running := rfl

/-! ### setStatus -/

@[simp] theorem setStatus_cfg (s : State) (t : Status) : (s.setStatus t).cfg = s.cfg := rfl
@[simp] theorem setStatus_status (s : State) (t : Status) : (s.setStatus t).status = t := rfl
@[simp] theorem setStatus_reader (s : State) (t : Status) : (s.setStatus t).reader = s.reader := rfl
@[simp] theorem setStatus_writer (s : State) (t : Status) : (s.setStatus t).writer = s.writer := rfl
@[simp] theorem setStatus_a0 (s : State) (t : Status) : (s.setStatus t).a0 = s.a0 := rfl
@[simp] theorem setStatus_atStart (s : State) (t : Status) : (s.setStatus t).atStart = s.atStart := rfl
@[simp] theorem setStatus_c (s : State) (t : Status) : (s.setStatus t).c = s.c := rfl
@[simp] theorem setStatus_acc (s : State) (t : Status) : (s.setStatus t).acc = s.acc := rfl
@[simp] theorem setStatus_hphase (s : State) (t : Status) : (s.setStatus t).hphase = s.hphase := rfl
@[simp] theorem setStatus_afterZero (s : State) (t : Status) : (s.setStatus t).afterZero = s.afterZero := rfl
@[simp] theorem setStatus_lineMode (s : State) (t : Status) : (s.setStatus t).lineMode = s.lineMode := rfl
@[simp] theorem setStatus_rows (s : State) (t : Status) : (s.setStatus t).rows = s.rows := rfl
@[simp] theorem setStatus_rowOpen (s : State) (t : Status) : (s.setStatus t).rowOpen = s.rowOpen := rfl
@[simp] theorem setStatus_capRows (s : State) (t : Status) : (s.setStatus t).capRows = s.capRows := rfl
@[simp] theorem setStatus_y (s : State) (t : Status) : (s.setStatus t).y = s.y := rfl
@[simp] theorem setStatus_a1 (s : State) (t : Status) : (s.setStatus t).a1 = s.a1 := rfl
@[simp] theorem setStatus_a2 (s : State) (t : Status) : (s.setStatus t).a2 = s.a2 := rfl
@[simp] theorem setStatus_b1 (s : State) (t : Status) : (s.setStatus t).b1 = s.b1 := rfl
@[simp] theorem setStatus_b2 (s : State) (t : Status) : (s.setStatus t).b2 = s.b2 := rfl
@[simp] theorem setStatus_cur (s : State) (t : Status) : (s.setStatus t).cur = s.cur := rfl
@[simp] theorem setStatus_ref (s : State) (t : Status) : (s.setStatus t).ref = s.ref := rfl
@[simp] theorem setStatus_src (s : State) (t : Status) : (s.setStatus t).src = s.src := rfl
@[simp] theorem setStatus_dst (s : State) (t : Status) : (s.setStatus t).dst = s.dst := rfl
@[simp] theorem setStatus_result (s : State) (t : Status) : (s.setStatus t).result = s.result := rfl
@[simp] theorem setStatus_commands (s : State) (t : Status) : (s.setStatus t).commands = s.commands := rfl
@[simp] theorem setStatus_resets (s : State) (t : Status) : (s.setStatus t).resets = s.resets := rfl
@[simp] theorem setStatus_imageWidth (s : State) (t : Status) : (s.setStatus t).imageWidth = s.imageWidth := rfl
@[simp] theorem setStatus_imageHeight (s : State) (t : Status) : (s.setStatus t).imageHeight = s.imageHeight := rfl
@[simp] theorem setStatus_stride (s : State) (t : Status) : (s.setStatus t).stride = s.stride := rfl
@[simp] theorem setStatus_srcLen (s : State) (t : Status) : (s.setStatus t).srcLen = s.srcLen := rfl
@[simp] theorem setStatus_dstCap (s : State) (t : Status) : (s.setStatus t).dstCap = s.dstCap := rfl
@[simp] theorem setStatus_rowAlign (s : State) (t : Status) : (s.setStatus t).rowAlign = s.rowAlign := rfl
@[simp] theorem setStatus_blackIs1 (s : State) (t : Status) : (s.setStatus t).blackIs1 = s.blackIs1 := rfl
@[simp] theorem setStatus_hasEol (s : State) (t : Status) : (s.setStatus t).hasEol = s.hasEol := rfl
@[simp] theorem setStatus_hasEob (s : State) (t : Status) : (s.setStatus t).hasEob = s.hasEob := rfl
@[simp] theorem setStatus_destFixed (s : State) (t : Status) : (s.setStatus t).destFixed = s.destFixed := rfl
@[simp] theorem setStatus_kind (s : State) (t : Status) : (s.setStatus t).kind = s.kind := rfl
@[simp] theorem setStatus_whiteByte (s : State) (t : Status) : (s.setStatus t).whiteByte = s.whiteByte := rfl

/-! ### setResult -/

@[simp] theorem setResult_cfg (s : State) (r : OpResult) : (s.setResult r).cfg = s.cfg := rfl
@[simp] theorem setResult_status (s : State) (r : OpResult) : (s.setResult r).status = s.status := rfl
@[simp] theorem setResult_reader (s : State) (r : OpResult) : (s.setResult r).reader = s.reader := rfl
@[simp] theorem setResult_writer (s : State) (r : OpResult) : (s.setResult r).writer = s.writer := rfl
@[simp] theorem setResult_a0 (s : State) (r : OpResult) : (s.setResult r).a0 = s.a0 := rfl
@[simp] theorem setResult_atStart (s : State) (r : OpResult) : (s.setResult r).atStart = s.atStart := rfl
@[simp] theorem setResult_c (s : State) (r : OpResult) : (s.setResult r).c = s.c := rfl
@[simp] theorem setResult_acc (s : State) (r : OpResult) : (s.setResult r).acc = s.acc := rfl
@[simp] theorem setResult_hphase (s : State) (r : OpResult) : (s.setResult r).hphase = s.hphase := rfl
@[simp] theorem setResult_afterZero (s : State) (r : OpResult) : (s.setResult r).afterZero = s.afterZero := rfl
@[simp] theorem setResult_lineMode (s : State) (r : OpResult) : (s.setResult r).lineMode = s.lineMode := rfl
@[simp] theorem setResult_rows (s : State) (r : OpResult) : (s.setResult r).rows = s.rows := rfl
@[simp] theorem setResult_rowOpen (s : State) (r : OpResult) : (s.setResult r).rowOpen = s.rowOpen := rfl
@[simp] theorem setResult_capRows (s : State) (r : OpResult) : (s.setResult r).capRows = s.capRows := rfl
@[simp] theorem setResult_y (s : State) (r : OpResult) : (s.setResult r).y = s.y := rfl
@[simp] theorem setResult_a1 (s : State) (r : OpResult) : (s.setResult r).a1 = s.a1 := rfl
@[simp] theorem setResult_a2 (s : State) (r : OpResult) : (s.setResult r).a2 = s.a2 := rfl
@[simp] theorem setResult_b1 (s : State) (r : OpResult) : (s.setResult r).b1 = s.b1 := rfl
@[simp] theorem setResult_b2 (s : State) (r : OpResult) : (s.setResult r).b2 = s.b2 := rfl
@[simp] theorem setResult_cur (s : State) (r : OpResult) : (s.setResult r).cur = s.cur := rfl
@[simp] theorem setResult_ref (s : State) (r : OpResult) : (s.setResult r).ref = s.ref := rfl
@[simp] theorem setResult_src (s : State) (r : OpResult) : (s.setResult r).src = s.src := rfl
@[simp] theorem setResult_dst (s : State) (r : OpResult) : (s.setResult r).dst = s.dst := rfl
@[simp] theorem setResult_result (s : State) (r : OpResult) : (s.setResult r).result = r := rfl
@[simp] theorem setResult_commands (s : State) (r : OpResult) : (s.setResult r).commands = s.commands := rfl
@[simp] theorem setResult_resets (s : State) (r : OpResult) : (s.setResult r).resets = s.resets := rfl
@[simp] theorem setResult_imageWidth (s : State) (r : OpResult) : (s.setResult r).imageWidth = s.imageWidth := rfl
@[simp] theorem setResult_imageHeight (s : State) (r : OpResult) : (s.setResult r).imageHeight = s.imageHeight := rfl
@[simp] theorem setResult_stride (s : State) (r : OpResult) : (s.setResult r).stride = s.stride := rfl
@[simp] theorem setResult_srcLen (s : State) (r : OpResult) : (s.setResult r).srcLen = s.srcLen := rfl
@[simp] theorem setResult_dstCap (s : State) (r : OpResult) : (s.setResult r).dstCap = s.dstCap := rfl
@[simp] theorem setResult_rowAlign (s : State) (r : OpResult) : (s.setResult r).rowAlign = s.rowAlign := rfl
@[simp] theorem setResult_blackIs1 (s : State) (r : OpResult) : (s.setResult r).blackIs1 = s.blackIs1 := rfl
@[simp] theorem setResult_hasEol (s : State) (r : OpResult) : (s.setResult r).hasEol = s.hasEol := rfl
@[simp] theorem setResult_hasEob (s : State) (r : OpResult) : (s.setResult r).hasEob = s.hasEob := rfl
@[simp] theorem setResult_destFixed (s : State) (r : OpResult) : (s.setResult r).destFixed = s.destFixed := rfl
@[simp] theorem setResult_kind (s : State) (r : OpResult) : (s.setResult r).kind = s.kind := rfl
@[simp] theorem setResult_whiteByte (s : State) (r : OpResult) : (s.setResult r).whiteByte = s.whiteByte := rfl
@[simp] theorem setResult_running (s : State) (r : OpResult) : (s.setResult r).running = s.running := rfl

/-! ### setCommands -/

@[simp] theorem setCommands_cfg (s : State) (l : List HostCommand) : (s.setCommands l).cfg = s.cfg := rfl
@[simp] theorem setCommands_status (s : State) (l : List HostCommand) : (s.setCommands l).status = s.status := rfl
@[simp] theorem setCommands_reader (s : State) (l : List HostCommand) : (s.setCommands l).reader = s.reader := rfl
@[simp] theorem setCommands_writer (s : State) (l : List HostCommand) : (s.setCommands l).writer = s.writer := rfl
@[simp] theorem setCommands_a0 (s : State) (l : List HostCommand) : (s.setCommands l).a0 = s.a0 := rfl
@[simp] theorem setCommands_atStart (s : State) (l : List HostCommand) : (s.setCommands l).atStart = s.atStart := rfl
@[simp] theorem setCommands_c (s : State) (l : List HostCommand) : (s.setCommands l).c = s.c := rfl
@[simp] theorem setCommands_acc (s : State) (l : List HostCommand) : (s.setCommands l).acc = s.acc := rfl
@[simp] theorem setCommands_hphase (s : State) (l : List HostCommand) : (s.setCommands l).hphase = s.hphase := rfl
@[simp] theorem setCommands_afterZero (s : State) (l : List HostCommand) : (s.setCommands l).afterZero = s.afterZero := rfl
@[simp] theorem setCommands_lineMode (s : State) (l : List HostCommand) : (s.setCommands l).lineMode = s.lineMode := rfl
@[simp] theorem setCommands_rows (s : State) (l : List HostCommand) : (s.setCommands l).rows = s.rows := rfl
@[simp] theorem setCommands_rowOpen (s : State) (l : List HostCommand) : (s.setCommands l).rowOpen = s.rowOpen := rfl
@[simp] theorem setCommands_capRows (s : State) (l : List HostCommand) : (s.setCommands l).capRows = s.capRows := rfl
@[simp] theorem setCommands_y (s : State) (l : List HostCommand) : (s.setCommands l).y = s.y := rfl
@[simp] theorem setCommands_a1 (s : State) (l : List HostCommand) : (s.setCommands l).a1 = s.a1 := rfl
@[simp] theorem setCommands_a2 (s : State) (l : List HostCommand) : (s.setCommands l).a2 = s.a2 := rfl
@[simp] theorem setCommands_b1 (s : State) (l : List HostCommand) : (s.setCommands l).b1 = s.b1 := rfl
@[simp] theorem setCommands_b2 (s : State) (l : List HostCommand) : (s.setCommands l).b2 = s.b2 := rfl
@[simp] theorem setCommands_cur (s : State) (l : List HostCommand) : (s.setCommands l).cur = s.cur := rfl
@[simp] theorem setCommands_ref (s : State) (l : List HostCommand) : (s.setCommands l).ref = s.ref := rfl
@[simp] theorem setCommands_src (s : State) (l : List HostCommand) : (s.setCommands l).src = s.src := rfl
@[simp] theorem setCommands_dst (s : State) (l : List HostCommand) : (s.setCommands l).dst = s.dst := rfl
@[simp] theorem setCommands_result (s : State) (l : List HostCommand) : (s.setCommands l).result = s.result := rfl
@[simp] theorem setCommands_commands (s : State) (l : List HostCommand) : (s.setCommands l).commands = l := rfl
@[simp] theorem setCommands_resets (s : State) (l : List HostCommand) : (s.setCommands l).resets = s.resets := rfl
@[simp] theorem setCommands_imageWidth (s : State) (l : List HostCommand) : (s.setCommands l).imageWidth = s.imageWidth := rfl
@[simp] theorem setCommands_imageHeight (s : State) (l : List HostCommand) : (s.setCommands l).imageHeight = s.imageHeight := rfl
@[simp] theorem setCommands_stride (s : State) (l : List HostCommand) : (s.setCommands l).stride = s.stride := rfl
@[simp] theorem setCommands_srcLen (s : State) (l : List HostCommand) : (s.setCommands l).srcLen = s.srcLen := rfl
@[simp] theorem setCommands_dstCap (s : State) (l : List HostCommand) : (s.setCommands l).dstCap = s.dstCap := rfl
@[simp] theorem setCommands_rowAlign (s : State) (l : List HostCommand) : (s.setCommands l).rowAlign = s.rowAlign := rfl
@[simp] theorem setCommands_blackIs1 (s : State) (l : List HostCommand) : (s.setCommands l).blackIs1 = s.blackIs1 := rfl
@[simp] theorem setCommands_hasEol (s : State) (l : List HostCommand) : (s.setCommands l).hasEol = s.hasEol := rfl
@[simp] theorem setCommands_hasEob (s : State) (l : List HostCommand) : (s.setCommands l).hasEob = s.hasEob := rfl
@[simp] theorem setCommands_destFixed (s : State) (l : List HostCommand) : (s.setCommands l).destFixed = s.destFixed := rfl
@[simp] theorem setCommands_kind (s : State) (l : List HostCommand) : (s.setCommands l).kind = s.kind := rfl
@[simp] theorem setCommands_whiteByte (s : State) (l : List HostCommand) : (s.setCommands l).whiteByte = s.whiteByte := rfl
@[simp] theorem setCommands_running (s : State) (l : List HostCommand) : (s.setCommands l).running = s.running := rfl

/-! ### moveTo -/

@[simp] theorem moveTo_cfg (s : State) (e : Nat) : (s.moveTo e).cfg = s.cfg := rfl
@[simp] theorem moveTo_status (s : State) (e : Nat) : (s.moveTo e).status = s.status := rfl
@[simp] theorem moveTo_reader (s : State) (e : Nat) : (s.moveTo e).reader = s.reader := rfl
@[simp] theorem moveTo_writer (s : State) (e : Nat) : (s.moveTo e).writer = s.writer := rfl
@[simp] theorem moveTo_a0 (s : State) (e : Nat) : (s.moveTo e).a0 = e := rfl
@[simp] theorem moveTo_atStart (s : State) (e : Nat) : (s.moveTo e).atStart = s.atStart := rfl
@[simp] theorem moveTo_c (s : State) (e : Nat) : (s.moveTo e).c = s.c := rfl
@[simp] theorem moveTo_acc (s : State) (e : Nat) : (s.moveTo e).acc = s.acc := rfl
@[simp] theorem moveTo_hphase (s : State) (e : Nat) : (s.moveTo e).hphase = s.hphase := rfl
@[simp] theorem moveTo_afterZero (s : State) (e : Nat) : (s.moveTo e).afterZero = s.afterZero := rfl
@[simp] theorem moveTo_lineMode (s : State) (e : Nat) : (s.moveTo e).lineMode = s.lineMode := rfl
@[simp] theorem moveTo_rows (s : State) (e : Nat) : (s.moveTo e).rows = s.rows := rfl
@[simp] theorem moveTo_rowOpen (s : State) (e : Nat) : (s.moveTo e).rowOpen = s.rowOpen := rfl
@[simp] theorem moveTo_capRows (s : State) (e : Nat) : (s.moveTo e).capRows = s.capRows := rfl
@[simp] theorem moveTo_y (s : State) (e : Nat) : (s.moveTo e).y = s.y := rfl
@[simp] theorem moveTo_a1 (s : State) (e : Nat) : (s.moveTo e).a1 = s.a1 := rfl
@[simp] theorem moveTo_a2 (s : State) (e : Nat) : (s.moveTo e).a2 = s.a2 := rfl
@[simp] theorem moveTo_b1 (s : State) (e : Nat) : (s.moveTo e).b1 = s.b1 := rfl
@[simp] theorem moveTo_b2 (s : State) (e : Nat) : (s.moveTo e).b2 = s.b2 := rfl
@[simp] theorem moveTo_cur (s : State) (e : Nat) : (s.moveTo e).cur = s.cur := rfl
@[simp] theorem moveTo_ref (s : State) (e : Nat) : (s.moveTo e).ref = s.ref := rfl
@[simp] theorem moveTo_src (s : State) (e : Nat) : (s.moveTo e).src = s.src := rfl
@[simp] theorem moveTo_dst (s : State) (e : Nat) : (s.moveTo e).dst = s.dst := rfl
@[simp] theorem moveTo_result (s : State) (e : Nat) : (s.moveTo e).result = s.result := rfl
@[simp] theorem moveTo_commands (s : State) (e : Nat) : (s.moveTo e).commands = s.commands := rfl
@[simp] theorem moveTo_resets (s : State) (e : Nat) : (s.moveTo e).resets = s.resets := rfl
@[simp] theorem moveTo_imageWidth (s : State) (e : Nat) : (s.moveTo e).imageWidth = s.imageWidth := rfl
@[simp] theorem moveTo_imageHeight (s : State) (e : Nat) : (s.moveTo e).imageHeight = s.imageHeight := rfl
@[simp] theorem moveTo_stride (s : State) (e : Nat) : (s.moveTo e).stride = s.stride := rfl
@[simp] theorem moveTo_srcLen (s : State) (e : Nat) : (s.moveTo e).srcLen = s.srcLen := rfl
@[simp] theorem moveTo_dstCap (s : State) (e : Nat) : (s.moveTo e).dstCap = s.dstCap := rfl
@[simp] theorem moveTo_rowAlign (s : State) (e : Nat) : (s.moveTo e).rowAlign = s.rowAlign := rfl
@[simp] theorem moveTo_blackIs1 (s : State) (e : Nat) : (s.moveTo e).blackIs1 = s.blackIs1 := rfl
@[simp] theorem moveTo_hasEol (s : State) (e : Nat) : (s.moveTo e).hasEol = s.hasEol := rfl
@[simp] theorem moveTo_hasEob (s : State) (e : Nat) : (s.moveTo e).hasEob = s.hasEob := rfl
@[simp] theorem moveTo_destFixed (s : State) (e : Nat) : (s.moveTo e).destFixed = s.destFixed := rfl
@[simp] theorem moveTo_kind (s : State) (e : Nat) : (s.moveTo e).kind = s.kind := rfl
@[simp] theorem moveTo_whiteByte (s : State) (e : Nat) : (s.moveTo e).whiteByte = s.whiteByte := rfl
@[simp] theorem moveTo_running (s : State) (e : Nat) : (s.moveTo e).running = s.running := rfl

/-! ### flipColour -/

@[simp] theorem flipColour_cfg (s : State) : s.flipColour.cfg = s.cfg := rfl
@[simp] theorem flipColour_status (s : State) : s.flipColour.status = s.status := rfl
@[simp] theorem flipColour_reader (s : State) : s.flipColour.reader = s.reader := rfl
@[simp] theorem flipColour_writer (s : State) : s.flipColour.writer = s.writer := rfl
@[simp] theorem flipColour_a0 (s : State) : s.flipColour.a0 = s.a0 := rfl
@[simp] theorem flipColour_atStart (s : State) : s.flipColour.atStart = false := rfl
@[simp] theorem flipColour_c (s : State) : s.flipColour.c = oppositeColour s.c := rfl
@[simp] theorem flipColour_acc (s : State) : s.flipColour.acc = s.acc := rfl
@[simp] theorem flipColour_hphase (s : State) : s.flipColour.hphase = s.hphase := rfl
@[simp] theorem flipColour_afterZero (s : State) : s.flipColour.afterZero = s.afterZero := rfl
@[simp] theorem flipColour_lineMode (s : State) : s.flipColour.lineMode = s.lineMode := rfl
@[simp] theorem flipColour_rows (s : State) : s.flipColour.rows = s.rows := rfl
@[simp] theorem flipColour_rowOpen (s : State) : s.flipColour.rowOpen = s.rowOpen := rfl
@[simp] theorem flipColour_capRows (s : State) : s.flipColour.capRows = s.capRows := rfl
@[simp] theorem flipColour_y (s : State) : s.flipColour.y = s.y := rfl
@[simp] theorem flipColour_a1 (s : State) : s.flipColour.a1 = s.a1 := rfl
@[simp] theorem flipColour_a2 (s : State) : s.flipColour.a2 = s.a2 := rfl
@[simp] theorem flipColour_b1 (s : State) : s.flipColour.b1 = s.b1 := rfl
@[simp] theorem flipColour_b2 (s : State) : s.flipColour.b2 = s.b2 := rfl
@[simp] theorem flipColour_cur (s : State) : s.flipColour.cur = s.cur := rfl
@[simp] theorem flipColour_ref (s : State) : s.flipColour.ref = s.ref := rfl
@[simp] theorem flipColour_src (s : State) : s.flipColour.src = s.src := rfl
@[simp] theorem flipColour_dst (s : State) : s.flipColour.dst = s.dst := rfl
@[simp] theorem flipColour_result (s : State) : s.flipColour.result = s.result := rfl
@[simp] theorem flipColour_commands (s : State) : s.flipColour.commands = s.commands := rfl
@[simp] theorem flipColour_resets (s : State) : s.flipColour.resets = s.resets := rfl
@[simp] theorem flipColour_imageWidth (s : State) : s.flipColour.imageWidth = s.imageWidth := rfl
@[simp] theorem flipColour_imageHeight (s : State) : s.flipColour.imageHeight = s.imageHeight := rfl
@[simp] theorem flipColour_stride (s : State) : s.flipColour.stride = s.stride := rfl
@[simp] theorem flipColour_srcLen (s : State) : s.flipColour.srcLen = s.srcLen := rfl
@[simp] theorem flipColour_dstCap (s : State) : s.flipColour.dstCap = s.dstCap := rfl
@[simp] theorem flipColour_rowAlign (s : State) : s.flipColour.rowAlign = s.rowAlign := rfl
@[simp] theorem flipColour_blackIs1 (s : State) : s.flipColour.blackIs1 = s.blackIs1 := rfl
@[simp] theorem flipColour_hasEol (s : State) : s.flipColour.hasEol = s.hasEol := rfl
@[simp] theorem flipColour_hasEob (s : State) : s.flipColour.hasEob = s.hasEob := rfl
@[simp] theorem flipColour_destFixed (s : State) : s.flipColour.destFixed = s.destFixed := rfl
@[simp] theorem flipColour_kind (s : State) : s.flipColour.kind = s.kind := rfl
@[simp] theorem flipColour_whiteByte (s : State) : s.flipColour.whiteByte = s.whiteByte := rfl
@[simp] theorem flipColour_running (s : State) : s.flipColour.running = s.running := rfl

/-! ### dropRun -/

@[simp] theorem dropRun_cfg (s : State) : s.dropRun.cfg = s.cfg := rfl
@[simp] theorem dropRun_status (s : State) : s.dropRun.status = s.status := rfl
@[simp] theorem dropRun_reader (s : State) : s.dropRun.reader = s.reader := rfl
@[simp] theorem dropRun_writer (s : State) : s.dropRun.writer = s.writer := rfl
@[simp] theorem dropRun_a0 (s : State) : s.dropRun.a0 = s.a0 := rfl
@[simp] theorem dropRun_atStart (s : State) : s.dropRun.atStart = s.atStart := rfl
@[simp] theorem dropRun_c (s : State) : s.dropRun.c = s.c := rfl
@[simp] theorem dropRun_acc (s : State) : s.dropRun.acc = 0 := rfl
@[simp] theorem dropRun_hphase (s : State) : s.dropRun.hphase = 0 := rfl
@[simp] theorem dropRun_afterZero (s : State) : s.dropRun.afterZero = false := rfl
@[simp] theorem dropRun_lineMode (s : State) : s.dropRun.lineMode = s.lineMode := rfl
@[simp] theorem dropRun_rows (s : State) : s.dropRun.rows = s.rows := rfl
@[simp] theorem dropRun_rowOpen (s : State) : s.dropRun.rowOpen = s.rowOpen := rfl
@[simp] theorem dropRun_capRows (s : State) : s.dropRun.capRows = s.capRows := rfl
@[simp] theorem dropRun_y (s : State) : s.dropRun.y = s.y := rfl
@[simp] theorem dropRun_a1 (s : State) : s.dropRun.a1 = s.a1 := rfl
@[simp] theorem dropRun_a2 (s : State) : s.dropRun.a2 = s.a2 := rfl
@[simp] theorem dropRun_b1 (s : State) : s.dropRun.b1 = s.b1 := rfl
@[simp] theorem dropRun_b2 (s : State) : s.dropRun.b2 = s.b2 := rfl
@[simp] theorem dropRun_cur (s : State) : s.dropRun.cur = s.cur := rfl
@[simp] theorem dropRun_ref (s : State) : s.dropRun.ref = s.ref := rfl
@[simp] theorem dropRun_src (s : State) : s.dropRun.src = s.src := rfl
@[simp] theorem dropRun_dst (s : State) : s.dropRun.dst = s.dst := rfl
@[simp] theorem dropRun_result (s : State) : s.dropRun.result = s.result := rfl
@[simp] theorem dropRun_commands (s : State) : s.dropRun.commands = s.commands := rfl
@[simp] theorem dropRun_resets (s : State) : s.dropRun.resets = s.resets := rfl
@[simp] theorem dropRun_imageWidth (s : State) : s.dropRun.imageWidth = s.imageWidth := rfl
@[simp] theorem dropRun_imageHeight (s : State) : s.dropRun.imageHeight = s.imageHeight := rfl
@[simp] theorem dropRun_stride (s : State) : s.dropRun.stride = s.stride := rfl
@[simp] theorem dropRun_srcLen (s : State) : s.dropRun.srcLen = s.srcLen := rfl
@[simp] theorem dropRun_dstCap (s : State) : s.dropRun.dstCap = s.dstCap := rfl
@[simp] theorem dropRun_rowAlign (s : State) : s.dropRun.rowAlign = s.rowAlign := rfl
@[simp] theorem dropRun_blackIs1 (s : State) : s.dropRun.blackIs1 = s.blackIs1 := rfl
@[simp] theorem dropRun_hasEol (s : State) : s.dropRun.hasEol = s.hasEol := rfl
@[simp] theorem dropRun_hasEob (s : State) : s.dropRun.hasEob = s.hasEob := rfl
@[simp] theorem dropRun_destFixed (s : State) : s.dropRun.destFixed = s.destFixed := rfl
@[simp] theorem dropRun_kind (s : State) : s.dropRun.kind = s.kind := rfl
@[simp] theorem dropRun_whiteByte (s : State) : s.dropRun.whiteByte = s.whiteByte := rfl
@[simp] theorem dropRun_running (s : State) : s.dropRun.running = s.running := rfl

/-! ### markZero -/

@[simp] theorem markZero_cfg (s : State) : s.markZero.cfg = s.cfg := rfl
@[simp] theorem markZero_status (s : State) : s.markZero.status = s.status := rfl
@[simp] theorem markZero_reader (s : State) : s.markZero.reader = s.reader := rfl
@[simp] theorem markZero_writer (s : State) : s.markZero.writer = s.writer := rfl
@[simp] theorem markZero_a0 (s : State) : s.markZero.a0 = s.a0 := rfl
@[simp] theorem markZero_atStart (s : State) : s.markZero.atStart = s.atStart := rfl
@[simp] theorem markZero_c (s : State) : s.markZero.c = s.c := rfl
@[simp] theorem markZero_acc (s : State) : s.markZero.acc = s.acc := rfl
@[simp] theorem markZero_hphase (s : State) : s.markZero.hphase = s.hphase := rfl
@[simp] theorem markZero_afterZero (s : State) : s.markZero.afterZero = true := rfl
@[simp] theorem markZero_lineMode (s : State) : s.markZero.lineMode = s.lineMode := rfl
@[simp] theorem markZero_rows (s : State) : s.markZero.rows = s.rows := rfl
@[simp] theorem markZero_rowOpen (s : State) : s.markZero.rowOpen = s.rowOpen := rfl
@[simp] theorem markZero_capRows (s : State) : s.markZero.capRows = s.capRows := rfl
@[simp] theorem markZero_y (s : State) : s.markZero.y = s.y := rfl
@[simp] theorem markZero_a1 (s : State) : s.markZero.a1 = s.a1 := rfl
@[simp] theorem markZero_a2 (s : State) : s.markZero.a2 = s.a2 := rfl
@[simp] theorem markZero_b1 (s : State) : s.markZero.b1 = s.b1 := rfl
@[simp] theorem markZero_b2 (s : State) : s.markZero.b2 = s.b2 := rfl
@[simp] theorem markZero_cur (s : State) : s.markZero.cur = s.cur := rfl
@[simp] theorem markZero_ref (s : State) : s.markZero.ref = s.ref := rfl
@[simp] theorem markZero_src (s : State) : s.markZero.src = s.src := rfl
@[simp] theorem markZero_dst (s : State) : s.markZero.dst = s.dst := rfl
@[simp] theorem markZero_result (s : State) : s.markZero.result = s.result := rfl
@[simp] theorem markZero_commands (s : State) : s.markZero.commands = s.commands := rfl
@[simp] theorem markZero_resets (s : State) : s.markZero.resets = s.resets := rfl
@[simp] theorem markZero_imageWidth (s : State) : s.markZero.imageWidth = s.imageWidth := rfl
@[simp] theorem markZero_imageHeight (s : State) : s.markZero.imageHeight = s.imageHeight := rfl
@[simp] theorem markZero_stride (s : State) : s.markZero.stride = s.stride := rfl
@[simp] theorem markZero_srcLen (s : State) : s.markZero.srcLen = s.srcLen := rfl
@[simp] theorem markZero_dstCap (s : State) : s.markZero.dstCap = s.dstCap := rfl
@[simp] theorem markZero_rowAlign (s : State) : s.markZero.rowAlign = s.rowAlign := rfl
@[simp] theorem markZero_blackIs1 (s : State) : s.markZero.blackIs1 = s.blackIs1 := rfl
@[simp] theorem markZero_hasEol (s : State) : s.markZero.hasEol = s.hasEol := rfl
@[simp] theorem markZero_hasEob (s : State) : s.markZero.hasEob = s.hasEob := rfl
@[simp] theorem markZero_destFixed (s : State) : s.markZero.destFixed = s.destFixed := rfl
@[simp] theorem markZero_kind (s : State) : s.markZero.kind = s.kind := rfl
@[simp] theorem markZero_whiteByte (s : State) : s.markZero.whiteByte = s.whiteByte := rfl
@[simp] theorem markZero_running (s : State) : s.markZero.running = s.running := rfl

end Sys2Proof.Machine
end

