-- ==== Sys2Proof/Laws/Memory.lean ====
section
/-! SUPPORT. The laws of the byte memories: canonical form, read after write, the bytes a row initialisation and a
pixel loop change. -/

namespace Sys2Proof.Machine

/-! ### Canonical form -/

theorem risingFrom_cons (a b : Nat) (v : Byte) (rest : List Host.Cell) :
    risingFrom a ((b, v) :: rest) = true ↔ a ≤ b ∧ risingFrom (b + 1) rest = true := by
  simp [risingFrom]

/-- A lower bound of the addresses can be lowered. -/
theorem risingFrom_mono {l : List Host.Cell} {a b : Nat} (h : risingFrom b l = true) (hab : a ≤ b) :
    risingFrom a l = true := by
  cases l with
  | nil => rfl
  | cons e rest =>
    rw [risingFrom_cons] at h ⊢
    exact ⟨by omega, h.2⟩

/-- Below its lower bound a list of cells holds nothing. -/
theorem readCells_below {l : List Host.Cell} {a b : Nat} (d : Byte) (h : risingFrom a l = true) (hb : b < a) :
    readCells d l b = d := by
  induction l generalizing a with
  | nil => rfl
  | cons e rest ih =>
    rw [risingFrom_cons] at h
    have hne : b ≠ e.1 := by omega
    simp only [readCells, hne, if_false]
    exact ih h.2 (by omega)

/-- A write at or above the lower bound keeps the addresses rising. -/
theorem risingFrom_writeCells {l : List Host.Cell} {c : Nat} (a : Nat) (v : Byte) (h : risingFrom c l = true)
    (hc : c ≤ a) : risingFrom c (writeCells l a v) = true := by
  induction l generalizing c with
  | nil => simp [writeCells, risingFrom, hc]
  | cons e rest ih =>
    rw [risingFrom_cons] at h
    unfold writeCells
    split_ifs with hlt heq
    · rw [risingFrom_cons, risingFrom_cons]
      exact ⟨hc, by omega, h.2⟩
    · subst heq
      rw [risingFrom_cons]
      exact ⟨hc, h.2⟩
    · rw [risingFrom_cons]
      exact ⟨h.1, ih h.2 (by omega)⟩

theorem readCells_writeCells (l : List Host.Cell) (d : Byte) (a : Nat) (v : Byte) (b : Nat) :
    readCells d (writeCells l a v) b = if b = a then v else readCells d l b := by
  induction l with
  | nil => rfl
  | cons e rest ih =>
    unfold writeCells
    split_ifs <;> simp only [readCells, ih] <;> split_ifs <;> first | rfl | omega

/-- A write keeps the canonical form. -/
theorem Memory.wf_write {m : Memory} (a : Nat) (v : Byte) (h : m.wf = true) : (m.write a v).wf = true :=
  risingFrom_writeCells a v h (Nat.zero_le a)

/-- Read after write (R76). -/
theorem Memory.read_write (m : Memory) (a : Nat) (v : Byte) (b : Nat) :
    (m.write a v).read b = if b = a then v else m.read b :=
  readCells_writeCells m.cells _ a v b

/-- A canonical list that holds `v` at `b` first is no list that starts above `b`. -/
theorem readCells_head_ne {l : List Host.Cell} {b : Nat} {v : Byte} {rest : List Host.Cell} (h : risingFrom (b + 1) l = true)
    (heq : ∀ d a, readCells d ((b, v) :: rest) a = readCells d l a) : False := by
  have := heq (~~~ v) b
  rw [readCells_below _ h (by omega)] at this
  simp [readCells] at this

/-- Equal contents are equal data: canonical lists of cells that hold the same bytes are the same list. -/
theorem eq_of_readCells {l l' : List Host.Cell} {c : Nat} (h : risingFrom c l = true) (h' : risingFrom c l' = true)
    (heq : ∀ d a, readCells d l a = readCells d l' a) : l = l' := by
  induction l generalizing l' c with
  | nil =>
    cases l' with
    | nil => rfl
    | cons e rest => exact (readCells_head_ne (l := []) rfl fun d a => (heq d a).symm).elim
  | cons e rest ih =>
    obtain ⟨b, v⟩ := e
    rw [risingFrom_cons] at h
    cases l' with
    | nil => exact (readCells_head_ne (l := []) rfl heq).elim
    | cons e' rest' =>
      obtain ⟨b', v'⟩ := e'
      rw [risingFrom_cons] at h'
      rcases Nat.lt_trichotomy b b' with hlt | rfl | hgt
      · exact (readCells_head_ne (by rw [risingFrom_cons]; exact ⟨hlt, h'.2⟩) heq).elim
      · have hv : v = v' := by simpa [readCells] using heq 0 b
        subst hv
        rw [ih h.2 h'.2 fun d a => ?_]
        by_cases ha : a = b
        · subst ha
          rw [readCells_below d h.2 (by omega), readCells_below d h'.2 (by omega)]
        · simpa [readCells, ha] using heq d a
      · exact (readCells_head_ne (by rw [risingFrom_cons]; exact ⟨hgt, h.2⟩) fun d a => (heq d a).symm).elim

/-! ### Row initialisation (R185) -/

/-- Filling bytes keeps the canonical form, and reads `v` inside the range, as before outside. -/
theorem Memory.fillBytes_spec (v : Byte) (n a : Nat) {m : Memory} (h : m.wf = true) :
    (m.fillBytes v n a).wf = true ∧
    ∀ b, (m.fillBytes v n a).read b = if a ≤ b ∧ b < a + n then v else m.read b := by
  induction n generalizing a m with
  | zero => exact ⟨h, fun b => by simp only [Memory.fillBytes]; rw [if_neg (by omega)]⟩
  | succ n ih =>
    obtain ⟨hw, hr⟩ := ih (a + 1) (Memory.wf_write a v h)
    refine ⟨hw, fun b => ?_⟩
    rw [Memory.fillBytes, hr b, Memory.read_write _ a v b]
    split_ifs <;> first | rfl | omega

/-! ### Pixels (R64, R186) -/

/-- Setting one bit of a byte changes that bit alone. -/
theorem getLsbD_setByteBit (b : Byte) (k : Nat) (v : Bool) (j : Nat) (hk : k < 8) :
    (setByteBit b k v).getLsbD j = if j = k then v else b.getLsbD j := by
  unfold setByteBit
  by_cases hj : j < 8
  · interval_cases k <;> interval_cases j <;> cases v <;> simp
  · have h8 : 8 ≤ j := by omega
    have hne : j ≠ k := by omega
    rw [BitVec.getLsbD_of_ge _ _ h8, if_neg hne, BitVec.getLsbD_of_ge _ _ h8]

/-- Setting a pixel keeps the canonical form. -/
theorem Memory.wf_setPixel {m : Memory} (base x : Nat) (v : Bool) (h : m.wf = true) : (m.setPixel base x v).wf = true :=
  Memory.wf_write _ _ h

/-- Setting a pixel changes one bit of one byte. -/
theorem Memory.read_setPixel (m : Memory) (base x : Nat) (v : Bool) (a j : Nat) :
    ((m.setPixel base x v).read a).getLsbD j =
      if a = base + x / 8 ∧ j = 7 - x % 8 then v else (m.read a).getLsbD j := by
  unfold Memory.setPixel pixelByte pixelBit
  rw [Memory.read_write]
  by_cases ha : a = base + x / 8
  · subst ha
    simp only [if_true, true_and]
    rw [getLsbD_setByteBit _ _ _ _ (by omega)]
  · simp [ha]

/-- The pixel loop keeps the canonical form and sets exactly the bits of its pixels. -/
theorem Memory.drawPixels_spec (base : Nat) (v : Bool) (n x : Nat) {m : Memory} (h : m.wf = true) :
    (m.drawPixels base v n x).wf = true ∧
    ∀ a j, j < 8 → ((m.drawPixels base v n x).read a).getLsbD j =
      if base ≤ a ∧ x ≤ 8 * (a - base) + (7 - j) ∧ 8 * (a - base) + (7 - j) < x + n then v
      else (m.read a).getLsbD j := by
  induction n generalizing x m with
  | zero => exact ⟨h, fun a j hj => by simp only [Memory.drawPixels]; rw [if_neg (by omega)]⟩
  | succ n ih =>
    obtain ⟨hw, hr⟩ := ih (x + 1) (Memory.wf_setPixel base x v h)
    refine ⟨hw, fun a j hj => ?_⟩
    rw [Memory.drawPixels, hr a j hj, Memory.read_setPixel m base x v a j]
    split_ifs <;> first | rfl | omega

end Sys2Proof.Machine
end

