-- ==== Sys2Proof/Laws/Row.lean ====
section
/-! SUPPORT. What the pixel store does (`spec/42_g3_decoder.md` R185 to R192): the sequencing of steps that can end, the
row opening, the fill, the record of changing elements, the row close. -/

namespace Sys2Proof.Machine

/-! ### Sequencing -/

@[simp] theorem Flow.bind_go (s : State) (f : State → Flow) : (Flow.go s).bind f = f s := rfl

@[simp] theorem Flow.bind_halt (s : State) (f : State → Flow) : (Flow.halt s).bind f = .halt s := rfl

@[simp] theorem Flow.state_go (s : State) : (Flow.go s).state = s := rfl

@[simp] theorem Flow.state_halt (s : State) : (Flow.halt s).state = s := rfl

@[simp] theorem Flow.out_go (s : State) : (Flow.go s).out = .next s := rfl

@[simp] theorem Flow.out_halt (s : State) : (Flow.halt s).out = .next s := rfl

theorem Flow.out_eq (w : Flow) : w.out = .next w.state := rfl

theorem Flow.bind_assoc (w : Flow) (f g : State → Flow) : (w.bind f).bind g = w.bind fun s => (f s).bind g := by
  cases w <;> rfl

/-- A sequence leaves a state of its second part, or the state its first part ended in. -/
theorem Flow.bind_cases {w : Flow} {f : State → Flow} {P : State → Prop} (hgo : ∀ s, w = .go s → P (f s).state)
    (hhalt : ∀ s, w = .halt s → P s) : P (w.bind f).state := by
  cases w with
  | go s => exact hgo s rfl
  | halt s => exact hhalt s rfl

/-! ### Opening a row (R185) -/

/-- The state an open row leaves: DST with the row initialised, if it was not open. -/
theorem State.openRow_go (s : State) (hroom : s.RoomForRow) :
    s.openRow = .go { s with
      dst := if s.rowOpen then s.dst else s.dst.fillBytes s.whiteByte s.stride s.rowBase
      rowOpen := true, capRows := s.grownRows } := by
  unfold State.openRow
  rcases hopen : s.rowOpen with _ | _
  · simp only [State.RoomForRow, hopen] at hroom
    by_cases hcap : s.capRows ≤ s.rows
    · have hfix : s.destFixed = false := by
        rcases hroom with h | h | h
        · cases h
        · omega
        · exact h
      have hg : s.grownRows = max 1 (2 * s.capRows) := by simp [State.grownRows, hopen]; omega
      simp [hcap, hfix, State.initRow, hg]
      rfl
    · have hg : s.grownRows = s.capRows := by simp [State.grownRows, hopen]; omega
      simp [hcap, State.initRow, hg]
  · have hg : s.grownRows = s.capRows := by simp [State.grownRows, hopen]
    cases s
    simp_all

/-- No room for the row: CapacityFault, and nothing else is written (R185, R304). -/
theorem State.openRow_full (s : State) (hroom : ¬ s.RoomForRow) : s.openRow = .halt s.raiseDecodeCapacity := by
  simp only [State.RoomForRow, not_or, Bool.not_eq_true, Bool.not_eq_false] at hroom
  have : s.capRows ≤ s.rows := by omega
  simp [State.openRow, hroom.1, hroom.2.2, this]

/-! ### The fill (R186) -/

/-- With room for the row, the fill draws its pixels and changes nothing else. -/
theorem State.fill_go (s : State) (k : Colour) (x0 x1 : Nat) (hwf : s.dst.wf = true) (hx : x1 ≤ s.imageWidth)
    (hroom : s.RoomForRow) :
    ∃ m, m.wf = true ∧ s.Drawn k x0 x1 m ∧
      s.fill k x0 x1 = .go { s with dst := m, rowOpen := true, capRows := s.grownRows } := by
  have hw : s.whiteByte = if s.bit .white then 0xFF else 0x00 := by
    unfold State.whiteByte State.bit
    cases s.blackIs1 <;> rfl
  have hwbit : ∀ j, j < 8 → s.whiteByte.getLsbD j = s.bit .white := by
    intro j hj
    rw [hw]
    cases s.bit .white
    · simp
    · interval_cases j <;> rfl
  have hstride : ∀ x, x < x1 → x / 8 < s.stride := by
    intro x hlt
    unfold State.stride
    omega
  have hfb := Memory.fillBytes_spec s.whiteByte s.stride s.rowBase hwf
  have key : ∀ m0 : Memory, m0.wf = true →
      (∀ a j, j < 8 → (m0.read a).getLsbD j =
        if s.rowBase ≤ a ∧ a < s.rowBase + s.stride then
          (if s.rowOpen then (s.dst.read a).getLsbD j else s.bit .white)
        else (s.dst.read a).getLsbD j) →
      (m0.drawPixels s.rowBase (s.bit k) (x1 - x0) x0).wf = true ∧
        s.Drawn k x0 x1 (m0.drawPixels s.rowBase (s.bit k) (x1 - x0) x0) := by
    intro m0 h0 hr
    obtain ⟨hw', hd⟩ := Memory.drawPixels_spec s.rowBase (s.bit k) (x1 - x0) x0 h0
    refine ⟨hw', fun a j hj => ?_⟩
    rw [hd a j hj, hr a j hj]
    unfold State.drawnBit
    by_cases hin : s.rowBase ≤ a ∧ a < s.rowBase + s.stride
    · rw [if_pos hin, if_pos hin]
      split_ifs <;> first | rfl | omega
    · rw [if_neg hin, if_neg hin]
      rw [if_neg]
      rintro ⟨h1, h2, h3⟩
      have := hstride (8 * (a - s.rowBase) + (7 - j)) (by omega)
      omega
  rw [State.fill, s.openRow_go hroom, Flow.bind_go]
  rcases hopen : s.rowOpen with _ | _
  · obtain ⟨h1, h2⟩ := key _ hfb.1 (fun a j hj => by
      rw [hfb.2 a]
      split_ifs <;> simp_all)
    exact ⟨_, h1, h2, rfl⟩
  · obtain ⟨h1, h2⟩ := key s.dst hwf (fun a j _ => by simp [hopen])
    exact ⟨_, h1, h2, rfl⟩

/-- Without room, the fill is the CapacityFault of the row opening. -/
theorem State.fill_full (s : State) (k : Colour) (x0 x1 : Nat) (hroom : ¬ s.RoomForRow) :
    s.fill k x0 x1 = .halt s.raiseDecodeCapacity := by
  rw [State.fill, s.openRow_full hroom, Flow.bind_halt]

/-! ### The record of changing elements (R187) -/

/-- `Record` changes `cur` alone. -/
theorem State.record_eq (s : State) (p : Nat) :
    s.record p = { s with cur := if s.imageWidth ≤ p then s.cur else recordChange s.cur p } := by
  unfold State.record
  split <;> simp_all

/-- Recording at or after the last entry keeps the line strictly increasing and its entries below W. -/
theorem LineOk.recordChange {w p : Nat} {line : List Nat} (h : LineOk w line) (hle : ∀ x ∈ line, x ≤ p) (hp : p < w) :
    LineOk w (recordChange line p) ∧ (∀ x ∈ Machine.recordChange line p, x ≤ p) := by
  unfold Machine.recordChange
  split
  · exact ⟨⟨h.1.sublist (List.dropLast_sublist line), fun x hx => h.2 x (List.mem_of_mem_dropLast hx)⟩,
      fun x hx => hle x (List.mem_of_mem_dropLast hx)⟩
  · rename_i hne
    refine ⟨⟨?_, ?_⟩, ?_⟩
    · rw [List.pairwise_append]
      refine ⟨h.1, List.pairwise_singleton _ _, ?_⟩
      intro x hx y hy
      rw [List.mem_singleton] at hy
      subst hy
      rcases Nat.lt_or_ge x y with hlt | hge
      · exact hlt
      · exfalso
        have hxy : x = y := le_antisymm (hle x hx) hge
        subst hxy
        apply hne
        obtain ⟨l1, l2, rfl⟩ := List.append_of_mem hx
        cases l2 with
        | nil => simp
        | cons z zs =>
          have hxz : x < z := by
            have := h.1
            rw [List.pairwise_append] at this
            have h2 := this.2.1
            rw [List.pairwise_cons] at h2
            exact h2.1 z (by simp)
          have := hle z (by simp)
          omega
    · intro x hx
      rcases List.mem_append.mp hx with h1 | h1
      · exact h.2 x h1
      · simp_all
    · intro x hx
      rcases List.mem_append.mp hx with h1 | h1
      · exact hle x h1
      · simp_all

/-- Recording changes the parity of the number of changing elements. -/
theorem recordChange_parity (line : List Nat) (p : Nat) : (recordChange line p).length % 2 = (line.length + 1) % 2 := by
  unfold recordChange
  split
  · rename_i h
    cases line with
    | nil => simp at h
    | cons x xs => simp; omega
  · simp

/-! ### The row close (R189) -/

/-- What `CloseRow` leaves: the registers of a row start, the reader aligned when asked, and the stop at the last row. -/
theorem State.closeRow_eq (s : State) (align : Bool) :
    s.closeRow align =
      let t := { s with
        rows := s.rows + 1, ref := s.cur, cur := [], c := .white, a0 := 0, atStart := true, acc := 0, hphase := 0
        afterZero := false, rowOpen := false
        lineMode := if s.kind = some .g3_2d then .l2d else s.lineMode
        reader := if align && s.rowAlign then s.reader.byteAlign else s.reader }
      if s.imageHeight ≠ 0 ∧ s.rows + 1 = s.imageHeight then t.stop .height else t := by
  unfold State.closeRow
  have h1 : s.nextRow.rowAlign = s.rowAlign := rfl
  simp only [h1]
  cases align <;> cases s.rowAlign <;> rfl

end Sys2Proof.Machine
end

