-- ==== Sys2Proof/Laws/Cursor.lean ====
section
/-! SUPPORT. The reader cursor refines the abstract cursor over the bit stream (`spec/40_bitcursor.md` R131 to R143). -/

namespace Sys2Proof.Machine

/-! ### Bit strings and numbers -/

theorem bitsValue_append (l : List Bool) (b : Bool) : bitsValue (l ++ [b]) = 2 * bitsValue l + b.toNat := by
  simp [bitsValue]

/-- Bit `i` of the number of a bit string is its `i`-th bit from the end. -/
theorem testBit_bitsValue (l : List Bool) (i : Nat) : (bitsValue l).testBit i = (l.reverse[i]?).getD false := by
  induction l using List.reverseRecOn generalizing i with
  | nil => simp [bitsValue]
  | append_singleton l b ih =>
    rw [bitsValue_append, List.reverse_append]
    cases i with
    | zero => cases b <;> simp
    | succ i =>
      rw [Nat.testBit_succ]
      have : (2 * bitsValue l + b.toNat) / 2 = bitsValue l := by cases b <;> simp; omega
      rw [this, ih]
      simp

@[simp] theorem length_streamBits (src : Memory) (rev : Bool) (k n : Nat) : (streamBits src rev k n).length = n := by
  simp [streamBits]

theorem take_streamBits (src : Memory) (rev : Bool) (k n m : Nat) :
    (streamBits src rev k n).take m = streamBits src rev k (min m n) := by
  unfold streamBits
  rw [← List.map_take, List.take_range]

theorem testBit_bitsValue_streamBits (src : Memory) (rev : Bool) (k n i : Nat) :
    (bitsValue (streamBits src rev k n)).testBit i = (decide (i < n) && streamBit src rev (k + (n - 1 - i))) := by
  rw [testBit_bitsValue]
  by_cases h : i < n
  · rw [List.getElem?_reverse (by simpa using h)]
    simp only [length_streamBits, h, decide_true, Bool.true_and]
    simp [streamBits, show n - 1 - i < n by omega]
  · rw [List.getElem?_eq_none (by simp; omega)]
    simp [h]

/-! ### The refill (R131) -/

theorem getLsbD_insertByte (buf : BitVec 40) (cnt : Nat) (b : Byte) (hc : cnt ≤ 32) (j : Nat) (hj : j < 40) :
    (insertByte buf cnt b).getLsbD (39 - j) =
      if cnt ≤ j ∧ j < cnt + 8 then b.getLsbD (7 - (j - cnt)) else buf.getLsbD (39 - j) := by
  have hff : ∀ m, (0xFF#40).getLsbD m = decide (m < 8) := by
    intro m
    by_cases hm : m < 40
    · interval_cases m <;> rfl
    · rw [BitVec.getLsbD_of_ge _ _ (by omega)]
      simp; omega
  unfold insertByte
  rw [BitVec.getLsbD_or, BitVec.getLsbD_and, BitVec.getLsbD_not, BitVec.getLsbD_shiftLeft, BitVec.getLsbD_shiftLeft,
    hff, BitVec.getLsbD_setWidth]
  have h1 : 39 - j < 40 := by omega
  by_cases hin : cnt ≤ j ∧ j < cnt + 8
  · have h2 : ¬ 39 - j < 32 - cnt := by omega
    have h3 : 39 - j - (32 - cnt) < 8 := by omega
    have h4 : 39 - j - (32 - cnt) < 40 := by omega
    have h5 : 39 - j - (32 - cnt) = 7 - (j - cnt) := by omega
    have h6 : 7 - (j - cnt) < 8 := by omega
    have h7 : 7 - (j - cnt) < 40 := by omega
    simp [hin, h1, h2, h5, h6, h7]
  · rw [if_neg hin]
    by_cases h2 : 39 - j < 32 - cnt
    · simp [h1, h2]
    · have h3 : ¬ 39 - j - (32 - cnt) < 8 := by omega
      have h4 : b.getLsbD (39 - j - (32 - cnt)) = false := BitVec.getLsbD_of_ge _ _ (by omega)
      simp [h1, h2, h3, h4]

/-- Pulling one byte keeps the cursor invariant and the position. -/
theorem Reader.Ok.pull {src : Memory} {r : Reader} (h : r.Ok src) (hc : r.cnt < 32) (hl : r.consumed < r.len) :
    (r.pull src).Ok src ∧ (r.pull src).position = r.position := by
  obtain ⟨_, _, h3, h4⟩ := h
  have hpos : (r.pull src).position = r.position := by
    simp only [Reader.position, Reader.pull]; omega
  refine ⟨⟨?_, ?_, ?_, ?_⟩, hpos⟩
  · simp only [Reader.pull]; omega
  · simp only [Reader.pull]; omega
  · simp only [Reader.pull]; omega
  · intro j hj
    rw [hpos]
    show (insertByte r.buf r.cnt (r.fetchByte src)).getLsbD (39 - j) =
      (decide (j < r.cnt + 8) && streamBit src r.rev (r.position + j))
    rw [getLsbD_insertByte _ _ _ (by omega) _ hj]
    by_cases hin : r.cnt ≤ j ∧ j < r.cnt + 8
    · rw [if_pos hin, decide_eq_true hin.2, Bool.true_and]
      have hk : r.position + j = 8 * r.consumed + (j - r.cnt) := by unfold Reader.position; omega
      have hdiv : (8 * r.consumed + (j - r.cnt)) / 8 = r.consumed := by omega
      have hmod : (8 * r.consumed + (j - r.cnt)) % 8 = j - r.cnt := by omega
      rw [hk]
      unfold streamBit
      rw [hdiv, hmod]
      rfl
    · rw [if_neg hin, h4 j hj]
      have : (j < r.cnt) ↔ (j < r.cnt + 8) := by omega
      simp [this]

/-- The refill loop: the invariant and the position are kept; it stops with enough bits or at the end of the data. -/
theorem Reader.Ok.refill {src : Memory} {n : Nat} (hn : n ≤ 32) (fuel : Nat) {r : Reader} (h : r.Ok src)
    (hf : n ≤ r.cnt + 8 * fuel) :
    (r.refill src n fuel).Ok src ∧ (r.refill src n fuel).position = r.position ∧
    (r.refill src n fuel).len = r.len ∧ (r.refill src n fuel).rev = r.rev ∧
    r.cnt ≤ (r.refill src n fuel).cnt ∧
    (n ≤ (r.refill src n fuel).cnt ∨ (r.refill src n fuel).consumed = r.len) := by
  induction fuel generalizing r with
  | zero => exact ⟨h, rfl, rfl, rfl, le_refl _, Or.inl (by simpa [Reader.refill] using hf)⟩
  | succ fuel ih =>
    unfold Reader.refill
    by_cases hc : r.cnt < n ∧ r.consumed < r.len
    · rw [if_pos hc]
      obtain ⟨hok, hpos⟩ := h.pull (by omega) hc.2
      have hcnt : (r.pull src).cnt = r.cnt + 8 := rfl
      obtain ⟨a, b, c, d, e, f⟩ := ih hok (by omega)
      exact ⟨a, b.trans hpos, c, d, by omega, f⟩
    · rw [if_neg hc]
      refine ⟨h, rfl, rfl, rfl, le_refl _, ?_⟩
      have := h.2.1
      omega

/-- `hasBits(n)` (R131): the invariant, the position, the length and the fill order are kept; it answers whether the
stream has `n` more bits (R143); what it makes available is `min(n, 8*len − P)`. -/
theorem Reader.Ok.fillTo {src : Memory} {n : Nat} (hn : n ≤ 32) {r : Reader} (h : r.Ok src) :
    (r.fillTo src n).Ok src ∧ (r.fillTo src n).position = r.position ∧
    (r.fillTo src n).len = r.len ∧ (r.fillTo src n).rev = r.rev ∧ r.cnt ≤ (r.fillTo src n).cnt ∧
    (∀ m, m ≤ n → min (r.fillTo src n).cnt m = min m (8 * r.len - r.position)) := by
  obtain ⟨hok, hpos, hlen, hrev, hle, hend⟩ := h.refill hn 5 (by omega)
  refine ⟨hok, hpos, hlen, hrev, hle, fun m hm => ?_⟩
  obtain ⟨_, h2, h3, _⟩ := hok
  have hp : (r.fillTo src n).position = r.position := hpos
  unfold Reader.position at hp
  have hl : (r.fillTo src n).len = r.len := hlen
  have h2' : (r.fillTo src n).consumed ≤ r.len := hl ▸ h2
  have h3' : (r.fillTo src n).cnt ≤ 8 * (r.fillTo src n).consumed := h3
  have hend' : n ≤ (r.fillTo src n).cnt ∨ (r.fillTo src n).consumed = r.len := hend
  have hrp : r.position = 8 * r.consumed - r.cnt := rfl
  rcases hend' with hge | heq
  · omega
  · omega

/-- The position never passes the end of the data (R24). -/
theorem Reader.Ok.position_le {src : Memory} {r : Reader} (h : r.Ok src) : r.position ≤ 8 * r.len := by
  obtain ⟨_, h2, _, _⟩ := h
  unfold Reader.position
  omega

theorem Reader.Ok.bitsLeft_eq {src : Memory} {r : Reader} (h : r.Ok src) : r.bitsLeft = 8 * r.len - r.position := by
  obtain ⟨_, h2, h3, _⟩ := h
  unfold Reader.bitsLeft Reader.position
  omega

/-! ### Looking and consuming (R133 to R136) -/

theorem testBit_window (r : Reader) (n i : Nat) (hn : n ≤ 40) :
    (r.window n).testBit i = (decide (i < n) && r.buf.getLsbD (40 - n + i)) := by
  unfold Reader.window
  rw [Nat.testBit_shiftRight, BitVec.testBit_toNat]
  by_cases h : i < n
  · simp [h]
  · simp only [h, decide_false, Bool.false_and]
    exact BitVec.getLsbD_of_ge _ _ (by omega)

/-- `look(n)` and `peekBits(n)` after their refill answer the next `n` bits of the stream, zeros after its end. -/
theorem Reader.Ok.window_fillTo {src : Memory} {n m : Nat} (hn : n ≤ 32) (hm : m ≤ n) {r : Reader} (h : r.Ok src) :
    (r.fillTo src n).window m = r.ahead src m := by
  obtain ⟨⟨_, _, _, hbuf⟩, hpos, hlen, hrev, _, hav⟩ := h.fillTo hn
  have hmin := hav m hm
  apply Nat.eq_of_testBit_eq
  intro i
  rw [testBit_window _ _ _ (by omega)]
  unfold Reader.ahead Reader.rest
  rw [take_streamBits, length_streamBits]
  set L := 8 * r.len - r.position with hL
  rw [Nat.testBit_mul_two_pow, testBit_bitsValue_streamBits]
  by_cases hi : i < m
  · have hj := hbuf (m - 1 - i) (by omega)
    have h39 : 39 - (m - 1 - i) = 40 - m + i := by omega
    rw [h39, hpos, hrev] at hj
    rw [hj]
    simp only [hi, decide_true, Bool.true_and]
    by_cases hlt : m - 1 - i < (r.fillTo src n).cnt
    · have h1 : m - min m L ≤ i := by omega
      have h2 : i - (m - min m L) < min m L := by omega
      have h3 : min m L - 1 - (i - (m - min m L)) = m - 1 - i := by omega
      simp [hlt, h1, h2, h3]
    · have h1 : ¬ (m - min m L ≤ i) := by omega
      simp [hlt, h1]
  · have h2 : ¬ (i - (m - min m L) < min m L) := by omega
    simp [hi, h2]

/-- `clearBits(n)` on buffered bits (R135): the invariant is kept, the position moves by `n`, no byte is pulled. -/
theorem Reader.Ok.clear {src : Memory} {n : Nat} {r : Reader} (h : r.Ok src) (hn : n ≤ r.cnt) :
    (r.clear n).Ok src ∧ (r.clear n).position = r.position + n := by
  obtain ⟨h1, h2, h3, h4⟩ := h
  have hpos : (r.clear n).position = r.position + n := by
    simp only [Reader.position, Reader.clear]; omega
  refine ⟨⟨?_, h2, ?_, ?_⟩, hpos⟩
  · simp only [Reader.clear]; omega
  · simp only [Reader.clear]; omega
  · intro j hj
    rw [hpos]
    show (r.buf <<< n).getLsbD (39 - j) = (decide (j < r.cnt - n) && streamBit src r.rev (r.position + n + j))
    rw [BitVec.getLsbD_shiftLeft]
    have h39 : 39 - j < 40 := by omega
    by_cases hlt : 39 - j < n
    · have : ¬ j < r.cnt - n := by omega
      simp [hlt, this]
    · have hj2 := h4 (j + n) (by omega)
      have he : 39 - (j + n) = 39 - j - n := by omega
      rw [he] at hj2
      rw [hj2]
      have hp : r.position + (j + n) = r.position + n + j := by omega
      have hd : (j + n < r.cnt) ↔ (j < r.cnt - n) := by omega
      simp [h39, hlt, hp, hd]

@[simp] theorem Reader.clear_len (r : Reader) (n : Nat) : (r.clear n).len = r.len := rfl

@[simp] theorem Reader.clear_rev (r : Reader) (n : Nat) : (r.clear n).rev = r.rev := rfl

@[simp] theorem Reader.clear_consumed (r : Reader) (n : Nat) : (r.clear n).consumed = r.consumed := rfl

@[simp] theorem Reader.clear_cnt (r : Reader) (n : Nat) : (r.clear n).cnt = r.cnt - n := rfl

@[simp] theorem Reader.clear_zero (r : Reader) : r.clear 0 = r := by cases r; simp [Reader.clear]

/-! ### Alignment and the end of the data (R138 to R141) -/

/-- `byteAlign()` (R139): the next byte boundary. -/
theorem Reader.Ok.byteAlign {src : Memory} {r : Reader} (h : r.Ok src) :
    r.byteAlign.Ok src ∧ r.byteAlign.position = 8 * ((r.position + 7) / 8) := by
  obtain ⟨hok, hpos⟩ := h.clear (n := r.cnt % 8) (Nat.mod_le _ _)
  refine ⟨hok, ?_⟩
  have hp : r.byteAlign.position = r.position + r.cnt % 8 := hpos
  rw [hp]
  obtain ⟨_, _, h3, _⟩ := h
  unfold Reader.position
  omega

/-- `wordAlign()` (R140): the next 16-bit boundary, or the end of the data. -/
theorem Reader.Ok.wordAlign {src : Memory} {r : Reader} (h : r.Ok src) :
    (r.wordAlign src).Ok src ∧ (r.wordAlign src).position = min (16 * ((r.position + 15) / 16)) (8 * r.len) ∧
    (r.wordAlign src).len = r.len ∧ (r.wordAlign src).rev = r.rev := by
  obtain ⟨hok, hpos⟩ := h.byteAlign
  have hle := h.position_le
  have hcnt8 : r.byteAlign.cnt % 8 = 0 := by
    show (r.cnt - r.cnt % 8) % 8 = 0
    omega
  have hP : r.byteAlign.position = 8 * r.byteAlign.consumed - r.byteAlign.cnt := rfl
  have h3 := hok.2.2.1
  have h2 := hok.2.1
  have hl : r.byteAlign.len = r.len := rfl
  unfold Reader.wordAlign
  by_cases hodd : (r.byteAlign.consumed - r.byteAlign.cnt / 8) % 2 = 1
  · simp only [hodd, if_true]
    obtain ⟨fok, fpos, flen, frev, _, fav⟩ := hok.fillTo (n := 8) (by omega)
    have h8 := fav 8 (le_refl _)
    by_cases hc : 8 ≤ (r.byteAlign.fillTo src 8).cnt
    · rw [if_pos hc]
      obtain ⟨cok, cpos⟩ := fok.clear hc
      refine ⟨cok, ?_, flen, frev⟩
      rw [cpos, fpos]
      omega
    · rw [if_neg hc]
      refine ⟨fok, ?_, flen, frev⟩
      rw [fpos]
      omega
  · rw [if_neg hodd]
    refine ⟨hok, ?_, rfl, rfl⟩
    omega

theorem Reader.Ok.drainLoop {src : Memory} (fuel : Nat) {r : Reader} (h : r.Ok src)
    (hf : (if r.cnt = 0 then r.len - r.consumed else r.len - r.consumed + 1) < fuel) :
    (r.drainLoop src fuel).Ok src ∧ (r.drainLoop src fuel).cnt = 0 ∧ (r.drainLoop src fuel).consumed = r.len ∧
    (r.drainLoop src fuel).len = r.len ∧ (r.drainLoop src fuel).rev = r.rev := by
  induction fuel generalizing r with
  | zero => exact absurd hf (Nat.not_lt_zero _)
  | succ fuel ih =>
    unfold Reader.drainLoop
    obtain ⟨fok, fpos, flen, frev, fle, fav⟩ := h.fillTo (n := 1) (by omega)
    have h1 := fav 1 (le_refl _)
    by_cases hc : 1 ≤ (r.fillTo src 1).cnt
    · simp only [hc, if_true]
      obtain ⟨cok, cpos⟩ := fok.clear (le_refl (r.fillTo src 1).cnt)
      have hcons : (r.fillTo src 1).consumed + (if r.cnt = 0 then 0 else 1) ≥ r.consumed + 1 := by
        have := fok.2.2.1
        have := h.2.2.1
        unfold Reader.position at fpos
        split <;> omega
      have hfl : (r.fillTo src 1).consumed ≤ r.len := flen ▸ fok.2.1
      obtain ⟨a, b, c, d, e⟩ := ih cok (by
        simp only [Reader.clear_cnt, Reader.clear_len, Reader.clear_consumed, Nat.sub_self, if_true, flen]
        split at hf <;> split at hcons <;> omega)
      simp only [Reader.clear_len, Reader.clear_rev, flen, frev] at c d e
      exact ⟨a, b, c, d, e⟩
    · rw [if_neg hc]
      refine ⟨fok, by omega, ?_, flen, frev⟩
      have := fok.2.1
      have := fok.2.2.1
      unfold Reader.position at fpos
      have hp : r.position = 8 * r.consumed - r.cnt := rfl
      have := h.2.1
      have := h.2.2.1
      omega

/-- `drain()` (R138): the end of the data. -/
theorem Reader.Ok.drain {src : Memory} {r : Reader} (h : r.Ok src) :
    (r.drain src).Ok src ∧ (r.drain src).cnt = 0 ∧ (r.drain src).consumed = r.len ∧ (r.drain src).len = r.len ∧
    (r.drain src).rev = r.rev := by
  apply h.drainLoop
  split <;> omega

end Sys2Proof.Machine
end

