-- ==== Sys2Proof/Laws/Output.lean ====
section
/-! SUPPORT. What the writer cursor does (`spec/40_bitcursor.md` R144 to R146) and what the emission of runs puts
(`spec/44_encoder.md` R259). -/

namespace Sys2Proof.Machine

/-! ### Bit strings -/

theorem streamBits_add (src : Memory) (rev : Bool) (k n m : Nat) :
    streamBits src rev k (n + m) = streamBits src rev k n ++ streamBits src rev (k + n) m := by
  unfold streamBits
  rw [List.range_add, List.map_append, List.map_map]
  simp [Function.comp_def, Nat.add_assoc]

theorem streamBits_congr {m m' : Memory} {k n : Nat} (h : ∀ a, 8 * a < k + n → k < 8 * a + 8 → m.read a = m'.read a) :
    streamBits m false k n = streamBits m' false k n := by
  unfold streamBits
  apply List.map_congr_left
  intro j hj
  rw [List.mem_range] at hj
  unfold streamBit streamByte
  rw [h _ (by omega) (by omega)]

theorem bitsOf_succ (v n : Nat) : bitsOf v (n + 1) = v.testBit n :: bitsOf v n := by
  unfold bitsOf
  rw [List.range_succ_eq_map]
  simp only [List.map_cons, List.map_map]
  congr 1
  apply List.map_congr_left
  intro j _
  simp only [Function.comp]
  congr 1
  omega

@[simp] theorem length_bitsOf (v n : Nat) : (bitsOf v n).length = n := by simp [bitsOf]

/-! ### One bit (R144) -/

theorem State.Wrote.trans {s t u : State} {b b' : List Bool} (h : s.Wrote b t) (h' : t.Wrote b' u) :
    s.Wrote (b ++ b') u where
  same := by
    have h1 := h'.same
    have h2 := h.same
    rw [h1]
    rw [h2]
  written := by rw [h'.written, h.written, List.append_assoc]
  position := by rw [h'.position, h.position, List.length_append]; omega
  outside := by
    intro a ha
    have hp := h.position
    have hp' := h'.position
    have hw := h.writer_ok.1
    have hw' := h'.writer_ok.1
    rw [h'.outside a (by omega), h.outside a (by omega)]
  writer_ok := h'.writer_ok
  dst_wf := h'.dst_wf

theorem State.Wrote.refl {s : State} (hw : s.writer.Ok) (hd : s.dst.wf = true) : s.Wrote [] s where
  same := rfl
  written := by simp
  position := by simp
  outside := fun _ _ => rfl
  writer_ok := hw
  dst_wf := hd

/-- The bytes that a CapacityFault leaves hold only bits that were given. -/
theorem State.Overflowed.length_le {s t : State} {b : List Bool} (h : s.Overflowed b t) :
    8 * t.writer.wlen ≤ (s.written ++ b).length := by
  have := congrArg List.length h.written
  rw [length_streamBits, List.length_take] at this
  omega

/-- More bits after those that did not fit change nothing. -/
theorem State.Overflowed.append {s t : State} {b : List Bool} (h : s.Overflowed b t) (b' : List Bool) :
    s.Overflowed (b ++ b') t where
  same := h.same
  wlen := h.wlen
  written := by rw [h.written, ← List.append_assoc, List.take_append_of_le_length h.length_le]
  outside := h.outside
  dst_wf := h.dst_wf

theorem State.Wrote.dstCap {s t : State} {b : List Bool} (h : s.Wrote b t) : t.dstCap = s.dstCap := by
  rw [h.same]; rfl

theorem State.Wrote.overflowed {s t u : State} {b b' : List Bool} (h : s.Wrote b t) (hs : s.writer.Ok)
    (hr : s.RoomForBits b.length) (h' : t.Overflowed b' u) : s.Overflowed (b ++ b') u := by
  have hp := h.position
  have h1 := h.writer_ok.1
  have h2 := hs.1
  have hc := h.dstCap
  have hl := h'.wlen
  simp only [State.RoomForBits] at hr
  refine ⟨?_, by rw [hl, hc]; omega, ?_, fun a ha => ?_, h'.dst_wf⟩
  · have e1 := h'.same
    have e2 := h.same
    rw [e1, e2]
    rfl
  · rw [h'.written, h.written, List.append_assoc]
  · rw [h'.outside a (by omega), h.outside a (by omega)]

/-- The bits of the byte being assembled, one more bit in place. -/
theorem assembled_succ (w : Writer) (v : Bool) (hw : w.wn < 8) :
    (List.range (w.wn + 1)).map (fun j => (setByteBit w.wacc (7 - w.wn) v).getLsbD (7 - j)) =
      (List.range w.wn).map (fun j => w.wacc.getLsbD (7 - j)) ++ [v] := by
  rw [List.range_succ, List.map_append, List.map_singleton]
  congr 1
  · apply List.map_congr_left
    intro j hj
    rw [List.mem_range] at hj
    rw [getLsbD_setByteBit _ _ _ _ (by omega), if_neg (by omega)]
  · rw [getLsbD_setByteBit _ _ _ _ (by omega), if_pos rfl]

/-- One bit with room for it. -/
theorem State.putBit_go (s : State) (v : Bool) (hw : s.writer.Ok) (hd : s.dst.wf = true) (hroom : s.RoomForBits 1) :
    ∃ t, s.putBit v = .go t ∧ s.Wrote [v] t := by
  obtain ⟨hlt, hz⟩ := hw
  unfold State.putBit
  by_cases h8 : s.writer.wn + 1 = 8
  · have hcap : ¬ s.dstCap ≤ s.writer.wlen := by
      rcases hroom with h | h <;> omega
    simp only [h8, if_true, hcap, if_false]
    refine ⟨_, rfl, ⟨rfl, ?_, ?_, ?_, ?_, ?_⟩⟩
    · have hass := assembled_succ s.writer v hlt
      rw [h8] at hass
      unfold State.written
      simp only [setWriter_writer, setWriter_dst, setDst_dst, List.range_zero, List.map_nil,
        List.append_nil]
      rw [Nat.mul_add, streamBits_add, List.append_assoc, ← hass]
      congr 1
      · apply streamBits_congr
        intro a ha _
        rw [Memory.read_write, if_neg (by omega)]
      · unfold streamBits
        apply List.map_congr_left
        intro j hj
        rw [List.mem_range] at hj
        unfold streamBit streamByte
        have e1 : (0 + 8 * s.writer.wlen + j) / 8 = s.writer.wlen := by omega
        have e2 : (0 + 8 * s.writer.wlen + j) % 8 = j := by omega
        rw [e1, e2, if_neg (by simp), Memory.read_write, if_pos rfl]
    · simp; omega
    · intro a ha
      simp only [setWriter_writer, setWriter_dst, setDst_dst] at ha ⊢
      rw [Memory.read_write, if_neg (by omega)]
    · refine ⟨by simp, fun j _ _ => ?_⟩
      simp
    · exact Memory.wf_write _ _ hd
  · simp only [h8, if_false]
    refine ⟨_, rfl, ⟨rfl, ?_, ?_, fun _ _ => rfl, ?_, hd⟩⟩
    · unfold State.written
      simp only [setWriter_writer, setWriter_dst]
      rw [assembled_succ s.writer v hlt, List.append_assoc]
    · simp; omega
    · refine ⟨by simp; omega, fun j hj hle => ?_⟩
      simp only [setWriter_writer] at hle ⊢
      rw [getLsbD_setByteBit _ _ _ _ (by omega), if_neg (by omega)]
      exact hz j hj (by omega)

/-- One bit without room for the byte it completes. -/
theorem State.putBit_full (s : State) (v : Bool) (hw : s.writer.Ok) (hd : s.dst.wf = true) (hroom : ¬ s.RoomForBits 1) :
    ∃ t, s.putBit v = .halt t ∧ s.Overflowed [v] t := by
  have hlt := hw.1
  simp only [State.RoomForBits, not_or, not_lt, not_le] at hroom
  unfold State.putBit
  have h8 : s.writer.wn + 1 = 8 := by omega
  have hcap : s.dstCap ≤ s.writer.wlen := by omega
  simp only [h8, hcap]
  have hfault : ∀ w : Writer, (s.setWriter w).raiseEncodeCapacity = State.faulted { s with writer := w } s.y := by
    intro w
    unfold State.raiseEncodeCapacity State.raise State.faulted
    cases hs : s.running
    · have h1 : (s.setWriter w).running = false := hs
      have h2 : State.running { s with writer := w } = false := hs
      simp only [h1, h2]; rfl
    · have h1 : (s.setWriter w).running = true := hs
      have h2 : State.running { s with writer := w } = true := hs
      simp only [h1, h2]; rfl
  rw [if_pos trivial, if_pos trivial]
  refine ⟨_, rfl, ?_⟩
  rw [hfault]
  refine ⟨rfl, ?_, ?_, fun _ _ => rfl, hd⟩
  · show s.writer.wlen = max s.writer.wlen s.dstCap
    omega
  · show streamBits s.dst false 0 (8 * s.writer.wlen) = (s.written ++ [v]).take (8 * s.writer.wlen)
    unfold State.written
    rw [List.append_assoc, List.take_append_of_le_length (by rw [length_streamBits]),
      List.take_of_length_le (by rw [length_streamBits])]

/-! ### Several bits, alignment, the end (R144 to R146) -/

/-- Room for more bits, after some were written. -/
theorem State.Wrote.room {s t : State} {b : List Bool} {n : Nat} (h : s.Wrote b t) (hw : s.writer.Ok) :
    t.RoomForBits n ↔ (s.RoomForBits (b.length + n) ∨ 8 * t.writer.wlen + t.writer.wn + n < 8 * t.writer.wlen + 8) := by
  have hp := h.position
  have h1 := h.writer_ok.1
  have h2 := hw.1
  simp only [State.RoomForBits, h.dstCap]
  omega

theorem State.putBits_cases (v n : Nat) (s : State) (hw : s.writer.Ok) (hd : s.dst.wf = true) :
    (s.RoomForBits n ∧ ∃ t, State.putBits v n s = .go t ∧ s.Wrote (bitsOf v n) t) ∨
    (¬ s.RoomForBits n ∧ ∃ t, State.putBits v n s = .halt t ∧ s.Overflowed (bitsOf v n) t) := by
  induction n generalizing s with
  | zero =>
    left
    refine ⟨?_, s, rfl, State.Wrote.refl hw hd⟩
    left
    exact hw.1
  | succ n ih =>
    unfold State.putBits
    by_cases h1 : s.RoomForBits 1
    · obtain ⟨t, ht, hwr⟩ := s.putBit_go (v.testBit n) hw hd h1
      rw [ht, Flow.bind_go]
      have hroom : t.RoomForBits n ↔ s.RoomForBits (n + 1) := by
        have hp := hwr.position
        have h2 := hwr.writer_ok.1
        have h3 := hw.1
        simp only [State.RoomForBits, hwr.dstCap, List.length_singleton] at hp h1 ⊢
        omega
      rcases ih t hwr.writer_ok hwr.dst_wf with ⟨hr, u, hu, hwu⟩ | ⟨hr, u, hu, hou⟩
      · left
        refine ⟨hroom.mp hr, u, hu, ?_⟩
        rw [bitsOf_succ]
        exact hwr.trans hwu
      · right
        rw [bitsOf_succ]
        exact ⟨fun h => hr (hroom.mpr h), u, hu, hwr.overflowed hw h1 hou⟩
    · right
      obtain ⟨t, ht, hov⟩ := s.putBit_full (v.testBit n) hw hd h1
      rw [bitsOf_succ]
      refine ⟨fun h => h1 ?_, t, by rw [ht]; rfl, hov.append (bitsOf v n)⟩
      have h3 := hw.1
      simp only [State.RoomForBits] at h ⊢
      omega

/-- `putBits` with room (R144). -/
theorem State.putBits_go (v n : Nat) (s : State) (hw : s.writer.Ok) (hd : s.dst.wf = true) (hroom : s.RoomForBits n) :
    ∃ t, State.putBits v n s = .go t ∧ s.Wrote (bitsOf v n) t := by
  rcases State.putBits_cases v n s hw hd with h | h
  · exact h.2
  · exact absurd hroom h.1

/-- `putCode` of a codeword, or of none. -/
theorem State.putCode_cases (code : Option (Nat × Nat)) (s : State) (hw : s.writer.Ok) (hd : s.dst.wf = true) :
    (s.RoomForBits (codeBits code).length ∧ ∃ t, s.putCode code = .go t ∧ s.Wrote (codeBits code) t) ∨
    (¬ s.RoomForBits (codeBits code).length ∧ ∃ t, s.putCode code = .halt t ∧ s.Overflowed (codeBits code) t) := by
  cases code with
  | none => exact Or.inl ⟨Or.inl hw.1, s, rfl, State.Wrote.refl hw hd⟩
  | some c =>
    obtain ⟨p, l⟩ := c
    simp only [codeBits, length_bitsOf, State.putCode]
    exact State.putBits_cases p l s hw hd

/-- Two emissions in a row. -/
theorem State.emit_bind {s : State} {w : Flow} {f : State → Flow} {b b' : List Bool} (hs : s.writer.Ok)
    (hw : (s.RoomForBits b.length ∧ ∃ t, w = .go t ∧ s.Wrote b t) ∨
      (¬ s.RoomForBits b.length ∧ ∃ t, w = .halt t ∧ s.Overflowed b t))
    (hf : ∀ t, s.Wrote b t → (t.RoomForBits b'.length ∧ ∃ u, f t = .go u ∧ t.Wrote b' u) ∨
      (¬ t.RoomForBits b'.length ∧ ∃ u, f t = .halt u ∧ t.Overflowed b' u)) :
    (s.RoomForBits (b ++ b').length ∧ ∃ t, w.bind f = .go t ∧ s.Wrote (b ++ b') t) ∨
    (¬ s.RoomForBits (b ++ b').length ∧ ∃ t, w.bind f = .halt t ∧ s.Overflowed (b ++ b') t) := by
  have h3 := hs.1
  rcases hw with ⟨hr, t, rfl, ht⟩ | ⟨hr, t, rfl, ht⟩
  · have hp := ht.position
    have h2 := ht.writer_ok.1
    have hroom : t.RoomForBits b'.length ↔ s.RoomForBits (b ++ b').length := by
      simp only [State.RoomForBits, ht.dstCap, List.length_append] at hr ⊢
      omega
    rw [Flow.bind_go, ← hroom]
    rcases hf t ht with ⟨hr', u, hu, hwu⟩ | ⟨hr', u, hu, hou⟩
    · exact Or.inl ⟨hr', u, hu, ht.trans hwu⟩
    · exact Or.inr ⟨hr', u, hu, ht.overflowed hs hr hou⟩
  · right
    refine ⟨fun h => hr ?_, t, rfl, ht.append b'⟩
    simp only [State.RoomForBits, List.length_append] at h ⊢
    omega

/-! ### Runs (R259) -/

theorem State.putMakeups_cases (k : Colour) (fuel m : Nat) (s : State) (hw : s.writer.Ok) (hd : s.dst.wf = true)
    (hf : m < 2560 * fuel) :
    let bits := (List.replicate ((m - 1) / 2560) 2560 ++ if 0 < m then [m - 2560 * ((m - 1) / 2560)] else []).flatMap
      fun v => codeBits (makeupCode k v)
    (s.RoomForBits bits.length ∧ ∃ t, State.putMakeups k fuel m s = .go t ∧ s.Wrote bits t) ∨
    (¬ s.RoomForBits bits.length ∧ ∃ t, State.putMakeups k fuel m s = .halt t ∧ s.Overflowed bits t) := by
  induction fuel generalizing m s with
  | zero => omega
  | succ fuel ih =>
    intro bits
    unfold State.putMakeups
    by_cases h1 : 2560 < m
    · rw [if_pos h1]
      have hq : (m - 1) / 2560 = (m - 2560 - 1) / 2560 + 1 := by omega
      have hpos : 0 < m := by omega
      have hpos' : 0 < m - 2560 := by omega
      have hrest : m - 2560 * ((m - 2560 - 1) / 2560 + 1) = m - 2560 - 2560 * ((m - 2560 - 1) / 2560) := by omega
      have hb : bits = codeBits (makeupCode k 2560) ++
          (List.replicate ((m - 2560 - 1) / 2560) 2560 ++
            if 0 < m - 2560 then [m - 2560 - 2560 * ((m - 2560 - 1) / 2560)] else []).flatMap
              fun v => codeBits (makeupCode k v) := by
        simp only [bits, hq, hrest, hpos, hpos', if_true, List.replicate_succ, List.cons_append, List.flatMap_cons]
      rw [hb]
      exact State.emit_bind hw (State.putCode_cases _ s hw hd)
        fun t ht => ih (m - 2560) t ht.writer_ok ht.dst_wf (by omega)
    · rw [if_neg h1]
      have hq : (m - 1) / 2560 = 0 := by omega
      by_cases h0 : 0 < m
      · rw [if_pos h0]
        have hb : bits = codeBits (makeupCode k m) := by simp [bits, hq, h0]
        rw [hb]
        exact State.putCode_cases _ s hw hd
      · rw [if_neg h0]
        have hb : bits = [] := by simp [bits, hq, h0]
        rw [hb]
        exact Or.inl ⟨Or.inl hw.1, s, rfl, State.Wrote.refl hw hd⟩

/-- `PutRun` (R259): the make-up codes and the terminating code of the run, or CapacityFault. -/
theorem State.putRun_cases (k : Colour) (n : Nat) (s : State) (hw : s.writer.Ok) (hd : s.dst.wf = true) :
    (s.RoomForBits (runBits k n).length ∧ ∃ t, State.putRun k n s = .go t ∧ s.Wrote (runBits k n) t) ∨
    (¬ s.RoomForBits (runBits k n).length ∧ ∃ t, State.putRun k n s = .halt t ∧ s.Overflowed (runBits k n) t) :=
  State.emit_bind hw (State.putMakeups_cases k (n / 64 + 1) (64 * (n / 64)) s hw hd (by omega))
    fun t ht => State.putCode_cases _ t ht.writer_ok ht.dst_wf

/-- `putAlign` (R145): zero bits up to the byte boundary. -/
theorem State.putAlign_cases (s : State) (hw : s.writer.Ok) (hd : s.dst.wf = true) :
    let bits := List.replicate ((8 - s.writer.wn) % 8) false
    (s.RoomForBits bits.length ∧ ∃ t, s.putAlign = .go t ∧ s.Wrote bits t) ∨
    (¬ s.RoomForBits bits.length ∧ ∃ t, s.putAlign = .halt t ∧ s.Overflowed bits t) := by
  intro bits
  have h8 := hw.1
  unfold State.putAlign
  by_cases h : 0 < s.writer.wn
  · rw [if_pos h]
    have hn : (8 - s.writer.wn) % 8 = 8 - s.writer.wn := by omega
    have hb : bits = bitsOf 0 (8 - s.writer.wn) := by
      simp [bits, hn, bitsOf, List.map_const']
    rw [hb, length_bitsOf]
    exact State.putBits_cases 0 _ s hw hd
  · rw [if_neg h]
    have hb : bits = [] := by
      have : s.writer.wn = 0 := by omega
      simp [bits, this]
    rw [hb]
    exact Or.inl ⟨Or.inl hw.1, s, rfl, State.Wrote.refl hw hd⟩

end Sys2Proof.Machine
end

