-- ==== Sys2Proof/Laws/Raster.lean ====
section
/-! SUPPORT. What reading the raster does (`spec/44_encoder.md` R254 to R256): the counted run, the scanned row; and the
one-dimensional encoding of a row (R265). -/

namespace Sys2Proof.Machine

/-! ### A reader moved on -/

theorem Reader.Moved.rfl' {src : Memory} {r : Reader} (h : r.Ok src) : r.Moved src 0 r := ⟨h, rfl, rfl, rfl⟩

theorem Reader.Moved.trans {src : Memory} {r r' r'' : Reader} {k k' : Nat} (h : r.Moved src k r')
    (h' : r'.Moved src k' r'') : r.Moved src (k + k') r'' :=
  ⟨h'.ok, by rw [h'.position, h.position, Nat.add_assoc], h'.len.trans h.len, h'.rev.trans h.rev⟩

theorem Reader.Ok.moved_fillTo {src : Memory} {n : Nat} (hn : n ≤ 32) {r : Reader} (h : r.Ok src) :
    r.Moved src 0 (r.fillTo src n) := by
  obtain ⟨a, b, c, d, _⟩ := h.fillTo hn
  exact ⟨a, b, c, d⟩

theorem Reader.Ok.moved_clear {src : Memory} {n : Nat} {r : Reader} (h : r.Ok src) (hn : n ≤ r.cnt) :
    r.Moved src n (r.clear n) := by
  obtain ⟨a, b⟩ := h.clear hn
  exact ⟨a, b, rfl, rfl⟩

theorem drop_streamBits (src : Memory) (rev : Bool) (k n m : Nat) :
    (streamBits src rev k n).drop m = streamBits src rev (k + m) (n - m) := by
  by_cases h : m ≤ n
  · have : n = m + (n - m) := by omega
    rw [this, streamBits_add, Nat.add_sub_cancel_left]
    exact List.drop_left' (length_streamBits _ _ _ _)
  · rw [List.drop_eq_nil_of_le (by simp; omega), show n - m = 0 by omega]
    rfl

/-- What is left of the stream after a move. -/
theorem Reader.Moved.rest {src : Memory} {r r' : Reader} {k : Nat} (h : r.Moved src k r') :
    r'.rest src = (r.rest src).drop k := by
  unfold Reader.rest
  rw [drop_streamBits, h.position, h.len, h.rev, Nat.sub_sub]

@[simp] theorem Reader.length_rest (src : Memory) (r : Reader) :
    (r.rest src).length = 8 * r.len - r.position := by simp [Reader.rest]

/-! ### Uniform bits (R254) -/

theorem bitsValue_inj {l l' : List Bool} (hl : l.length = l'.length) (h : bitsValue l = bitsValue l') : l = l' := by
  have key : ∀ i, i < l.length → l.reverse[i]? = l'.reverse[i]? := by
    intro i hi
    have h1 := testBit_bitsValue l i
    have h2 := testBit_bitsValue l' i
    rw [h, h2] at h1
    have e1 : l.reverse[i]? = some (l.reverse[i]'(by simpa using hi)) := List.getElem?_eq_getElem _
    have e2 : l'.reverse[i]? = some (l'.reverse[i]'(by simpa [← hl] using hi)) := List.getElem?_eq_getElem _
    rw [e1, e2] at h1 ⊢
    simpa using h1.symm
  have : l.reverse = l'.reverse := by
    apply List.ext_getElem?
    intro i
    by_cases hi : i < l.length
    · exact key i hi
    · rw [List.getElem?_eq_none (by simp; omega), List.getElem?_eq_none (by simp; omega)]
  exact List.reverse_injective this

theorem bitsValue_replicate (b : Bool) (k : Nat) : bitsValue (List.replicate k b) = if b then 2 ^ k - 1 else 0 := by
  induction k with
  | zero => cases b <;> rfl
  | succ k ih =>
    rw [List.replicate_succ', bitsValue_append, ih]
    have := Nat.one_le_two_pow (n := k)
    cases b
    · simp
    · simp only [if_true, Bool.toNat_true]
      rw [Nat.pow_succ]
      omega

/-- The uniform test after its refill says that the next `k` bits are there and all `b`. -/
theorem State.uniform_iff {s : State} {k : Nat} (hk : k ≤ 32) (b : Bool) (h : s.reader.Ok s.src) :
    (s.fillTo k).uniform b k = true ↔ (s.reader.rest s.src).take k = List.replicate k b := by
  have hav := (h.fillTo hk).2.2.2.2.2 k (le_refl _)
  have hwin := h.window_fillTo hk (le_refl k)
  unfold State.uniform
  show (decide (min (s.reader.fillTo s.src k).cnt k = k) && decide ((s.reader.fillTo s.src k).window k =
    if b then 2 ^ k - 1 else 0)) = true ↔ _
  rw [hwin, hav, Bool.and_eq_true, decide_eq_true_iff, decide_eq_true_iff]
  unfold Reader.ahead
  have hlen : ((s.reader.rest s.src).take k).length = min k (8 * s.reader.len - s.reader.position) := by simp
  constructor
  · rintro ⟨h1, h2⟩
    rw [hlen, h1, Nat.sub_self, pow_zero, mul_one, ← bitsValue_replicate] at h2
    exact bitsValue_inj (by rw [hlen, h1, List.length_replicate]) h2
  · intro heq
    have h1 : min k (8 * s.reader.len - s.reader.position) = k := by rw [← hlen, heq, List.length_replicate]
    refine ⟨h1, ?_⟩
    rw [hlen, h1, Nat.sub_self, pow_zero, mul_one, heq, bitsValue_replicate]

/-! ### Counting a run (R254) -/

/-- The length of the run of `b` at the head of a bit string. -/
def runLength (b : Bool) (l : List Bool) : Nat := (l.takeWhile (· == b)).length

theorem runLength_replicate_append (b : Bool) (k : Nat) (l : List Bool) :
    runLength b (List.replicate k b ++ l) = k + runLength b l := by
  unfold runLength
  induction k with
  | zero => simp
  | succ k ih =>
    rw [List.replicate_succ, List.cons_append, List.takeWhile_cons_of_pos (by simp), List.length_cons, ih]
    omega

theorem runLength_take_of_uniform {b : Bool} {k left : Nat} {l : List Bool} (hk : k ≤ left)
    (h : l.take k = List.replicate k b) : runLength b (l.take left) = k + runLength b ((l.drop k).take (left - k)) := by
  have : l.take left = List.replicate k b ++ (l.drop k).take (left - k) := by
    rw [← h, List.take_drop, Nat.add_sub_cancel' hk]
    conv_lhs => rw [← List.take_append_drop k (l.take left)]
    rw [List.take_take, min_eq_left hk]
  rw [this, runLength_replicate_append]

/-- The state after a count: only the reader has moved. -/
structure State.Counted (s : State) (k : Nat) (t : State) : Prop where
  same : t = s.setReader t.reader
  moved : s.reader.Moved s.src k t.reader

theorem State.Counted.trans {s t u : State} {k k' : Nat} (h : s.Counted k t) (h' : t.Counted k' u) :
    s.Counted (k + k') u where
  same := by
    have h1 := h'.same
    have h2 := h.same
    rw [h1, h2]
    rfl
  moved := by
    have h2 : t.src = s.src := by rw [h.same]; rfl
    exact h.moved.trans (h2 ▸ h'.moved)

theorem State.Counted.src {s t : State} {k : Nat} (h : s.Counted k t) : t.src = s.src := by rw [h.same]; rfl

theorem State.Counted.rest {s t : State} {k : Nat} (h : s.Counted k t) :
    t.reader.rest t.src = (s.reader.rest s.src).drop k := by rw [h.src, h.moved.rest]

theorem State.Counted.ok {s t : State} {k : Nat} (h : s.Counted k t) : t.reader.Ok t.src := by
  rw [h.src]; exact h.moved.ok

theorem State.counted_fillTo {s : State} {n : Nat} (hn : n ≤ 32) (h : s.reader.Ok s.src) : s.Counted 0 (s.fillTo n) :=
  ⟨rfl, h.moved_fillTo hn⟩

/-- A uniform window can be consumed. -/
theorem State.counted_uniform {s : State} {k : Nat} (hk : k ≤ 32) {b : Bool} (h : s.reader.Ok s.src)
    (hu : (s.fillTo k).uniform b k = true) : s.Counted k ((s.fillTo k).clear k) := by
  have hm := h.moved_fillTo hk
  have hcnt : k ≤ (s.fillTo k).reader.cnt := by
    unfold State.uniform at hu
    rw [Bool.and_eq_true, decide_eq_true_iff] at hu
    have := hu.1
    unfold Reader.avail at this
    omega
  refine ⟨rfl, ?_⟩
  have := hm.trans (hm.ok.moved_clear hcnt)
  rwa [Nat.zero_add] at this

theorem State.countLoop_spec (b : Bool) (fuel left n : Nat) (s : State) (h : s.reader.Ok s.src) (hf : left ≤ fuel) :
    (State.countLoop b fuel left n s).1 = n + runLength b ((s.reader.rest s.src).take left) ∧
    s.Counted (runLength b ((s.reader.rest s.src).take left)) (State.countLoop b fuel left n s).2 := by
  induction fuel generalizing left n s with
  | zero =>
    have : left = 0 := by omega
    subst this
    exact ⟨by simp [State.countLoop, runLength], rfl, Reader.Moved.rfl' h⟩
  | succ fuel ih =>
    unfold State.countLoop
    by_cases h0 : left = 0
    · subst h0
      exact ⟨by simp [runLength], rfl, Reader.Moved.rfl' h⟩
    rw [if_neg h0]
    -- the three windows, each after the refill of the ones before
    have step : ∀ (k : Nat) (s' : State), k ≤ 32 → 0 < k → k ≤ left → s.Counted 0 s' → (s'.fillTo k).uniform b k = true →
        (State.countLoop b fuel (left - k) (n + k) ((s'.fillTo k).clear k)).1 =
          n + runLength b ((s.reader.rest s.src).take left) ∧
        s.Counted (runLength b ((s.reader.rest s.src).take left))
          (State.countLoop b fuel (left - k) (n + k) ((s'.fillTo k).clear k)).2 := by
      intro k s' hk hk0 hkl hs' hu
      have hc := hs'.trans (State.counted_uniform hk hs'.ok hu)
      rw [Nat.zero_add] at hc
      have htake : (s.reader.rest s.src).take k = List.replicate k b := by
        have := (State.uniform_iff hk b hs'.ok).mp hu
        rwa [hs'.rest, List.drop_zero] at this
      obtain ⟨h1, h2⟩ := ih (left - k) (n + k) _ hc.ok (by omega)
      rw [hc.rest] at h1 h2
      rw [runLength_take_of_uniform hkl htake]
      refine ⟨by rw [h1]; omega, ?_⟩
      exact hc.trans h2
    have c0 : s.Counted 0 s := ⟨rfl, Reader.Moved.rfl' h⟩
    simp only
    by_cases h24 : 24 ≤ left ∧ (if 24 ≤ left then s.fillTo 24 else s).uniform b 24 = true
    · rw [if_pos h24]
      rw [if_pos h24.1] at h24 ⊢
      exact step 24 s (by omega) (by omega) h24.1 c0 h24.2
    rw [if_neg h24]
    have c1 : s.Counted 0 (if 24 ≤ left then s.fillTo 24 else s) := by
      split
      · exact State.counted_fillTo (by omega) h
      · exact c0
    generalize (if 24 ≤ left then s.fillTo 24 else s) = s1 at c1 ⊢
    by_cases h8 : 8 ≤ left ∧ (if 8 ≤ left then s1.fillTo 8 else s1).uniform b 8 = true
    · rw [if_pos h8]
      rw [if_pos h8.1] at h8 ⊢
      exact step 8 s1 (by omega) (by omega) h8.1 c1 h8.2
    rw [if_neg h8]
    have c2 : s.Counted 0 (if 8 ≤ left then s1.fillTo 8 else s1) := by
      split
      · exact c1.trans (State.counted_fillTo (by omega) c1.ok)
      · exact c1
    generalize (if 8 ≤ left then s1.fillTo 8 else s1) = s2 at c2 ⊢
    by_cases h1 : (s2.fillTo 1).uniform b 1 = true
    · rw [if_pos h1]
      exact step 1 s2 (by omega) (by omega) (by omega) c2 h1
    rw [if_neg h1]
    have hz : runLength b ((s.reader.rest s.src).take left) = 0 := by
      have hne : ¬ (s.reader.rest s.src).take 1 = List.replicate 1 b := by
        intro he
        apply h1
        rw [State.uniform_iff (by omega) b c2.ok, c2.rest, List.drop_zero]
        exact he
      unfold runLength
      cases hrest : s.reader.rest s.src with
      | nil => simp
      | cons x xs =>
        rw [hrest] at hne
        cases left with
        | zero => simp
        | succ l =>
          have hx : ¬ x = b := by simpa using hne
          rw [List.take_succ_cons, List.takeWhile_cons_of_neg (by simpa using hx)]
          rfl
    rw [hz]
    exact ⟨rfl, c2.trans (State.counted_fillTo (by omega) c2.ok)⟩

/-- `CountPixels` (R254): the number of leading bits of the colour, at most `max`; the reader moves by that number. -/
theorem State.countPixels_spec (s : State) (k : Colour) (max : Nat) (h : s.reader.Ok s.src) :
    (s.countPixels k max).1 = runLength (s.bit k) ((s.reader.rest s.src).take max) ∧
    s.Counted (runLength (s.bit k) ((s.reader.rest s.src).take max)) (s.countPixels k max).2 := by
  obtain ⟨h1, h2⟩ := State.countLoop_spec (s.bit k) max max 0 s h (le_refl _)
  rw [Nat.zero_add] at h1
  exact ⟨h1, h2⟩

/-! ### Pixels and changing elements -/

theorem State.colourOf_eq_iff (s : State) (b : Bool) (k : Colour) : s.colourOf b = k ↔ b = s.bit k := by
  unfold State.colourOf State.bit
  cases s.blackIs1 <;> cases b <;> cases k <;> decide

theorem eq_opposite_of_ne {k k' : Colour} (h : k' ≠ k) : k' = oppositeColour k := by
  cases k <;> cases k' <;> simp_all [oppositeColour]

@[simp] theorem oppositeColour_oppositeColour (k : Colour) : oppositeColour (oppositeColour k) = k := by cases k <;> rfl

/-- A pixel line splits into its leading run of `k` and a rest that begins with the other colour. -/
theorem pixels_split (s : State) (k : Colour) (l : List Bool) :
    ∃ rest, l.map s.colourOf = List.replicate (runLength (s.bit k) l) k ++ rest ∧
      rest = (l.drop (runLength (s.bit k) l)).map s.colourOf ∧
      (rest = [] ∨ ∃ ps, rest = oppositeColour k :: ps) := by
  induction l with
  | nil => exact ⟨[], by simp [runLength], by simp, Or.inl rfl⟩
  | cons b bs ih =>
    by_cases hb : b = s.bit k
    · obtain ⟨rest, h1, h2, h3⟩ := ih
      have hr : runLength (s.bit k) (b :: bs) = runLength (s.bit k) bs + 1 := by
        unfold runLength
        rw [List.takeWhile_cons_of_pos (by simpa using hb)]
        rfl
      refine ⟨rest, ?_, ?_, h3⟩
      · rw [hr, List.map_cons, (s.colourOf_eq_iff b k).mpr hb, h1, List.replicate_succ, List.cons_append]
      · rw [hr, List.drop_succ_cons, h2]
    · have hr : runLength (s.bit k) (b :: bs) = 0 := by
        unfold runLength
        rw [List.takeWhile_cons_of_neg (by simpa using hb)]
        rfl
      have hc : s.colourOf b = oppositeColour k :=
        eq_opposite_of_ne fun h => hb ((s.colourOf_eq_iff b k).mp h)
      refine ⟨(b :: bs).map s.colourOf, by simp [hr], by simp [hr], Or.inr ⟨bs.map s.colourOf, by simp [hc]⟩⟩

theorem changes_replicate_append (k : Colour) (x n : Nat) (rest : List Colour) :
    changes k x (List.replicate n k ++ rest) = changes k (x + n) rest := by
  induction n generalizing x with
  | zero => rfl
  | succ n ih =>
    rw [List.replicate_succ, List.cons_append, changes, if_pos rfl, ih]
    congr 1
    omega

/-- At a change, the position is recorded and the scan goes on in the other colour. -/
theorem changes_of_opposite (k : Colour) (x : Nat) (ps : List Colour) :
    changes k x (oppositeColour k :: ps) = x :: changes (oppositeColour k) x (oppositeColour k :: ps) := by
  have hne : oppositeColour k ≠ k := by cases k <;> decide
  simp [changes, hne]

/-- Changing elements are strictly increasing positions of the line. -/
theorem changes_lineOk (k : Colour) (x : Nat) (px : List Colour) :
    (changes k x px).Pairwise (· < ·) ∧ ∀ p ∈ changes k x px, x ≤ p ∧ p < x + px.length := by
  induction px generalizing k x with
  | nil => simp [changes]
  | cons p ps ih =>
    obtain ⟨h1, h2⟩ := ih p (x + 1)
    unfold changes
    split
    · refine ⟨h1, fun q hq => ?_⟩
      have := h2 q hq
      simp only [List.length_cons]
      omega
    · refine ⟨List.pairwise_cons.mpr ⟨fun q hq => ?_, h1⟩, fun q hq => ?_⟩
      · have := h2 q hq
        omega
      · simp only [List.length_cons]
        rcases List.mem_cons.mp hq with rfl | hq
        · omega
        · have := h2 q hq
          omega

/-! ### Scanning a row (R256) -/

theorem runLength_le (b : Bool) (l : List Bool) : runLength b l ≤ l.length :=
  (List.takeWhile_sublist _).length_le

/-- The scan from `x` on, with the raster long enough: it lists the changing elements of the rest of the row and moves
the reader to the row's end. -/
theorem State.scanLoop_spec (fuel x : Nat) (k : Colour) (s : State) (h : s.reader.Ok s.src)
    (hlast : s.imageWidth - x ≤ (s.reader.rest s.src).length)
    (hfuel : (s.imageWidth - x) +
      (if (((s.reader.rest s.src).take (s.imageWidth - x)).map s.colourOf).head? = some k then 0 else 1) ≤ fuel) :
    ∃ r', State.scanLoop fuel x k s = some { s with
        reader := r', cur := s.cur ++ changes k x (((s.reader.rest s.src).take (s.imageWidth - x)).map s.colourOf) } ∧
      s.reader.Moved s.src (s.imageWidth - x) r' := by
  induction fuel generalizing x k s with
  | zero =>
    have hx : s.imageWidth - x = 0 := by omega
    rw [hx] at hfuel
    simp at hfuel
  | succ fuel ih =>
    unfold State.scanLoop
    by_cases hx : s.imageWidth ≤ x
    · rw [if_pos hx]
      have h0 : s.imageWidth - x = 0 := by omega
      rw [h0]
      exact ⟨s.reader, by simp [changes], Reader.Moved.rfl' h⟩
    rw [if_neg hx]
    obtain ⟨hn, hc⟩ := s.countPixels_spec k (s.imageWidth - x) h
    set bits := (s.reader.rest s.src).take (s.imageWidth - x) with hbits
    have hblen : bits.length = s.imageWidth - x := by rw [hbits, List.length_take]; omega
    set n := runLength (s.bit k) bits with hndef
    have hnle : n ≤ bits.length := runLength_le _ _
    obtain ⟨rest, hp1, hp2, hp3⟩ := pixels_split s k bits
    rw [← hndef] at hp1 hp2
    generalize hsc : s.countPixels k (s.imageWidth - x) = out at hn hc
    obtain ⟨n', t⟩ := out
    simp only at hn hc ⊢
    subst hn
    have ht := hc.same
    have htr : t.reader.rest t.src = (s.reader.rest s.src).drop n := hc.rest
    -- the state the next iteration starts from
    have hW : t.imageWidth = s.imageWidth := by rw [ht]; rfl
    have hrestlen : rest.length = s.imageWidth - x - n := by rw [hp2, List.length_map, List.length_drop, hblen]
    rw [hW]
    by_cases hend : x + n < s.imageWidth
    · rw [if_pos hend]
      have hne : rest ≠ [] := by
        intro h0
        rw [h0] at hrestlen
        simp at hrestlen
        omega
      obtain ⟨ps, hps⟩ := hp3.resolve_left hne
      let u : State := { t with cur := t.cur ++ [x + n] }
      have hu_ok : u.reader.Ok u.src := hc.ok
      have hu_W : u.imageWidth = s.imageWidth := hW
      have hu_rest : (u.reader.rest u.src).take (u.imageWidth - (x + n)) = bits.drop n := by
        show (t.reader.rest t.src).take (t.imageWidth - (x + n)) = _
        rw [htr, hW, hbits, List.drop_take, ← Nat.sub_sub]
      have hu_col : ∀ b, u.colourOf b = s.colourOf b := by
        intro b
        show t.colourOf b = s.colourOf b
        rw [ht]; rfl
      have hu_px : ((u.reader.rest u.src).take (u.imageWidth - (x + n))).map u.colourOf = rest := by
        rw [hu_rest, hp2]
        exact List.map_congr_left fun b _ => hu_col b
      obtain ⟨r', hr', hm'⟩ := ih (x + n) (oppositeColour k) u hu_ok
        (by
          show _ ≤ (t.reader.rest t.src).length
          rw [htr, List.length_drop, hu_W]
          omega)
        (by
          rw [hu_px, hps, hu_W]
          simp only [List.head?_cons, if_true]
          have : n = 0 → ¬ (bits.map s.colourOf).head? = some k := by
            intro h0
            rw [hp1, h0, hps]
            cases k <;> simp [oppositeColour]
          by_cases h0 : n = 0
          · rw [if_neg (this h0)] at hfuel
            omega
          · omega)
      refine ⟨r', ?_, ?_⟩
      · show State.scanLoop fuel (x + n) (oppositeColour k) u = _
        rw [hr', hu_px, hp1, changes_replicate_append, hps, changes_of_opposite]
        show some { t with reader := r', cur := (t.cur ++ [x + n]) ++ _ } = _
        rw [ht]
        simp
      · have := hc.moved.trans (k' := s.imageWidth - (x + n)) (r'' := r') (by
          have h2 := hm'
          rw [hu_W] at h2
          show t.reader.Moved s.src _ r'
          rw [← hc.src]
          exact h2)
        rwa [show n + (s.imageWidth - (x + n)) = s.imageWidth - x by omega] at this
    · rw [if_neg hend]
      have hn_eq : n = s.imageWidth - x := by omega
      have hnil : rest = [] := by
        apply List.eq_nil_of_length_eq_zero
        omega
      cases fuel with
      | zero =>
        unfold State.scanLoop
        rw [if_pos (by rw [hW]; omega)]
        refine ⟨t.reader, ?_, hn_eq ▸ hc.moved⟩
        rw [hp1, hnil, changes_replicate_append]
        simp only [changes, List.append_nil]
        rw [ht]
        rfl
      | succ fuel =>
        unfold State.scanLoop
        rw [if_pos (by rw [hW]; omega)]
        refine ⟨t.reader, ?_, hn_eq ▸ hc.moved⟩
        rw [hp1, hnil, changes_replicate_append]
        simp only [changes, List.append_nil]
        rw [ht]
        rfl

/-- `ScanRow` (R256) with the raster long enough: `cur` lists the changing elements of the next W raster pixels, and the
reader stands at the byte boundary after them. -/
theorem State.scanRow_spec (s : State) (h : s.reader.Ok s.src) (hlast : s.imageWidth ≤ (s.reader.rest s.src).length) :
    ∃ r', s.scanRow = some { s with
        reader := r', cur := changes .white 0 (((s.reader.rest s.src).take s.imageWidth).map s.colourOf) } ∧
      r'.Ok s.src ∧ r'.position = 8 * ((s.reader.position + s.imageWidth + 7) / 8) ∧ r'.len = s.reader.len ∧
      r'.rev = s.reader.rev := by
  obtain ⟨r', hr', hm⟩ := State.scanLoop_spec (s.imageWidth + 1) 0 .white { s with cur := [] } h
    (by show s.imageWidth - 0 ≤ _; rw [Nat.sub_zero]; exact hlast) (by
      show s.imageWidth - 0 + _ ≤ _
      split <;> omega)
  have hm' : s.reader.Moved s.src s.imageWidth r' := hm
  obtain ⟨a, b⟩ := hm'.ok.byteAlign
  refine ⟨r'.byteAlign, ?_, a, ?_, hm'.len, hm'.rev⟩
  · unfold State.scanRow
    rw [hr']
    rfl
  · rw [b, hm'.position]

/-! ### A row in one dimension (R265) -/

theorem lineBits_replicate_append (k : Colour) (m n : Nat) (rest : List Colour) :
    lineBits k m (List.replicate n k ++ rest) = lineBits k (m + n) rest := by
  induction n generalizing m with
  | zero => rfl
  | succ n ih =>
    rw [List.replicate_succ, List.cons_append, lineBits, if_pos rfl, ih]
    congr 1
    omega

theorem lineBits_of_opposite (k : Colour) (n : Nat) (ps : List Colour) :
    lineBits k n (oppositeColour k :: ps) = runBits k n ++ lineBits (oppositeColour k) 0 (oppositeColour k :: ps) := by
  have hne : oppositeColour k ≠ k := by cases k <;> decide
  simp [lineBits, hne]

end Sys2Proof.Machine
end

