-- ==== Sys2Proof/Laws/Encoder.lean ====
section
/-! SUPPORT. What the encoder's steps do (`spec/44_encoder.md` R251 to R266): one mode selection, one row in one
dimension, and that the steps of a started job keep the encoder's invariants and never stop the machine. -/

namespace Sys2Proof.Machine

/-! ### FindB (R222, R255) -/

theorem findChange_mem (b : Bool) (a0 w : Nat) (l : List Nat) :
    ((findChange b a0 w l).1 = w ∨ (findChange b a0 w l).1 ∈ l) ∧
    ((findChange b a0 w l).2 = w ∨ (findChange b a0 w l).2 ∈ l) := by
  fun_induction findChange b a0 w l with
  | case1 => simp
  | case2 => simp
  | case3 => simp
  | case4 => simp
  | case5 b b' rest h ih =>
    obtain ⟨h1, h2⟩ := ih
    constructor
    · rcases h1 with h | h <;> simp [h]
    · rcases h2 with h | h <;> simp [h]

theorem State.findOn_le (s : State) {line : List Nat} (h : LineOk s.imageWidth line) :
    (s.findOn line).1 ≤ s.imageWidth ∧ (s.findOn line).2 ≤ s.imageWidth := by
  obtain ⟨h1, h2⟩ := findChange_mem s.atStart s.a0 s.imageWidth (line.drop (colourNumber s.c))
  constructor
  · rcases h1 with h' | h'
    · exact le_of_eq h'
    · exact le_of_lt (h.2 _ (List.mem_of_mem_drop h'))
  · rcases h2 with h' | h'
    · exact le_of_eq h'
    · exact le_of_lt (h.2 _ (List.mem_of_mem_drop h'))

theorem findChange_ge {b : Bool} {a0 w : Nat} {l : List Nat} (hs : b = true → a0 = 0) (hw : a0 ≤ w)
    (hl : l.Pairwise (· < ·)) (hlt : ∀ p ∈ l, p < w) :
    a0 ≤ (findChange b a0 w l).1 ∧ (findChange b a0 w l).1 ≤ (findChange b a0 w l).2 := by
  fun_induction findChange b a0 w l with
  | case1 => exact ⟨hw, le_refl _⟩
  | case2 p h =>
    have := hlt p (by simp)
    rcases Bool.or_eq_true _ _ |>.mp h with h | h
    · have := hs h; simp; omega
    · have := of_decide_eq_true h; simp; omega
  | case3 => exact ⟨hw, le_refl _⟩
  | case4 p q rest h =>
    have hpq : p < q := by
      rw [List.pairwise_cons] at hl
      exact hl.1 q (by simp)
    rcases Bool.or_eq_true _ _ |>.mp h with h | h
    · have := hs h; simp; omega
    · have := of_decide_eq_true h; simp; omega
  | case5 p q rest h ih =>
    refine ih ?_ ?_
    · rw [List.pairwise_cons, List.pairwise_cons] at hl
      exact hl.2.2
    · intro x hx
      exact hlt x (by simp [hx])

/-! ### One mode selection (R258) -/

theorem modeBits_pos (m : ModeName) : (codeBits (modeCode m)).length ≤ 7 := by
  unfold modeCode
  cases encodableMode m with
  | none => simp [codeBits]
  | some e =>
    simp only
    cases hf : modeSet.find? fun r => decide (r.result = e) with
    | none => simp [codeBits]
    | some r =>
      have : r ∈ modeSet := List.mem_of_find?_eq_some hf
      have hall : ∀ r ∈ modeSet, r.len ≤ 7 := by decide
      simpa [codeBits] using hall r this

/-- Registers that the writer does not read can be written before or after it. -/
theorem State.Wrote.with_registers {s u : State} {b : List Bool} (h : s.Wrote b u) (a0 a1 a2 b1 b2 : Nat) (k : Colour)
    (st : Bool) :
    State.Wrote { s with a0 := a0, a1 := a1, a2 := a2, b1 := b1, b2 := b2, c := k, atStart := st } b
      { u with a0 := a0, a1 := a1, a2 := a2, b1 := b1, b2 := b2, c := k, atStart := st } where
  same := by
    have := h.same
    generalize u.dst = d at *
    generalize u.writer = w at *
    subst this
    rfl
  written := h.written
  position := h.position
  outside := h.outside
  writer_ok := h.writer_ok
  dst_wf := h.dst_wf

theorem State.encodeStepG4_cases (s : State) (hw : s.writer.Ok) (hd : s.dst.wf = true) :
    (s.RoomForBits s.stepBits.length ∧ ∃ u, s.Wrote s.stepBits u ∧ s.encodeStepG4 = .go { u with
        a1 := s.findA.1, a2 := s.findA.2, b1 := s.findB.1, b2 := s.findB.2
        a0 := s.stepTarget, c := s.stepColour, atStart := false }) ∨
    (¬ s.RoomForBits s.stepBits.length ∧ ∃ t, s.encodeStepG4 = .halt t ∧ State.Overflowed { s with
        a1 := s.findA.1, a2 := s.findA.2, b1 := s.findB.1, b2 := s.findB.2 } s.stepBits t) := by
  set s1 : State := { s with a1 := s.findA.1, a2 := s.findA.2, b1 := s.findB.1, b2 := s.findB.2 } with hs1
  have hw1 : s1.writer.Ok := hw
  have hd1 : s1.dst.wf = true := hd
  have hroom : ∀ n, s1.RoomForBits n ↔ s.RoomForBits n := fun n => Iff.rfl
  -- back from the state with the step's positions to the one before it
  have back : ∀ b u, s1.Wrote b u → s.Wrote b { u with a1 := s.a1, a2 := s.a2, b1 := s.b1, b2 := s.b2 } := by
    intro b u h
    have h2 := h.with_registers s.a0 s.a1 s.a2 s.b1 s.b2 s.c s.atStart
    have hu := h.same
    have e : ({ u with a0 := s.a0, a1 := s.a1, a2 := s.a2, b1 := s.b1, b2 := s.b2, c := s.c, atStart := s.atStart } : State) =
        { u with a1 := s.a1, a2 := s.a2, b1 := s.b1, b2 := s.b2 } := by
      generalize u.dst = d at *
      generalize u.writer = w at *
      subst hu
      rfl
    rw [e] at h2
    exact h2
  unfold State.encodeStepG4
  simp only [← hs1]
  have hsel : s.selected = selectMode s.findA.1 s.findB.1 s.findB.2 := rfl
  rw [← hsel]
  unfold State.stepBits State.stepTarget State.stepColour
  cases hm : s.selected with
  | vertical d =>
    simp only
    rcases State.putCode_cases (modeCode (.vertical d)) s1 hw1 hd1 with ⟨hr, u, hu, hwu⟩ | ⟨hr, u, hu, hou⟩
    · refine Or.inl ⟨hr, _, back _ _ hwu, ?_⟩
      rw [hu]
      have := hwu.same
      generalize u.dst = d at *
      generalize u.writer = w at *
      subst this
      rfl
    · exact Or.inr ⟨hr, u, by rw [hu]; rfl, hou⟩
  | pass =>
    simp only
    rcases State.putCode_cases (modeCode .pass) s1 hw1 hd1 with ⟨hr, u, hu, hwu⟩ | ⟨hr, u, hu, hou⟩
    · refine Or.inl ⟨hr, _, back _ _ hwu, ?_⟩
      rw [hu]
      have := hwu.same
      generalize u.dst = d at *
      generalize u.writer = w at *
      subst this
      rfl
    · exact Or.inr ⟨hr, u, by rw [hu]; rfl, hou⟩
  | horizontal =>
    simp only
    have hemit := State.emit_bind (b' := runBits s.c (s.findA.1 - s.a0) ++
        runBits (oppositeColour s.c) (s.findA.2 - s.findA.1))
      (f := fun v => (State.putRun s.c (s.findA.1 - s.a0) v).bind
        (State.putRun (oppositeColour s.c) (s.findA.2 - s.findA.1)))
      hw1 (State.putCode_cases (modeCode .horizontal) s1 hw1 hd1)
      (fun t ht => State.emit_bind ht.writer_ok (State.putRun_cases _ _ t ht.writer_ok ht.dst_wf)
        fun v hv => State.putRun_cases _ _ v hv.writer_ok hv.dst_wf)
    have hform : ((s1.putCode (modeCode .horizontal)).bind fun v =>
          (State.putRun v.c (s.findA.1 - v.a0) v).bind fun v =>
          (State.putRun (oppositeColour v.c) (s.findA.2 - s.findA.1) v).bind fun v => .go (v.moveTo s.findA.2)) =
        ((s1.putCode (modeCode .horizontal)).bind fun v => (State.putRun s.c (s.findA.1 - s.a0) v).bind
          (State.putRun (oppositeColour s.c) (s.findA.2 - s.findA.1))).bind fun v => .go (v.moveTo s.findA.2) := by
      rcases State.putCode_cases (modeCode .horizontal) s1 hw1 hd1 with ⟨_, t, ht, hwt⟩ | ⟨_, t, ht, _⟩
      · rw [ht, Flow.bind_go, Flow.bind_go]
        have hc : t.c = s.c := by rw [hwt.same]
        have ha : t.a0 = s.a0 := by rw [hwt.same]
        rw [hc, ha]
        rcases State.putRun_cases s.c (s.findA.1 - s.a0) t hwt.writer_ok hwt.dst_wf with ⟨_, v, hv, hwv⟩ | ⟨_, v, hv, _⟩
        · rw [hv, Flow.bind_go, Flow.bind_go]
          have hc' : v.c = s.c := by rw [hwv.same]; exact hc
          rw [hc']
        · rw [hv]; rfl
      · rw [ht]; rfl
    rw [hform]
    rcases hemit with ⟨hr, u, hu, hwu⟩ | ⟨hr, u, hu, hou⟩
    · refine Or.inl ⟨hr, _, back _ _ hwu, ?_⟩
      rw [hu]
      have := hwu.same
      generalize u.dst = d at *
      generalize u.writer = w at *
      subst this
      rfl
    · exact Or.inr ⟨hr, u, by rw [hu]; rfl, hou⟩
  | ext1d =>
    exfalso
    rw [hsel] at hm
    unfold selectMode at hm
    split at hm
    · cases hm
    · split at hm <;> cases hm
  | ext2d =>
    exfalso
    rw [hsel] at hm
    unfold selectMode at hm
    split at hm
    · cases hm
    · split at hm <;> cases hm

/-! ### A row in one dimension (R265) -/

/-- The bits of the rest of a line from a run boundary on: nothing at the end of the row. -/
def tailBits (k : Colour) (px : List Colour) : List Bool := if px = [] then [] else lineBits k 0 px

theorem State.Wrote.with_reader {s t : State} {b : List Bool} (r : Reader) (h : s.Wrote b t) :
    (s.setReader r).Wrote b (t.setReader r) where
  same := by
    have := h.same
    generalize t.dst = d at *
    generalize t.writer = w at *
    subst this
    rfl
  written := h.written
  position := h.position
  outside := h.outside
  writer_ok := h.writer_ok
  dst_wf := h.dst_wf

theorem State.setReader_self (s : State) : s.setReader s.reader = s := rfl

theorem State.setReader_setReader (s : State) (r r' : Reader) : (s.setReader r).setReader r' = s.setReader r' := rfl

theorem State.rowLoopG31D_cases (fuel x : Nat) (k : Colour) (s : State) (h : s.reader.Ok s.src) (hw : s.writer.Ok)
    (hd : s.dst.wf = true) (hlast : s.imageWidth - x ≤ (s.reader.rest s.src).length)
    (hfuel : (s.imageWidth - x) +
      (if (((s.reader.rest s.src).take (s.imageWidth - x)).map s.colourOf).head? = some k then 0 else 1) ≤ fuel) :
    let bits := tailBits k (((s.reader.rest s.src).take (s.imageWidth - x)).map s.colourOf)
    (s.RoomForBits bits.length ∧ ∃ u r', State.rowLoopG31D fuel x k s = .go (u.setReader r') ∧ s.Wrote bits u ∧
      s.reader.Moved s.src (s.imageWidth - x) r') ∨
    (¬ s.RoomForBits bits.length ∧ ∃ t r', State.rowLoopG31D fuel x k s = .halt t ∧ (s.setReader r').Overflowed bits t) := by
  induction fuel generalizing x k s with
  | zero =>
    have hx : s.imageWidth - x = 0 := by omega
    rw [hx] at hfuel
    simp at hfuel
  | succ fuel ih =>
    intro bits
    unfold State.rowLoopG31D
    by_cases hx : s.imageWidth ≤ x
    · rw [if_pos hx]
      have h0 : s.imageWidth - x = 0 := by omega
      have hb : bits = [] := by simp [bits, tailBits, h0]
      rw [hb, h0]
      exact Or.inl ⟨Or.inl hw.1, s, s.reader, rfl, State.Wrote.refl hw hd, Reader.Moved.rfl' h⟩
    rw [if_neg hx]
    obtain ⟨hn, hc⟩ := s.countPixels_spec k (s.imageWidth - x) h
    set px := (s.reader.rest s.src).take (s.imageWidth - x) with hpx
    have hlen : px.length = s.imageWidth - x := by rw [hpx, List.length_take]; omega
    set n := runLength (s.bit k) px with hndef
    have hnle : n ≤ px.length := runLength_le _ _
    obtain ⟨rest, hp1, hp2, hp3⟩ := pixels_split s k px
    rw [← hndef] at hp1 hp2
    have hrestlen : rest.length = s.imageWidth - x - n := by rw [hp2, List.length_map, List.length_drop, hlen]
    generalize s.countPixels k (s.imageWidth - x) = out at hn hc
    obtain ⟨n', t⟩ := out
    simp only at hn hc ⊢
    subst hn
    have ht := hc.same
    have hpxne : px.map s.colourOf ≠ [] := by
      intro h0
      have := congrArg List.length h0
      rw [List.length_map, hlen, List.length_nil] at this
      omega
    have hbits : bits = runBits k n ++ tailBits (oppositeColour k) rest := by
      show tailBits k (px.map s.colourOf) = _
      rw [tailBits, if_neg hpxne, hp1, lineBits_replicate_append, Nat.zero_add]
      rcases hp3 with h0 | ⟨ps, hps⟩
      · rw [h0]; simp [lineBits, tailBits]
      · rw [hps, lineBits_of_opposite]; simp [tailBits]
    have hwt : t.writer.Ok := by rw [ht]; exact hw
    have hdt : t.dst.wf = true := by rw [ht]; exact hd
    have hroomt : ∀ m, t.RoomForBits m ↔ s.RoomForBits m := by intro m; rw [ht]; exact Iff.rfl
    have hW : t.imageWidth = s.imageWidth := by rw [ht]; rfl
    have hwlt := hw.1
    rcases State.putRun_cases k n t hwt hdt with ⟨hr, u, hu, hwu⟩ | ⟨hr, u, hu, hou⟩
    · rw [hu, Flow.bind_go]
      have husrc : u.src = s.src := by rw [hwu.same, ht]; rfl
      have hurd : u.reader = t.reader := by rw [hwu.same]
      have huW : u.imageWidth = s.imageWidth := by rw [hwu.same]; exact hW
      have hucol : ∀ b, u.colourOf b = s.colourOf b := by intro b; rw [hwu.same, ht]; rfl
      have hurest : u.reader.rest u.src = (s.reader.rest s.src).drop n := by
        have := hc.rest
        rw [hurd, husrc]
        rwa [hc.src] at this
      have hupx : ((u.reader.rest u.src).take (u.imageWidth - (x + n))).map u.colourOf = rest := by
        rw [hurest, huW, hp2, hpx, List.drop_take, ← Nat.sub_sub]
        exact List.map_congr_left fun b _ => hucol b
      have hsu : s.Wrote (runBits k n) (u.setReader s.reader) := by
        have := hwu.with_reader s.reader
        rw [ht] at this
        exact this
      have hmoved : ∀ r', u.reader.Moved u.src (u.imageWidth - (x + n)) r' →
          s.reader.Moved s.src (s.imageWidth - x) r' := by
        intro r' hm
        rw [hurd, husrc, huW] at hm
        have := hc.moved.trans hm
        rwa [show n + (s.imageWidth - (x + n)) = s.imageWidth - x by omega] at this
      by_cases hend : x + n < s.imageWidth
      · have hne : rest ≠ [] := by
          intro h0
          rw [h0] at hrestlen
          simp at hrestlen
          omega
        obtain ⟨ps, hps⟩ := hp3.resolve_left hne
        have hfu : (u.imageWidth - (x + n)) + (if (((u.reader.rest u.src).take (u.imageWidth - (x + n))).map
            u.colourOf).head? = some (oppositeColour k) then 0 else 1) ≤ fuel := by
          rw [hupx, hps, huW]
          simp only [List.head?_cons, if_true]
          have : n = 0 → ¬ (px.map s.colourOf).head? = some k := by
            intro h0
            rw [hp1, h0, hps]
            cases k <;> simp [oppositeColour]
          by_cases h0 : n = 0
          · rw [if_neg (this h0)] at hfuel
            omega
          · omega
        have hih := ih (x + n) (oppositeColour k) u (by rw [hurd, husrc, ← hc.src]; exact hc.ok) hwu.writer_ok
          hwu.dst_wf (by rw [hurest, List.length_drop, huW]; omega) hfu
        rw [hupx] at hih
        have hp := hsu.position
        have h2 := hwu.writer_ok.1
        have hroomu : u.RoomForBits (tailBits (oppositeColour k) rest).length ↔ s.RoomForBits bits.length := by
          have hcap : u.dstCap = s.dstCap := by rw [hwu.same, ht]; rfl
          have hr' := (hroomt _).mp hr
          simp only [State.RoomForBits, hcap, hbits, List.length_append, setReader_writer] at hp hr' ⊢
          omega
        rcases hih with ⟨hr', v, r', hv, hwv, hm⟩ | ⟨hr', v, r', hv, hov⟩
        · refine Or.inl ⟨hroomu.mp hr', v.setReader s.reader, r', ?_, ?_, hmoved r' hm⟩
          · rw [hv]; rfl
          · rw [hbits]
            exact hsu.trans (hwv.with_reader s.reader)
        · refine Or.inr ⟨fun h => hr' (hroomu.mpr h), v, r', hv, ?_⟩
          have h3 := hsu.with_reader r'
          rw [hbits]
          exact h3.overflowed hw ((hroomt _).mp hr) hov
      · have hn_eq : n = s.imageWidth - x := by omega
        have hnil : rest = [] := List.eq_nil_of_length_eq_zero (by omega)
        have hgo : State.rowLoopG31D fuel (x + n) (oppositeColour k) u = .go u := by
          cases fuel with
          | zero => rfl
          | succ f =>
            unfold State.rowLoopG31D
            rw [if_pos (by rw [huW]; omega)]
        have hb2 : bits = runBits k n := by rw [hbits, hnil]; simp [tailBits]
        rw [hgo, hb2]
        refine Or.inl ⟨(hroomt _).mp hr, u.setReader s.reader, u.reader, rfl, hsu, ?_⟩
        rw [hurd, ← hn_eq]
        exact hc.moved
    · rw [hu, Flow.bind_halt]
      refine Or.inr ⟨?_, u, t.reader, rfl, ?_⟩
      · intro h
        apply hr
        rw [hroomt]
        simp only [State.RoomForBits, hbits, List.length_append] at h ⊢
        omega
      · rw [ht] at hou
        rw [hbits]
        exact hou.append _

end Sys2Proof.Machine
end

