-- ==== Sys2Proof/Laws/Lookup.lean ====
section
/-! SUPPORT. The code tables and the arms of their codewords: each row's instruction runs its row's length and rule; and
a lookup followed by its result's rule is the fetched instruction run on its own (`spec/42_g3_decoder.md` R180, R181). -/

namespace Sys2Proof.Machine

/-! ### The arms of the codewords, row by row -/

theorem exec_whiteTerminating : ∀ r ∈ whiteTerminating, ∀ s,
    exec r.instr s = runCodeword r.len (State.terminatingRule r.value) s := by
  simp only [whiteTerminating, whiteTerminating0, whiteTerminating1, whiteTerminating2, whiteTerminating3,
    List.forall_mem_append, List.forall_mem_cons]
  repeat' constructor
  all_goals first | exact fun s => rfl | simp

theorem exec_blackTerminating : ∀ r ∈ blackTerminating, ∀ s,
    exec r.instr s = runCodeword r.len (State.terminatingRule r.value) s := by
  simp only [blackTerminating, blackTerminating0, blackTerminating1, blackTerminating2, blackTerminating3,
    List.forall_mem_append, List.forall_mem_cons]
  repeat' constructor
  all_goals first | exact fun s => rfl | simp

theorem exec_whiteMakeup : ∀ r ∈ whiteMakeup, ∀ s,
    exec r.instr s = runCodeword r.len (State.makeupRule r.value) s := by
  simp only [whiteMakeup, whiteMakeup0, whiteMakeup1, List.forall_mem_append, List.forall_mem_cons]
  repeat' constructor
  all_goals first | exact fun s => rfl | simp

theorem exec_blackMakeup : ∀ r ∈ blackMakeup, ∀ s,
    exec r.instr s = runCodeword r.len (State.makeupRule r.value) s := by
  simp only [blackMakeup, blackMakeup0, blackMakeup1, List.forall_mem_append, List.forall_mem_cons]
  repeat' constructor
  all_goals first | exact fun s => rfl | simp

theorem exec_extendedMakeup : ∀ r ∈ extendedMakeup, ∀ s,
    exec r.instr s = runCodeword r.len (State.makeupRule r.value) s := by
  simp only [extendedMakeup, List.forall_mem_cons]
  repeat' constructor
  all_goals first | exact fun s => rfl | simp

/-- Every terminating code of a colour (R183). -/
theorem exec_terminating (k : Colour) : ∀ r ∈ terminatingTable k, ∀ s,
    exec r.instr s = runCodeword r.len (State.terminatingRule r.value) s := by
  cases k
  · exact exec_whiteTerminating
  · exact exec_blackTerminating

/-- Every make-up code of a colour, the extended ones among them (R182). -/
theorem exec_makeup (k : Colour) : ∀ r ∈ makeupTable k, ∀ s,
    exec r.instr s = runCodeword r.len (State.makeupRule r.value) s := by
  cases k <;> intro r hr <;> rcases List.mem_append.mp hr with h | h
  · exact exec_whiteMakeup r h
  · exact exec_extendedMakeup r h
  · exact exec_blackMakeup r h
  · exact exec_extendedMakeup r h

/-! ### The rows -/

/-- A run set is its terminating codes, its make-up codes and EOL (R161). -/
theorem mem_runSet {k : Colour} {r : CodeRow} :
    r ∈ runSet k ↔ r ∈ terminatingTable k ∨ r ∈ makeupTable k ∨ r = eolRow := by
  cases k <;> simp [runSet, terminatingTable, makeupTable, or_assoc]

theorem terminating_row (k : Colour) : ∀ r ∈ terminatingTable k, r.value ≤ 63 ∧ r.instr ≠ .eol ∧ 2 ≤ r.len ∧ r.len ≤ 12 := by
  cases k <;> decide

theorem makeup_row (k : Colour) : ∀ r ∈ makeupTable k, 64 ≤ r.value ∧ r.instr ≠ .eol ∧ 5 ≤ r.len ∧ r.len ≤ 13 := by
  cases k <;> decide

theorem mode_row : ∀ r ∈ modeSet, 1 ≤ r.len ∧ r.len ≤ 7 := by decide

/-- What a run lookup finds is a row of the set that lies in the real bits (R161, R162). -/
theorem lookupRun_some {k : Colour} {v avail : Nat} {r : CodeRow} (h : lookupRun k v avail = some r) :
    r ∈ runSet k ∧ r.len ≤ avail := by
  refine ⟨List.mem_of_find?_eq_some h, ?_⟩
  have := List.find?_some h
  unfold codewordFits at this
  rw [Bool.and_eq_true, decide_eq_true_iff] at this
  exact this.1

theorem lookupMode_some {v avail : Nat} {r : ModeRow} (h : lookupMode v avail = some r) :
    r ∈ modeSet ∧ r.len ≤ avail := by
  refine ⟨List.mem_of_find?_eq_some h, ?_⟩
  have := List.find?_some h
  unfold codewordFits at this
  rw [Bool.and_eq_true, decide_eq_true_iff] at this
  exact this.1

/-! ### The run step (R181) -/

theorem avail_le_cnt (r : Reader) (n : Nat) : r.avail n ≤ r.cnt := Nat.min_le_left _ _

/-- The colour of a run context. -/
def runContext : Colour → Context
  | .white => .white
  | .black => .black

theorem State.context_run {s : State} (h : s.lineMode = .l1d ∨ 0 < s.hphase) : s.context = runContext s.c := by
  unfold State.context
  rw [if_pos h]
  cases s.c <;> rfl

theorem State.context_mode {s : State} (h : ¬ (s.lineMode = .l1d ∨ 0 < s.hphase)) : s.context = .mode := by
  unfold State.context
  rw [if_neg h]

theorem decodeWindow_run (k : Colour) (v avail : Nat) :
    decodeWindow (runContext k) v avail = decodeRunWindow k v avail := by
  cases k <;> rfl

theorem runContext_width (k : Colour) : (runContext k).width = 13 := by cases k <;> rfl

theorem runContext_ne_mode (k : Colour) : runContext k ≠ .mode := by cases k <;> decide

/-- In a run context of a running decode job, the step `DecodeStep` is the fetched instruction, or the rule of the
lookup result that is none. -/
theorem State.runStep_eq_dispatch (s : State) (hd : s.decoding = true) (hc : s.lineMode = .l1d ∨ 0 < s.hphase) :
    decodeDispatch exec s = s.runStep.out := by
  have hctx := State.context_run hc
  have hw : s.context.width = 13 := by rw [hctx]; exact runContext_width _
  have hmode : decide (s.context = .mode) = false := by
    rw [hctx, decide_eq_false_iff_not]; exact runContext_ne_mode _
  have hfetch : s.fetch = decodeRunWindow s.c ((s.fillTo 13).reader.window 13) ((s.fillTo 13).reader.avail 13) := by
    unfold State.fetch State.fetchFill
    rw [hw, hctx]
    exact decodeWindow_run _ _ _
  unfold decodeDispatch
  rw [hfetch]
  unfold decodeRunWindow State.runStep State.decodeRun State.streamEnd State.streamError State.fetchFill
  rw [hw, hmode]
  simp only
  by_cases h0 : (s.fillTo 13).reader.avail 13 = 0
  · simp [h0]
  · rw [if_neg h0, if_neg h0]
    cases hl : lookupRun s.c ((s.fillTo 13).reader.window 13) ((s.fillTo 13).reader.avail 13) with
    | none =>
      simp only
      by_cases hz : zeroWindow ((s.fillTo 13).reader.window 13) ((s.fillTo 13).reader.avail 13) = true
      · have hcnt : ¬ (s.fillTo 13).reader.cnt < 1 := by
          have := avail_le_cnt (s.fillTo 13).reader 13
          omega
        rw [if_pos hz, if_pos hz]
        show runCodeword 1 State.zeroRule s = _
        unfold runCodeword
        rw [if_pos hd, if_neg hcnt]
      · rw [if_neg hz, if_neg hz]
    | some r =>
      obtain ⟨hmem, hlen⟩ := lookupRun_some hl
      have hcnt : ¬ (s.fillTo 13).reader.cnt < r.len := by
        have := avail_le_cnt (s.fillTo 13).reader 13
        omega
      simp only
      rcases mem_runSet.mp hmem with h | h | h
      · obtain ⟨h63, hne, _⟩ := terminating_row s.c r h
        have h64 : ¬ 64 ≤ r.value := by omega
        rw [exec_terminating s.c r h s]
        simp [runCodeword, hd, hcnt, hne, h64]
      · obtain ⟨h64, hne, _⟩ := makeup_row s.c r h
        rw [exec_makeup s.c r h s]
        simp [runCodeword, hd, hcnt, hne, h64]
      · subst h
        show runCodeword 12 State.onEOL s = _
        have he : eolRow.instr = .eol := rfl
        have hcnt' : ¬ (s.fillTo 13).reader.cnt < 12 := hcnt
        simp only [runCodeword, hd, if_true, if_neg hcnt', he]
        rfl

/-! ### The mode step (R223) -/

theorem exec_modeRow : ∀ r ∈ modeSet, ∀ s, exec r.instr s = modeCodeword r.len (fun t =>
    match r.result with
    | .pass => t.doPass
    | .horizontal => t.doHorizontal
    | .vertical d => t.doVertical d
    | .ext2d => t.onError
    | .ext1d => t.doExt1D
    | .error => t.onError
    | .eod => t.onEOD true) s := by
  simp only [modeSet, List.forall_mem_cons]
  repeat' constructor
  all_goals first | exact fun s => rfl | simp

/-- In the mode context of a running decode job, the same for `ModeStep`. -/
theorem State.modeStep_eq_dispatch (s : State) (hd : s.decoding = true) (hc : s.context = .mode) :
    decodeDispatch exec s = s.modeStep.out := by
  have hw : s.context.width = 7 := by rw [hc]; rfl
  have hmode : decide (s.context = .mode) = true := by simp [hc]
  have hfetch : s.fetch = decodeModeWindow ((s.fillTo 7).reader.window 7) ((s.fillTo 7).reader.avail 7) := by
    unfold State.fetch State.fetchFill
    rw [hw, hc]
    rfl
  unfold decodeDispatch
  rw [hfetch]
  unfold decodeModeWindow State.modeStep State.decodeMode State.streamEnd State.streamError State.fetchFill
  rw [hw, hmode]
  simp only
  by_cases h0 : (s.fillTo 7).reader.avail 7 = 0
  · simp [h0]
  · rw [if_neg h0, if_neg h0]
    cases hl : lookupMode ((s.fillTo 7).reader.window 7) ((s.fillTo 7).reader.avail 7) with
    | none =>
      simp only
      by_cases hz : (s.fillTo 7).reader.avail 7 = 7 ∧ (s.fillTo 7).reader.window 7 = 0
      · rw [if_pos hz, if_pos hz]
        show modeCodeword 0 State.doExt1D s = _
        unfold modeCodeword
        have hcl : (s.fillTo 7).clear 0 = s.fillTo 7 := by
          unfold State.clear
          rw [Reader.clear_zero]
          rfl
        rw [if_pos hd, if_neg (Nat.not_lt_zero _), hcl]
      · rw [if_neg hz, if_neg hz]
    | some r =>
      obtain ⟨hmem, hlen⟩ := lookupMode_some hl
      have hcnt : ¬ (s.fillTo 7).reader.cnt < r.len := by
        have := avail_le_cnt (s.fillTo 7).reader 7
        omega
      simp only
      rw [exec_modeRow r hmem s]
      unfold modeCodeword
      rw [if_pos hd, if_neg hcnt]
      cases r.result <;> rfl

/-- A decode step by instruction is `DecodeStep` (R180, R181). -/
theorem State.decodeStep_eq_dispatch (s : State) (hd : s.decoding = true) :
    decodeDispatch exec s = s.decodeStep.out := by
  unfold State.decodeStep
  by_cases hc : s.lineMode = .l1d ∨ 0 < s.hphase
  · rw [if_pos hc]; exact s.runStep_eq_dispatch hd hc
  · rw [if_neg hc]; exact s.modeStep_eq_dispatch hd (State.context_mode hc)

end Sys2Proof.Machine
end

