-- ==== Sys2Proof/Laws/Decoder.lean ====
section
/-! SUPPORT. The decoder's rules keep the invariants of `spec/10_state.md` R29 and R32 as long as the job stays in RUN
(`spec/42_g3_decoder.md`, `spec/43_g4_predictor.md`). -/

namespace Sys2Proof.Machine

/-! ### Shapes -/

/-- A fill, wherever it is made: DST, `row_open` and `cap_rows` change, or CapacityFault ends the step. -/
theorem State.fill_cases (s : State) (k : Colour) (x0 x1 : Nat) :
    (s.RoomForRow ∧ ∃ m, s.fill k x0 x1 = .go { s with dst := m, rowOpen := true, capRows := s.grownRows }) ∨
    (¬ s.RoomForRow ∧ s.fill k x0 x1 = .halt s.raiseDecodeCapacity) := by
  by_cases h : s.RoomForRow
  · refine Or.inl ⟨h, ?_⟩
    unfold State.fill
    rw [s.openRow_go h, Flow.bind_go]
    exact ⟨_, rfl⟩
  · exact Or.inr ⟨h, s.fill_full k x0 x1 h⟩

/-- What a flow leaves satisfies the decoder's invariants if the job is still in RUN. -/
def Flow.Safe (w : Flow) : Prop := w.state.running = true → w.state.DecodeOk

@[simp] theorem raiseDecodeCapacity_running (s : State) : s.raiseDecodeCapacity.running = false := by
  unfold State.raiseDecodeCapacity State.raise
  cases hs : s.running
  · exact hs
  · rfl

@[simp] theorem stop_running (s : State) (reason : StopCode) : (s.stop reason).running = false := by
  unfold State.stop
  cases hs : s.running
  · exact hs
  · rfl

theorem Flow.safe_halt_raise (s : State) : (Flow.halt s.raiseDecodeCapacity).Safe :=
  fun h => absurd h (by simp)

theorem Flow.safe_stop (s : State) (reason : StopCode) : (Flow.go (s.stop reason)).Safe :=
  fun h => absurd h (by simp)

theorem Flow.safe_go {s : State} (h : s.running = true → s.DecodeOk) : (Flow.go s).Safe := h

theorem Flow.safe_bind {w : Flow} {f : State → Flow} (hhalt : ∀ s, w = .halt s → s.running = false)
    (hgo : ∀ s, w = .go s → (f s).Safe) : (w.bind f).Safe := by
  cases w with
  | go s => exact hgo s rfl
  | halt s =>
    intro h
    have := hhalt s rfl
    change s.running = true at h
    rw [this] at h
    cases h

/-! ### What a row close needs -/

/-- The part of the invariants that a row close needs. -/
structure State.RowOk (s : State) : Prop where
  width_pos : 0 < s.imageWidth
  cur_ok : LineOk s.imageWidth s.cur
  rows_lt : s.imageHeight ≠ 0 → s.rows < s.imageHeight
  kind_1d : s.kind = some .g3_1d → s.lineMode = .l1d
  kind_g4 : s.kind = some .g4 → s.lineMode = .l2d
  reader_ok : s.reader.Ok s.src

theorem State.DecodeOk.rowOk {s : State} (h : s.DecodeOk) : s.RowOk :=
  ⟨h.width_pos, h.cur_ok, h.rows_lt, h.kind_1d, h.kind_g4, h.reader_ok⟩

/-- The reader can be replaced by another one over the same stream. -/
theorem State.DecodeOk.with_reader {s : State} (h : s.DecodeOk) {r : Reader} (hr : r.Ok s.src) :
    (s.setReader r).DecodeOk := by
  obtain ⟨a, b, c, d, e, f, g, i, j, k, l, m, n, o, p⟩ := h
  exact ⟨a, b, c, d, e, f, g, i, j, k, l, m, n, o, hr⟩

theorem State.DecodeOk.fillTo {s : State} (h : s.DecodeOk) {n : Nat} (hn : n ≤ 32) : (s.fillTo n).DecodeOk :=
  h.with_reader (h.reader_ok.fillTo hn).1

theorem State.DecodeOk.clear {s : State} (h : s.DecodeOk) {n : Nat} (hn : n ≤ s.reader.cnt) : (s.clear n).DecodeOk :=
  h.with_reader (h.reader_ok.clear hn).1

theorem State.RowOk.closeRow {s : State} (h : s.RowOk) (align : Bool) :
    (s.closeRow align).running = true → (s.closeRow align).DecodeOk ∧ (s.closeRow align).hphase = 0 := by
  rw [s.closeRow_eq align]
  simp only
  split
  · intro h
    rw [stop_running] at h
    cases h
  · rename_i hlast
    intro _
    refine ⟨?_, rfl⟩
    have hread : (if (align && s.rowAlign) = true then s.reader.byteAlign else s.reader).Ok s.src := by
      split
      · exact h.reader_ok.byteAlign.1
      · exact h.reader_ok
    refine ⟨h.width_pos, Nat.zero_le _, fun _ => h.width_pos, fun _ => ⟨rfl, rfl, rfl⟩, ⟨List.Pairwise.nil, by simp⟩,
      by simp, h.cur_ok, fun _ => rfl, by simp, by simp, ?_, by simp, ?_, ?_, hread⟩
    · intro hH
      have := h.rows_lt hH
      have hne : ¬ s.rows + 1 = s.imageHeight := fun he => hlast ⟨hH, he⟩
      show s.rows + 1 < s.imageHeight
      omega
    · intro hk
      have hk' : s.kind = some .g3_1d := hk
      show (if s.kind = some .g3_2d then LineMode.l2d else s.lineMode) = .l1d
      rw [hk', if_neg (by decide)]
      exact h.kind_1d hk'
    · intro hk
      have hk' : s.kind = some .g4 := hk
      show (if s.kind = some .g3_2d then LineMode.l2d else s.lineMode) = .l2d
      rw [hk', if_neg (by decide)]
      exact h.kind_g4 hk'

theorem State.RowOk.safe_closeRow {s : State} (h : s.RowOk) (align : Bool) : (Flow.go (s.closeRow align)).Safe :=
  fun hr => (h.closeRow align hr).1

/-! ### Padding (R192) and the end of the data (R193) -/

theorem State.padRow_cases {s : State} (h : s.RowOk) (hle : ∀ p ∈ s.cur, p ≤ s.a0) :
    (∃ t, s.padRow = .go t ∧ t.RowOk ∧ t.running = s.running ∧ t.cfg = s.cfg) ∨
    (∃ t, s.padRow = .halt t ∧ t.running = false) := by
  unfold State.padRow
  set s1 : State := if s.c = .black then { s.record s.a0 with c := .white } else s with hs1
  have hcur : LineOk s.imageWidth s1.cur := by
    rw [hs1]
    split
    · rw [State.record_eq]
      simp only
      split
      · exact h.cur_ok
      · exact (h.cur_ok.recordChange hle (by omega)).1
    · exact h.cur_ok
  have hshape : s1 = { s with cur := s1.cur, c := s1.c } := by
    rw [hs1]
    split
    · rw [State.record_eq]
    · rfl
  rcases s1.fill_cases .white s1.a0 s1.imageWidth with ⟨_, m, hm⟩ | ⟨_, hm⟩
  · refine Or.inl ⟨_, by simp only [hm, Flow.bind_go]; rfl, ?_, ?_, ?_⟩
    · rw [hshape]
      exact ⟨h.width_pos, hcur, h.rows_lt, h.kind_1d, h.kind_g4, h.reader_ok⟩
    · rw [hshape]; rfl
    · rw [hshape]; rfl
  · exact Or.inr ⟨s1.raiseDecodeCapacity, by simp only [hm]; rfl, by simp⟩

theorem State.onEOD_not_running {s : State} (h : s.DecodeOk) (fromMode : Bool) :
    (s.onEOD fromMode).state.running = false := by
  unfold State.onEOD
  split
  · exact stop_running _ _
  · split
    · rcases State.padRow_cases h.rowOk h.cur_le with ⟨t, ht, _⟩ | ⟨t, ht, hr⟩
      · rw [ht]; exact stop_running _ _
      · rw [ht]; exact hr
    · exact stop_running _ _

theorem State.DecodeOk.safe_onEOD {s : State} (h : s.DecodeOk) (fromMode : Bool) : (s.onEOD fromMode).Safe := by
  intro hr
  rw [State.onEOD_not_running h] at hr
  cases hr

theorem State.DecodeOk.dropRun_rowOk {s : State} (h : s.DecodeOk) : s.dropRun.RowOk :=
  ⟨h.width_pos, h.cur_ok, h.rows_lt, h.kind_1d, h.kind_g4, h.reader_ok⟩

/-! ### End of line (R190) -/

theorem State.DecodeOk.endOfBlock {s : State} (h : s.DecodeOk) : (Flow.go s.endOfBlock).Safe := by
  unfold State.endOfBlock
  split
  · simp only
    split
    · exact Flow.safe_stop _ _
    · exact fun _ => h.fillTo (by omega)
  · exact fun _ => h

theorem State.DecodeOk.safe_afterEOL {s : State} (h : s.DecodeOk) (hp : s.hphase = 0) : s.afterEOL.Safe := by
  unfold State.afterEOL
  split
  · rename_i hk
    have h1 := h.fillTo (n := 1) (by omega)
    simp only
    split
    · exact h1.safe_onEOD false
    · rename_i hc
      apply State.DecodeOk.endOfBlock
      obtain ⟨a, b, c, d, e, f, g, i, j, k, l, m, n, o, p⟩ := h1.clear (n := 1) (by omega)
      have hhp : (s.fillTo 1).hphase = 0 := hp
      have hkk : (s.fillTo 1).kind = some .g3_2d := hk
      refine ⟨a, b, c, d, e, f, g, i, j, ?_, l, m, ?_, ?_, p⟩
      · intro h0
        have h0' : 0 < (s.fillTo 1).hphase := h0
        omega
      · intro h1
        have h1' : (s.fillTo 1).kind = some .g3_1d := h1
        rw [hkk] at h1'
        cases h1'
      · intro h1
        have h1' : (s.fillTo 1).kind = some .g4 := h1
        rw [hkk] at h1'
        cases h1'
  · exact h.endOfBlock

theorem State.DecodeOk.safe_onEOL {s : State} (h : s.DecodeOk) : s.onEOL.Safe := by
  unfold State.onEOL
  have hset : (∃ t, s.dropRun.settleRow = .go t ∧ (t.running = true → t.DecodeOk ∧ t.hphase = 0)) ∨
      (∃ t, s.dropRun.settleRow = .halt t ∧ t.running = false) := by
    unfold State.settleRow
    by_cases ha : 0 < s.dropRun.a0
    · rw [if_pos ha]
      rcases State.padRow_cases h.dropRun_rowOk h.cur_le with ⟨t, ht, hrow, _⟩ | ⟨t, ht, hr⟩
      · rw [ht, Flow.bind_go]
        exact Or.inl ⟨_, rfl, hrow.closeRow false⟩
      · rw [ht, Flow.bind_halt]
        exact Or.inr ⟨t, rfl, hr⟩
    · rw [if_neg ha]
      refine Or.inl ⟨_, rfl, fun _ => ⟨?_, rfl⟩⟩
      have h0 : s.a0 = 0 := by simpa using ha
      refine ⟨h.width_pos, h.a0_le, fun _ => ?_, fun _ => ⟨h0, rfl, rfl⟩, ⟨List.Pairwise.nil, by simp⟩, by simp, h.ref_ok,
        fun _ => rfl, by simp, by simp, h.rows_lt, h.row_open, h.kind_1d, h.kind_g4, h.reader_ok⟩
      show s.a0 < s.imageWidth
      rw [h0]
      exact h.width_pos
  rcases hset with ⟨t, ht, hok⟩ | ⟨t, ht, hr⟩
  · rw [ht, Flow.bind_go]
    split
    · rename_i hrun
      exact (hok hrun).1.safe_afterEOL (hok hrun).2
    · rename_i hrun
      intro hr
      exact absurd hr hrun
  · rw [ht, Flow.bind_halt]
    intro h'
    change t.running = true at h'
    rw [hr] at h'
    cases h'

/-! ### The ERROR policy (R191) -/

theorem State.DecodeOk.safe_scan {s : State} (fuel : Nat) (h : s.DecodeOk) : (State.scanForEOL fuel s).Safe := by
  induction fuel generalizing s with
  | zero => exact fun _ => h
  | succ fuel ih =>
    unfold State.scanForEOL
    have h1 := h.fillTo (n := 12) (by omega)
    simp only
    split
    · exact (h1.with_reader h1.reader_ok.drain.1).safe_onEOD false
    · rename_i hav
      split
      · exact fun _ => h1
      · apply ih
        apply h1.clear
        have := avail_le_cnt (s.fillTo 12).reader 12
        split <;> omega

theorem State.DecodeOk.safe_onError {s : State} (h : s.DecodeOk) : s.onError.Safe := by
  unfold State.onError
  by_cases he : s.hasEol = true
  · rw [if_pos he]
    rcases State.padRow_cases h.dropRun_rowOk h.cur_le with ⟨t, ht, hrow, _⟩ | ⟨t, ht, hr⟩
    · rw [ht]
      simp only [Flow.bind_go]
      split
      · rename_i hrun
        exact (hrow.closeRow true hrun).1.safe_scan _
      · rename_i hrun
        intro hr
        exact absurd hr hrun
    · rw [ht]
      intro h'
      change t.running = true at h'
      rw [hr] at h'
      cases h'
  · rw [if_neg he]
    intro _
    have h0 : ({ s with afterZero := false } : State).DecodeOk := by
      obtain ⟨a, b, c, d, e, f, g, i, j, k, l, m, n, o, p⟩ := h
      exact ⟨a, b, c, d, e, f, g, i, j, k, l, m, n, o, p⟩
    show (State.skipBit { s with afterZero := false }).DecodeOk
    unfold State.skipBit
    simp only
    split
    · rename_i hc
      exact (h0.fillTo (by omega)).clear hc
    · exact h0.fillTo (by omega)

/-! ### Run codes (R181 to R184) -/

theorem State.DecodeOk.makeUp {s : State} (h : s.DecodeOk) (v : Nat) : (s.makeUp v).DecodeOk := by
  obtain ⟨a, b, c, d, e, f, g, i, j, k, l, m, n, o, p⟩ := h
  exact ⟨a, b, c, d, e, f, g, i, j, k, l, m, n, o, p⟩

theorem State.DecodeOk.markZero {s : State} (h : s.DecodeOk) : s.markZero.DecodeOk := by
  obtain ⟨a, b, c, d, e, f, g, i, j, k, l, m, n, o, p⟩ := h
  exact ⟨a, b, c, d, e, f, g, i, j, k, l, m, n, o, p⟩

/-- The colour's parity flips with the colour. -/
theorem parity_flip {n m : Nat} {k : Colour} (h : n % 2 = colourNumber k) (hm : m % 2 = (n + 1) % 2) :
    m % 2 = colourNumber (oppositeColour k) := by
  cases k <;> simp only [colourNumber, oppositeColour] at * <;> omega

theorem State.closeIfFull_safe {s : State} (hfull : s.imageWidth ≤ s.a0 → s.RowOk)
    (hrest : s.a0 < s.imageWidth → s.DecodeOk) : (Flow.go s.closeIfFull).Safe := by
  unfold State.closeIfFull
  split
  · rename_i h
    exact (hfull h).safe_closeRow true
  · rename_i h
    exact fun _ => hrest (by omega)

/-- What a run or a vertical mode leaves before the row test: pixels drawn up to `e`, `e` recorded, the colour flipped. -/
theorem State.DecodeOk.advanced {s : State} (h : s.DecodeOk) (e : Nat) (he : s.a0 ≤ e) (heW : e ≤ s.imageWidth) (m : Memory)
    (cap acc hp : Nat) (hhp : hp ≤ 2) (hmode : 0 < hp → s.lineMode = .l2d) (hlt : hp = 0 → e < s.imageWidth) :
    (({ s with acc := acc, hphase := hp, dst := m, rowOpen := true, capRows := cap }.moveTo e).record e).flipColour.DecodeOk := by
  have hle : ∀ x ∈ s.cur, x ≤ e := fun x hx => le_trans (h.cur_le x hx) he
  rw [State.record_eq]
  have hcur : LineOk s.imageWidth (if s.imageWidth ≤ e then s.cur else recordChange s.cur e) ∧
      ∀ x ∈ (if s.imageWidth ≤ e then s.cur else recordChange s.cur e), x ≤ e := by
    split
    · exact ⟨h.cur_ok, hle⟩
    · exact h.cur_ok.recordChange hle (by omega)
  refine ⟨h.width_pos, heW, hlt, (fun hs => by cases hs), hcur.1, hcur.2, h.ref_ok, ?_, hhp, hmode, h.rows_lt, fun _ => rfl,
    h.kind_1d, h.kind_g4, h.reader_ok⟩
  intro hl
  have hl' : e < s.imageWidth := hl
  show (if s.imageWidth ≤ e then s.cur else recordChange s.cur e).length % 2 = colourNumber (oppositeColour s.c)
  rw [if_neg (by omega)]
  exact parity_flip (h.parity (by omega)) (recordChange_parity _ _)

theorem State.DecodeOk.safe_terminate {s : State} (h : s.DecodeOk) (v : Nat) : (s.terminate v).Safe := by
  unfold State.terminate State.fillRun
  set n := s.acc + v
  set e := min (s.a0 + n) s.imageWidth with he
  have hrun : State.runEnd { s with acc := 0 } n = e := rfl
  simp only [hrun]
  rcases State.fill_cases { s with acc := 0 } s.c s.a0 e with ⟨_, m, hm⟩ | ⟨_, hm⟩
  · simp only [hm, Flow.bind_go]
    have hw := h.width_pos
    have ha := h.a0_le
    have hp2 := h.hphase_le
    unfold State.payRun
    simp only
    generalize hcap : State.grownRows { s with acc := 0 } = cap
    by_cases hz : s.hphase - 1 = 0
    · have hz' : ((({ s with acc := 0, dst := m, rowOpen := true, capRows := cap }.moveTo e).record e).flipColour).hphase - 1
          = 0 := by rw [State.record_eq]; exact hz
      rw [if_pos hz']
      refine State.closeIfFull_safe (fun _ => ?_) (fun hlt => ?_)
      · rw [State.record_eq]
        have hcur : LineOk s.imageWidth (if s.imageWidth ≤ e then s.cur else recordChange s.cur e) := by
          split
          · exact h.cur_ok
          · exact (h.cur_ok.recordChange (fun x hx => by have := h.cur_le x hx; omega) (by omega)).1
        exact ⟨h.width_pos, hcur, h.rows_lt, h.kind_1d, h.kind_g4, h.reader_ok⟩
      · have hlt' : e < s.imageWidth := by
          rw [State.record_eq] at hlt
          exact hlt
        have hok := h.advanced e (by omega) (by omega) m cap 0 (s.hphase - 1) (by omega) (by omega) (fun _ => hlt')
        rw [State.record_eq] at *
        exact hok
    · have hz' : ¬ ((({ s with acc := 0, dst := m, rowOpen := true, capRows := cap }.moveTo e).record e).flipColour).hphase - 1
          = 0 := by rw [State.record_eq]; exact hz
      rw [if_neg hz']
      intro _
      have hok := h.advanced e (by omega) (by omega) m cap 0 (s.hphase - 1) (by omega)
        (fun _ => h.hphase_mode (by omega)) (fun h0 => absurd h0 hz)
      rw [State.record_eq] at *
      exact hok
  · simp only [hm, Flow.bind_halt]
    exact Flow.safe_halt_raise _

theorem State.DecodeOk.safe_decodeRun {s : State} (h : s.DecodeOk) (k : Colour) : (s.decodeRun k).2.DecodeOk := by
  have h1 := h.fillTo (n := 13) (by omega)
  unfold State.decodeRun
  simp only
  split
  · exact h1
  · split
    · rename_i r hl
      apply h1.clear
      have := avail_le_cnt (s.fillTo 13).reader 13
      have := (lookupRun_some hl).2
      omega
    · exact h1

/-- The ZERO result needs twelve bits, so a bit can be consumed. -/
theorem State.decodeRun_zero {s : State} {k : Colour} (h : (s.decodeRun k).1 = .zero) :
    1 ≤ (s.decodeRun k).2.reader.cnt := by
  have hav := avail_le_cnt (s.fillTo 13).reader 13
  unfold State.decodeRun at h ⊢
  simp only at h ⊢
  by_cases h0 : (s.fillTo 13).reader.avail 13 = 0
  · rw [if_pos h0] at h
    cases h
  · rw [if_neg h0] at h ⊢
    cases hl : lookupRun k ((s.fillTo 13).reader.window 13) ((s.fillTo 13).reader.avail 13) with
    | some r =>
      rw [hl] at h
      simp only at h
      split at h <;> cases h
    | none =>
      simp only
      omega

theorem State.DecodeOk.safe_runStep {s : State} (h : s.DecodeOk) : s.runStep.Safe := by
  have h1 := h.safe_decodeRun s.c
  have hz := State.decodeRun_zero (s := s) (k := s.c)
  unfold State.runStep
  generalize s.decodeRun s.c = out at *
  obtain ⟨r, t⟩ := out
  cases r with
  | run v =>
    simp only at h1 ⊢
    split
    · unfold State.makeupRule
      split
      · exact h1.safe_onError
      · exact fun _ => h1.makeUp v
    · unfold State.terminatingRule
      split
      · exact h1.safe_onError
      · exact h1.safe_terminate v
  | eol => exact h1.safe_onEOL
  | zero => exact fun _ => (h1.clear (hz rfl)).markZero
  | error => exact h1.safe_onError
  | eod => exact h1.safe_onEOD false

/-! ### Mode codes (R223 to R229) -/

theorem State.DecodeOk.findB_ge {s : State} (h : s.DecodeOk) :
    s.a0 ≤ s.findB.1 ∧ s.findB.1 ≤ s.findB.2 ∧ s.findB.2 ≤ s.imageWidth := by
  obtain ⟨h1, h2⟩ := findChange_ge (b := s.atStart) (a0 := s.a0) (w := s.imageWidth)
    (l := s.ref.drop (colourNumber s.c)) (fun hs => (h.start hs).1) h.a0_le
    (h.ref_ok.1.sublist (List.drop_sublist _ _)) (fun p hp => h.ref_ok.2 p (List.mem_of_mem_drop hp))
  exact ⟨h1, h2, (s.findOn_le h.ref_ok).2⟩

theorem State.DecodeOk.safe_doPass {s : State} (h : s.DecodeOk) (hp : s.hphase = 0) : s.doPass.Safe := by
  obtain ⟨hb1, hb2, hb3⟩ := h.findB_ge
  unfold State.doPass
  simp only
  rw [min_eq_left hb3]
  rcases s.fill_cases s.c s.a0 s.findB.2 with ⟨_, m, hm⟩ | ⟨_, hm⟩
  · rw [hm, Flow.bind_go]
    refine State.closeIfFull_safe (fun _ => ?_) (fun hlt => ?_)
    · exact ⟨h.width_pos, h.cur_ok, h.rows_lt, h.kind_1d, h.kind_g4, h.reader_ok⟩
    · have hlt' : s.findB.2 < s.imageWidth := hlt
      refine ⟨h.width_pos, hb3, fun _ => hlt', (fun hs => by cases hs), h.cur_ok, ?_, h.ref_ok, ?_, h.hphase_le, h.hphase_mode,
        h.rows_lt, fun _ => rfl, h.kind_1d, h.kind_g4, h.reader_ok⟩
      · intro x hx
        have := h.cur_le x hx
        show x ≤ s.findB.2
        omega
      · intro _
        exact h.parity (h.a0_lt hp)
  · rw [hm, Flow.bind_halt]
    exact Flow.safe_halt_raise _

theorem State.verticalTarget_bounds (s : State) (d : Int) (h : s.a0 ≤ s.imageWidth) :
    s.a0 ≤ s.verticalTarget d ∧ s.verticalTarget d ≤ s.imageWidth := by
  unfold State.verticalTarget
  omega

theorem State.DecodeOk.safe_doVertical {s : State} (h : s.DecodeOk) (d : Int) : (s.doVertical d).Safe := by
  obtain ⟨hv1, hv2⟩ := s.verticalTarget_bounds d h.a0_le
  unfold State.doVertical
  simp only
  generalize s.verticalTarget d = e at *
  rcases s.fill_cases s.c s.a0 e with ⟨_, m, hm⟩ | ⟨_, hm⟩
  · rw [hm, Flow.bind_go]
    generalize s.grownRows = cap
    refine State.closeIfFull_safe (fun _ => ?_) (fun hlt => ?_)
    · rw [State.record_eq]
      have hcur : LineOk s.imageWidth (if s.imageWidth ≤ e then s.cur else recordChange s.cur e) := by
        split
        · exact h.cur_ok
        · exact (h.cur_ok.recordChange (fun x hx => by have := h.cur_le x hx; omega) (by omega)).1
      exact ⟨h.width_pos, hcur, h.rows_lt, h.kind_1d, h.kind_g4, h.reader_ok⟩
    · have hlt' : e < s.imageWidth := by
        rw [State.record_eq] at hlt
        exact hlt
      exact h.advanced e hv1 hv2 m cap s.acc s.hphase h.hphase_le h.hphase_mode (fun _ => hlt')
  · rw [hm, Flow.bind_halt]
    exact Flow.safe_halt_raise _

theorem State.DecodeOk.safe_doExt1D {s : State} (h : s.DecodeOk) : s.doExt1D.Safe := by
  have h1 := h.fillTo (n := 12) (by omega)
  have hav := avail_le_cnt (s.fillTo 12).reader 12
  unfold State.doExt1D
  simp only
  split
  · exact fun _ => h1.clear (by omega)
  · split
    · exact (h1.clear (by omega)).safe_onEOL
    · exact h1.safe_onError

theorem State.decodeMode_same (s : State) : ∃ r, s.decodeMode.2 = s.setReader r := by
  unfold State.decodeMode
  simp only
  split
  · exact ⟨_, rfl⟩
  · split
    · exact ⟨_, rfl⟩
    · exact ⟨_, rfl⟩

theorem State.DecodeOk.safe_decodeMode {s : State} (h : s.DecodeOk) : s.decodeMode.2.DecodeOk := by
  have h1 := h.fillTo (n := 7) (by omega)
  unfold State.decodeMode
  simp only
  split
  · exact h1
  · split
    · rename_i r hl
      apply h1.clear
      have := avail_le_cnt (s.fillTo 7).reader 7
      have := (lookupMode_some hl).2
      omega
    · exact h1

theorem State.DecodeOk.safe_modeStep {s : State} (h : s.DecodeOk) (hp : s.hphase = 0) (hm : s.lineMode = .l2d) :
    s.modeStep.Safe := by
  have h1 := h.safe_decodeMode
  obtain ⟨r0, hr0⟩ := s.decodeMode_same
  have hp1 : s.decodeMode.2.hphase = 0 := by rw [hr0]; exact hp
  have hm1 : s.decodeMode.2.lineMode = .l2d := by rw [hr0]; exact hm
  unfold State.modeStep
  generalize s.decodeMode = out at *
  obtain ⟨r, t⟩ := out
  simp only at h1 hp1 hm1
  cases r with
  | pass => exact h1.safe_doPass hp1
  | horizontal =>
    intro _
    have ha := h1.a0_lt hp1
    obtain ⟨a, b, c, d, e, f, g, i, j, k, l, m, n, o, p⟩ := h1
    exact ⟨a, b, fun _ => ha, d, e, f, g, i, le_refl _, fun _ => hm1, l, m, n, o, p⟩
  | vertical d => exact h1.safe_doVertical d
  | ext2d => exact h1.safe_onError
  | ext1d => exact h1.safe_doExt1D
  | error => exact h1.safe_onError
  | eod => exact h1.safe_onEOD true

/-- A decode step keeps the invariants of the job (R29, R32). -/
theorem State.DecodeOk.safe_decodeStep {s : State} (h : s.DecodeOk) : s.decodeStep.Safe := by
  unfold State.decodeStep
  split
  · exact h.safe_runStep
  · rename_i hc
    have h1 : ¬ 0 < s.hphase := fun hh => hc (Or.inr hh)
    have h2 : ¬ s.lineMode = .l1d := fun hh => hc (Or.inl hh)
    refine h.safe_modeStep (by omega) ?_
    cases hm : s.lineMode with
    | l1d => exact absurd hm h2
    | l2d => rfl

end Sys2Proof.Machine
end

