-- ==== Sys2Proof/Laws/Jobs.lean ====
section
/-! SUPPORT. The encode jobs keep the encoder's invariants and never stop the machine (`spec/44_encoder.md` R251, R265;
`spec/10_state.md` R26, R36), and START opens a job that has its invariants (`spec/45_jobs.md` R282, R283). -/

namespace Sys2Proof.Machine

@[simp] theorem State.faulted_running (s : State) (rows : Nat) : (s.faulted rows).running = false := by
  unfold State.faulted
  cases hs : s.running
  · exact hs
  · rfl

theorem State.Overflowed.running {s t : State} {b : List Bool} (h : s.Overflowed b t) : t.running = false := by
  rw [h.same, State.faulted_running]

/-- A flow that either goes on with a property or has left RUN. -/
def Flow.GoesOn (P : State → Prop) (w : Flow) : Prop :=
  (∃ t, w = .go t ∧ P t) ∨ (∃ t, w = .halt t ∧ t.running = false)

theorem Flow.GoesOn.bind {P Q : State → Prop} {w : Flow} {f : State → Flow} (h : w.GoesOn P)
    (hf : ∀ t, P t → (f t).GoesOn Q) : (w.bind f).GoesOn Q := by
  rcases h with ⟨t, rfl, ht⟩ | ⟨t, rfl, ht⟩
  · exact hf t ht
  · exact Or.inr ⟨t, rfl, ht⟩

/-- The registers that an emission keeps. -/
structure State.SameButOutput (s t : State) : Prop where
  same : t = { s with dst := t.dst, writer := t.writer }
  writer_ok : t.writer.Ok
  dst_wf : t.dst.wf = true

theorem State.Wrote.sameButOutput {s t : State} {b : List Bool} (h : s.Wrote b t) : s.SameButOutput t :=
  ⟨h.same, h.writer_ok, h.dst_wf⟩

theorem State.SameButOutput.refl {s : State} (hw : s.writer.Ok) (hd : s.dst.wf = true) : s.SameButOutput s := ⟨rfl, hw, hd⟩

theorem State.SameButOutput.trans {s t u : State} (h : s.SameButOutput t) (h' : t.SameButOutput u) : s.SameButOutput u where
  same := by
    have h1 := h'.same
    have h2 := h.same
    rw [h1, h2]
  writer_ok := h'.writer_ok
  dst_wf := h'.dst_wf

theorem State.goesOn_of_cases {s : State} {w : Flow} {b : List Bool}
    (h : (s.RoomForBits b.length ∧ ∃ t, w = .go t ∧ s.Wrote b t) ∨
      (¬ s.RoomForBits b.length ∧ ∃ t, w = .halt t ∧ s.Overflowed b t)) : w.GoesOn s.SameButOutput := by
  rcases h with ⟨_, t, ht, hw⟩ | ⟨_, t, ht, ho⟩
  · exact Or.inl ⟨t, ht, hw.sameButOutput⟩
  · exact Or.inr ⟨t, ht, ho.running⟩

theorem State.goesOn_alignRow {s : State} (hw : s.writer.Ok) (hd : s.dst.wf = true) :
    s.alignRow.GoesOn s.SameButOutput := by
  unfold State.alignRow
  split
  · exact State.goesOn_of_cases (s.putAlign_cases hw hd)
  · exact Or.inl ⟨s, rfl, .refl hw hd⟩

theorem State.goesOn_putEOFB {s : State} (hw : s.writer.Ok) (hd : s.dst.wf = true) :
    s.putEOFB.GoesOn s.SameButOutput := by
  unfold State.putEOFB
  split
  · exact State.goesOn_of_cases (State.emit_bind hw (State.putCode_cases _ s hw hd)
      fun t ht => State.putCode_cases _ t ht.writer_ok ht.dst_wf)
  · exact Or.inl ⟨s, rfl, .refl hw hd⟩

/-- The end of an encode job leaves RUN. -/
theorem State.finishEncode_not_running {s : State} (hw : s.writer.Ok) (hd : s.dst.wf = true) :
    s.finishEncode.state.running = false := by
  unfold State.finishEncode State.finish
  rcases State.goesOn_of_cases (s.putAlign_cases hw hd) with ⟨t, ht, _⟩ | ⟨t, ht, hr⟩
  · rw [ht]; rfl
  · rw [ht]; exact hr

theorem stride_covers (s : State) (y : Nat) : 8 * ((8 * s.stride * y + s.imageWidth + 7) / 8) = 8 * s.stride * (y + 1) := by
  have h : s.stride = (s.imageWidth + 7) / 8 := rfl
  have h1 : 8 * s.stride * y = 8 * (s.stride * y) := Nat.mul_assoc _ _ _
  have h2 : 8 * s.stride * (y + 1) = 8 * (s.stride * y) + 8 * s.stride := by ring
  rw [h1, h2]
  omega

theorem imageWidth_le_stride (s : State) : s.imageWidth ≤ 8 * s.stride := by
  unfold State.stride
  omega

/-- Row `y` lies in the raster. -/
theorem State.EncodeOk.row_in {s : State} (h : s.EncodeOk) : 8 * s.stride * (s.y + 1) ≤ 8 * s.reader.len := by
  have h1 : s.stride * (s.y + 1) ≤ s.stride * s.imageHeight := Nat.mul_le_mul_left _ h.y_lt
  have h2 := h.raster
  rw [h.reader_len, Nat.mul_assoc]
  omega

/-- Where the raster reader stands at a row start: the whole row is left. -/
theorem State.EncodeOk.row_left {s : State} (h : s.EncodeOk) (hst : s.atRowStart = true) :
    s.reader.position = 8 * s.stride * s.y ∧ s.imageWidth ≤ (s.reader.rest s.src).length := by
  have hp := h.position
  rw [if_pos hst, if_pos (Or.inl hst), Nat.add_zero] at hp
  refine ⟨hp, ?_⟩
  rw [Reader.length_rest, hp]
  have h1 := h.row_in
  have h2 := imageWidth_le_stride s
  have h3 : 8 * s.stride * (s.y + 1) = 8 * s.stride * s.y + 8 * s.stride := by ring
  omega

/-! ### ENCODE_G4 (R251) -/

/-- The state in which the mode selection of a step is made: `cur` scanned, the reader at the end of the row. -/
structure State.RowScanned (s t : State) : Prop where
  same : t = { s with a0 := t.a0, atStart := t.atStart, c := t.c, cur := t.cur, reader := t.reader }
  a0_lt : t.a0 < s.imageWidth
  cur_ok : LineOk s.imageWidth t.cur
  reader_ok : t.reader.Ok s.src
  position : t.reader.position = 8 * s.stride * (s.y + 1)
  len : t.reader.len = s.reader.len
  rev : t.reader.rev = s.reader.rev

theorem State.EncodeOk.startRowG4 {s : State} (h : s.EncodeOk) (hj : s.cfg.job = .encodeG4) :
    ∃ t, s.startRowG4 = some t ∧ s.RowScanned t := by
  unfold State.startRowG4
  by_cases hst : s.atRowStart = true
  · rw [if_pos hst]
    obtain ⟨hp, hl⟩ := h.row_left hst
    obtain ⟨r', hr', h1, h2, h3, h4⟩ := s.scanRow_spec h.reader_ok hl
    rw [hr']
    refine ⟨_, rfl, ⟨rfl, h.width_pos, ?_, h1, ?_, h3, h4⟩⟩
    · obtain ⟨c1, c2⟩ := changes_lineOk .white 0 (((s.reader.rest s.src).take s.imageWidth).map s.colourOf)
      refine ⟨c1, fun p hp' => ?_⟩
      have := (c2 p hp').2
      rw [List.length_map, List.length_take] at this
      omega
    · show r'.position = _
      rw [h2, hp, stride_covers]
  · rw [if_neg hst]
    have hp := h.position
    rw [if_neg hst, if_pos hj, if_pos (Or.inr hj), Nat.add_zero] at hp
    refine ⟨s, rfl, ⟨rfl, ?_, h.cur_ok hj, h.reader_ok, hp, rfl, rfl⟩⟩
    unfold State.atRowStart at hst
    rw [Bool.or_eq_true, not_or, decide_eq_true_iff] at hst
    omega

theorem State.stepTarget_le (s : State) (hc : LineOk s.imageWidth s.cur) (hr : LineOk s.imageWidth s.ref) :
    s.stepTarget ≤ s.imageWidth := by
  have h1 : s.findA.1 ≤ s.imageWidth ∧ s.findA.2 ≤ s.imageWidth := s.findOn_le hc
  have h2 : s.findB.2 ≤ s.imageWidth := (s.findOn_le hr).2
  unfold State.stepTarget
  split
  · exact h2
  · exact h1.2
  · exact h1.1

theorem State.EncodeOk.jobStepG4 {s : State} (h : s.EncodeOk) (hj : s.cfg.job = .encodeG4) (hd : s.dst.wf = true) :
    ∃ t, s.jobStepG4 = .next t ∧ (t.running = true → t.cfg = s.cfg ∧ t.src = s.src ∧ t.EncodeOk) := by
  obtain ⟨t, ht, hsc⟩ := h.startRowG4 hj
  unfold State.jobStepG4
  rw [ht]
  simp only
  refine ⟨_, Flow.out_eq _, ?_⟩
  have hrow := hsc.same
  have htw : t.writer.Ok := by rw [hrow]; exact h.writer_ok
  have htd : t.dst.wf = true := by rw [hrow]; exact hd
  have htref : LineOk t.imageWidth t.ref := by rw [hrow]; exact h.ref_ok hj
  have htcur : LineOk t.imageWidth t.cur := by
    have : t.imageWidth = s.imageWidth := by rw [hrow]; rfl
    rw [this]; exact hsc.cur_ok
  have htgt := t.stepTarget_le htcur htref
  rcases t.encodeStepG4_cases htw htd with ⟨_, u, hu, hstep⟩ | ⟨_, u, hstep, hov⟩
  · rw [hstep, Flow.bind_go]
    have husame := hu.same
    -- the state after the mode's codes
    generalize hv : ({ u with
      a1 := t.findA.1, a2 := t.findA.2, b1 := t.findB.1, b2 := t.findB.2
      a0 := t.stepTarget, c := t.stepColour, atStart := false } : State) = v
    have hvW : v.imageWidth = s.imageWidth := by rw [← hv, husame, hrow]; rfl
    have hva : v.a0 = t.stepTarget := by rw [← hv]
    have hvcfg : v.cfg = s.cfg := by rw [← hv, husame, hrow]
    have hvsrc : v.src = s.src := by rw [← hv, husame, hrow]
    have hvy : v.y = s.y := by rw [← hv, husame, hrow]
    have hvcur : v.cur = t.cur := by rw [← hv, husame]
    have hvref : v.ref = s.ref := by rw [← hv, husame, hrow]
    have hvrd : v.reader = t.reader := by rw [← hv, husame]
    have hvst : v.atStart = false := by rw [← hv]
    have hvw : v.writer.Ok := by rw [← hv]; exact hu.writer_ok
    have hvd : v.dst.wf = true := by rw [← hv]; exact hu.dst_wf
    have htW : t.imageWidth = s.imageWidth := by rw [hrow]; rfl
    have hvH : v.imageHeight = s.imageHeight := by
      show v.cfg.height.toNat = _
      rw [hvcfg]; rfl
    have hvS : v.stride = s.stride := by
      show (v.imageWidth + 7) / 8 = _
      rw [hvW]; rfl
    by_cases hfull : v.imageWidth ≤ v.a0
    · rw [if_pos hfull]
      unfold State.endRowG4
      rcases State.goesOn_alignRow hvw hvd with ⟨w, hw, hso⟩ | ⟨w, hw, hr⟩
      · rw [hw, Flow.bind_go]
        have hws := hso.same
        simp only
        split
        · rcases State.goesOn_putEOFB (s := { w with ref := w.cur, cur := [], y := w.y + 1 }) hso.writer_ok hso.dst_wf with
            ⟨z, hz, hzo⟩ | ⟨z, hz, hr⟩
          · rw [hz, Flow.bind_go]
            intro hr
            rw [State.finishEncode_not_running hzo.writer_ok hzo.dst_wf] at hr
            cases hr
          · rw [hz, Flow.bind_halt]
            intro hr'
            change z.running = true at hr'
            rw [hr] at hr'
            cases hr'
        · rename_i hnl
          have hnl' : ¬ w.imageHeight ≤ w.y + 1 := hnl
          intro _
          simp only [Flow.state_go]
          have hwcfg : w.cfg = s.cfg := by rw [hws]; exact hvcfg
          have hwsrc : w.src = s.src := by rw [hws]; exact hvsrc
          refine ⟨hwcfg, hwsrc, ?_⟩
          have hwW : w.imageWidth = s.imageWidth := by rw [hws]; exact hvW
          have hwH : w.imageHeight = s.imageHeight := by rw [hws]; exact hvH
          have hwS : w.stride = s.stride := by rw [hws]; exact hvS
          have hwy : w.y = s.y := by rw [hws]; exact hvy
          have hwcur : w.cur = t.cur := by rw [hws]; exact hvcur
          have hwrd : w.reader = t.reader := by rw [hws]; exact hvrd
          have hwa : w.a0 = t.stepTarget := by rw [hws]; exact hva
          have hwst : w.atStart = false := by rw [hws]; exact hvst
          have hrs : State.atRowStart { w with ref := w.cur, cur := [], y := w.y + 1 } = true := by
            unfold State.atRowStart
            rw [Bool.or_eq_true, decide_eq_true_iff]
            right
            show w.imageWidth ≤ w.a0
            rw [hwW, hwa, ← hva, ← hvW]
            exact hfull
          refine ⟨?_, ?_, ?_, ?_, ?_, ?_, hso.writer_ok, ?_, ?_, ?_, ?_⟩
          · show 0 < w.imageWidth
            rw [hwW]; exact h.width_pos
          · show w.y + 1 < w.imageHeight
            omega
          · show w.stride * w.imageHeight ≤ w.cfg.srcLen.toNat
            rw [hwS, hwH, hwcfg]; exact h.raster
          · show w.reader.len = w.cfg.srcLen.toNat
            rw [hwrd, hwcfg, hsc.len]; exact h.reader_len
          · show w.reader.rev = false
            rw [hwrd, hsc.rev]; exact h.reader_rev
          · show w.reader.Ok w.src
            rw [hwrd, hwsrc]; exact hsc.reader_ok
          · rw [if_pos hrs, if_pos (Or.inl hrs)]
            show w.reader.position = 8 * w.stride * (w.y + 1) + 0
            rw [hwrd, hwS, hwy, hsc.position]
            rfl
          · show w.a0 ≤ w.imageWidth
            rw [hwa, hwW, ← htW]; exact htgt
          · intro _
            exact ⟨List.Pairwise.nil, by simp⟩
          · intro _
            show LineOk w.imageWidth w.cur
            rw [hwW, hwcur]; exact hsc.cur_ok
      · rw [hw, Flow.bind_halt]
        intro hr'
        change w.running = true at hr'
        rw [hr] at hr'
        cases hr'
    · rw [if_neg hfull]
      intro _
      simp only [Flow.state_go]
      refine ⟨hvcfg, hvsrc, ?_⟩
      have hrs : v.atRowStart = false := by
        unfold State.atRowStart
        rw [hvst, Bool.false_or, decide_eq_false_iff_not]
        exact hfull
      have hvj : v.cfg.job = .encodeG4 := by rw [hvcfg]; exact hj
      have hposv : v.reader.position = 8 * v.stride *
          (if v.atRowStart = true then v.y else if v.cfg.job = .encodeG4 then v.y + 1 else v.y) +
          (if v.atRowStart = true ∨ v.cfg.job = .encodeG4 then 0 else v.a0) := by
        rw [hrs, if_neg (by simp), if_pos hvj, if_pos (Or.inr hvj), hvrd, hvS, hvy, hsc.position]
        rfl
      refine ⟨?_, ?_, ?_, ?_, ?_, ?_, hvw, hposv, ?_, fun _ => ?_, fun _ => ?_⟩
      · rw [hvW]; exact h.width_pos
      · rw [hvy, hvH]; exact h.y_lt
      · show v.stride * v.imageHeight ≤ v.cfg.srcLen.toNat
        rw [hvS, hvH, hvcfg]; exact h.raster
      · show v.reader.len = v.cfg.srcLen.toNat
        rw [hvrd, hvcfg, hsc.len]; exact h.reader_len
      · rw [hvrd, hsc.rev]; exact h.reader_rev
      · rw [hvrd, hvsrc]; exact hsc.reader_ok
      · rw [hva, hvW, ← htW]; exact htgt
      · rw [hvW, hvcur]; exact hsc.cur_ok
      · rw [hvW, hvref]; exact h.ref_ok hj
  · rw [hstep, Flow.bind_halt]
    intro hr'
    change u.running = true at hr'
    rw [hov.running] at hr'
    cases hr'

/-! ### ENCODE_G31D (R265, R266) -/

/-- The position field of the invariants, inside a row of an ENCODE_G31D job. -/
theorem State.position_inside {v : State} (hrs : v.atRowStart = false) (hj : ¬ v.cfg.job = .encodeG4)
    (hp : v.reader.position = 8 * v.stride * v.y + v.a0) :
    v.reader.position = 8 * v.stride *
      (if v.atRowStart then v.y else if v.cfg.job = .encodeG4 then v.y + 1 else v.y) +
      (if v.atRowStart ∨ v.cfg.job = .encodeG4 then 0 else v.a0) := by
  rw [hrs, if_neg (by simp), if_neg hj, if_neg (by simp [hj])]
  exact hp

theorem State.EncodeOk.jobStepG31D {s : State} (h : s.EncodeOk) (hj : s.cfg.job ≠ .encodeG4) (hd : s.dst.wf = true) :
    s.jobStepG31D.state.running = true →
      s.jobStepG31D.state.cfg = s.cfg ∧ s.jobStepG31D.state.src = s.src ∧ s.jobStepG31D.state.EncodeOk := by
  -- the state the run starts from
  obtain ⟨x, k, hst, hxlt, hpos⟩ : ∃ x k, s.startRowG31D = { s with a0 := x, c := k } ∧ x < s.imageWidth ∧
      s.reader.position = 8 * s.stride * s.y + x := by
    unfold State.startRowG31D
    by_cases hrs : s.atRowStart = true
    · rw [if_pos hrs]
      exact ⟨0, .white, rfl, h.width_pos, (h.row_left hrs).1⟩
    · rw [if_neg hrs]
      have hp := h.position
      rw [if_neg hrs, if_neg hj, if_neg (by simp [hrs, hj])] at hp
      unfold State.atRowStart at hrs
      rw [Bool.or_eq_true, not_or, decide_eq_true_iff] at hrs
      exact ⟨s.a0, s.c, rfl, by omega, hp⟩
  unfold State.jobStepG31D
  rw [hst]
  simp only
  set s1 : State := { s with a0 := x, c := k } with hs1
  have hok1 : s1.reader.Ok s1.src := h.reader_ok
  obtain ⟨hn, hc⟩ := s1.countPixels_spec k (s1.imageWidth - x) hok1
  have hnle : (s1.countPixels k (s1.imageWidth - x)).1 ≤ s1.imageWidth - x := by
    rw [hn]
    refine le_trans (runLength_le _ _) ?_
    rw [List.length_take]
    exact Nat.min_le_left _ _
  rw [← hn] at hc
  generalize s1.countPixels k (s1.imageWidth - x) = out at *
  obtain ⟨n, t⟩ := out
  simp only at hn hc hnle ⊢
  have ht := hc.same
  have htw : t.writer.Ok := by rw [ht]; exact h.writer_ok
  have htd : t.dst.wf = true := by rw [ht]; exact hd
  rcases State.goesOn_of_cases (State.putRun_cases k n t htw htd) with ⟨u, hu, huo⟩ | ⟨u, hu, hr⟩
  · rw [hu, Flow.bind_go]
    have hus := huo.same
    have hua : u.a0 = x := by rw [hus, ht]; rfl
    have huc : u.cfg = s.cfg := by rw [hus, ht]; rfl
    have husrc : u.src = s.src := by rw [hus, ht]; rfl
    have huy : u.y = s.y := by rw [hus, ht]; rfl
    have hurd : u.reader = t.reader := by rw [hus]
    have hW : u.imageWidth = s.imageWidth := by
      show u.cfg.width.toNat = _
      rw [huc]; rfl
    have hH : u.imageHeight = s.imageHeight := by
      show u.cfg.height.toNat = _
      rw [huc]; rfl
    have hS : u.stride = s.stride := by
      show (u.imageWidth + 7) / 8 = _
      rw [hW]; rfl
    have hm : s.reader.Moved s.src n u.reader := by rw [hurd]; exact hc.moved
    have hnle' : n ≤ s.imageWidth - x := hnle
    have hraster : u.stride * u.imageHeight ≤ u.cfg.srcLen.toNat := by rw [hS, hH, huc]; exact h.raster
    have hlen : u.reader.len = u.cfg.srcLen.toNat := by rw [hm.len, huc]; exact h.reader_len
    have hrev : u.reader.rev = false := by rw [hm.rev]; exact h.reader_rev
    have hjob : ¬ u.cfg.job = .encodeG4 := by rw [huc]; exact hj
    by_cases hfull : u.imageWidth ≤ u.a0 + n
    · have hfull' : (State.mk u.cfg u.status u.reader u.writer (u.a0 + n) false (oppositeColour u.c) u.acc u.hphase
          u.afterZero u.lineMode u.rows u.rowOpen u.capRows u.y u.a1 u.a2 u.b1 u.b2 u.cur u.ref u.src u.dst u.result
          u.commands u.resets).imageWidth ≤ u.a0 + n := hfull
      rw [if_pos hfull']
      unfold State.endRowG31D State.endRasterRow
      obtain ⟨hbok, hbpos⟩ := hm.ok.byteAlign
      have hal := State.goesOn_alignRow (s := State.setReader { u with
        a0 := u.a0 + n, c := oppositeColour u.c, atStart := false } u.reader.byteAlign) huo.writer_ok huo.dst_wf
      rcases hal with ⟨w, hw, hwo⟩ | ⟨w, hw, hr⟩
      · simp only [] at hw ⊢
        rw [hw, Flow.bind_go]
        have hws := hwo.same
        have hwcfg : w.cfg = s.cfg := by rw [hws]; exact huc
        have hwy : w.y = s.y := by rw [hws]; exact huy
        have hwa : w.a0 = u.a0 + n := by rw [hws]; rfl
        have hwrd : w.reader = u.reader.byteAlign := by rw [hws]; rfl
        have hwsrc : w.src = s.src := by rw [hws]; exact husrc
        have hwW : w.imageWidth = s.imageWidth := by
          show w.cfg.width.toNat = _
          rw [hwcfg]; rfl
        have hwH : w.imageHeight = s.imageHeight := by
          show w.cfg.height.toNat = _
          rw [hwcfg]; rfl
        have hwS : w.stride = s.stride := by
          show (w.imageWidth + 7) / 8 = _
          rw [hwW]; rfl
        split
        · intro hr
          rw [State.finishEncode_not_running (s := { w with y := w.y + 1 }) hwo.writer_ok hwo.dst_wf] at hr
          cases hr
        · rename_i hnl
          have hnl' : ¬ w.imageHeight ≤ w.y + 1 := hnl
          intro _
          simp only [Flow.state_go]
          refine ⟨hwcfg, hwsrc, ?_⟩
          have hrs : State.atRowStart { w with y := w.y + 1 } = true := by
            unfold State.atRowStart
            rw [Bool.or_eq_true, decide_eq_true_iff]
            right
            show w.imageWidth ≤ w.a0
            rw [hwW, hwa, ← hW]
            exact hfull
          have hwj : ¬ w.cfg.job = .encodeG4 := by rw [hwcfg]; exact hj
          refine ⟨?_, ?_, ?_, ?_, ?_, ?_, hwo.writer_ok, ?_, ?_, fun he => absurd he hwj, fun he => absurd he hwj⟩
          · show 0 < w.imageWidth
            rw [hwW]; exact h.width_pos
          · show w.y + 1 < w.imageHeight
            omega
          · show w.stride * w.imageHeight ≤ w.cfg.srcLen.toNat
            rw [hwS, hwH, hwcfg]; exact h.raster
          · show w.reader.len = w.cfg.srcLen.toNat
            rw [hwrd, hwcfg]
            show u.reader.len = _
            rw [hm.len]; exact h.reader_len
          · show w.reader.rev = false
            rw [hwrd]; exact hrev
          · show w.reader.Ok w.src
            rw [hwrd, hwsrc]; exact hbok
          · rw [if_pos hrs, if_pos (Or.inl hrs)]
            show w.reader.position = 8 * w.stride * (w.y + 1) + 0
            rw [hwrd, hwS, hwy, hbpos, hm.position, hpos]
            have : 8 * s.stride * s.y + x + n = 8 * s.stride * s.y + s.imageWidth := by
              rw [hua, hW] at hfull
              omega
            rw [this, stride_covers]
            rfl
          · show w.a0 ≤ w.imageWidth
            rw [hwa, hwW, hua]
            omega
      · simp only [] at hw ⊢
        rw [hw, Flow.bind_halt]
        intro hr'
        change w.running = true at hr'
        rw [hr] at hr'
        cases hr'
    · have hfull' : ¬ (State.mk u.cfg u.status u.reader u.writer (u.a0 + n) false (oppositeColour u.c) u.acc u.hphase
          u.afterZero u.lineMode u.rows u.rowOpen u.capRows u.y u.a1 u.a2 u.b1 u.b2 u.cur u.ref u.src u.dst u.result
          u.commands u.resets).imageWidth ≤ u.a0 + n := hfull
      rw [if_neg hfull']
      intro _
      refine ⟨huc, husrc, ?_⟩
      have hrs : State.atRowStart { u with a0 := u.a0 + n, c := oppositeColour u.c, atStart := false } = false := by
        unfold State.atRowStart
        rw [Bool.false_or, decide_eq_false_iff_not]
        exact hfull
      refine ⟨?_, ?_, hraster, hlen, hrev, ?_, huo.writer_ok, ?_, ?_, fun he => absurd he hjob, fun he => absurd he hjob⟩
      · show 0 < u.imageWidth
        rw [hW]; exact h.width_pos
      · show u.y < u.imageHeight
        rw [huy, hH]; exact h.y_lt
      · show u.reader.Ok u.src
        rw [husrc]; exact hm.ok
      · refine State.position_inside hrs hjob ?_
        show u.reader.position = 8 * u.stride * u.y + (u.a0 + n)
        rw [hm.position, hpos, hS, huy, hua]
        omega
      · show u.a0 + n ≤ u.imageWidth
        omega
  · rw [hu, Flow.bind_halt]
    intro hr'
    change u.running = true at hr'
    rw [hr] at hr'
    cases hr'

/-! ### START (R282, R283) -/

theorem Reader.Ok.fresh (src : Memory) (len : Nat) (rev : Bool) :
    Reader.Ok src { buf := 0, cnt := 0, consumed := 0, len := len, rev := rev } := by
  refine ⟨by simp, by simp, by simp, fun j _ => by simp⟩

/-- A START that is taken leaves a job that has its invariants, or a fault. -/
theorem State.startJob_ok {s : State} (hs : s.running = false) : s.startJob.JobOk := by
  unfold State.JobOk State.startJob
  rw [if_neg (by rw [hs]; simp)]
  simp only
  split
  · intro h; cases h
  rename_i hcfg
  split
  · intro h; cases h
  rename_i hras
  intro _
  have hc : State.configFaulty s = false := eq_false_of_ne_true hcfg
  have hr : State.rasterTooSmall s = false := eq_false_of_ne_true hras
  unfold State.configFaulty at hc
  simp only [Bool.or_eq_false_iff, decide_eq_false_iff_not, Bool.and_eq_false_iff, not_not] at hc
  obtain ⟨⟨⟨hW, _⟩, _⟩, hH⟩ := hc
  have hWpos : 0 < s.imageWidth := Nat.pos_of_ne_zero hW
  unfold State.jobInit
  constructor
  · intro hdec
    have hdec' : s.cfg.job.isDecode = true := by
      split at hdec <;> exact hdec
    have hi : (s.setStatus (clearedStatus s.status.state)).cfg.job.isDecode = true := hdec'
    rw [if_pos hi]
    refine ⟨hWpos, Nat.zero_le _, fun _ => hWpos, fun _ => ⟨rfl, rfl, rfl⟩, ⟨List.Pairwise.nil, by simp [State.initDecode, State.initCommon]⟩,
      by simp [State.initDecode, State.initCommon], ⟨List.Pairwise.nil, by simp [State.initDecode, State.initCommon]⟩, fun _ => rfl, by simp [State.initDecode], by simp [State.initDecode], ?_, by simp [State.initDecode, State.initCommon], ?_,
      ?_, Reader.Ok.fresh _ _ _⟩
    · intro hne
      exact Nat.pos_of_ne_zero hne
    · intro hk
      have hk' : s.kind = some .g3_1d := hk
      show (if s.kind = some .g3_1d then LineMode.l1d else LineMode.l2d) = .l1d
      rw [if_pos hk']
    · intro hk
      have hk' : s.kind = some .g4 := hk
      show (if s.kind = some .g3_1d then LineMode.l1d else LineMode.l2d) = .l2d
      rw [hk', if_neg (by decide)]
  · intro henc
    have henc' : s.cfg.job.isDecode = false := by
      split at henc <;> exact henc
    have hi : ¬ (s.setStatus (clearedStatus s.status.state)).cfg.job.isDecode = true := by
      show ¬ s.cfg.job.isDecode = true
      rw [henc']; simp
    rw [if_neg hi]
    have hHpos : 0 < s.imageHeight := by
      rcases hH with h | h
      · exact Nat.pos_of_ne_zero h
      · rw [h] at henc'; cases henc'
    unfold State.rasterTooSmall at hr
    rw [henc', Bool.not_false, Bool.true_and, decide_eq_false_iff_not] at hr
    have hrs : ∀ st, State.atRowStart (State.setStatus (State.initEncode (State.initCommon
        (s.setStatus (clearedStatus s.status.state)))) st) = true := fun _ => rfl
    refine ⟨hWpos, hHpos, ?_, rfl, ?_, Reader.Ok.fresh _ _ _, ?_, ?_, Nat.zero_le _,
      fun _ => ⟨List.Pairwise.nil, by simp [State.initEncode, State.initCommon]⟩,
      fun _ => ⟨List.Pairwise.nil, by simp [State.initEncode, State.initCommon]⟩⟩
    · show s.stride * s.imageHeight ≤ s.srcLen
      omega
    · show (s.cfg.job.isDecode && s.lsb2msb) = false
      rw [henc']; rfl
    · refine ⟨by simp [State.initEncode], fun j _ _ => by simp [State.initEncode]⟩
    · rw [if_pos (hrs _), if_pos (Or.inl (hrs _))]
      rfl

end Sys2Proof.Machine
end

