-- ==== Sys2Proof/Laws/Kept.lean ====
section
/-! SUPPORT. What no operation of the block touches: CFG (`spec/10_state.md` R40), SRC (`spec/20_memory.md` R60), the
host's commands and the RESET counter; and every operation keeps the canonical form of DST. -/

namespace Sys2Proof.Machine

/-- `t` has the CFG, SRC, commands and RESET counter of `s`, and a canonical DST if `s` has one. -/
structure State.Kept (s t : State) : Prop where
  cfg : t.cfg = s.cfg
  src : t.src = s.src
  commands : t.commands = s.commands
  resets : t.resets = s.resets
  dst_wf : s.dst.wf = true → t.dst.wf = true

theorem State.Kept.refl (s : State) : s.Kept s := ⟨rfl, rfl, rfl, rfl, id⟩

theorem State.Kept.trans {s t u : State} (h : s.Kept t) (h' : t.Kept u) : s.Kept u :=
  ⟨h'.cfg.trans h.cfg, h'.src.trans h.src, h'.commands.trans h.commands, h'.resets.trans h.resets,
    fun hd => h'.dst_wf (h.dst_wf hd)⟩

/-- A flow keeps them, whether it ended or not. -/
abbrev State.KeptBy (s : State) (w : Flow) : Prop := s.Kept w.state

theorem State.KeptBy.bind {s : State} {w : Flow} {f : State → Flow} (h : s.KeptBy w) (hf : ∀ t : State, t.KeptBy (f t)) :
    s.KeptBy (w.bind f) := by
  cases w with
  | go t => exact State.Kept.trans h (hf t)
  | halt t => exact h

theorem State.Kept.after {s t : State} {w : Flow} (h : s.Kept t) (h' : t.KeptBy w) : s.KeptBy w := State.Kept.trans h h'

/-! ### The cursors -/

theorem State.kept_setReader (s : State) (r : Reader) : s.Kept (s.setReader r) := ⟨rfl, rfl, rfl, rfl, id⟩

theorem State.kept_fillTo (s : State) (n : Nat) : s.Kept (s.fillTo n) := s.kept_setReader _

theorem State.kept_clear (s : State) (n : Nat) : s.Kept (s.clear n) := s.kept_setReader _

theorem State.kept_setWriter (s : State) (w : Writer) : s.Kept (s.setWriter w) := ⟨rfl, rfl, rfl, rfl, id⟩

theorem State.kept_setStatus (s : State) (t : Status) : s.Kept (s.setStatus t) := ⟨rfl, rfl, rfl, rfl, id⟩

theorem State.kept_setResult (s : State) (r : OpResult) : s.Kept (s.setResult r) := ⟨rfl, rfl, rfl, rfl, id⟩

theorem State.kept_stop (s : State) (reason : StopCode) : s.Kept (s.stop reason) := by
  unfold State.stop
  split
  · exact s.kept_setStatus _
  · exact s.kept_setResult _

theorem State.kept_raise (s : State) (code : FaultCode) (rows used : Nat) : s.Kept (s.raise code rows used) := by
  unfold State.raise
  split
  · exact s.kept_setStatus _
  · exact s.kept_setResult _

theorem State.kept_raiseEncodeCapacity (s : State) : s.Kept s.raiseEncodeCapacity := s.kept_raise _ _ _

theorem State.kept_moveTo (s : State) (e : Nat) : s.Kept (s.moveTo e) := ⟨rfl, rfl, rfl, rfl, id⟩

theorem State.kept_flipColour (s : State) : s.Kept s.flipColour := ⟨rfl, rfl, rfl, rfl, id⟩

theorem State.kept_takeTag (s : State) (tag : Bool) : s.Kept (s.takeTag tag) := ⟨rfl, rfl, rfl, rfl, id⟩

theorem State.kept_skipBit (s : State) : s.Kept s.skipBit := by
  unfold State.skipBit
  simp only
  split
  · exact (s.kept_fillTo 1).trans (State.kept_clear _ _)
  · exact s.kept_fillTo 1

theorem State.keptBy_putBit (s : State) (v : Bool) : s.KeptBy (s.putBit v) := by
  unfold State.putBit
  simp only
  split
  · split
    · exact State.Kept.trans (s.kept_setWriter _) (State.kept_raiseEncodeCapacity _)
    · exact ⟨rfl, rfl, rfl, rfl, fun h => Memory.wf_write _ _ h⟩
  · exact ⟨rfl, rfl, rfl, rfl, id⟩

theorem State.keptBy_putBits (v n : Nat) (s : State) : s.KeptBy (State.putBits v n s) := by
  induction n generalizing s with
  | zero => exact .refl s
  | succ n ih => exact State.KeptBy.bind (s.keptBy_putBit _) fun t => ih t

theorem State.keptBy_putAlign (s : State) : s.KeptBy s.putAlign := by
  unfold State.putAlign
  split
  · exact State.keptBy_putBits _ _ s
  · exact .refl s

theorem State.keptBy_finish (s : State) : s.KeptBy s.finish :=
  State.KeptBy.bind s.keptBy_putAlign fun t => t.kept_setStatus _

/-! ### The pixel store and the row events -/

theorem State.keptBy_openRow (s : State) : s.KeptBy s.openRow := by
  unfold State.openRow
  split
  · exact .refl s
  · split
    · split
      · exact s.kept_raise _ _ _
      · exact ⟨rfl, rfl, rfl, rfl, fun h => (Memory.fillBytes_spec _ _ _ h).1⟩
    · exact ⟨rfl, rfl, rfl, rfl, fun h => (Memory.fillBytes_spec _ _ _ h).1⟩

theorem State.keptBy_fill (s : State) (k : Colour) (x0 x1 : Nat) : s.KeptBy (s.fill k x0 x1) :=
  State.KeptBy.bind s.keptBy_openRow fun _ => ⟨rfl, rfl, rfl, rfl, fun h => (Memory.drawPixels_spec _ _ _ _ h).1⟩

theorem State.kept_record (s : State) (p : Nat) : s.Kept (s.record p) := by
  unfold State.record
  split
  · exact .refl s
  · exact ⟨rfl, rfl, rfl, rfl, id⟩

theorem State.keptBy_fillRun (s : State) (n : Nat) : s.KeptBy (s.fillRun n) :=
  State.KeptBy.bind (s.keptBy_fill _ _ _) fun t =>
    (t.kept_moveTo _).trans ((State.kept_record _ _).trans (State.kept_flipColour _))

theorem State.kept_closeRow (s : State) (align : Bool) : s.Kept (s.closeRow align) := by
  have key : ∀ (u : State) (p : Prop) [Decidable p], s.Kept u → s.Kept (if p then u.stop .height else u) := by
    intro u p _ hu
    split
    · exact hu.trans (u.kept_stop _)
    · exact hu
  have h1 : ∀ (b : Bool), s.Kept (if b = true then s.nextRow.setReader s.nextRow.reader.byteAlign else s.nextRow) := by
    intro b
    cases b <;> exact ⟨rfl, rfl, rfl, rfl, id⟩
  exact key _ _ (h1 (align && s.nextRow.rowAlign))

theorem State.kept_closeIfFull (s : State) : s.Kept s.closeIfFull := by
  unfold State.closeIfFull
  split
  · exact s.kept_closeRow true
  · exact .refl s

theorem State.keptBy_padRow (s : State) : s.KeptBy s.padRow := by
  unfold State.padRow
  have h1 : s.Kept (if s.c = .black then { s.record s.a0 with c := .white } else s) := by
    split
    · exact (s.kept_record s.a0).trans ⟨rfl, rfl, rfl, rfl, id⟩
    · exact .refl s
  exact h1.after (State.KeptBy.bind (State.keptBy_fill _ _ _ _) fun t => ⟨rfl, rfl, rfl, rfl, id⟩)

theorem State.keptBy_onEOD (s : State) (fromMode : Bool) : s.KeptBy (s.onEOD fromMode) := by
  unfold State.onEOD
  split
  · exact s.kept_stop _
  · refine State.KeptBy.bind ?_ fun t => t.kept_stop _
    split
    · exact State.KeptBy.bind s.keptBy_padRow fun t => ⟨rfl, rfl, rfl, rfl, id⟩
    · exact .refl s

theorem State.kept_endOfBlock (s : State) : s.Kept s.endOfBlock := by
  unfold State.endOfBlock
  split
  · simp only
    split
    · exact ((s.kept_fillTo 12).trans (State.kept_clear _ _)).trans (State.kept_stop _ _)
    · exact s.kept_fillTo 12
  · exact .refl s

theorem State.keptBy_afterEOL (s : State) : s.KeptBy s.afterEOL := by
  unfold State.afterEOL
  split
  · simp only
    split
    · exact (s.kept_fillTo 1).after (State.keptBy_onEOD _ _)
    · refine (s.kept_fillTo 1).after (State.Kept.after (State.kept_takeTag _ (decide ((s.fillTo 1).reader.window 1 = 1))) ?_)
      exact State.kept_endOfBlock _
  · exact s.kept_endOfBlock

theorem State.keptBy_onEOL (s : State) : s.KeptBy s.onEOL := by
  unfold State.onEOL
  refine State.KeptBy.bind ?_ fun t => ?_
  · refine State.Kept.after (t := s.dropRun) ⟨rfl, rfl, rfl, rfl, id⟩ ?_
    unfold State.settleRow
    split
    · exact State.KeptBy.bind (State.keptBy_padRow _) fun t => t.kept_closeRow false
    · exact ⟨rfl, rfl, rfl, rfl, id⟩
  · split
    · exact t.keptBy_afterEOL
    · exact .refl t

theorem State.keptBy_scanForEOL (fuel : Nat) (s : State) : s.KeptBy (State.scanForEOL fuel s) := by
  induction fuel generalizing s with
  | zero => exact .refl s
  | succ fuel ih =>
    unfold State.scanForEOL
    simp only
    split
    · exact ((s.kept_fillTo 12).trans (State.kept_setReader _ _)).after (State.keptBy_onEOD _ _)
    · split
      · exact s.kept_fillTo 12
      · exact ((s.kept_fillTo 12).trans (State.kept_clear _ _)).after (ih _)

theorem State.keptBy_onError (s : State) : s.KeptBy s.onError := by
  unfold State.onError
  split
  · refine State.KeptBy.bind ?_ fun t => ?_
    · exact State.Kept.after (t := s.dropRun) ⟨rfl, rfl, rfl, rfl, id⟩
        (State.KeptBy.bind (State.keptBy_padRow _) fun t => t.kept_closeRow true)
    · split
      · exact State.keptBy_scanForEOL _ t
      · exact .refl t
  · exact State.Kept.trans (t := { s with afterZero := false }) ⟨rfl, rfl, rfl, rfl, id⟩ (State.kept_skipBit _)

/-! ### The decode step -/

theorem State.keptBy_terminate (v : Nat) (s : State) : s.KeptBy (s.terminate v) := by
  refine State.Kept.after (t := { s with acc := 0 }) ⟨rfl, rfl, rfl, rfl, id⟩ ?_
  refine State.KeptBy.bind (State.keptBy_fillRun _ _) fun t => ?_
  show t.Kept t.payRun
  unfold State.payRun
  simp only
  split
  · exact State.Kept.trans (t := { t with hphase := t.hphase - 1 }) ⟨rfl, rfl, rfl, rfl, id⟩ (State.kept_closeIfFull _)
  · exact ⟨rfl, rfl, rfl, rfl, id⟩

theorem State.keptBy_terminatingRule (v : Nat) (s : State) : s.KeptBy (s.terminatingRule v) := by
  unfold State.terminatingRule
  split
  · exact s.keptBy_onError
  · exact s.keptBy_terminate v

theorem State.keptBy_makeupRule (v : Nat) (s : State) : s.KeptBy (s.makeupRule v) := by
  unfold State.makeupRule
  split
  · exact s.keptBy_onError
  · exact ⟨rfl, rfl, rfl, rfl, id⟩

theorem State.keptBy_zeroRule (s : State) : s.KeptBy s.zeroRule := ⟨rfl, rfl, rfl, rfl, id⟩

theorem State.kept_decodeRun (s : State) (k : Colour) : s.Kept (s.decodeRun k).2 := by
  unfold State.decodeRun
  simp only
  split
  · exact s.kept_fillTo 13
  · split
    · exact (s.kept_fillTo 13).trans (State.kept_clear _ _)
    · exact s.kept_fillTo 13

theorem State.kept_decodeMode (s : State) : s.Kept s.decodeMode.2 := by
  unfold State.decodeMode
  simp only
  split
  · exact s.kept_fillTo 7
  · split
    · exact (s.kept_fillTo 7).trans (State.kept_clear _ _)
    · exact s.kept_fillTo 7

theorem State.keptBy_runStep (s : State) : s.KeptBy s.runStep := by
  have h := s.kept_decodeRun s.c
  unfold State.runStep
  generalize s.decodeRun s.c = out at *
  obtain ⟨r, t⟩ := out
  refine h.after ?_
  cases r with
  | run v =>
    simp only
    split
    · exact t.keptBy_makeupRule v
    · exact t.keptBy_terminatingRule v
  | eol => exact t.keptBy_onEOL
  | zero => exact (t.kept_clear 1).after (State.keptBy_zeroRule _)
  | error => exact t.keptBy_onError
  | eod => exact t.keptBy_onEOD false

theorem State.keptBy_doPass (s : State) : s.KeptBy s.doPass :=
  State.KeptBy.bind (s.keptBy_fill _ _ _) fun t =>
    State.Kept.trans (t := { t with a0 := min s.findB.2 s.imageWidth, atStart := false }) ⟨rfl, rfl, rfl, rfl, id⟩
      (State.kept_closeIfFull _)

theorem State.keptBy_doVertical (d : Int) (s : State) : s.KeptBy (s.doVertical d) :=
  State.KeptBy.bind (s.keptBy_fill _ _ _) fun t => (t.kept_moveTo _).trans
    ((State.kept_record _ _).trans ((State.kept_flipColour _).trans (State.kept_closeIfFull _)))

theorem State.keptBy_doExt1D (s : State) : s.KeptBy s.doExt1D := by
  unfold State.doExt1D
  simp only
  split
  · exact (s.kept_fillTo 12).trans (State.kept_clear _ _)
  · split
    · exact ((s.kept_fillTo 12).trans (State.kept_clear _ _)).after (State.keptBy_onEOL _)
    · exact (s.kept_fillTo 12).after (State.keptBy_onError _)

theorem State.keptBy_modeStep (s : State) : s.KeptBy s.modeStep := by
  have h := s.kept_decodeMode
  unfold State.modeStep
  generalize s.decodeMode = out at *
  obtain ⟨r, t⟩ := out
  refine h.after ?_
  cases r with
  | pass => exact t.keptBy_doPass
  | horizontal => exact ⟨rfl, rfl, rfl, rfl, id⟩
  | vertical d => exact t.keptBy_doVertical d
  | ext2d => exact t.keptBy_onError
  | ext1d => exact t.keptBy_doExt1D
  | error => exact t.keptBy_onError
  | eod => exact t.keptBy_onEOD true

theorem State.keptBy_decodeStep (s : State) : s.KeptBy s.decodeStep := by
  unfold State.decodeStep
  split
  · exact s.keptBy_runStep
  · exact s.keptBy_modeStep

/-! ### The encoder -/

theorem State.keptBy_putCode (code : Option (Nat × Nat)) (s : State) : s.KeptBy (s.putCode code) := by
  unfold State.putCode
  split
  · exact State.keptBy_putBits _ _ s
  · exact .refl s

theorem State.keptBy_putMakeups (k : Colour) (fuel m : Nat) (s : State) : s.KeptBy (State.putMakeups k fuel m s) := by
  induction fuel generalizing m s with
  | zero => exact .refl s
  | succ fuel ih =>
    unfold State.putMakeups
    split
    · exact State.KeptBy.bind (s.keptBy_putCode _) fun t => ih _ t
    · split
      · exact s.keptBy_putCode _
      · exact .refl s

theorem State.keptBy_putRun (k : Colour) (n : Nat) (s : State) : s.KeptBy (State.putRun k n s) :=
  State.KeptBy.bind (State.keptBy_putMakeups _ _ _ s) fun t => t.keptBy_putCode _

theorem State.kept_countLoop (b : Bool) (fuel left n : Nat) (s : State) : s.Kept (State.countLoop b fuel left n s).2 := by
  induction fuel generalizing left n s with
  | zero => exact .refl s
  | succ fuel ih =>
    have h1 : ∀ (t : State) (p : Prop) [Decidable p] (k : Nat), s.Kept t → s.Kept (if p then t.fillTo k else t) := by
      intro t p _ k ht
      split
      · exact ht.trans (t.kept_fillTo k)
      · exact ht
    unfold State.countLoop
    split
    · exact .refl s
    simp only
    have h24 := h1 s (24 ≤ left) 24 (State.Kept.refl s)
    generalize (if 24 ≤ left then s.fillTo 24 else s) = s1 at *
    split
    · exact (h24.trans (s1.kept_clear _)).trans (ih _ _ _)
    have h8 := h1 s1 (8 ≤ left) 8 h24
    generalize (if 8 ≤ left then s1.fillTo 8 else s1) = s2 at *
    split
    · exact (h8.trans (s2.kept_clear _)).trans (ih _ _ _)
    split
    · exact ((h8.trans (s2.kept_fillTo 1)).trans (State.kept_clear _ _)).trans (ih _ _ _)
    · exact h8.trans (s2.kept_fillTo 1)

theorem State.kept_countPixels (s : State) (k : Colour) (max : Nat) : s.Kept (s.countPixels k max).2 :=
  State.kept_countLoop _ _ _ _ s

theorem State.kept_scanLoop {fuel x : Nat} {k : Colour} {s t : State} (h : State.scanLoop fuel x k s = some t) :
    s.Kept t := by
  induction fuel generalizing x k s with
  | zero =>
    unfold State.scanLoop at h
    split at h
    · cases h; exact State.Kept.refl _
    · cases h
  | succ fuel ih =>
    unfold State.scanLoop at h
    split at h
    · cases h; exact State.Kept.refl _
    · have hc := s.kept_countPixels k (s.imageWidth - x)
      generalize s.countPixels k (s.imageWidth - x) = out at *
      obtain ⟨n, u⟩ := out
      simp only at h hc
      refine hc.trans ?_
      split at h
      · exact State.Kept.trans (t := { u with cur := u.cur ++ [x + n] }) ⟨rfl, rfl, rfl, rfl, id⟩ (ih h)
      · exact ih h

theorem State.keptBy_encodeStepG4 (s : State) : s.KeptBy s.encodeStepG4 := by
  unfold State.encodeStepG4
  refine State.KeptBy.bind ?_ fun t => ⟨rfl, rfl, rfl, rfl, id⟩
  refine State.Kept.after (t := { s with a1 := s.findA.1, a2 := s.findA.2, b1 := s.findB.1, b2 := s.findB.2 })
    ⟨rfl, rfl, rfl, rfl, id⟩ ?_
  split
  · exact State.KeptBy.bind (State.keptBy_putCode _ _) fun t => ⟨rfl, rfl, rfl, rfl, id⟩
  · exact State.KeptBy.bind (State.keptBy_putCode _ _) fun t => State.KeptBy.bind (t.keptBy_putRun _ _) fun u =>
      State.KeptBy.bind (u.keptBy_putRun _ _) fun v => ⟨rfl, rfl, rfl, rfl, id⟩
  · exact State.KeptBy.bind (State.keptBy_putCode _ _) fun t => ⟨rfl, rfl, rfl, rfl, id⟩
  · exact .refl _
  · exact .refl _

theorem State.keptBy_alignRow (s : State) : s.KeptBy s.alignRow := by
  unfold State.alignRow
  split
  · exact s.keptBy_putAlign
  · exact .refl s

theorem State.keptBy_finishEncode (s : State) : s.KeptBy s.finishEncode :=
  State.KeptBy.bind s.keptBy_finish fun t => t.kept_setStatus _

theorem State.keptBy_endRowG4 (s : State) : s.KeptBy s.endRowG4 := by
  refine State.KeptBy.bind s.keptBy_alignRow fun t => ?_
  refine State.Kept.after (t := { t with ref := t.cur, cur := [], y := t.y + 1 }) ⟨rfl, rfl, rfl, rfl, id⟩ ?_
  simp only
  split
  · refine State.KeptBy.bind ?_ fun u => u.keptBy_finishEncode
    unfold State.putEOFB
    split
    · exact State.KeptBy.bind (State.keptBy_putCode _ _) fun u => u.keptBy_putCode _
    · exact .refl _
  · exact .refl _

theorem State.kept_jobStepG4 {s t : State} (h : s.jobStepG4 = .next t) : s.Kept t := by
  unfold State.jobStepG4 at h
  have hrow : ∀ u, s.startRowG4 = some u → s.Kept u := by
    intro u hu
    unfold State.startRowG4 at hu
    split at hu
    · unfold State.scanRow at hu
      cases hs : State.scanLoop (s.imageWidth + 1) 0 .white { s with cur := [] } with
      | none => rw [hs] at hu; cases hu
      | some v =>
        rw [hs] at hu
        cases hu
        exact State.Kept.trans (t := v) (State.Kept.trans (t := { s with cur := [] }) ⟨rfl, rfl, rfl, rfl, id⟩
          (State.kept_scanLoop hs)) ⟨rfl, rfl, rfl, rfl, id⟩
    · cases hu; exact .refl s
  cases hs : s.startRowG4 with
  | none => rw [hs] at h; cases h
  | some u =>
    rw [hs] at h
    simp only [Flow.out] at h
    cases h
    refine (hrow u hs).after (State.KeptBy.bind u.keptBy_encodeStepG4 fun v => ?_)
    split
    · exact v.keptBy_endRowG4
    · exact .refl v

theorem State.keptBy_endRasterRow (s : State) : s.KeptBy s.endRasterRow :=
  (s.kept_setReader _).after (State.keptBy_alignRow _)

theorem State.keptBy_endRowG31D (s : State) : s.KeptBy s.endRowG31D := by
  refine State.KeptBy.bind s.keptBy_endRasterRow fun u => ?_
  refine State.Kept.after (t := { u with y := u.y + 1 }) ⟨rfl, rfl, rfl, rfl, id⟩ ?_
  simp only
  split
  · exact State.keptBy_finishEncode _
  · exact .refl _

theorem State.keptBy_jobStepG31D (s : State) : s.KeptBy s.jobStepG31D := by
  have h0 : s.Kept s.startRowG31D := by
    unfold State.startRowG31D
    split
    · exact ⟨rfl, rfl, rfl, rfl, id⟩
    · exact .refl s
  refine h0.after ?_
  unfold State.jobStepG31D
  simp only
  refine (State.kept_countPixels s.startRowG31D s.startRowG31D.c (s.startRowG31D.imageWidth - s.startRowG31D.a0)).after ?_
  generalize State.countPixels s.startRowG31D s.startRowG31D.c (s.startRowG31D.imageWidth - s.startRowG31D.a0) = r
  refine State.KeptBy.bind (State.keptBy_putRun _ _ _) fun t => ?_
  refine State.Kept.after (t := { t with a0 := t.a0 + r.1, c := oppositeColour t.c, atStart := false })
    ⟨rfl, rfl, rfl, rfl, id⟩ ?_
  split
  · exact State.keptBy_endRowG31D _
  · exact .refl _

theorem State.keptBy_rowLoopG31D (fuel x : Nat) (k : Colour) (s : State) : s.KeptBy (State.rowLoopG31D fuel x k s) := by
  induction fuel generalizing x k s with
  | zero => exact .refl s
  | succ fuel ih =>
    unfold State.rowLoopG31D
    split
    · exact .refl s
    · have hc := s.kept_countPixels k (s.imageWidth - x)
      generalize s.countPixels k (s.imageWidth - x) = out at *
      obtain ⟨n, u⟩ := out
      exact hc.after (State.KeptBy.bind (State.keptBy_putRun _ _ _) fun v => ih _ _ v)

theorem State.keptBy_encodeRowG31D (s : State) : s.KeptBy s.encodeRowG31D :=
  State.KeptBy.bind (State.keptBy_rowLoopG31D _ _ _ s) fun t => t.keptBy_endRasterRow

/-! ### START -/

theorem State.kept_startJob (s : State) : s.Kept s.startJob := by
  unfold State.startJob State.jobInit
  split
  · exact .refl s
  · simp only
    split
    · exact ⟨rfl, rfl, rfl, rfl, id⟩
    · split
      · exact ⟨rfl, rfl, rfl, rfl, id⟩
      · split
        · exact ⟨rfl, rfl, rfl, rfl, id⟩
        · exact ⟨rfl, rfl, rfl, rfl, id⟩

end Sys2Proof.Machine
end

