-- ==== Sys2Proof/Laws/Windows.lean ====
section
/-! SUPPORT. The windows of the lookups against the bits of the stream (R161 to R169), the code tables as a whole (R102, R172,
R173), the resynchronising scan and `FindB` as searches. -/

namespace Sys2Proof.Machine

theorem codeword_refill {s : State} (h : s.reader.Ok s.src) {n len : Nat} (hn : n ≤ 32) (hl : len ≤ n)
    (hb : len ≤ 8 * s.reader.len - s.reader.position) :
    len ≤ (s.fillTo n).reader.cnt ∧ ∃ rd, s.reader.Moved s.src len rd ∧ (s.fillTo n).clear len = { s with reader := rd } := by
  have h1 := h.moved_fillTo hn
  have h2 := (h.fillTo hn).2.2.2.2.2 len hl
  have hc : len ≤ (s.reader.fillTo s.src n).cnt := by
    rw [Nat.min_eq_left hb] at h2; omega
  refine ⟨hc, (s.reader.fillTo s.src n).clear len, ?_, rfl⟩
  have := h1.trans (h1.ok.moved_clear hc)
  rwa [Nat.zero_add] at this

theorem bitsValue_bitsOf (p m : Nat) (hp : p < 2 ^ m) : bitsValue (bitsOf p m) = p := by
  apply Nat.eq_of_testBit_eq
  intro i
  rw [testBit_bitsValue]
  unfold bitsOf
  by_cases hi : i < m
  · rw [List.getElem?_reverse (by simpa using hi)]
    simp only [List.length_map, List.length_range, List.getElem?_map]
    rw [List.getElem?_range (by omega)]
    simp only [Option.map_some, Option.getD_some]
    congr 1
    omega
  · rw [List.getElem?_eq_none (by simp; omega), Nat.testBit_eq_false_of_lt]
    · rfl
    · exact Nat.lt_of_lt_of_le hp (Nat.pow_le_pow_right (by omega) (by omega))

theorem bitsOf_zero (n : Nat) : bitsOf 0 n = List.replicate n false := by
  unfold bitsOf
  rw [List.eq_replicate_iff]
  simp

theorem ahead_prefix {src : Memory} {r : Reader} {m : Nat} (p : Nat) (hp : p < 2 ^ m)
    (hm : m ≤ 8 * r.len - r.position) :
    r.ahead src m = p ↔ (bitsOf p m).isPrefixOf (r.rest src) = true := by
  have hlen : ((r.rest src).take m).length = m := by rw [List.length_take, Reader.length_rest]; omega
  unfold Reader.ahead
  rw [hlen, Nat.sub_self, pow_zero, mul_one, List.isPrefixOf_iff_prefix, List.prefix_iff_eq_take, length_bitsOf]
  constructor
  · intro h
    exact bitsValue_inj (by rw [length_bitsOf, hlen]) (by rw [bitsValue_bitsOf p m hp, h])
  · intro h
    rw [← h, bitsValue_bitsOf p m hp]

theorem window_shift (r : Reader) {n len : Nat} (h : len ≤ n) (hn : n ≤ 40) : r.window n >>> (n - len) = r.window len := by
  unfold Reader.window
  rw [← Nat.shiftRight_add]
  congr 1
  omega

/-- A codeword fits the window of a filled buffer iff it begins the stream. -/
theorem fits_iff {s : State} (h : s.reader.Ok s.src) {n len : Nat} (hn : n ≤ 32) (hl : len ≤ n) (p : Nat) (hp : p < 2 ^ len) :
    codewordFits n ((s.fillTo n).reader.window n) ((s.fillTo n).reader.avail n) p len =
      (bitsOf p len).isPrefixOf (s.reader.rest s.src) := by
  have hav := (h.fillTo hn).2.2.2.2.2 n (Nat.le_refl _)
  have hw := h.window_fillTo hn hl
  unfold codewordFits
  rw [window_shift _ hl (by omega)]
  have e1 : (s.fillTo n).reader.avail n = min n (8 * s.reader.len - s.reader.position) := hav
  have e2 : (s.fillTo n).reader.window len = s.reader.ahead s.src len := hw
  rw [e1, e2]
  by_cases hlen : len ≤ 8 * s.reader.len - s.reader.position
  · rw [decide_eq_true (show len ≤ min n _ by omega), Bool.true_and]
    have := ahead_prefix (src := s.src) p hp hlen
    by_cases hc : s.reader.ahead s.src len = p
    · rw [decide_eq_true hc, this.mp hc]
    · rw [decide_eq_false hc]
      symm
      rw [Bool.eq_false_iff]
      exact fun hh => hc (this.mpr hh)
  · rw [decide_eq_false (show ¬ len ≤ min n _ by omega), Bool.false_and]
    symm
    rw [Bool.eq_false_iff]
    intro hh
    have := (List.isPrefixOf_iff_prefix.mp hh).length_le
    rw [length_bitsOf, Reader.length_rest] at this
    omega

theorem avail_zero_iff {s : State} (h : s.reader.Ok s.src) {n : Nat} (hn : n ≤ 32) (h0 : 0 < n) :
    (s.fillTo n).reader.avail n = 0 ↔ s.reader.rest s.src = [] := by
  have hav := (h.fillTo hn).2.2.2.2.2 n (Nat.le_refl _)
  have e1 : (s.fillTo n).reader.avail n = min n (8 * s.reader.len - s.reader.position) := hav
  rw [e1, ← List.length_eq_zero_iff, Reader.length_rest]
  omega

/-- A full window of a filled buffer is a pattern iff the pattern begins the stream. -/
theorem window_iff {s : State} (h : s.reader.Ok s.src) {n : Nat} (hn : n ≤ 32) (p : Nat) (hp : p < 2 ^ n) :
    ((s.fillTo n).reader.avail n = n ∧ (s.fillTo n).reader.window n = p) ↔
      (bitsOf p n).isPrefixOf (s.reader.rest s.src) = true := by
  have := fits_iff h (n := n) (len := n) hn (Nat.le_refl _) p hp
  rw [← this]
  unfold codewordFits
  rw [Bool.and_eq_true, decide_eq_true_iff, decide_eq_true_iff, Nat.sub_self, Nat.shiftRight_zero]
  have hle : (s.fillTo n).reader.avail n ≤ n := Nat.min_le_right _ _
  constructor
  · rintro ⟨a, b⟩; exact ⟨by omega, b⟩
  · rintro ⟨a, b⟩; exact ⟨by omega, b⟩

theorem runSet_patterns (k : Colour) : ∀ r ∈ runSet k, r.len ≤ 13 ∧ r.pattern < 2 ^ r.len := by
  cases k <;> decide

theorem modeSet_patterns : ∀ r ∈ modeSet, r.len ≤ 7 ∧ r.pattern < 2 ^ r.len := by decide

theorem runSet_prefix_unique (k : Colour) : ∀ r ∈ runSet k, ∀ r' ∈ runSet k, r.len ≤ r'.len →
    r'.pattern >>> (r'.len - r.len) = r.pattern → r = r' := by
  cases k <;> decide +kernel

theorem modeSet_prefix_unique : ∀ r ∈ modeSet, ∀ r' ∈ modeSet, r.len ≤ r'.len →
    r'.pattern >>> (r'.len - r.len) = r.pattern → r = r' := by
  decide +kernel

theorem find?_congr_mem {α : Type} {p q : α → Bool} {l : List α} (h : ∀ a ∈ l, p a = q a) : l.find? p = l.find? q := by
  induction l with
  | nil => rfl
  | cons a l ih =>
    rw [List.find?_cons, List.find?_cons, h a (by simp), ih fun b hb => h b (by simp [hb])]

theorem lookupRun_ahead {s : State} (h : s.reader.Ok s.src) (k : Colour) :
    lookupRun k ((s.fillTo 13).reader.window 13) ((s.fillTo 13).reader.avail 13) = runRowAhead k (s.reader.rest s.src) :=
  find?_congr_mem fun r hr => fits_iff h (by omega) (runSet_patterns k r hr).1 _ (runSet_patterns k r hr).2

theorem lookupMode_ahead {s : State} (h : s.reader.Ok s.src) :
    lookupMode ((s.fillTo 7).reader.window 7) ((s.fillTo 7).reader.avail 7) = modeRowAhead (s.reader.rest s.src) :=
  find?_congr_mem fun r hr => fits_iff h (by omega) (modeSet_patterns r hr).1 _ (modeSet_patterns r hr).2

theorem zeroWindow_ahead {s : State} (h : s.reader.Ok s.src) :
    zeroWindow ((s.fillTo 13).reader.window 13) ((s.fillTo 13).reader.avail 13) = fillAhead (s.reader.rest s.src) := by
  have := fits_iff h (n := 13) (len := 12) (by omega) (by omega) 0 (by omega)
  rw [bitsOf_zero] at this
  exact this

theorem extWindow_ahead {s : State} (h : s.reader.Ok s.src) :
    ((s.fillTo 7).reader.avail 7 = 7 ∧ (s.fillTo 7).reader.window 7 = 0) ↔
      (List.replicate 7 false).isPrefixOf (s.reader.rest s.src) = true := by
  have := fits_iff h (n := 7) (len := 7) (by omega) (by omega) 0 (by omega)
  rw [bitsOf_zero] at this
  rw [← this]
  unfold codewordFits
  rw [Bool.and_eq_true, decide_eq_true_iff, decide_eq_true_iff, Nat.sub_self, Nat.shiftRight_zero]
  have hle : (s.fillTo 7).reader.avail 7 ≤ 7 := Nat.min_le_right _ _
  constructor
  · rintro ⟨a, b⟩; exact ⟨by omega, b⟩
  · rintro ⟨a, b⟩; exact ⟨by omega, b⟩

theorem prefix_length {p l : List Bool} (h : p.isPrefixOf l = true) : p.length ≤ l.length :=
  (List.isPrefixOf_iff_prefix.mp h).length_le

theorem rest_length (s : State) : (s.reader.rest s.src).length = 8 * s.reader.len - s.reader.position := by simp

theorem eolAhead_length {bits : List Bool} (h : eolAhead bits = true) : 12 ≤ bits.length := by
  have := prefix_length h
  rwa [length_bitsOf] at this

theorem scanAhead_some {d : Nat} (hd : 0 < d) {bits : List Bool} {j : Nat} : scanAhead d bits = some j ↔
    eolAhead (bits.drop (d * j)) = true ∧ ∀ i, i < j → eolAhead (bits.drop (d * i)) = false := by
  unfold scanAhead
  rw [List.find?_range_eq_some]
  constructor
  · rintro ⟨a, _, c⟩
    exact ⟨a, fun i hi => by simpa using c i hi⟩
  · rintro ⟨a, c⟩
    refine ⟨a, ?_, fun i hi => by simpa using c i hi⟩
    have := eolAhead_length a
    rw [List.length_drop] at this
    rw [List.mem_range]
    have : j ≤ d * j := Nat.le_mul_of_pos_left j hd
    omega

theorem scanAhead_none {d : Nat} (hd : 0 < d) {bits : List Bool} : scanAhead d bits = none ↔
    ∀ i, eolAhead (bits.drop (d * i)) = false := by
  constructor
  · intro h i
    by_contra hc
    have hc' : eolAhead (bits.drop (d * i)) = true := by simpa using hc
    unfold scanAhead at h
    rw [List.find?_range_eq_none] at h
    have hl := eolAhead_length hc'
    rw [List.length_drop] at hl
    have h1 : i ≤ d * i := Nat.le_mul_of_pos_left i hd
    have := h i (by omega)
    rw [hc'] at this
    cases this
  · intro h
    unfold scanAhead
    rw [List.find?_range_eq_none]
    intro i _
    simp [h i]

theorem runLookup_eq {s : State} (h : s.reader.Ok s.src) (k : Colour) :
    ∃ rd, s.reader.Moved s.src (runAhead k (s.reader.rest s.src)).2 rd ∧
      s.decodeRun k = ((runAhead k (s.reader.rest s.src)).1, { s with reader := rd }) := by
  unfold State.decodeRun runAhead
  simp only
  have hz := avail_zero_iff h (n := 13) (by omega) (by omega)
  by_cases h0 : s.reader.rest s.src = []
  · rw [if_pos h0, if_pos (hz.mpr h0)]
    exact ⟨_, h.moved_fillTo (by omega), rfl⟩
  · rw [if_neg h0, if_neg (fun hh => h0 (hz.mp hh)), lookupRun_ahead h, zeroWindow_ahead h]
    cases hr : runRowAhead k (s.reader.rest s.src) with
    | some r =>
      simp only
      have hmem : r ∈ runSet k := List.mem_of_find?_eq_some hr
      have hp : (bitsOf r.pattern r.len).isPrefixOf (s.reader.rest s.src) = true := by
        have := List.find?_some hr
        simpa using this
      have hlen : r.len ≤ 8 * s.reader.len - s.reader.position := by
        have := prefix_length hp
        rw [length_bitsOf] at this
        simpa using this
      obtain ⟨_, rd, hm, he⟩ := codeword_refill h (n := 13) (by omega) (runSet_patterns k r hmem).1 hlen
      exact ⟨rd, hm, by rw [he]⟩
    | none => exact ⟨_, h.moved_fillTo (by omega), rfl⟩

theorem modeLookup_eq {s : State} (h : s.reader.Ok s.src) :
    ∃ rd, s.reader.Moved s.src (modeAhead (s.reader.rest s.src)).2 rd ∧
      s.decodeMode = ((modeAhead (s.reader.rest s.src)).1, { s with reader := rd }) := by
  unfold State.decodeMode modeAhead
  simp only
  have hz := avail_zero_iff h (n := 7) (by omega) (by omega)
  by_cases h0 : s.reader.rest s.src = []
  · rw [if_pos h0, if_pos (hz.mpr h0)]
    exact ⟨_, h.moved_fillTo (by omega), rfl⟩
  · rw [if_neg h0, if_neg (fun hh => h0 (hz.mp hh)), lookupMode_ahead h]
    cases hr : modeRowAhead (s.reader.rest s.src) with
    | some r =>
      simp only
      have hmem : r ∈ modeSet := List.mem_of_find?_eq_some hr
      have hp : (bitsOf r.pattern r.len).isPrefixOf (s.reader.rest s.src) = true := by
        have := List.find?_some hr
        simpa using this
      have hlen : r.len ≤ 8 * s.reader.len - s.reader.position := by
        have := prefix_length hp
        rw [length_bitsOf] at this
        simpa using this
      obtain ⟨_, rd, hm, he⟩ := codeword_refill h (n := 7) (by omega) (modeSet_patterns r hmem).1 hlen
      exact ⟨rd, hm, by rw [he]⟩
    | none =>
      refine ⟨_, h.moved_fillTo (n := 7) (by omega), ?_⟩
      simp only
      have e := extWindow_ahead h
      by_cases hx : (List.replicate 7 false).isPrefixOf (s.reader.rest s.src) = true
      · rw [if_pos hx, if_pos (e.mpr hx)]; rfl
      · rw [if_neg hx, if_neg (fun hh => hx (e.mp hh))]; rfl

theorem terminatingTable_find (k : Colour) : ∀ r ∈ terminatingTable k, (terminatingTable k).find? (fun x => decide (x.value = r.value)) = some r := by
  cases k <;> decide

theorem terminatingTable_total (k : Colour) : ∀ n < 64, ∃ r ∈ terminatingTable k, r.value = n := by
  cases k <;> decide

theorem makeupTable_find (k : Colour) : ∀ r ∈ makeupTable k, (makeupTable k).find? (fun x => decide (x.value = r.value)) = some r := by
  cases k <;> decide

theorem makeupTable_total (k : Colour) : ∀ n < 40, ∃ r ∈ makeupTable k, r.value = 64 * (n + 1) := by
  cases k <;> decide

theorem makeupTable_values (k : Colour) : ∀ r ∈ makeupTable k, 64 ≤ r.value ∧ r.value ≤ 2560 ∧ r.value % 64 = 0 := by
  cases k <;> decide

theorem findChange_spec (st : Bool) (a0 w : Nat) (l : List Nat) :
    (∃ j b1, l[2 * j]? = some b1 ∧ (st = true ∨ a0 < b1) ∧ (∀ j' < j, ∀ b, l[2 * j']? = some b → ¬ (st = true ∨ a0 < b)) ∧
      findChange st a0 w l = (b1, l[2 * j + 1]?.getD w)) ∨
    ((∀ j b, l[2 * j]? = some b → ¬ (st = true ∨ a0 < b)) ∧ findChange st a0 w l = (w, w)) := by
  match l with
  | [] => exact Or.inr ⟨by simp, rfl⟩
  | [b] =>
    unfold findChange
    by_cases h : st = true ∨ a0 < b
    · have h' : (st || decide (a0 < b)) = true := by simpa using h
      rw [if_pos h']
      exact Or.inl ⟨0, b, rfl, h, fun j hj => by omega, rfl⟩
    · have h' : ¬ (st || decide (a0 < b)) = true := by simpa using h
      rw [if_neg h']
      refine Or.inr ⟨fun j x hx => ?_, rfl⟩
      cases j with
      | zero => simp at hx; rw [← hx]; exact h
      | succ j => rw [show 2 * (j + 1) = 2 * j + 1 + 1 by ring] at hx; simp at hx
  | b :: b' :: rest =>
    unfold findChange
    by_cases h : st = true ∨ a0 < b
    · have h' : (st || decide (a0 < b)) = true := by simpa using h
      rw [if_pos h']
      exact Or.inl ⟨0, b, rfl, h, fun j hj => by omega, rfl⟩
    · have h' : ¬ (st || decide (a0 < b)) = true := by simpa using h
      rw [if_neg h']
      have hsh : ∀ j, (b :: b' :: rest)[2 * (j + 1)]? = rest[2 * j]? := by
        intro j; rw [show 2 * (j + 1) = 2 * j + 1 + 1 by ring]; rfl
      rcases findChange_spec st a0 w rest with ⟨j, b1, h1, h2, h3, h4⟩ | ⟨h1, h2⟩
      · refine Or.inl ⟨j + 1, b1, by rw [hsh]; exact h1, h2, ?_, ?_⟩
        · intro j' hj' x hx
          cases j' with
          | zero => simp at hx; rw [← hx]; exact h
          | succ j' => rw [hsh] at hx; exact h3 j' (by omega) x hx
        · rw [h4, show 2 * (j + 1) + 1 = 2 * j + 1 + 1 + 1 by ring]; rfl
      · refine Or.inr ⟨?_, h2⟩
        intro j' x hx
        cases j' with
        | zero => simp at hx; rw [← hx]; exact h
        | succ j' => rw [hsh] at hx; exact h1 j' x hx

end Sys2Proof.Machine
end

