-- ==== Sys2Proof/Laws/Steps.lean ====
section
/-! SUPPORT. What each shared operation of a step answers, said once: the frame of a codeword and of a unit operation, the row
operations (R188 to R192), what follows an EOL (R190), the error policy (R191) and the end of the data (R193). -/

namespace Sys2Proof.Machine

theorem runCodeword_go {s : State} (hd : s.decoding = true) (h : s.reader.Ok s.src) {len : Nat} (hl : len ≤ 13)
    (hb : len ≤ 8 * s.reader.len - s.reader.position) (rule : State → Flow) :
    ∃ rd, s.reader.Moved s.src len rd ∧ runCodeword len rule s = (rule { s with reader := rd }).out := by
  obtain ⟨hc, rd, hm, he⟩ := codeword_refill h (n := 13) (by omega) hl hb
  refine ⟨rd, hm, ?_⟩
  unfold runCodeword
  rw [if_pos hd, if_neg (by omega), he]

theorem modeCodeword_go {s : State} (hd : s.decoding = true) (h : s.reader.Ok s.src) {len : Nat} (hl : len ≤ 7)
    (hb : len ≤ 8 * s.reader.len - s.reader.position) (rule : State → Flow) :
    ∃ rd, s.reader.Moved s.src len rd ∧ modeCodeword len rule s = (rule { s with reader := rd }).out := by
  obtain ⟨hc, rd, hm, he⟩ := codeword_refill h (n := 7) (by omega) hl hb
  refine ⟨rd, hm, ?_⟩
  unfold modeCodeword
  rw [if_pos hd, if_neg (by omega), he]

theorem drawn_wf_opened {s : State} {k : Colour} {x0 x1 : Nat} (hwf : s.dst.wf = true) (hx : x1 ≤ s.imageWidth)
    (hroom : s.RoomForRow) : ∃ m, m.wf = true ∧ s.Drawn k x0 x1 m ∧ s.fill k x0 x1 = .go (s.opened m) :=
  s.fill_go k x0 x1 hwf hx hroom

theorem unitOperation_go {s : State} (hs : s.running = false) (f : State → Host.Outcome State Fault Refusal) :
    unitOperation f s = f s := by
  unfold unitOperation
  rw [if_neg (by simp [hs])]

/-- `Stop(reason)` of a job in RUN (R194). -/
theorem stop_run {u : State} (hr : u.running = true) (reason : StopCode) :
    u.stop reason = { u with status := u.stoppedStatus reason u.rows u.reader.consumed } := by
  unfold State.stop
  rw [if_pos hr]
  rfl

/-- `Stop(reason)` with no job in RUN (R314, log 25). -/
theorem stop_idle {u : State} (hr : u.running = false) (reason : StopCode) :
    u.stop reason = { u with result := .stopped reason } := by
  unfold State.stop
  rw [if_neg (by simp [hr])]
  rfl

theorem closeRow_false (s : State) : s.closeRow false = s.rowClosed s.cur s.reader := by
  have key : ∀ u : State, s.closeRow false = (if s.LastRow then u.stop .height else u) → u = s.nextRow →
      s.closeRow false = s.rowClosed s.cur s.reader := by
    intro u h hu
    rw [h, hu]
    unfold State.rowClosed
    by_cases hl : s.LastRow
    · rw [if_pos hl]
      cases hr : s.running
      · rw [stop_idle (u := s.nextRow) hr, if_neg (c := s.LastRow ∧ false = true) (by simp),
          if_pos (c := s.LastRow ∧ false = false) ⟨hl, rfl⟩]
        rfl
      · rw [stop_run (u := s.nextRow) hr, if_pos (c := s.LastRow ∧ true = true) ⟨hl, rfl⟩,
          if_neg (c := s.LastRow ∧ true = false) (by simp)]
        rfl
    · simp only [hl, false_and, if_false]
      rfl
  exact key s.nextRow rfl rfl

theorem closeRow_true (s : State) (h : s.reader.Ok s.src) : ∃ rd, s.reader.Moved s.src (s.closeMove 0) rd ∧
    s.closeRow true = s.rowClosed s.cur rd := by
  let rd := if s.rowAlign then s.reader.byteAlign else s.reader
  refine ⟨rd, ?_, ?_⟩
  · unfold State.closeMove Reader.toByte
    by_cases ha : s.rowAlign = true
    · simp only [rd, ha, if_true]
      obtain ⟨a, b⟩ := h.byteAlign
      exact ⟨a, by rw [b]; omega, rfl, rfl⟩
    · simp only [rd, ha]
      exact Reader.Moved.rfl' h
  · have : s.closeRow true = (s.setReader rd).closeRow false := by
      unfold State.closeRow
      simp only [Bool.true_and, Bool.false_and, Bool.false_eq_true, if_false]
      by_cases ha : s.rowAlign = true
      · have : s.nextRow.rowAlign = true := ha
        rw [if_pos this]
        simp only [rd, ha, if_true]
        rfl
      · have : ¬ s.nextRow.rowAlign = true := ha
        rw [if_neg this]
        simp only [rd, ha]
        rfl
    rw [this, closeRow_false]
    rfl

theorem fillRun_eq {s : State} {n : Nat} (hd : s.dst.wf = true) (hr : s.RoomForRow) :
    ∃ m, m.wf = true ∧ s.Drawn s.c s.a0 (s.runEnd n) m ∧ s.fillRun n = .go { s.opened m with
      a0 := s.runEnd n
      cur := if s.imageWidth ≤ s.runEnd n then s.cur else recordChange s.cur (s.runEnd n)
      c := oppositeColour s.c
      atStart := false } := by
  obtain ⟨m, a, b, c⟩ := drawn_wf_opened (k := s.c) (x0 := s.a0) (x1 := s.runEnd n) hd (Nat.min_le_right _ _) hr
  refine ⟨m, a, b, ?_⟩
  unfold State.fillRun
  simp only [c, Flow.bind_go]
  rw [State.record_eq]
  rfl

theorem padRow_eq {s : State} (hd : s.dst.wf = true) (hr : s.RoomForRow) :
    ∃ m, m.wf = true ∧ s.Drawn .white s.a0 s.imageWidth m ∧
      s.padRow = .go { s.opened m with a0 := s.imageWidth, cur := s.paddedLine, c := .white } := by
  let u : State := { s with cur := s.paddedLine, c := .white }
  have hu : (if s.c = .black then { s.record s.a0 with c := .white } else s) = u := by
    by_cases hc : s.c = .black
    · rw [if_pos hc, State.record_eq]
      simp only [u, State.paddedLine, hc, true_and]
      by_cases hw : s.imageWidth ≤ s.a0
      · rw [if_pos hw, if_neg (by omega)]
      · rw [if_neg hw, if_pos (by omega)]
    · rw [if_neg hc]
      have : s.c = .white := by cases h : s.c <;> simp_all
      simp only [u, State.paddedLine, this]
      simp
      cases s; simp_all
  obtain ⟨m, a, b, c⟩ := drawn_wf_opened (s := u) (k := .white) (x0 := s.a0) (x1 := s.imageWidth) hd (Nat.le_refl _) hr
  refine ⟨m, a, b, ?_⟩
  unfold State.padRow
  simp only [hu]
  have : u.fill .white u.a0 u.imageWidth = .go (u.opened m) := c
  rw [this]
  rfl

theorem closeRow_true_after {s : State} {k : Nat} {rd : Reader} {u : State} (h : s.reader.Moved s.src k rd)
    (hr : u.reader = rd) (hsrc : u.src = s.src) (hal : u.rowAlign = s.rowAlign) :
    ∃ rd', s.reader.Moved s.src (s.closeMove k) rd' ∧ u.closeRow true = u.rowClosed u.cur rd' := by
  have hok : u.reader.Ok u.src := by rw [hr, hsrc]; exact h.ok
  obtain ⟨rd', hm, he⟩ := closeRow_true u hok
  refine ⟨rd', ?_, he⟩
  have h2 : rd.Moved s.src (u.closeMove 0) rd' := by rw [hr, hsrc] at hm; exact hm
  have h3 := h.trans h2
  have e : k + u.closeMove 0 = s.closeMove k := by
    unfold State.closeMove Reader.toByte
    rw [hal, hr, h.position]
    split <;> omega
  rwa [e] at h3

theorem closeIfFull_lt {t : State} (h : t.a0 < t.imageWidth) : t.closeIfFull = t := by
  unfold State.closeIfFull
  rw [if_neg (by omega)]

theorem closeIfFull_ge {t : State} (h : t.imageWidth ≤ t.a0) : t.closeIfFull = t.closeRow true := by
  unfold State.closeIfFull
  rw [if_pos h]

theorem payRun_owed {t : State} (h : t.hphase - 1 ≠ 0) : t.payRun = { t with hphase := t.hphase - 1 } := by
  unfold State.payRun
  simp only
  rw [if_neg h]

theorem payRun_paid {t : State} (h : t.hphase - 1 = 0) : t.payRun = State.closeIfFull { t with hphase := t.hphase - 1 } := by
  unfold State.payRun
  simp only
  rw [if_pos h]

theorem verticalTarget_eq (s : State) (d : Int) : (min (max ((s.findB.1 : Int) + d) s.a0) s.imageWidth).toNat = s.verticalTarget d := by
  unfold State.verticalTarget
  omega

theorem decoding_running {s : State} (h : s.decoding = true) : s.running = true := by
  unfold State.decoding at h
  simp only [Bool.and_eq_true] at h
  exact h.1

/-- `OnEOL`'s end-of-block test. -/
theorem endOfBlock_eq {u : State} {bits : List Bool} (hrun : u.running = true) (h : u.reader.Ok u.src) (hb : u.reader.rest u.src = bits) :
    ∃ rd, u.reader.Moved u.src (if u.hasEob ∧ eolAhead bits then 12 else 0) rd ∧
      u.endOfBlock = { u with
        reader := rd
        status := if u.hasEob ∧ eolAhead bits then u.stoppedStatus .eob u.rows rd.consumed else u.status } := by
  unfold State.endOfBlock
  by_cases he : u.hasEob = true
  · rw [if_pos he]
    simp only
    have hw := window_iff h (n := 12) (by omega) 1 (by omega)
    rw [hb] at hw
    by_cases hf : eolAhead bits = true
    · obtain ⟨a, b⟩ := hw.mpr hf
      have hcond : u.hasEob = true ∧ eolAhead bits = true := ⟨he, hf⟩
      simp only [if_pos hcond]
      rw [if_pos ⟨b, a⟩]
      have hlen : 12 ≤ 8 * u.reader.len - u.reader.position := by
        have := prefix_length hf
        rw [length_bitsOf, ← hb] at this
        simpa using this
      obtain ⟨_, rd, hm, hc⟩ := codeword_refill h (n := 12) (len := 12) (by omega) (by omega) hlen
      refine ⟨rd, hm, ?_⟩
      rw [hc, stop_run (u := { u with reader := rd }) hrun]
      rfl
    · have hcond : ¬ (u.hasEob = true ∧ eolAhead bits = true) := fun hh => hf hh.2
      simp only [if_neg hcond]
      rw [if_neg (fun hh => hf (hw.mp ⟨hh.2, hh.1⟩))]
      refine ⟨(u.fillTo 12).reader, h.moved_fillTo (by omega), rfl⟩
  · rw [if_neg he]
    refine ⟨u.reader, by rw [if_neg (fun hh => he hh.1)]; exact Reader.Moved.rfl' h, ?_⟩
    rw [if_neg (fun hh => he hh.1)]

theorem afterEOL_eq {u : State} {bits : List Bool} (hrun : u.running = true) (h : u.reader.Ok u.src) (hb : u.reader.rest u.src = bits) (h0 : u.a0 = 0) :
    ∃ rd, u.reader.Moved u.src (u.eolTail bits).2.2 rd ∧ u.afterEOL.state = u.afterTail bits rd := by
  unfold State.afterEOL
  by_cases hk : u.kind = some .g3_2d
  · rw [if_pos hk]
    simp only
    have hz := avail_zero_iff h (n := 1) (by omega) (by omega)
    rw [hb] at hz
    have hav : (u.fillTo 1).reader.avail 1 = min (u.fillTo 1).reader.cnt 1 := rfl
    cases bits with
    | nil =>
      have hc : (u.fillTo 1).reader.cnt < 1 := by have := hz.mpr rfl; omega
      rw [if_pos hc]
      have ht : u.eolTail [] = (some .eod, u.lineMode, 0) := by unfold State.eolTail; rw [if_pos hk]
      refine ⟨(u.fillTo 1).reader, by rw [ht]; exact h.moved_fillTo (by omega), ?_⟩
      unfold State.onEOD State.lenientStop
      rw [if_neg (by simp), if_neg (show ¬ 0 < (u.fillTo 1).a0 by show ¬ 0 < u.a0; omega), Flow.bind_go]
      unfold State.afterTail
      rw [ht, stop_run (u := u.fillTo 1) hrun]
      rfl
    | cons tag bits =>
      have hc : ¬ (u.fillTo 1).reader.cnt < 1 := by
        intro hh
        have : (u.fillTo 1).reader.avail 1 = 0 := by omega
        cases hz.mp this
      rw [if_neg hc]
      have hlen : 1 ≤ 8 * u.reader.len - u.reader.position := by
        have := congrArg List.length hb
        simp at this
        omega
      obtain ⟨_, rd, hm, hcl⟩ := codeword_refill h (n := 1) (len := 1) (by omega) (by omega) hlen
      have hwt : ((u.fillTo 1).reader.window 1 = 1) ↔ tag = true := by
        have := window_iff h (n := 1) (by omega) 1 (by omega)
        rw [hb] at this
        have e : (bitsOf 1 1).isPrefixOf (tag :: bits) = tag := by cases tag <;> rfl
        rw [e] at this
        have hav1 : (u.fillTo 1).reader.avail 1 = 1 := by omega
        rw [← this]
        exact ⟨fun hh => ⟨hav1, hh⟩, fun hh => hh.2⟩
      have htag : decide ((u.fillTo 1).reader.window 1 = 1) = tag := by
        cases tag with
        | true => exact decide_eq_true (hwt.mpr rfl)
        | false => exact decide_eq_false (fun hh => by cases hwt.mp hh)
      rw [htag]
      let v : State := { u with reader := rd, lineMode := lineModeOfTag tag }
      have hv : (u.fillTo 1).takeTag tag = v := by unfold State.takeTag; rw [hcl]
      have hvrest : v.reader.rest v.src = bits := by
        show rd.rest u.src = _
        rw [hm.rest, hb]
        rfl
      obtain ⟨rd', hm', he⟩ := endOfBlock_eq (u := v) hrun hm.ok hvrest
      have hvh : v.hasEob = u.hasEob := rfl
      rw [hv, he]
      refine ⟨rd', ?_, ?_⟩
      · have := hm.trans hm'
        unfold State.eolTail
        rw [if_pos hk]
        simp only
        by_cases hx : u.hasEob = true ∧ eolAhead bits = true
        · rw [if_pos hx]; rw [hvh, if_pos hx] at this; exact this
        · rw [if_neg hx]; rw [hvh, if_neg hx] at this; exact this
      · unfold State.afterTail State.eolTail
        rw [if_pos hk, hvh]
        simp only
        by_cases hx : u.hasEob = true ∧ eolAhead bits = true
        · rw [if_pos hx, if_pos hx]; rfl
        · rw [if_neg hx, if_neg hx]; rfl
  · rw [if_neg hk]
    obtain ⟨rd', hm', he⟩ := endOfBlock_eq hrun h hb
    refine ⟨rd', ?_, ?_⟩
    · unfold State.eolTail
      rw [if_neg hk]
      by_cases hx : u.hasEob = true ∧ eolAhead bits = true
      · rw [if_pos hx]; rw [if_pos hx] at hm'; exact hm'
      · rw [if_neg hx]; rw [if_neg hx] at hm'; exact hm'
    · unfold State.afterTail State.eolTail
      rw [if_neg hk, he]
      by_cases hx : u.hasEob = true ∧ eolAhead bits = true
      · rw [if_pos hx, if_pos hx]; rfl
      · rw [if_neg hx, if_neg hx]; rfl

theorem rowClosed_running {u : State} {l : List Nat} {rd : Reader} (hr : u.running = true) :
    (u.rowClosed l rd).running = true ↔ ¬ u.LastRow := by
  unfold State.running State.rowClosed
  simp only [decide_eq_true_eq]
  by_cases hl : u.LastRow
  · rw [if_pos ⟨hl, hr⟩]
    exact ⟨fun hh => (by cases hh), fun hh => absurd hl hh⟩
  · rw [if_neg (fun h => hl h.1)]
    exact ⟨fun _ => hl, fun _ => of_decide_eq_true hr⟩

theorem skipBit_eq {u : State} (h : u.reader.Ok u.src) :
    ∃ rd, u.reader.Moved u.src (min 1 (8 * u.reader.len - u.reader.position)) rd ∧ u.skipBit = { u with reader := rd } := by
  unfold State.skipBit
  simp only
  have hav := (h.fillTo (n := 1) (by omega)).2.2.2.2.2 1 (Nat.le_refl _)
  have hcnt : (u.fillTo 1).reader.cnt = (u.reader.fillTo u.src 1).cnt := rfl
  by_cases hl : 1 ≤ 8 * u.reader.len - u.reader.position
  · obtain ⟨hc, rd, hm, hcl⟩ := codeword_refill h (n := 1) (len := 1) (by omega) (by omega) hl
    rw [if_pos hc, Nat.min_eq_left hl]
    exact ⟨rd, hm, hcl⟩
  · rw [if_neg (by omega), show min 1 (8 * u.reader.len - u.reader.position) = 0 by omega]
    exact ⟨_, h.moved_fillTo (by omega), rfl⟩

theorem onError_skip {s : State} {k : Nat} {rd : Reader} (hm : s.reader.Moved s.src k rd) (he : s.hasEol = false)
    (hk : k ≤ 8 * s.reader.len - s.reader.position) :
    ∃ rd', s.reader.Moved s.src (min (k + 1) (8 * s.reader.len - s.reader.position)) rd' ∧
      State.onError { s with reader := rd } = .go { s with reader := rd', afterZero := false } := by
  let u : State := { s with reader := rd, afterZero := false }
  obtain ⟨rd', hm', hs⟩ := skipBit_eq (u := u) hm.ok
  refine ⟨rd', ?_, ?_⟩
  · have h2 : rd.Moved s.src (min 1 (8 * rd.len - rd.position)) rd' := hm'
    have := hm.trans h2
    rw [hm.len, hm.position] at this
    rwa [show k + min 1 (8 * s.reader.len - (s.reader.position + k)) = min (k + 1) (8 * s.reader.len - s.reader.position) by omega] at this
  · unfold State.onError
    have hne : ¬ State.hasEol { s with reader := rd } = true := by show ¬ s.hasEol = true; simp [he]
    rw [if_neg hne]
    exact congrArg Flow.go hs

theorem step_decoding {s : State} (hd : s.decoding = true) (hc : s.commands = []) : step s = decodeDispatch exec s := by
  unfold step
  rw [hc]
  simp only
  unfold blockStep
  rw [if_pos (decoding_running hd)]
  have hj : s.cfg.job.isDecode = true := by
    unfold State.decoding at hd
    simp only [Bool.and_eq_true] at hd
    exact hd.2
  cases h : s.cfg.job <;> rw [h] at hj <;> first | rfl | cases hj

theorem context_width_le (c : Context) : c.width ≤ 13 := by cases c <;> decide

theorem step_noCodeword {s : State} (hd : s.decoding = true) (hc : s.commands = []) (hf : s.fetch = .reject .noCodeword) :
    step s = (State.onError s.fetchFill).out := by
  rw [step_decoding hd hc]
  unfold decodeDispatch
  rw [hf]
  rfl

theorem moved_fetchFill {s : State} (h : s.reader.Ok s.src) : s.reader.Moved s.src 0 s.fetchFill.reader :=
  h.moved_fillTo (by have := context_width_le s.context; omega)

theorem ext1d_error {s : State} (hd : s.decoding = true) (h : s.reader.Ok s.src)
    (hf : fillAhead (s.reader.rest s.src) = false) (he : eolAhead (s.reader.rest s.src) = false) :
    ∃ rd, s.reader.Moved s.src 0 rd ∧ exec .ext1d s = (State.onError { s with reader := rd }).out := by
  obtain ⟨rd0, hm0, hx⟩ := modeCodeword_go hd h (len := 0) (by omega) (by omega) State.doExt1D
  let u : State := { s with reader := rd0 }
  have hu : u.reader.Ok u.src := hm0.ok
  have hrest : u.reader.rest u.src = s.reader.rest s.src := by
    show rd0.rest s.src = _
    rw [hm0.rest]; rfl
  have hw0 := window_iff hu (n := 12) (by omega) 0 (by omega)
  have hw1 := window_iff hu (n := 12) (by omega) 1 (by omega)
  rw [hrest, bitsOf_zero] at hw0
  rw [hrest] at hw1
  refine ⟨(u.fillTo 12).reader, hm0.trans (hu.moved_fillTo (n := 12) (by omega)), ?_⟩
  show execExt1d s = _
  unfold execExt1d
  rw [hx]
  show (State.doExt1D u).out = _
  unfold State.doExt1D
  simp only
  rw [if_neg (fun hh => by have := hw0.mp hh; unfold fillAhead at hf; rw [this] at hf; cases hf),
    if_neg (fun hh => by have := hw1.mp hh; unfold eolAhead at he; rw [this] at he; cases he)]
  rfl

theorem onEOD_a0 {u : State} (h0 : u.a0 = 0) (fm : Bool) (hl : u.lenientStop fm = false) : u.onEOD fm = .go (u.stop .eod) := by
  unfold State.onEOD
  rw [if_neg (by simp [hl]), if_neg (by omega), Flow.bind_go]

theorem lenient_iff (s : State) (fm : Bool) : s.lenientStop fm = true ↔
    (s.kind = some .g3_2d ∧ fm = true ∧ s.atStart = true ∧ s.LastRow) := by
  unfold State.lenientStop
  simp only [Bool.and_eq_true, decide_eq_true_iff]
  tauto

/-- `OnEOD`'s end of a begun row: its registers, then `Stop(EOD)` (R193). -/
theorem stop_nextRow (u : State) : u.nextRow.stop .eod = u.endedBy .eod (u.rowClosed u.cur u.reader) := by
  cases hr : u.running
  · rw [stop_idle (u := u.nextRow) hr]
    unfold State.endedBy State.rowClosed State.nextRow
    simp only [hr]
    rfl
  · rw [stop_run (u := u.nextRow) hr]
    unfold State.endedBy State.rowClosed State.nextRow
    simp only [hr]
    rfl

theorem scan_eq {d : Nat} (fuel : Nat) (u : State) (hd : d = if u.rowAlign then 8 else 1) (h : u.reader.Ok u.src)
    (h0 : u.a0 = 0) (hf : 8 * u.reader.len - u.reader.position < fuel) :
    ∃ rd, match scanAhead d (u.reader.rest u.src) with
      | some j => u.reader.Moved u.src (d * j) rd ∧ State.scanForEOL fuel u = .go { u with reader := rd }
      | none => u.reader.Moved u.src (8 * u.reader.len - u.reader.position) rd ∧
          State.scanForEOL fuel u = .go (State.stop { u with reader := rd } .eod) := by
  have hdpos : 0 < d := by rw [hd]; split <;> omega
  have hd8 : d ≤ 8 := by rw [hd]; split <;> omega
  induction fuel generalizing u with
  | zero => omega
  | succ fuel ih =>
    have hav : (u.fillTo 12).reader.avail 12 = min 12 (8 * u.reader.len - u.reader.position) :=
      (h.fillTo (n := 12) (by omega)).2.2.2.2.2 12 (Nat.le_refl _)
    have hw := window_iff h (n := 12) (by omega) 1 (by omega)
    have hlen : (u.reader.rest u.src).length = 8 * u.reader.len - u.reader.position := by simp
    unfold State.scanForEOL
    simp only
    by_cases hshort : (u.fillTo 12).reader.avail 12 < 12
    · rw [if_pos hshort]
      have hnone : scanAhead d (u.reader.rest u.src) = none := by
        rw [scanAhead_none hdpos]
        intro i
        by_contra hc
        have := eolAhead_length (by simpa using hc)
        rw [List.length_drop, hlen] at this
        omega
      rw [hnone]
      obtain ⟨a, b, c, e, f⟩ := (h.moved_fillTo (n := 12) (by omega)).ok.drain
      have hm := h.moved_fillTo (n := 12) (by omega)
      refine ⟨(u.fillTo 12).reader.drain u.src, ⟨a, ?_, e.trans hm.len, f.trans hm.rev⟩, ?_⟩
      · show 8 * (Reader.drain u.src (u.reader.fillTo u.src 12)).consumed - (Reader.drain u.src (u.reader.fillTo u.src 12)).cnt = _
        rw [b, c, hm.len]
        have := h.position_le
        omega
      · exact onEOD_a0 (u := (u.fillTo 12).setReader ((u.fillTo 12).reader.drain u.src)) h0 false (by unfold State.lenientStop; simp)
    · rw [if_neg hshort]
      by_cases he : (u.fillTo 12).reader.window 12 = 1
      · rw [if_pos he]
        have hahead : eolAhead (u.reader.rest u.src) = true := hw.mp ⟨by omega, he⟩
        have hs : scanAhead d (u.reader.rest u.src) = some 0 := by
          rw [scanAhead_some hdpos]
          exact ⟨by simpa using hahead, fun i hi => by omega⟩
        rw [hs]
        exact ⟨(u.fillTo 12).reader, h.moved_fillTo (by omega), rfl⟩
      · rw [if_neg he]
        have hno : eolAhead (u.reader.rest u.src) = false := by
          by_contra hc
          rw [Bool.not_eq_false] at hc; exact he (hw.mpr hc).2
        obtain ⟨_, rd, hm, hcl⟩ := codeword_refill h (n := 12) (len := d) (by omega) (by omega) (by omega)
        have hral : (u.fillTo 12).rowAlign = u.rowAlign := rfl
        rw [hral, ← hd, hcl]
        obtain ⟨rd', hrd'⟩ := ih { u with reader := rd } hd hm.ok h0 (by
          show 8 * rd.len - rd.position < fuel
          rw [hm.len, hm.position]; omega)
        have hrest : rd.rest u.src = (u.reader.rest u.src).drop d := hm.rest
        refine ⟨rd', ?_⟩
        have hrel : ∀ i, ((u.reader.rest u.src).drop d).drop (d * i) = (u.reader.rest u.src).drop (d * (i + 1)) := by
          intro i; rw [List.drop_drop]; congr 1; ring
        cases hsc : scanAhead d ((u.reader.rest u.src).drop d) with
        | some j =>
          have hs : scanAhead d (u.reader.rest u.src) = some (j + 1) := by
            rw [scanAhead_some hdpos] at hsc ⊢
            refine ⟨by rw [← hrel]; exact hsc.1, fun i hi => ?_⟩
            cases i with
            | zero => simpa using hno
            | succ i => rw [← hrel]; exact hsc.2 i (by omega)
          rw [hs]
          have e : scanAhead d (Reader.rest u.src rd) = some j := by rw [hrest]; exact hsc
          change (match scanAhead d (Reader.rest u.src rd) with | some j => _ | none => _) at hrd'
          rw [e] at hrd'
          refine ⟨?_, hrd'.2⟩
          have := hm.trans hrd'.1
          rwa [show d + d * j = d * (j + 1) by ring] at this
        | none =>
          have hs : scanAhead d (u.reader.rest u.src) = none := by
            rw [scanAhead_none hdpos] at hsc ⊢
            intro i
            cases i with
            | zero => simpa using hno
            | succ i => rw [← hrel]; exact hsc i
          rw [hs]
          have e : scanAhead d (Reader.rest u.src rd) = none := by rw [hrest]; exact hsc
          change (match scanAhead d (Reader.rest u.src rd) with | some j => _ | none => _) at hrd'
          rw [e] at hrd'
          refine ⟨?_, hrd'.2⟩
          have hx : rd.Moved u.src (8 * rd.len - rd.position) rd' := hrd'.1
          have := hm.trans hx
          rw [hm.len, hm.position] at this
          rwa [show d + (8 * u.reader.len - (u.reader.position + d)) = 8 * u.reader.len - u.reader.position by omega] at this

theorem refill_consumed {src : Memory} {n : Nat} (fuel : Nat) {r : Reader} (hl : r.consumed ≤ r.len)
    (hf : n ≤ r.cnt + 8 * fuel) :
    (r.refill src n fuel).consumed = min r.len (r.consumed + (n - r.cnt + 7) / 8) := by
  induction fuel generalizing r with
  | zero =>
    unfold Reader.refill
    omega
  | succ fuel ih =>
    unfold Reader.refill
    by_cases hc : r.cnt < n ∧ r.consumed < r.len
    · rw [if_pos hc]
      have e1 : (r.pull src).cnt = r.cnt + 8 := rfl
      have e2 : (r.pull src).consumed = r.consumed + 1 := rfl
      have e3 : (r.pull src).len = r.len := rfl
      rw [ih (by omega) (by omega), e1, e2, e3]
      omega
    · rw [if_neg hc]
      omega

theorem writer_out {s : State} {w : Flow} {b : List Bool} (hr : s.RoomForBits b.length)
    (h : (s.RoomForBits b.length ∧ ∃ t, w = .go t ∧ s.Wrote b t) ∨ (¬ s.RoomForBits b.length ∧ ∃ t, w = .halt t ∧ s.Overflowed b t)) :
    ∃ t, s.Wrote b t ∧ w = .go t := by
  rcases h with ⟨_, t, a, b⟩ | ⟨hn, _⟩
  · exact ⟨t, b, a⟩
  · exact absurd hr hn

theorem writer_halt {s : State} {w : Flow} {b : List Bool} (hr : ¬ s.RoomForBits b.length)
    (h : (s.RoomForBits b.length ∧ ∃ t, w = .go t ∧ s.Wrote b t) ∨ (¬ s.RoomForBits b.length ∧ ∃ t, w = .halt t ∧ s.Overflowed b t)) :
    ∃ t, s.Overflowed b t ∧ w = .halt t := by
  rcases h with ⟨hn, _⟩ | ⟨_, t, a, b⟩
  · exact absurd hn hr
  · exact ⟨t, b, a⟩

theorem putBits_unit {s : State} (hs : s.running = false) {v n : Nat} (hn : n ≤ 32) (hv : v < 2 ^ n) :
    exec (.putBits v n) s = (State.putBits v n s).out := by
  show execPutBits v n s = _
  unfold execPutBits
  rw [unitOperation_go hs, if_neg (by omega)]

end Sys2Proof.Machine
end

