-- ==== Sys2Proof/Laws/AbstractCursor.lean ====
section
/-! SUPPORT. The reader refines the abstract cursor (`spec/40_bitcursor.md` R143): every sequence of reader operations
returns the abstract cursor's values and ends at its position. -/

namespace Sys2Proof.Machine

theorem bitsValue_append_zeros (l : List Bool) (k : Nat) :
    bitsValue (l ++ List.replicate k false) = bitsValue l * 2 ^ k := by
  induction k with
  | zero => simp
  | succ k ih =>
    rw [List.replicate_succ', ← List.append_assoc, bitsValue_append, ih, pow_succ]
    simp only [Bool.toNat_false]
    ring

/-- The bits the abstract cursor has left are those the reader has left. -/
theorem Reader.Ok.abstract_left {src : Memory} {r : Reader} (h : r.Ok src) : (r.abstract src).left = r.rest src := by
  have hp := h.position_le
  apply List.ext_getElem
  · simp [Reader.abstract, AbstractCursor.left]
  · intro i h1 h2
    simp [Reader.abstract, AbstractCursor.left, Reader.rest, streamBits]

/-- The abstract cursor looks at what the window shows. -/
theorem Reader.Ok.abstract_look {src : Memory} {r : Reader} (h : r.Ok src) (n : Nat) :
    (r.abstract src).look n = r.ahead src n := by
  unfold AbstractCursor.look Reader.ahead
  rw [h.abstract_left, bitsValue_append_zeros, List.length_take]
  congr 2
  omega

/-- A move of the reader is one of the abstract cursor. -/
theorem Reader.Moved.abstract {src : Memory} {r r' : Reader} {k : Nat} (h : r.Moved src k r') :
    r'.abstract src = { r.abstract src with pos := r.position + k } := by
  simp [Reader.abstract, h.position, h.len, h.rev]

/-- The next state of a reader operation: the reader moved to where the abstract cursor goes, the abstract cursor's value in
`result`, and nothing else changed. -/
theorem readerOp_next {s t : State} {op : ReaderOp} (hr : s.running = false) (h : s.reader.Ok s.src)
    (he : exec op.instr s = .next t) :
    ∃ rd k, s.reader.Moved s.src k rd ∧ s.reader.position + k = op.target (s.reader.abstract s.src) ∧
      t = { s with reader := rd, result := (op.answer (s.reader.abstract s.src)).getD s.result } := by
  have hlen : (s.reader.abstract s.src).left.length = 8 * s.reader.len - s.reader.position := by
    rw [h.abstract_left, Reader.length_rest]
  have hbits : (s.reader.abstract s.src).bits.length = 8 * s.reader.len := by simp [Reader.abstract]
  have hpos : (s.reader.abstract s.src).pos = s.reader.position := rfl
  have hle := h.position_le
  cases op <;> simp only [ReaderOp.answer, ReaderOp.target, h.abstract_look, hlen, hbits, hpos, Option.getD_some,
    Option.getD_none] <;> simp only [ReaderOp.instr] at he
  case hasBits n =>
    change execHasBits n s = _ at he
    rw [execHasBits, unitOperation_go hr] at he
    split at he
    · cases he
    · have hn : n ≤ 32 := by omega
      have hav := (h.fillTo hn).2.2.2.2.2 n (le_refl n)
      refine ⟨_, 0, h.moved_fillTo hn, rfl, ?_⟩
      have : decide (n ≤ (s.fillTo n).reader.cnt) = decide (n ≤ 8 * s.reader.len - s.reader.position) := by
        apply decide_eq_decide.mpr
        change n ≤ (s.reader.fillTo s.src n).cnt ↔ _
        omega
      rw [this] at he
      cases he
      rfl
  case peekBits n =>
    change execPeekBits n s = _ at he
    rw [execPeekBits, unitOperation_go hr] at he
    split at he
    · cases he
    · have hn : n ≤ 32 := by omega
      refine ⟨_, 0, h.moved_fillTo hn, rfl, ?_⟩
      rw [show (s.fillTo n).reader.window n = s.reader.ahead s.src n from h.window_fillTo hn (le_refl n)] at he
      cases he
      rfl
  case getBits n =>
    change execGetBits n s = _ at he
    rw [execGetBits, unitOperation_go hr] at he
    split at he
    · cases he
    · split at he
      · cases he
      · rename_i hc
        have hn : n ≤ 32 := by omega
        have hm := h.moved_fillTo hn
        refine ⟨_, n, (Nat.zero_add n) ▸ hm.trans (hm.ok.moved_clear (Nat.le_of_not_lt hc)), rfl, ?_⟩
        rw [show (s.fillTo n).reader.window n = s.reader.ahead s.src n from h.window_fillTo hn (le_refl n)] at he
        cases he
        rfl
  case clearBits n =>
    change execClearBits n s = _ at he
    rw [execClearBits, unitOperation_go hr] at he
    split at he
    · cases he
    · cases he
      exact ⟨_, n, h.moved_clear (by omega), rfl, rfl⟩
  case look n =>
    change execLook n s = _ at he
    rw [execLook, unitOperation_go hr] at he
    split at he
    · cases he
    · have hn : n ≤ 32 := by omega
      have hav := (h.fillTo hn).2.2.2.2.2 n (le_refl n)
      refine ⟨_, 0, h.moved_fillTo hn, rfl, ?_⟩
      rw [show (s.fillTo n).reader.window n = s.reader.ahead s.src n from h.window_fillTo hn (le_refl n),
        show (s.fillTo n).reader.avail n = min n (8 * s.reader.len - s.reader.position) by
          change min (s.reader.fillTo s.src n).cnt n = _
          omega] at he
      cases he
      rfl
  case byteAlign =>
    change execByteAlign s = _ at he
    rw [execByteAlign, unitOperation_go hr] at he
    cases he
    obtain ⟨hok, hp⟩ := h.byteAlign
    exact ⟨_, 8 * ((s.reader.position + 7) / 8) - s.reader.position, ⟨hok, by omega, rfl, rfl⟩, by omega, rfl⟩
  case wordAlign =>
    change execWordAlign s = _ at he
    rw [execWordAlign, unitOperation_go hr] at he
    cases he
    obtain ⟨hok, hp, hl, hv⟩ := h.wordAlign
    exact ⟨_, min (16 * ((s.reader.position + 15) / 16)) (8 * s.reader.len) - s.reader.position, ⟨hok, by omega, hl, hv⟩,
      by omega, rfl⟩
  case drain =>
    change execDrain s = _ at he
    rw [execDrain, unitOperation_go hr] at he
    cases he
    obtain ⟨hok, hc, hk, hl, hv⟩ := h.drain
    have hp : (s.reader.drain s.src).position = 8 * s.reader.len := by unfold Reader.position; omega
    exact ⟨_, 8 * s.reader.len - s.reader.position, ⟨hok, by omega, hl, hv⟩, by omega, rfl⟩

/-- R143: for every sequence of reader operations, the values returned and the final `P` are those of the abstract cursor. -/
theorem reader_refines_abstractCursor (ops : List ReaderOp) {s t : State} {vs : List OpResult} (hr : s.running = false)
    (h : s.reader.Ok s.src) (he : machineOps ops s = some (vs, t)) :
    abstractOps ops s.result (s.reader.abstract s.src) = (vs, t.reader.abstract t.src) := by
  induction ops generalizing s vs with
  | nil => simp_all [machineOps, abstractOps]
  | cons op ops ih =>
    unfold machineOps at he
    split at he
    · rename_i u hu
      obtain ⟨rd, k, hm, hk, rfl⟩ := readerOp_next hr h hu
      obtain ⟨⟨ws, t'⟩, hrest, heq⟩ := Option.map_eq_some_iff.mp he
      cases heq
      have := ih (by exact hr) hm.ok hrest
      rw [hm.abstract, hk] at this
      simp only [abstractOps, this]
    · cases he

end Sys2Proof.Machine
end

