-- ==== Sys2Proof/Laws/PerInstr.lean ====
section
/-! SUPPORT. A family of statements with one lemma for every instruction: the length of its encoding. -/

namespace Sys2Proof.Laws.CodeLength

/-- A codeword has 1 to 13 bits, a run codeword at least 2 and a mode codeword at most 7, and its pattern fits in them
(`spec/30_encoding.md` R90, R91); a unit command's high nibble is one of the six units (`spec/10_state.md` R43). -/
def lengthOk : Encoded → Bool
  | .code ctx pattern len =>
    Nat.ble 1 len && Nat.ble len ctx.width && Nat.blt pattern (2 ^ len) && (Nat.ble 2 len || Nat.beq ctx.width 7)
  | .tag _ => true
  | .select opsel _ _ _ => Nat.ble (opsel.toNat / 16) 5

/-- The encoding of `i` has such a length. -/
def Statement (i : Instr) : Prop := lengthOk (encode i) = true


theorem w0 : Statement .w0 := rfl
theorem w1 : Statement .w1 := rfl
theorem w2 : Statement .w2 := rfl
theorem w3 : Statement .w3 := rfl
theorem w4 : Statement .w4 := rfl
theorem w5 : Statement .w5 := rfl
theorem w6 : Statement .w6 := rfl
theorem w7 : Statement .w7 := rfl
theorem w8 : Statement .w8 := rfl
theorem w9 : Statement .w9 := rfl
theorem w10 : Statement .w10 := rfl
theorem w11 : Statement .w11 := rfl
theorem w12 : Statement .w12 := rfl
theorem w13 : Statement .w13 := rfl
theorem w14 : Statement .w14 := rfl
theorem w15 : Statement .w15 := rfl
theorem w16 : Statement .w16 := rfl
theorem w17 : Statement .w17 := rfl
theorem w18 : Statement .w18 := rfl
theorem w19 : Statement .w19 := rfl
theorem w20 : Statement .w20 := rfl
theorem w21 : Statement .w21 := rfl
theorem w22 : Statement .w22 := rfl
theorem w23 : Statement .w23 := rfl
theorem w24 : Statement .w24 := rfl
theorem w25 : Statement .w25 := rfl
theorem w26 : Statement .w26 := rfl
theorem w27 : Statement .w27 := rfl
theorem w28 : Statement .w28 := rfl
theorem w29 : Statement .w29 := rfl
theorem w30 : Statement .w30 := rfl
theorem w31 : Statement .w31 := rfl
theorem w32 : Statement .w32 := rfl
theorem w33 : Statement .w33 := rfl
theorem w34 : Statement .w34 := rfl
theorem w35 : Statement .w35 := rfl
theorem w36 : Statement .w36 := rfl
theorem w37 : Statement .w37 := rfl
theorem w38 : Statement .w38 := rfl
theorem w39 : Statement .w39 := rfl
theorem w40 : Statement .w40 := rfl
theorem w41 : Statement .w41 := rfl
theorem w42 : Statement .w42 := rfl
theorem w43 : Statement .w43 := rfl
theorem w44 : Statement .w44 := rfl
theorem w45 : Statement .w45 := rfl
theorem w46 : Statement .w46 := rfl
theorem w47 : Statement .w47 := rfl
theorem w48 : Statement .w48 := rfl
theorem w49 : Statement .w49 := rfl
theorem w50 : Statement .w50 := rfl
theorem w51 : Statement .w51 := rfl
theorem w52 : Statement .w52 := rfl
theorem w53 : Statement .w53 := rfl
theorem w54 : Statement .w54 := rfl
theorem w55 : Statement .w55 := rfl
theorem w56 : Statement .w56 := rfl
theorem w57 : Statement .w57 := rfl
theorem w58 : Statement .w58 := rfl
theorem w59 : Statement .w59 := rfl
theorem w60 : Statement .w60 := rfl
theorem w61 : Statement .w61 := rfl
theorem w62 : Statement .w62 := rfl
theorem w63 : Statement .w63 := rfl
theorem mw64 : Statement .mw64 := rfl
theorem mw128 : Statement .mw128 := rfl
theorem mw192 : Statement .mw192 := rfl
theorem mw256 : Statement .mw256 := rfl
theorem mw320 : Statement .mw320 := rfl
theorem mw384 : Statement .mw384 := rfl
theorem mw448 : Statement .mw448 := rfl
theorem mw512 : Statement .mw512 := rfl
theorem mw576 : Statement .mw576 := rfl
theorem mw640 : Statement .mw640 := rfl
theorem mw704 : Statement .mw704 := rfl
theorem mw768 : Statement .mw768 := rfl
theorem mw832 : Statement .mw832 := rfl
theorem mw896 : Statement .mw896 := rfl
theorem mw960 : Statement .mw960 := rfl
theorem mw1024 : Statement .mw1024 := rfl
theorem mw1088 : Statement .mw1088 := rfl
theorem mw1152 : Statement .mw1152 := rfl
theorem mw1216 : Statement .mw1216 := rfl
theorem mw1280 : Statement .mw1280 := rfl
theorem mw1344 : Statement .mw1344 := rfl
theorem mw1408 : Statement .mw1408 := rfl
theorem mw1472 : Statement .mw1472 := rfl
theorem mw1536 : Statement .mw1536 := rfl
theorem mw1600 : Statement .mw1600 := rfl
theorem mw1664 : Statement .mw1664 := rfl
theorem mw1728 : Statement .mw1728 := rfl
theorem b0 : Statement .b0 := rfl
theorem b1 : Statement .b1 := rfl
theorem b2 : Statement .b2 := rfl
theorem b3 : Statement .b3 := rfl
theorem b4 : Statement .b4 := rfl
theorem b5 : Statement .b5 := rfl
theorem b6 : Statement .b6 := rfl
theorem b7 : Statement .b7 := rfl
theorem b8 : Statement .b8 := rfl
theorem b9 : Statement .b9 := rfl
theorem b10 : Statement .b10 := rfl
theorem b11 : Statement .b11 := rfl
theorem b12 : Statement .b12 := rfl
theorem b13 : Statement .b13 := rfl
theorem b14 : Statement .b14 := rfl
theorem b15 : Statement .b15 := rfl
theorem b16 : Statement .b16 := rfl
theorem b17 : Statement .b17 := rfl
theorem b18 : Statement .b18 := rfl
theorem b19 : Statement .b19 := rfl
theorem b20 : Statement .b20 := rfl
theorem b21 : Statement .b21 := rfl
theorem b22 : Statement .b22 := rfl
theorem b23 : Statement .b23 := rfl
theorem b24 : Statement .b24 := rfl
theorem b25 : Statement .b25 := rfl
theorem b26 : Statement .b26 := rfl
theorem b27 : Statement .b27 := rfl
theorem b28 : Statement .b28 := rfl
theorem b29 : Statement .b29 := rfl
theorem b30 : Statement .b30 := rfl
theorem b31 : Statement .b31 := rfl
theorem b32 : Statement .b32 := rfl
theorem b33 : Statement .b33 := rfl
theorem b34 : Statement .b34 := rfl
theorem b35 : Statement .b35 := rfl
theorem b36 : Statement .b36 := rfl
theorem b37 : Statement .b37 := rfl
theorem b38 : Statement .b38 := rfl
theorem b39 : Statement .b39 := rfl
theorem b40 : Statement .b40 := rfl
theorem b41 : Statement .b41 := rfl
theorem b42 : Statement .b42 := rfl
theorem b43 : Statement .b43 := rfl
theorem b44 : Statement .b44 := rfl
theorem b45 : Statement .b45 := rfl
theorem b46 : Statement .b46 := rfl
theorem b47 : Statement .b47 := rfl
theorem b48 : Statement .b48 := rfl
theorem b49 : Statement .b49 := rfl
theorem b50 : Statement .b50 := rfl
theorem b51 : Statement .b51 := rfl
theorem b52 : Statement .b52 := rfl
theorem b53 : Statement .b53 := rfl
theorem b54 : Statement .b54 := rfl
theorem b55 : Statement .b55 := rfl
theorem b56 : Statement .b56 := rfl
theorem b57 : Statement .b57 := rfl
theorem b58 : Statement .b58 := rfl
theorem b59 : Statement .b59 := rfl
theorem b60 : Statement .b60 := rfl
theorem b61 : Statement .b61 := rfl
theorem b62 : Statement .b62 := rfl
theorem b63 : Statement .b63 := rfl
theorem mb64 : Statement .mb64 := rfl
theorem mb128 : Statement .mb128 := rfl
theorem mb192 : Statement .mb192 := rfl
theorem mb256 : Statement .mb256 := rfl
theorem mb320 : Statement .mb320 := rfl
theorem mb384 : Statement .mb384 := rfl
theorem mb448 : Statement .mb448 := rfl
theorem mb512 : Statement .mb512 := rfl
theorem mb576 : Statement .mb576 := rfl
theorem mb640 : Statement .mb640 := rfl
theorem mb704 : Statement .mb704 := rfl
theorem mb768 : Statement .mb768 := rfl
theorem mb832 : Statement .mb832 := rfl
theorem mb896 : Statement .mb896 := rfl
theorem mb960 : Statement .mb960 := rfl
theorem mb1024 : Statement .mb1024 := rfl
theorem mb1088 : Statement .mb1088 := rfl
theorem mb1152 : Statement .mb1152 := rfl
theorem mb1216 : Statement .mb1216 := rfl
theorem mb1280 : Statement .mb1280 := rfl
theorem mb1344 : Statement .mb1344 := rfl
theorem mb1408 : Statement .mb1408 := rfl
theorem mb1472 : Statement .mb1472 := rfl
theorem mb1536 : Statement .mb1536 := rfl
theorem mb1600 : Statement .mb1600 := rfl
theorem mb1664 : Statement .mb1664 := rfl
theorem mb1728 : Statement .mb1728 := rfl
theorem mx1792 : Statement .mx1792 := rfl
theorem mx1856 : Statement .mx1856 := rfl
theorem mx1920 : Statement .mx1920 := rfl
theorem mx1984 : Statement .mx1984 := rfl
theorem mx2048 : Statement .mx2048 := rfl
theorem mx2112 : Statement .mx2112 := rfl
theorem mx2176 : Statement .mx2176 := rfl
theorem mx2240 : Statement .mx2240 := rfl
theorem mx2304 : Statement .mx2304 := rfl
theorem mx2368 : Statement .mx2368 := rfl
theorem mx2432 : Statement .mx2432 := rfl
theorem mx2496 : Statement .mx2496 := rfl
theorem mx2560 : Statement .mx2560 := rfl
theorem eol : Statement .eol := rfl
theorem fillBit : Statement .fillBit := rfl
theorem v0 : Statement .v0 := rfl
theorem vr1 : Statement .vr1 := rfl
theorem vl1 : Statement .vl1 := rfl
theorem h : Statement .h := rfl
theorem p : Statement .p := rfl
theorem vr2 : Statement .vr2 := rfl
theorem vl2 : Statement .vl2 := rfl
theorem vr3 : Statement .vr3 := rfl
theorem vl3 : Statement .vl3 := rfl
theorem ext2d : Statement .ext2d := rfl
theorem ext1d : Statement .ext1d := rfl
theorem t1 : Statement .t1 := rfl
theorem t0 : Statement .t0 := rfl
theorem reset : Statement .reset := rfl
theorem start : Statement .start := rfl
theorem hasBits (n : Nat) : Statement (.hasBits n) := rfl
theorem peekBits (n : Nat) : Statement (.peekBits n) := rfl
theorem getBits (n : Nat) : Statement (.getBits n) := rfl
theorem clearBits (n : Nat) : Statement (.clearBits n) := rfl
theorem look (n : Nat) : Statement (.look n) := rfl
theorem byteAlign : Statement .byteAlign := rfl
theorem wordAlign : Statement .wordAlign := rfl
theorem reverseBits : Statement .reverseBits := rfl
theorem drain : Statement .drain := rfl
theorem putBits (v : Nat) (n : Nat) : Statement (.putBits v n) := rfl
theorem putAlign : Statement .putAlign := rfl
theorem finish : Statement .finish := rfl
theorem decodeRun (colour : Colour) : Statement (.decodeRun colour) := rfl
theorem decodeMode : Statement .decodeMode := rfl
theorem termCode (colour : Colour) (n : Nat) : Statement (.termCode colour n) := rfl
theorem makeupCode (colour : Colour) (m : Nat) : Statement (.makeupCode colour m) := rfl
theorem modeCode (m : ModeName) : Statement (.modeCode m) := rfl
theorem decodeStep : Statement .decodeStep := rfl
theorem fillPixels (colour : Colour) (x0 : Nat) (x1 : Nat) : Statement (.fillPixels colour x0 x1) := rfl
theorem fillRun (n : Nat) : Statement (.fillRun n) := rfl
theorem padRow : Statement .padRow := rfl
theorem closeRow (align : Bool) : Statement (.closeRow align) := rfl
theorem onEOL : Statement .onEOL := rfl
theorem onError : Statement .onError := rfl
theorem onEOD (fromMode : Bool) : Statement (.onEOD fromMode) := rfl
theorem record (pos : Nat) : Statement (.record pos) := rfl
theorem findB : Statement .findB := rfl
theorem modeStep : Statement .modeStep := rfl
theorem countPixels (colour : Colour) (max : Nat) : Statement (.countPixels colour max) := rfl
theorem selectMode (posA1 : Nat) (posB1 : Nat) (posB2 : Nat) : Statement (.selectMode posA1 posB1 posB2) := rfl
theorem encodeStepG4 : Statement .encodeStepG4 := rfl
theorem putRun (colour : Colour) (n : Nat) : Statement (.putRun colour n) := rfl
theorem encodeRowG31D : Statement .encodeRowG31D := rfl

end Sys2Proof.Laws.CodeLength
end

