-- ==== Sys2Proof/Tests/Slice0.lean ====
section
/-! SUPPORT. The model's own tests: the well-formedness checks, the decoding of every row's word as `spec/30_encoding.md`
prints it, single steps on the examples of the rules, and for every obligation with hypotheses a state and operands that meet
them all. Every expected value is the spec's. -/

namespace Sys2Proof.Tests

open Sys2Proof.Machine

/-! ### WellFormed: one ill-formed term for each check (U1, U3, U4; log 5) -/

theorem test_wf_hasBits : (Instr.hasBits 32).wellFormed = true ∧ (Instr.hasBits 33).wellFormed = false := by decide
theorem test_wf_peekBits : (Instr.peekBits 32).wellFormed = true ∧ (Instr.peekBits 33).wellFormed = false := by decide
theorem test_wf_getBits : (Instr.getBits 32).wellFormed = true ∧ (Instr.getBits 33).wellFormed = false := by decide
theorem test_wf_clearBits : (Instr.clearBits 40).wellFormed = true ∧ (Instr.clearBits 41).wellFormed = false := by decide
theorem test_wf_look : (Instr.look 32).wellFormed = true ∧ (Instr.look 33).wellFormed = false := by decide
theorem test_wf_putBits : (Instr.putBits 7 3).wellFormed = true ∧ (Instr.putBits 8 3).wellFormed = false ∧
    (Instr.putBits 0 33).wellFormed = false := by decide
theorem test_wf_termCode : (Instr.termCode .white 63).wellFormed = true ∧
    (Instr.termCode .white 64).wellFormed = false := by decide
theorem test_wf_makeupCode : (Instr.makeupCode .white 2560).wellFormed = true ∧
    (Instr.makeupCode .white 0).wellFormed = false ∧ (Instr.makeupCode .white 2624).wellFormed = false ∧
    (Instr.makeupCode .black 65).wellFormed = false := by decide
theorem test_wf_modeCode : (Instr.modeCode (.vertical (-3))).wellFormed = true ∧
    (Instr.modeCode (.vertical 4)).wellFormed = false ∧ (Instr.modeCode (.vertical (-4))).wellFormed = false ∧
    (Instr.modeCode .ext1d).wellFormed = false ∧ (Instr.modeCode .ext2d).wellFormed = false := by decide
theorem test_wf_fill : (Instr.fillPixels .black 3 3).wellFormed = true ∧
    (Instr.fillPixels .black 4 3).wellFormed = false ∧ (Instr.fillPixels .black 0 4294967296).wellFormed = false := by decide
theorem test_wf_fillRun : (Instr.fillRun 4294967296).wellFormed = false := by decide
theorem test_wf_record : (Instr.record 4294967296).wellFormed = false := by decide
theorem test_wf_countPixels : (Instr.countPixels .white 4294967296).wellFormed = false := by decide
theorem test_wf_selectMode : (Instr.selectMode 4294967296 0 0).wellFormed = false ∧
    (Instr.selectMode 0 4294967296 0).wellFormed = false ∧ (Instr.selectMode 0 0 4294967296).wellFormed = false := by decide
theorem test_wf_putRun : (Instr.putRun .white 4294967296).wellFormed = false := by decide

/-! ### Decoding: every word as the tables print it, followed by zeros and by ones -/

/-- Each listed codeword (pattern, length, instruction) is read in the context, whatever follows it. -/
def readAs (context : Context) (rows : List (Nat × Nat × Instr)) : Bool :=
  rows.all fun r =>
    let word := r.1 <<< (context.width - r.2.1)
    decide (decodeWindow context word context.width = .ok r.2.2) &&
    decide (decodeWindow context (word + (2 ^ (context.width - r.2.1) - 1)) context.width = .ok r.2.2)

/-- R93: the words of the table, white context. -/
theorem test_decode_white_terminating_a : readAs .white [
  (0b00110101, 8, .w0), (0b000111, 6, .w1), (0b0111, 4, .w2), (0b1000, 4, .w3),
  (0b1011, 4, .w4), (0b1100, 4, .w5), (0b1110, 4, .w6), (0b1111, 4, .w7),
  (0b10011, 5, .w8), (0b10100, 5, .w9), (0b00111, 5, .w10), (0b01000, 5, .w11),
  (0b001000, 6, .w12), (0b000011, 6, .w13), (0b110100, 6, .w14), (0b110101, 6, .w15),
  (0b101010, 6, .w16), (0b101011, 6, .w17), (0b0100111, 7, .w18), (0b0001100, 7, .w19),
  (0b0001000, 7, .w20), (0b0010111, 7, .w21), (0b0000011, 7, .w22), (0b0000100, 7, .w23),
  (0b0101000, 7, .w24), (0b0101011, 7, .w25), (0b0010011, 7, .w26), (0b0100100, 7, .w27),
  (0b0011000, 7, .w28), (0b00000010, 8, .w29), (0b00000011, 8, .w30), (0b00011010, 8, .w31)] = true := by
  decide

/-- R93: the words of the table, white context. -/
theorem test_decode_white_terminating_b : readAs .white [
  (0b00011011, 8, .w32), (0b00010010, 8, .w33), (0b00010011, 8, .w34), (0b00010100, 8, .w35),
  (0b00010101, 8, .w36), (0b00010110, 8, .w37), (0b00010111, 8, .w38), (0b00101000, 8, .w39),
  (0b00101001, 8, .w40), (0b00101010, 8, .w41), (0b00101011, 8, .w42), (0b00101100, 8, .w43),
  (0b00101101, 8, .w44), (0b00000100, 8, .w45), (0b00000101, 8, .w46), (0b00001010, 8, .w47),
  (0b00001011, 8, .w48), (0b01010010, 8, .w49), (0b01010011, 8, .w50), (0b01010100, 8, .w51),
  (0b01010101, 8, .w52), (0b00100100, 8, .w53), (0b00100101, 8, .w54), (0b01011000, 8, .w55),
  (0b01011001, 8, .w56), (0b01011010, 8, .w57), (0b01011011, 8, .w58), (0b01001010, 8, .w59),
  (0b01001011, 8, .w60), (0b00110010, 8, .w61), (0b00110011, 8, .w62), (0b00110100, 8, .w63)] = true := by
  decide

/-- R94: the words of the table, white context. -/
theorem test_decode_white_makeup : readAs .white [
  (0b11011, 5, .mw64), (0b10010, 5, .mw128), (0b010111, 6, .mw192), (0b0110111, 7, .mw256),
  (0b00110110, 8, .mw320), (0b00110111, 8, .mw384), (0b01100100, 8, .mw448), (0b01100101, 8, .mw512),
  (0b01101000, 8, .mw576), (0b01100111, 8, .mw640), (0b011001100, 9, .mw704), (0b011001101, 9, .mw768),
  (0b011010010, 9, .mw832), (0b011010011, 9, .mw896), (0b011010100, 9, .mw960), (0b011010101, 9, .mw1024),
  (0b011010110, 9, .mw1088), (0b011010111, 9, .mw1152), (0b011011000, 9, .mw1216), (0b011011001, 9, .mw1280),
  (0b011011010, 9, .mw1344), (0b011011011, 9, .mw1408), (0b010011000, 9, .mw1472), (0b010011001, 9, .mw1536),
  (0b010011010, 9, .mw1600), (0b011000, 6, .mw1664), (0b010011011, 9, .mw1728)] = true := by
  decide

/-- R95: the words of the table, black context. -/
theorem test_decode_black_terminating_a : readAs .black [
  (0b0000110111, 10, .b0), (0b010, 3, .b1), (0b11, 2, .b2), (0b10, 2, .b3),
  (0b011, 3, .b4), (0b0011, 4, .b5), (0b0010, 4, .b6), (0b00011, 5, .b7),
  (0b000101, 6, .b8), (0b000100, 6, .b9), (0b0000100, 7, .b10), (0b0000101, 7, .b11),
  (0b0000111, 7, .b12), (0b00000100, 8, .b13), (0b00000111, 8, .b14), (0b000011000, 9, .b15),
  (0b0000010111, 10, .b16), (0b0000011000, 10, .b17), (0b0000001000, 10, .b18), (0b00001100111, 11, .b19),
  (0b00001101000, 11, .b20), (0b00001101100, 11, .b21), (0b00000110111, 11, .b22), (0b00000101000, 11, .b23),
  (0b00000010111, 11, .b24), (0b00000011000, 11, .b25), (0b000011001010, 12, .b26), (0b000011001011, 12, .b27),
  (0b000011001100, 12, .b28), (0b000011001101, 12, .b29), (0b000001101000, 12, .b30), (0b000001101001, 12, .b31)] = true := by
  decide

/-- R95: the words of the table, black context. -/
theorem test_decode_black_terminating_b : readAs .black [
  (0b000001101010, 12, .b32), (0b000001101011, 12, .b33), (0b000011010010, 12, .b34), (0b000011010011, 12, .b35),
  (0b000011010100, 12, .b36), (0b000011010101, 12, .b37), (0b000011010110, 12, .b38), (0b000011010111, 12, .b39),
  (0b000001101100, 12, .b40), (0b000001101101, 12, .b41), (0b000011011010, 12, .b42), (0b000011011011, 12, .b43),
  (0b000001010100, 12, .b44), (0b000001010101, 12, .b45), (0b000001010110, 12, .b46), (0b000001010111, 12, .b47),
  (0b000001100100, 12, .b48), (0b000001100101, 12, .b49), (0b000001010010, 12, .b50), (0b000001010011, 12, .b51),
  (0b000000100100, 12, .b52), (0b000000110111, 12, .b53), (0b000000111000, 12, .b54), (0b000000100111, 12, .b55),
  (0b000000101000, 12, .b56), (0b000001011000, 12, .b57), (0b000001011001, 12, .b58), (0b000000101011, 12, .b59),
  (0b000000101100, 12, .b60), (0b000001011010, 12, .b61), (0b000001100110, 12, .b62), (0b000001100111, 12, .b63)] = true := by
  decide

/-- R96: the words of the table, black context. -/
theorem test_decode_black_makeup : readAs .black [
  (0b0000001111, 10, .mb64), (0b000011001000, 12, .mb128), (0b000011001001, 12, .mb192), (0b000001011011, 12, .mb256),
  (0b000000110011, 12, .mb320), (0b000000110100, 12, .mb384), (0b000000110101, 12, .mb448), (0b0000001101100, 13, .mb512),
  (0b0000001101101, 13, .mb576), (0b0000001001010, 13, .mb640), (0b0000001001011, 13, .mb704), (0b0000001001100, 13, .mb768),
  (0b0000001001101, 13, .mb832), (0b0000001110010, 13, .mb896), (0b0000001110011, 13, .mb960), (0b0000001110100, 13, .mb1024),
  (0b0000001110101, 13, .mb1088), (0b0000001110110, 13, .mb1152), (0b0000001110111, 13, .mb1216), (0b0000001010010, 13, .mb1280),
  (0b0000001010011, 13, .mb1344), (0b0000001010100, 13, .mb1408), (0b0000001010101, 13, .mb1472), (0b0000001011010, 13, .mb1536),
  (0b0000001011011, 13, .mb1600), (0b0000001100100, 13, .mb1664), (0b0000001100101, 13, .mb1728)] = true := by
  decide

/-- R97: the words of the table, white context. -/
theorem test_decode_extended_white : readAs .white [
  (0b00000001000, 11, .mx1792), (0b00000001100, 11, .mx1856), (0b00000001101, 11, .mx1920), (0b000000010010, 12, .mx1984),
  (0b000000010011, 12, .mx2048), (0b000000010100, 12, .mx2112), (0b000000010101, 12, .mx2176), (0b000000010110, 12, .mx2240),
  (0b000000010111, 12, .mx2304), (0b000000011100, 12, .mx2368), (0b000000011101, 12, .mx2432), (0b000000011110, 12, .mx2496),
  (0b000000011111, 12, .mx2560)] = true := by
  decide

/-- R97: the words of the table, black context. -/
theorem test_decode_extended_black : readAs .black [
  (0b00000001000, 11, .mx1792), (0b00000001100, 11, .mx1856), (0b00000001101, 11, .mx1920), (0b000000010010, 12, .mx1984),
  (0b000000010011, 12, .mx2048), (0b000000010100, 12, .mx2112), (0b000000010101, 12, .mx2176), (0b000000010110, 12, .mx2240),
  (0b000000010111, 12, .mx2304), (0b000000011100, 12, .mx2368), (0b000000011101, 12, .mx2432), (0b000000011110, 12, .mx2496),
  (0b000000011111, 12, .mx2560)] = true := by
  decide
/-- R98, R99: EOL and the fill window in both run contexts. -/
theorem test_decode_sync : readAs .white [(0b000000000001, 12, .eol), (0b000000000000, 12, .fillBit)] = true ∧
    readAs .black [(0b000000000001, 12, .eol), (0b000000000000, 12, .fillBit)] = true := by decide

/-- R100: the mode codes. -/
theorem test_decode_mode : readAs .mode [
  (0b1, 1, .v0), (0b011, 3, .vr1), (0b010, 3, .vl1), (0b001, 3, .h), (0b0001, 4, .p), (0b000011, 6, .vr2),
  (0b000010, 6, .vl2), (0b0000011, 7, .vr3), (0b0000010, 7, .vl3), (0b0000001, 7, .ext2d), (0b0000000, 7, .ext1d)] = true := by
  decide

/-- R105: the tag bit. -/
theorem test_decode_tag : decodeTag true = .t1 ∧ decodeTag false = .t0 := by decide

/-- R108: the job layer's and the cursor's OPSEL codes. -/
theorem test_decode_cursor_commands :
    [decodeSelect 0x00 0 0 0, decodeSelect 0x01 0 0 0, decodeSelect 0x10 12 0 0, decodeSelect 0x11 12 0 0,
     decodeSelect 0x12 12 0 0, decodeSelect 0x13 12 0 0, decodeSelect 0x14 12 0 0, decodeSelect 0x15 0 0 0,
     decodeSelect 0x16 0 0 0, decodeSelect 0x17 0 0 0, decodeSelect 0x18 0 0 0, decodeSelect 0x19 5 3 0,
     decodeSelect 0x1A 0 0 0, decodeSelect 0x1B 0 0 0] =
    [.ok .reset, .ok .start, .ok (.hasBits 12), .ok (.peekBits 12), .ok (.getBits 12), .ok (.clearBits 12), .ok (.look 12),
     .ok .byteAlign, .ok .wordAlign, .ok .reverseBits, .ok .drain, .ok (.putBits 5 3), .ok .putAlign, .ok .finish] := by
  decide

/-- R108: the code tables' and the decoder's OPSEL codes. -/
theorem test_decode_decoder_commands :
    [decodeSelect 0x20 1 0 0, decodeSelect 0x21 0 0 0, decodeSelect 0x22 1 8 0, decodeSelect 0x23 0 64 0,
     decodeSelect 0x24 2 0xFFFFFFFD 0, decodeSelect 0x30 0 0 0, decodeSelect 0x31 1 3 5, decodeSelect 0x32 70 0 0,
     decodeSelect 0x33 0 0 0, decodeSelect 0x34 1 0 0, decodeSelect 0x35 0 0 0, decodeSelect 0x36 0 0 0,
     decodeSelect 0x37 1 0 0, decodeSelect 0x38 3 0 0, decodeSelect 0x40 0 0 0, decodeSelect 0x41 0 0 0] =
    [.ok (.decodeRun .black), .ok .decodeMode, .ok (.termCode .black 8), .ok (.makeupCode .white 64),
     .ok (.modeCode (.vertical (-3))), .ok .decodeStep, .ok (.fillPixels .black 3 5), .ok (.fillRun 70), .ok .padRow,
     .ok (.closeRow true), .ok .onEOL, .ok .onError, .ok (.onEOD true), .ok (.record 3), .ok .findB, .ok .modeStep] := by
  decide

/-- R108: the encoder's OPSEL codes, and a code and a colour word without a meaning. -/
theorem test_decode_encoder_commands :
    [decodeSelect 0x50 0 8 0, decodeSelect 0x51 3 3 5, decodeSelect 0x52 0 0 0, decodeSelect 0x53 1 70 0,
     decodeSelect 0x54 0 0 0, decodeSelect 0x55 0 0 0, decodeSelect 0x20 2 0 0] =
    [.ok (.countPixels .white 8), .ok (.selectMode 3 3 5), .ok .encodeStepG4, .ok (.putRun .black 70), .ok .encodeRowG31D,
     .reject .reservedSelect, .reject .reservedOperand] := by
  decide

/-- R102: a window of eight zeros and then 0010 is no codeword in either run context. -/
theorem test_decode_error_window : decodeWindow .white 0b0000000000100 13 = .reject .noCodeword ∧
    decodeWindow .black 0b0000000011111 13 = .reject .noCodeword := by decide

/-- R162, R169: a codeword that does not lie in the real bits is none. -/
theorem test_decode_short_window : decodeWindow .white 0b0010000000000 3 = .reject .noCodeword ∧
    decodeWindow .white 0b0111000000000 4 = .ok .w2 ∧ decodeWindow .mode 0b0100000 2 = .reject .noCodeword ∧
    decodeWindow .mode 0b1000000 1 = .ok .v0 := by decide

/-- The host's numbering of a table word (log 16). -/
theorem test_table_word : decodeTableWord 16 0x06A0 = some .w0 ∧ decodeTableWord 8 0x53 = some (.putRun .white 0) ∧
    decodeTableWord 16 0x0080 = some .vl3 := by decide

/-! ### Small states -/

/-- A memory that holds `bytes` from address 0 on. -/
def memory (bank : Bank) (bytes : List Byte) : Memory := { bank := bank, cells := (List.range bytes.length).zip bytes }

/-- A block at rest: W = 8, H = 2, the three bytes of SRC of `spec/40_bitcursor.md` (35 80 01), two bytes of DST. -/
def unitState : State :=
  { State.reset with
    cfg := { op := 0, width := 8, height := 2, flags := 0, options := 0, srcLen := 3, dstCap := 2 }
    src := memory .src [0x35, 0x80, 0x01]
    reader := { buf := 0, cnt := 0, consumed := 0, len := 3, rev := false }
    capRows := 2 }

/-- A running decode job at the start of row 0, W = 8, H = 2, with the given job, FLAGS, G32D and SRC bytes. -/
def decodeJob (op : BitVec 2) (flags : BitVec 6) (options : BitVec 1) (mode : LineMode) (bytes : List Byte) : State :=
  { State.reset with
    cfg := { op := op, width := 8, height := 2, flags := flags, options := options, srcLen := BitVec.ofNat 32 bytes.length, dstCap := 2 }
    status := { State.reset.status with state := .run }
    src := memory .src bytes
    reader := { buf := 0, cnt := 0, consumed := 0, len := bytes.length, rev := false }
    atStart := true
    lineMode := mode
    capRows := 2 }

/-- A running DECODE_G3 job (G3_1D) over `W3 B2 W3` = 1000 11 1000 (bytes 8E 00) and one byte more. -/
def g3Job : State := decodeJob 0 0 0 .l1d [0x8E, 0x00, 0x00]

/-- A running DECODE_G4 job over `V0 V0 ...` (bytes FF FF FF). -/
def g4Job : State := decodeJob 1 0 0 .l2d [0xFF, 0xFF, 0xFF]

/-- A running encode job over the raster row `18`, W = 8, H = 1, at the start of its row. -/
def encodeJob (op : BitVec 2) (cap : Nat) : State :=
  { State.reset with
    cfg := { op := op, width := 8, height := 1, flags := 4, options := 0, srcLen := 1, dstCap := BitVec.ofNat 32 cap }
    status := { State.reset.status with state := .run }
    src := memory .src [0x18]
    reader := { buf := 0, cnt := 0, consumed := 0, len := 1, rev := false }
    atStart := true }

/-- A fixed destination that has no room for the row: DEST_FIXED = 1, DST_CAP = 0. -/
def noRoom (s : State) : State := { s with cfg := { s.cfg with flags := s.cfg.flags ||| 32, dstCap := 0 }, capRows := 0 }

/-- What holds of the next state an outcome answers. -/
def nextIs (o : Host.Outcome State Fault Refusal) (p : State → Bool) : Bool :=
  match o with
  | .next t => p t
  | _ => false

/-! ### Single steps, from the examples of the rules -/

/-- R131: `hasBits(12)` pulls two bytes: buf = 3580000000, cnt = 16, consumed = 2, true. -/
theorem test_hasBits_refills : nextIs (exec (.hasBits 12) unitState) (fun t =>
    decide (t.reader.buf = 0x3580000000#40 ∧ t.reader.cnt = 16 ∧ t.reader.consumed = 2 ∧ t.result = .flag true)) = true := by
  decide

/-- R133: `peekBits(13)` on the fresh cursor is 06B0 and consumes nothing. -/
theorem test_peekBits : nextIs (exec (.peekBits 13) unitState) (fun t =>
    decide (t.result = .bits 0x06B0 ∧ t.reader.position = 0)) = true := by decide

/-- R141: with `rev = 1` the stream reads AC 01 80. -/
theorem test_reverseBits : nextIs (exec .reverseBits unitState) (fun t =>
    nextIs (exec (.peekBits 24) t) fun u => decide (u.result = .bits 0xAC0180)) = true := by decide

/-- R144: after `001`, `putBits(00110101, 8)` completes DST[0] = 26 and leaves wacc = A0, wn = 3. -/
theorem test_putBits : nextIs (exec (.putBits 0b00110101 8) { unitState with writer := { wacc := 0x20, wn := 3, wlen := 0 } })
    (fun t => decide (t.dst.read 0 = 0x26 ∧ t.writer = { wacc := 0xA0, wn := 3, wlen := 1 })) = true := by decide

/-- R144: `putBits` of 13 bits at wlen = 1, DST_CAP = 2 writes the one byte that fits, and the overflow leaves STATUS as it
was, no job being in RUN (R314, log 25). -/
theorem test_putBits_overflow : nextIs (exec (.putBits 0b1111100000000 13)
    { unitState with writer := { wacc := 0x20, wn := 3, wlen := 1 } }) (fun t =>
    decide (t.dst.read 1 = 0x3F ∧ t.writer.wlen = 2 ∧ t.status = unitState.status ∧ t.result = .raised .capacity)) = true := by
  decide

/-- R181: the first step over `W3 B2 W3` fills three white pixels: the row is FF, a0 = 3, black next. -/
theorem test_step_w3 : nextIs (step g3Job) (fun t =>
    decide (t.dst.read 0 = 0xFF ∧ t.a0 = 3 ∧ t.c = .black ∧ t.cur = [3] ∧ t.reader.position = 4)) = true := by decide

/-- R186: `Fill(BLACK, 3, 5)` on a fresh row gives E7, with `blackIs1 = 1` 18. -/
theorem test_fill : nextIs (exec (.fillPixels .black 3 5) unitState) (fun t => decide (t.dst.read 0 = 0xE7)) = true ∧
    nextIs (exec (.fillPixels .black 3 5) { unitState with cfg := { unitState.cfg with flags := 4 } })
      (fun t => decide (t.dst.read 0 = 0x18)) = true := by decide

/-- R187: `Record(3)` cancels an equal last entry. -/
theorem test_record_cancels : nextIs (exec (.record 3) { unitState with cur := [1, 3] })
    (fun t => decide (t.cur = [1])) = true := by decide

/-- R226: with ref = [1, 2] at the row start `VL3` clamps to 0: no pixel, cur = [0], black next. -/
theorem test_step_vl3 : nextIs (step { decodeJob 1 0 0 .l2d [0b00000101] with ref := [1, 2] }) (fun t =>
    decide (t.a0 = 0 ∧ t.cur = [0] ∧ t.c = .black ∧ t.atStart = false)) = true := by decide

/-- R224: with ref = [3, 5] at the row start `P` fills pixels 0..4 white, a0 = 5, nothing recorded. -/
theorem test_step_pass : nextIs (step { decodeJob 1 0 0 .l2d [0x10] with ref := [3, 5] }) (fun t =>
    decide (t.a0 = 5 ∧ t.c = .white ∧ t.cur = [] ∧ t.dst.read 0 = 0xFF)) = true := by decide

/-- R229: `EOL EOL` at a row start of a G4 job with HAS_EOB stops with EOB. -/
theorem test_step_eofb : nextIs (step (decodeJob 1 16 0 .l2d [0x00, 0x10, 0x01])) (fun t =>
    decide (t.status.state = .done ∧ t.status.stop = .eob ∧ t.reader.position = 24)) = true := by decide

/-- R222: with ref = [3, 5] at a0 = 3, BLACK, FindB = (5, 8). -/
theorem test_findB : nextIs (exec .findB { unitState with ref := [3, 5], a0 := 3, c := .black }) (fun t =>
    decide (t.result = .positions 5 8)) = true := by decide

/-- R254: raster byte 18: three white pixels (BLACK_IS_1). -/
theorem test_countPixels : nextIs (exec (.countPixels .white 8) { encodeJob 2 9 with status := State.reset.status }) (fun t =>
    decide (t.result = .count 3 ∧ t.reader.position = 3)) = true := by decide

/-- R258: row 18 on an all-white reference: the first step emits `H W3 B2` = 001 1000 11 and a0 = 5. -/
theorem test_step_encodeG4 : nextIs (step (encodeJob 2 9)) (fun t =>
    decide (t.dst.read 0 = 0b00110001 ∧ t.writer = { wacc := 0x80, wn := 1, wlen := 1 } ∧ t.a0 = 5 ∧ t.c = .white ∧
      t.a1 = 3 ∧ t.a2 = 5 ∧ t.b1 = 8 ∧ t.b2 = 8)) = true := by decide

/-- R265: row 18 one-dimensionally: `W3 B2 W3` = 1000 11 10 00. -/
theorem test_encodeRow : nextIs (exec .encodeRowG31D { encodeJob 3 9 with status := State.reset.status }) (fun t =>
    decide (t.dst.read 0 = 0x8E ∧ t.writer.wn = 2)) = true := by decide

/-- R303, R305: width 0 and a raster too small are refused by START with codes 1 and 2. -/
theorem test_start_faults : nextIs (exec .start { unitState with cfg := { unitState.cfg with width := 0 } })
      (fun t => decide (t.status.state = .fault ∧ t.status.faultCode = .config)) = true ∧
    nextIs (exec .start { unitState with cfg := { unitState.cfg with op := 2, srcLen := 1 } })
      (fun t => decide (t.status.state = .fault ∧ t.status.faultCode = .size)) = true := by decide

/-- Log 16: the host's placing of a table word makes the next step run it. -/
theorem test_withFetchWord : nextIs (step (State.reset.withFetchWord 16 0x1300)) (fun t =>
    decide (t.hphase = 0 ∧ t.a0 = 8 ∧ t.c = .black)) = true := by decide

/-! ### Witnesses: for each obligation with hypotheses, a state and operands that meet them all -/

/-- `r` is `s.reader` after a move of `k` bits, as a check. -/
theorem moved_of {src : Memory} {r r' : Reader} {k : Nat} (h : r'.Ok src ∧ r'.position = r.position + k ∧ r'.len = r.len ∧
    r'.rev = r.rev) : r.Moved src k r' := ⟨h.1, h.2.1, h.2.2.1, h.2.2.2⟩

theorem g3Job_decodeOk : g3Job.DecodeOk := by constructor <;> decide

theorem encodeG4Job_ok : (encodeJob 2 9).EncodeOk := by constructor <;> decide

theorem encodeG31DJob_ok : (encodeJob 3 9).EncodeOk := by constructor <;> decide

theorem test_witness_encodeDecodeRoundTrip : (Instr.w0).WellFormed ∧ (Instr.putBits 7 3).WellFormed ∧
    (Instr.modeCode (.vertical (-3))).WellFormed := by decide

/-- MX2560 fills 12 of 13 bits; B512's neighbour MB576 all 13; VL3 all 7. -/
theorem test_witness_atMostOneCodeword :
    (⟨.mx2560, 2560, 0b000000011111, 12⟩ ∈ runSet .black ∧ 0b0000000111111 < 2 ^ 13 ∧ 12 ≤ 13 ∧
      0b0000000111111 >>> (13 - 12) = 0b000000011111) ∧
    (⟨.mb576, 576, 0b0000001101101, 13⟩ ∈ runSet .black ∧ 0b0000001101101 >>> (13 - 13) = 0b0000001101101) ∧
    (⟨.vl3, .vertical (-3), 0b0000010, 7⟩ ∈ modeSet ∧ 0b0000010 >>> (7 - 7) = 0b0000010) := by decide

theorem test_witness_fullWindows : 8191 < 2 ^ 13 ∧ 127 < 2 ^ 7 := by decide

theorem test_witness_fetchReadsTheStream : g3Job.reader.Ok g3Job.src := by decide

theorem test_witness_lookupsReadTheStream : unitState.running = false ∧ unitState.reader.Ok unitState.src := by decide

/-- SRC begins with W0's pattern 00110101. -/
theorem test_witness_tablesAreConsistent : unitState.running = false ∧ unitState.reader.Ok unitState.src ∧
    ⟨.w0, 0, 0b00110101, 8⟩ ∈ terminatingTable .white ∧
    (bitsOf 0b00110101 8).isPrefixOf (unitState.reader.rest unitState.src) = true := by decide

/-- The same for a make-up row: MB64's pattern 0000001111. -/
theorem test_witness_tablesAreConsistent_makeup :
    let s := { unitState with src := memory .src [0x03, 0xC0, 0x00] }
    s.running = false ∧ s.reader.Ok s.src ∧ ⟨.mb64, 64, 0b0000001111, 10⟩ ∈ makeupTable .black ∧
    (bitsOf 0b0000001111 10).isPrefixOf (s.reader.rest s.src) = true := by decide

theorem test_witness_encodeLookups : unitState.running = false ∧ 63 ≤ 63 ∧ 63 < 64 ∧ (64 ≤ 2560 ∧ 2560 ≤ 2560 ∧ 2560 % 64 = 0) ∧
    (2624 > 2560 ∧ 65 % 64 ≠ 0 ∧ 0 < 64) ∧
    (ModeName.vertical 3, 0b0000011, 7) ∈ [(ModeName.pass, 0b0001, 4), (.vertical 3, 0b0000011, 7)] ∧
    (ModeName.vertical 4).encodable = false := by decide

/-- n = 24 is all that is left, n = 32 is beyond the data. -/
theorem test_witness_readerLooks : unitState.running = false ∧ unitState.reader.Ok unitState.src ∧ 32 ≤ 32 ∧
    24 ≤ 8 * unitState.reader.len - unitState.reader.position := by decide

/-- The cursor of R135's example: after `hasBits(12)` sixteen bits are buffered. -/
theorem test_witness_readerMoves :
    let s := { unitState with reader := { buf := 0x3580000000, cnt := 16, consumed := 2, len := 3, rev := false } }
    s.running = false ∧ s.reader.Ok s.src ∧ 16 ≤ s.reader.cnt := by decide

/-- Two bytes of DST: sixteen bits fit; with three bits pending the alignment fits, and so does `PutRun(BLACK, 8)`. -/
theorem test_witness_writerAppends : unitState.running = false ∧ unitState.writer.Ok ∧ unitState.dst.wf = true ∧
    (16 ≤ 32 ∧ 65535 < 2 ^ 16 ∧ unitState.RoomForBits 16) ∧ unitState.RoomForBits ((8 - unitState.writer.wn) % 8) ∧
    unitState.RoomForBits (runBits .black 8).length := by decide

/-- At wlen = DST_CAP = 2 with three bits pending no completed byte fits; at wlen = 1 the first of two does. -/
theorem test_witness_writerOverflows :
    let s := { unitState with writer := { wacc := 0x20, wn := 3, wlen := 2 } }
    let u := { unitState with writer := { wacc := 0x20, wn := 3, wlen := 1 } }
    (s.running = false ∧ s.writer.Ok ∧ s.dst.wf = true ∧ (5 ≤ 32 ∧ 31 < 2 ^ 5 ∧ ¬ s.RoomForBits 5) ∧
      ¬ s.RoomForBits ((8 - s.writer.wn) % 8) ∧ ¬ s.RoomForBits (runBits .white 0).length) ∧
    (u.writer.Ok ∧ 13 ≤ 32 ∧ 0b1111100000000 < 2 ^ 13 ∧ ¬ u.RoomForBits 13) := by decide

theorem test_witness_outOfContract : unitState.running = false ∧ 32 < 33 ∧ unitState.reader.Ok unitState.src ∧
    (25 ≤ 32 ∧ 8 * unitState.reader.len - unitState.reader.position < 25) ∧ unitState.reader.cnt < 1 ∧
    2 ^ 3 ≤ 8 ∧ unitState.imageWidth < 9 := by decide

theorem test_witness_unitOperationsAndRun : unitState.decoding = false ∧ unitState.running = false ∧ g3Job.running = true ∧
    encode .w0 = .code .white 0b00110101 8 ∧ encode .t1 = .tag true ∧ decodeSelect 0x10 1 0 0 = .ok (.hasBits 1) ∧
    0x10 ≤ (0x10 : Byte).toNat ∧ decodeSelect 0x52 0 0 0 = .ok .encodeStepG4 := by decide

/-- MB512 needs 13 of the 24 bits left. -/
theorem test_witness_makeUpCodes : ⟨.mb512, 512, 0b0000001101100, 13⟩ ∈ makeupTable .black ∧ g3Job.decoding = true ∧
    g3Job.reader.Ok g3Job.src ∧ 13 ≤ 8 * g3Job.reader.len - g3Job.reader.position ∧ g3Job.afterZero = false := by decide

/-- A run of 7 of 8 pixels, and one that reaches W with two runs owed. -/
theorem test_witness_terminatingFill : ⟨.w7, 7, 0b1111, 4⟩ ∈ terminatingTable .white ∧ g3Job.decoding = true ∧
    g3Job.reader.Ok g3Job.src ∧ 4 ≤ 8 * g3Job.reader.len - g3Job.reader.position ∧ g3Job.afterZero = false ∧
    g3Job.dst.wf = true ∧ g3Job.RoomForRow ∧ g3Job.a0 + (g3Job.acc + 7) < g3Job.imageWidth := by decide

theorem test_witness_terminatingFill_owed :
    let s := { g4Job with hphase := 2 }
    ⟨.w8, 8, 0b10011, 5⟩ ∈ terminatingTable .white ∧ s.decoding = true ∧ s.reader.Ok s.src ∧
    5 ≤ 8 * s.reader.len - s.reader.position ∧ s.afterZero = false ∧ s.dst.wf = true ∧ s.RoomForRow ∧ 2 ≤ s.hphase := by decide

/-- A run of 8 of 8 pixels with none owed, and with the last one owed in the last row. -/
theorem test_witness_terminatingClose : ⟨.w8, 8, 0b10011, 5⟩ ∈ terminatingTable .white ∧ g3Job.decoding = true ∧
    g3Job.reader.Ok g3Job.src ∧ 5 ≤ 8 * g3Job.reader.len - g3Job.reader.position ∧ g3Job.afterZero = false ∧
    g3Job.dst.wf = true ∧ g3Job.RoomForRow ∧ g3Job.imageWidth ≤ g3Job.a0 + (g3Job.acc + 8) ∧ g3Job.hphase ≤ 1 := by decide

theorem test_witness_terminatingClose_last :
    let s := { g4Job with hphase := 1, rows := 1 }
    ⟨.w8, 8, 0b10011, 5⟩ ∈ terminatingTable .white ∧ s.decoding = true ∧ s.reader.Ok s.src ∧ s.afterZero = false ∧
    s.RoomForRow ∧ s.imageWidth ≤ s.a0 + (s.acc + 8) ∧ s.hphase ≤ 1 ∧ s.LastRow := by decide

/-- b1 = 5, d = 2: a1 = 7 < W; b1 = 5, d = 3: a1 = W. -/
theorem test_witness_verticalCodes :
    let s := { g4Job with ref := [5, 6] }
    ⟨.vr2, .vertical 2, 0b000011, 6⟩ ∈ modeSet ∧ ⟨.vr3, .vertical 3, 0b0000011, 7⟩ ∈ modeSet ∧ s.decoding = true ∧
    s.reader.Ok s.src ∧ 7 ≤ 8 * s.reader.len - s.reader.position ∧ s.dst.wf = true ∧ s.RoomForRow ∧
    (min (max ((s.findB.1 : Int) + 2) s.a0) s.imageWidth).toNat < s.imageWidth ∧
    s.imageWidth ≤ (min (max ((s.findB.1 : Int) + 3) s.a0) s.imageWidth).toNat := by decide

/-- b2 = 7 < W, and b2 = W. -/
theorem test_witness_passCode :
    let s := { g4Job with ref := [3, 7] }
    s.decoding = true ∧ s.reader.Ok s.src ∧ 4 ≤ 8 * s.reader.len - s.reader.position ∧ s.dst.wf = true ∧ s.RoomForRow ∧
    s.findB.2 < s.imageWidth ∧ g4Job.decoding = true ∧ g4Job.RoomForRow ∧ g4Job.imageWidth ≤ g4Job.findB.2 := by decide

theorem test_witness_steeringCodes :
    let s := decodeJob 1 0 0 .l2d [0x00, 0x00, 0x00]
    s.decoding = true ∧ s.reader.Ok s.src ∧ 3 ≤ 8 * s.reader.len - s.reader.position ∧
    fillAhead (s.reader.rest s.src) = true := by decide

/-- An EOL at the start of SRC: read by a run lookup at a row start, and behind EXT1D in the middle of a row, also the
last one. -/
theorem test_witness_endOfLine :
    let s := decodeJob 0 0 0 .l1d [0x00, 0x10, 0x00]
    let m := { decodeJob 1 0 0 .l2d [0x00, 0x10, 0x00] with a0 := 3, atStart := false, c := .black, cur := [3], rowOpen := true }
    (s.decoding = true ∧ s.reader.Ok s.src ∧ 12 ≤ 8 * s.reader.len - s.reader.position ∧ s.a0 = 0) ∧
    (m.decoding = true ∧ m.reader.Ok m.src ∧ eolAhead (m.reader.rest m.src) = true ∧ 0 < m.a0 ∧ m.dst.wf = true ∧
      m.RoomForRow ∧ ¬ m.LastRow) ∧ State.LastRow { m with rows := 1 } := by decide

/-- 000000000100 without HAS_EOL; EXT2D; EXT1D before neither fill nor EOL; a run code after a ZERO; OnError at rest. -/
theorem test_witness_errorSkips :
    let s := decodeJob 0 0 0 .l1d [0x00, 0x40, 0x00]
    let m := decodeJob 1 0 0 .l2d [0x00, 0x40, 0x00]
    let z := { s with afterZero := true }
    (s.reader.Ok s.src ∧ s.hasEol = false ∧ s.MeetsError 0 (step s)) ∧
    (m.reader.Ok m.src ∧ m.hasEol = false ∧ m.MeetsError 7 (exec .ext2d m) ∧ m.MeetsError 0 (exec .ext1d m)) ∧
    (z.reader.Ok z.src ∧ z.hasEol = false ∧ z.MeetsError 8 (exec .w0 z)) ∧
    (unitState.reader.Ok unitState.src ∧ unitState.hasEol = false ∧ unitState.running = false) :=
  ⟨⟨by decide, by decide, by decide, .inl ⟨rfl, rfl, by decide, rfl⟩⟩,
    ⟨by decide, by decide, ⟨by decide, .inr (.inl ⟨rfl, by decide, rfl⟩)⟩,
      by decide, .inr (.inr (.inl ⟨rfl, by decide, by decide, rfl⟩))⟩,
    ⟨by decide, by decide, by decide,
      .inr (.inr (.inr ⟨.white, ⟨.w0, 0, 0b00110101, 8⟩, .inl (by decide), rfl, rfl, by decide, rfl⟩))⟩, by decide⟩

/-- The same with HAS_EOL: with an EOL further on, without one, and in the last row. -/
theorem test_witness_errorGivesUp :
    let s := decodeJob 0 8 0 .l1d [0x00, 0x40, 0x00, 0x10]
    let m := decodeJob 1 8 0 .l2d [0x00, 0x40, 0x00]
    (s.reader.Ok s.src ∧ s.hasEol = true ∧ s.dst.wf = true ∧ s.RoomForRow ∧ s.MeetsError 0 (step s) ∧ ¬ s.LastRow ∧
      scanAhead 1 ((s.reader.rest s.src).drop (s.closeMove 0)) = some 16) ∧
    (m.reader.Ok m.src ∧ m.hasEol = true ∧ m.dst.wf = true ∧ m.RoomForRow ∧ m.MeetsError 7 (exec .ext2d m) ∧
      scanAhead 1 ((m.reader.rest m.src).drop (m.closeMove 7)) = none) ∧ State.LastRow { m with rows := 1 } :=
  ⟨⟨by decide, by decide, by decide, by decide, ⟨by decide, .inl ⟨rfl, rfl, by decide, rfl⟩⟩, by decide, by decide⟩,
    ⟨by decide, by decide, by decide, by decide, ⟨by decide, .inr (.inl ⟨rfl, by decide, rfl⟩)⟩, by decide⟩, by decide⟩

/-- No data: at a row start, in the middle of a row, lenient at the start of the last G32D row, and at rest. -/
theorem test_witness_endOfData :
    let s := decodeJob 0 0 0 .l1d []
    let m := { s with a0 := 3, atStart := false, c := .black, cur := [3], rowOpen := true }
    let l := { decodeJob 0 0 1 .l2d [] with rows := 1 }
    (s.reader.Ok s.src ∧ s.decoding = true ∧ s.commands = [] ∧ s.reader.rest s.src = [] ∧ s.a0 = 0 ∧
      ¬ (s.kind = some .g3_2d)) ∧
    (m.reader.Ok m.src ∧ m.decoding = true ∧ m.reader.rest m.src = [] ∧ 0 < m.a0 ∧ m.dst.wf = true ∧ m.RoomForRow) ∧
    (l.decoding = true ∧ l.reader.rest l.src = [] ∧ l.context = .mode ∧ l.kind = some .g3_2d ∧ l.atStart = true ∧ l.LastRow) ∧
    unitState.running = false := by decide

/-- DEST_FIXED with no room: W8 in a 1D row, V0 and P in a 2D row, and an error with HAS_EOL at a row start. -/
theorem test_witness_decodeCapacity : (noRoom g3Job).decoding = true ∧ (noRoom g3Job).reader.Ok (noRoom g3Job).src ∧
    ¬ (noRoom g3Job).RoomForRow ∧ ⟨.w8, 8, 0b10011, 5⟩ ∈ terminatingTable .white ∧
    5 ≤ 8 * (noRoom g3Job).reader.len - (noRoom g3Job).reader.position ∧ (noRoom g3Job).afterZero = false ∧
    ¬ (noRoom g4Job).RoomForRow ∧ ⟨.v0, .vertical 0, 0b1, 1⟩ ∈ modeSet ∧ ⟨.p, .pass, 0b0001, 4⟩ ∈ modeSet := by decide

theorem test_witness_decodeCapacity_error :
    let m := noRoom (decodeJob 1 8 0 .l2d [0x00, 0x40, 0x00])
    m.decoding = true ∧ m.reader.Ok m.src ∧ ¬ m.RoomForRow ∧ m.hasEol = true ∧ m.MeetsError 7 (exec .ext2d m) ∧
    m.MeetsError 0 (exec .ext1d m) :=
  ⟨by decide, by decide, by decide, by decide, ⟨by decide, .inr (.inl ⟨rfl, by decide, rfl⟩)⟩,
    by decide, .inr (.inr (.inl ⟨rfl, by decide, by decide, rfl⟩))⟩

theorem test_witness_decodeStep : g3Job.decoding = true ∧ g3Job.fetch = .ok .w3 ∧ g3Job.commands = [] ∧
    g3Job.context ≠ .mode ∧ g4Job.decoding = true ∧ g4Job.context = .mode := by decide

/-- `Fill(BLACK, 3, 8)` with room, and without. -/
theorem test_witness_fill : unitState.running = false ∧ 3 ≤ 8 ∧ 8 ≤ unitState.imageWidth ∧ unitState.dst.wf = true ∧
    unitState.RoomForRow ∧ (noRoom unitState).running = false ∧ 8 ≤ (noRoom unitState).imageWidth ∧
    ¬ (noRoom unitState).RoomForRow := by decide

theorem test_witness_fillRun : unitState.running = false ∧ unitState.dst.wf = true ∧ unitState.RoomForRow ∧
    (noRoom unitState).running = false ∧ ¬ (noRoom unitState).RoomForRow := by decide

theorem test_witness_padAndClose : unitState.running = false ∧ unitState.dst.wf = true ∧ unitState.RoomForRow ∧
    unitState.reader.Ok unitState.src ∧ (noRoom unitState).running = false ∧ ¬ (noRoom unitState).RoomForRow := by decide

/-- At a row start, and at a0 = 3 with HAS_EOL, with room for the row and without. -/
theorem test_witness_rowEvents :
    let m := { unitState with a0 := 3, c := .black, cur := [3], cfg := { unitState.cfg with flags := 8 } }
    unitState.running = false ∧ unitState.a0 = 0 ∧ m.running = false ∧ m.dst.wf = true ∧ m.RoomForRow ∧ 0 < m.a0 ∧
    m.hasEol = true ∧ m.reader.Ok m.src ∧ ¬ (noRoom m).RoomForRow ∧ (noRoom m).hasEol = true ∧ 0 < (noRoom m).a0 := by decide

theorem test_witness_record :
    let s := { unitState with cur := [1, 7] }
    s.running = false ∧ 8 = s.imageWidth ∧ (7 < s.imageWidth ∧ s.cur = [1] ++ [7]) ∧ s.cur.getLast? ≠ some 3 := by decide

theorem test_witness_findB : unitState.running = false := by decide

theorem test_witness_countPixels : unitState.running = false ∧ unitState.reader.Ok unitState.src := by decide

/-- b2 < a1; b2 = a1 with a difference of 3; a difference of 4. -/
theorem test_witness_selectMode : unitState.running = false ∧ 8 ≤ unitState.imageWidth ∧ 5 < 8 ∧
    (6 ≤ 6 ∧ ((6 : Int) - (3 : Nat)).natAbs ≤ 3) ∧ (7 ≤ 8 ∧ 3 < ((7 : Int) - (3 : Nat)).natAbs) := by decide

/-- Row 18 scanned, the first step with room (9 bits in 9 bytes) and without (DST_CAP = 0). -/
theorem test_witness_encodeStepG4 :
    let s := { encodeJob 2 9 with cur := [3, 5] }
    let f := { encodeJob 2 0 with cur := [3, 5] }
    (s.running = true ∧ s.cfg.job = .encodeG4 ∧ s.a0 < s.imageWidth ∧ s.writer.Ok ∧ s.dst.wf = true ∧
      s.RoomForBits s.stepBits.length) ∧
    (f.running = true ∧ f.cfg.job = .encodeG4 ∧ f.a0 < f.imageWidth ∧ f.writer.Ok ∧ ¬ f.RoomForBits f.stepBits.length) := by decide

/-- Row 18 with ROW_ALIGN off, with room and with none. -/
theorem test_witness_encodeRow :
    let s := { encodeJob 3 9 with status := State.reset.status }
    let f := { encodeJob 3 0 with status := State.reset.status }
    let bits := s.completed s.rowAlign (lineBits .white 0 (((s.reader.rest s.src).take s.imageWidth).map s.colourOf))
    s.running = false ∧ s.reader.Ok s.src ∧ s.writer.Ok ∧ s.dst.wf = true ∧ 0 < s.imageWidth ∧
    s.imageWidth ≤ 8 * s.reader.len - s.reader.position ∧ s.RoomForBits bits.length ∧ f.running = false ∧
    ¬ f.RoomForBits bits.length := by decide

/-- The first step of row 18 goes on in the row; that of an all-white row (`V0` to W) ends it. -/
theorem test_witness_encodeRowStart : (encodeJob 2 9).EncodeOk ∧ (encodeJob 2 9).running = true ∧
    (encodeJob 2 9).cfg.job = .encodeG4 ∧ (encodeJob 2 9).commands = [] ∧ (encodeJob 2 9).dst.wf = true ∧
    (encodeJob 2 9).atRowStart = true ∧
    (let u := { encodeJob 2 9 with cur := changes .white 0 ((encodeJob 2 9).rowPixels (encodeJob 2 9).src 0 8) }
     u.RoomForBits u.stepBits.length ∧ u.stepTarget < u.imageWidth ∧
     State.imageWidth { u with cur := [] } ≤ State.stepTarget { u with cur := [] } ∧
     State.RoomForBits { u with cur := [] } (State.rowEndBits { u with cur := [] } (State.stepBits { u with cur := [] })).length) :=
  ⟨encodeG4Job_ok, by decide⟩

/-- After `H W3 B2` of row 18: V0 to W ends the row and the job; with DST_CAP = 0 it overflows. -/
theorem test_witness_encodeJobSteps_g4 :
    let mid := fun cap => { encodeJob 2 cap with
      a0 := 5, atStart := false, cur := [3, 5], reader := { buf := 0, cnt := 0, consumed := 1, len := 1, rev := false } }
    ((mid 9).EncodeOk ∧ (mid 9).running = true ∧ (mid 9).commands = [] ∧ (mid 9).dst.wf = true ∧
      (mid 9).cfg.job = .encodeG4 ∧ (mid 9).atRowStart = false ∧ (mid 9).imageWidth ≤ (mid 9).stepTarget ∧
      (mid 9).RoomForBits ((mid 9).rowEndBits (mid 9).stepBits).length) ∧
    (mid 0).EncodeOk ∧ ¬ (mid 0).RoomForBits ((mid 0).rowEndBits (mid 0).stepBits).length :=
  ⟨⟨by constructor <;> decide, by decide⟩, by constructor <;> decide, by decide⟩

/-- The first run of row 18: three white pixels, with room and with none. -/
theorem test_witness_encodeJobSteps_g31d : (encodeJob 3 9).EncodeOk ∧ (encodeJob 3 9).running = true ∧
    (encodeJob 3 9).commands = [] ∧ (encodeJob 3 9).dst.wf = true ∧ (encodeJob 3 9).cfg.job = .encodeG31D ∧
    ((((encodeJob 3 9).rowPixels (encodeJob 3 9).src 0 8).drop 0).takeWhile fun p => decide (p = .white)).length = 3 ∧
    (encodeJob 3 9).RoomForBits (runBits .white 3).length ∧ ¬ (noRoom (encodeJob 3 9)).RoomForBits 8 :=
  ⟨encodeG31DJob_ok, by decide⟩

/-- R265, R266: the last run of row 18, `W3` = 1000 from x = 5 on, ends the job: one byte, STOP = ENCODED, ROWS = 1. -/
theorem test_witness_encodeJobSteps_done :
    let s := { encodeJob 3 9 with a0 := 5, atStart := false, reader := { buf := 0, cnt := 3, consumed := 1, len := 1, rev := false } }
    s.reader.Ok s.src ∧ s.running = true ∧ nextIs (step s) (fun t => decide (t.status.state = .done ∧
      t.status.stop = .encoded ∧ t.status.rows = 1 ∧ t.status.outLen = 1 ∧ t.dst.read 0 = 0b10000000)) = true := by decide

/-- `MW64 W6` = 11011 1110 for 70 of 80 pixels, and `W0` for none of 8. -/
theorem test_witness_runRoundTrip :
    let s := decodeJob 0 0 0 .l1d [0xDF, 0x00]
    let s := { s with cfg := { s.cfg with width := 80, dstCap := 20 } }
    let z := decodeJob 1 0 0 .l2d [0x35]
    let z := { z with hphase := 2 }
    (s.decoding = true ∧ s.commands = [] ∧ s.reader.Ok s.src ∧ s.lineMode = .l1d ∧ s.afterZero = false ∧ s.acc = 0 ∧
      s.dst.wf = true ∧ s.RoomForRow ∧ s.a0 + 70 < s.imageWidth ∧
      (runBits s.c 70).isPrefixOf (s.reader.rest s.src) = true) ∧
    (z.decoding = true ∧ z.reader.Ok z.src ∧ 0 < z.hphase ∧ z.afterZero = false ∧ z.acc = 0 ∧ z.RoomForRow ∧
      z.a0 + 0 < z.imageWidth ∧ (runBits z.c 0).isPrefixOf (z.reader.rest z.src) = true) := by decide

theorem test_witness_start : g3Job.running = true ∧ unitState.running = false ∧
    (State.imageWidth { unitState with cfg := { unitState.cfg with width := 0 } } = 0) ∧
    (let e := { unitState with cfg := { unitState.cfg with op := 2, srcLen := 1 } }
     e.cfg.job.isDecode = false ∧ e.srcLen < (e.imageWidth + 7) / 8 * e.imageHeight ∧ e.imageWidth ≠ 0) := by decide

theorem test_witness_startInitialises : unitState.running = false ∧ unitState.imageWidth ≠ 0 ∧
    unitState.imageWidth ≤ 2 ^ 31 - 1 ∧ unitState.imageHeight ≤ 2 ^ 31 - 1 ∧ unitState.imageHeight ≠ 0 ∧
    unitState.cfg.job.isDecode = true ∧
    (let e := { unitState with cfg := { unitState.cfg with op := 3 } }
     e.cfg.job.isDecode = false ∧ e.stride * e.imageHeight ≤ e.srcLen) := by decide

theorem test_witness_stepRuns : g3Job.commands = [] ∧ g3Job.decoding = true ∧ g3Job.fetch = .ok .w3 ∧
    (unitState.withSelect 0x10 12 0 0).commands = [.select 0x10 12 0 0] ∧
    decodeSelect 0x10 12 0 0 = .ok (.hasBits 12) := by decide

theorem test_witness_hostRegisters :
    State.running { g3Job with commands := [.writeCfg .width 5] } = true ∧
    State.running { unitState with commands := [.writeCfg .flags 0xFFFFFFFF, .readReg (.cfg .flags)] } = false ∧
    State.commands { unitState with commands := [.readReg .stop] } = [.readReg .stop] ∧ CfgReg.width ≠ .flags := by decide

/-- The last byte an SRC_LEN can reach, and the one behind it. -/
theorem test_witness_hostMemories : unitState.running = false ∧ unitState.dst.wf = true ∧ unitState.src.wf = true ∧
    4294967294 ≤ 2 ^ 32 - 2 ∧ 2 ^ 32 - 2 < 4294967295 ∧ g3Job.running = true := by decide

theorem test_witness_cfgAndSrc : (∃ t, exec .start unitState = .next t) ∧ g3Job.commands = [] ∧ ∃ t, step g3Job = .next t :=
  ⟨⟨_, rfl⟩, rfl, ⟨_, rfl⟩⟩

theorem test_witness_memories : g3Job.memoriesOk ∧ ∃ t, step g3Job = .next t := ⟨by decide, ⟨_, rfl⟩⟩

theorem test_witness_decoderInvariants : (g3Job.running = true → g3Job.cfg.job.isDecode = true → g3Job.DecodeOk) ∧
    ∃ t, step g3Job = .next t ∧ t.running = true ∧ t.cfg.job.isDecode = true :=
  ⟨fun _ _ => g3Job_decodeOk, ⟨_, rfl, by decide, by decide⟩⟩

theorem test_witness_encoderInvariants : (encodeJob 2 9).memoriesOk ∧ (encodeJob 2 9).EncodeOk ∧
    (encodeJob 2 9).commands = [] ∧ ∃ t, step (encodeJob 2 9) = .next t ∧ t.running = true :=
  ⟨by decide, encodeG4Job_ok, rfl, ⟨_, rfl, by decide⟩⟩

theorem test_witness_status : Status.Ok g3Job.status ∧ ∃ t, step g3Job = .next t := ⟨by decide, ⟨_, rfl⟩⟩

/-- RESET in RUN, START at rest, `OnEOD` at rest, which leaves STATUS as it was, and `finish`, which writes OUT_LEN. -/
theorem test_witness_transitions : unitState.commands = [] ∧ unitState.running = false ∧
    (∃ t, step { g3Job with commands := [.select 0x00 0 0 0] } = .next t ∧ t.status.state = .idle) ∧
    (∃ t, step { unitState with commands := [.select 0x01 0 0 0] } = .next t ∧ t.running = true) ∧
    ∃ t, step { unitState with commands := [.select 0x37 0 0 0] } = .next t ∧ t.status = unitState.status ∧
      t.result = .stopped .eod ∧
    nextIs (step { unitState with writer := { wacc := 0, wn := 0, wlen := 1 }, commands := [.select 0x1B 0 0 0] })
      (fun u => decide (u.status = { unitState.status with outLen := 1 })) = true :=
  ⟨rfl, by decide, ⟨_, rfl, rfl⟩, ⟨_, rfl, by decide⟩, ⟨_, rfl, by decide, by decide, by decide⟩⟩

theorem test_witness_noCapacityFault : g3Job.decoding = true ∧ g3Job.commands = [] ∧ g3Job.destFixed = false ∧
    ∃ t, step g3Job = .next t := ⟨by decide, rfl, by decide, ⟨_, rfl⟩⟩

theorem test_witness_neverStuck : g3Job.memoriesOk ∧ g3Job.JobOk ∧ g3Job.commands = [] :=
  ⟨by decide, fun _ => ⟨fun _ => g3Job_decodeOk, fun h => absurd h (by decide)⟩, rfl⟩

theorem test_witness_progress : g3Job.decoding = true ∧ g3Job.DecodeOk ∧ g3Job.commands = [] ∧
    ∃ t, step g3Job = .next t ∧ t.running = true := ⟨by decide, g3Job_decodeOk, rfl, ⟨_, rfl, by decide⟩⟩

theorem test_witness_decodeJobsEnd : unitState.running = false ∧ unitState.cfg.job.isDecode = true ∧
    unitState.commands = [] ∧ ∃ t, exec .start unitState = .next t := ⟨by decide, by decide, rfl, ⟨_, rfl⟩⟩

theorem test_witness_encodeJobsEnd :
    let s := { encodeJob 2 9 with status := State.reset.status }
    s.running = false ∧ s.cfg.job.isDecode = false ∧ s.commands = [] ∧ s.memoriesOk ∧ ∃ t, exec .start s = .next t :=
  ⟨by decide, by decide, rfl, by decide, ⟨_, rfl⟩⟩

/-- One byte pulled ahead. -/
theorem test_witness_lookAhead : g3Job.decoding = true ∧ g3Job.commands = [] ∧ g3Job.reader.Ok g3Job.src ∧
    g3Job.reader.Moved g3Job.src 0 { buf := 0x8E00000000, cnt := 8, consumed := 1, len := 3, rev := false } :=
  ⟨by decide, rfl, by decide, moved_of (by decide)⟩

/-- Row 0 opened white: FF, and 00 with BLACK_IS_1. -/
theorem test_witness_inversion :
    let s := { g3Job with rowOpen := true, dst := memory .dst [0xFF] }
    let s' := { s with cfg := { s.cfg with flags := s.cfg.flags ^^^ 4#6 }, dst := memory .dst [0x00] }
    s.decoding = true ∧ s.commands = [] ∧ s.DecodeOk ∧ s.dst.wf = true ∧ s'.dst.wf = true ∧ s.Inverted s' ∧
    ∃ t, step s = .next t := by
  refine ⟨by decide, rfl, ?_, by decide, by decide, ⟨rfl, fun r i hr hi => ?_⟩, ⟨_, rfl⟩⟩
  · constructor <;> decide
  · have h1 : (8 + 7) / 8 = 1 := rfl
    have hi' : i < 1 := hi
    have hr' : r = 0 := by rcases hr with h | h; exact absurd h (Nat.not_lt_zero r); exact h.1
    have hi0 : i = 0 := by omega
    subst hr' hi0
    decide

/-- After `W3`: three white pixels placed, black next. -/
theorem test_witness_lines :
    let s := { g3Job with rowOpen := true, dst := memory .dst [0xFF], a0 := 3, c := .black, cur := [3], atStart := false }
    s.decoding = true ∧ s.commands = [] ∧ s.DecodeOk ∧ s.dst.wf = true ∧ s.LineSound ∧ (∃ t, step s = .next t) ∧
    unitState.running = false ∧ unitState.cfg.job.isDecode = true ∧
    ∃ t, exec .start unitState = .next t ∧ t.running = true :=
  ⟨by decide, rfl, by constructor <;> decide, by decide, ⟨by decide, by decide⟩, ⟨_, rfl⟩, by decide, by decide,
    ⟨_, rfl, by decide⟩⟩

end Sys2Proof.Tests
end

-- Scope (`spec/00_scope.md` R12): which instruction a step runs.
section
namespace Sys2Proof.Machine

/-- R180: `decodeDispatch` runs the codeword that the fetch finds. -/
theorem decodeDispatch_fetched {run : Instr → State → Host.Outcome State Fault Refusal} {s : State} {i : Instr}
    (hfetch : s.fetch = .ok i) : decodeDispatch run s = run i s := by
  simp only [decodeDispatch, hfetch]

/-- R43: a pending unit command is taken from the list and dispatched by its code and operand words. -/
theorem step_select {s : State} {opsel : Byte} {x y z : Word} {rest : List HostCommand}
    (hcmd : s.commands = .select opsel x y z :: rest) :
    step s = selectDispatch exec (decodeSelect opsel x y z) (s.setCommands rest) := by
  simp only [step, hcmd]

/-- R43: `selectDispatch` runs the operation that the command decodes to. -/
@[simp] theorem selectDispatch_ok (run : Instr → State → Host.Outcome State Fault Refusal) (i : Instr) (s : State) :
    selectDispatch run (.ok i) s = run i s := rfl

/-- Settles O43: each half goes through the one dispatch that its commands select, of the stream or of the host's list. -/
theorem stepRunsTheInstruction : Obligations.StepRunsTheInstruction := by
  intro s i
  constructor
  · intro hnone hdec hfetch
    rw [step_decoding hdec hnone, decodeDispatch_fetched hfetch]
  · intro opsel x y z rest hcmd hdecode
    rw [step_select hcmd, hdecode, selectDispatch_ok]

end Sys2Proof.Machine
end

section
/-! What the operations of the block do to STATUS, said once (`spec/10_state.md` R42; R194, R304, R314; log 25). -/

namespace Sys2Proof.Machine

/-- What an operation that does not end a job by rule (R251, R266) does to STATUS: nothing, or it ends a job in RUN by Stop
(R194) or raise (R304). -/
inductive State.StatusBy (s t : State) : Prop where
  | same (h : t.status = s.status)
  | ended (hrun : s.running = true) (hend : t.status.state = .done ∨ t.status.state = .fault)
      (hok : Status.Ok s.status → Status.Ok t.status)

theorem running_of_status {s t : State} (h : t.status = s.status) : t.running = s.running := by
  simp only [State.running, h]

theorem not_running_of_ended {t : State} (h : t.status.state = .done ∨ t.status.state = .fault) : t.running = false := by
  rcases h with h | h <;> simp [State.running, h]

theorem State.StatusBy.refl (s : State) : s.StatusBy s := .same rfl

theorem State.StatusBy.trans {s t u : State} (h : s.StatusBy t) (h' : t.StatusBy u) : s.StatusBy u := by
  rcases h with h | ⟨hrun, hend, hok⟩ <;> rcases h' with h' | ⟨hrun', hend', hok'⟩
  · exact .same (h'.trans h)
  · exact .ended (running_of_status h ▸ hrun') hend' (h ▸ hok')
  · exact .ended hrun (h' ▸ hend) (h' ▸ hok)
  · rw [not_running_of_ended hend] at hrun'
    cases hrun'

theorem State.StatusBy.after {s t u : State} (h : t.StatusBy u) (ht : t.status = s.status) : s.StatusBy u :=
  .trans (.same ht) h

/-- Outside RUN such an operation leaves STATUS alone (R286, R314). -/
theorem State.StatusBy.idle {s t : State} (h : s.StatusBy t) (hs : s.running = false) : t.status = s.status := by
  rcases h with h | ⟨hrun, _⟩
  · exact h
  · rw [hs] at hrun
    cases hrun

theorem State.StatusBy.ok {s t : State} (h : s.StatusBy t) (hs : Status.Ok s.status) : Status.Ok t.status := by
  rcases h with h | ⟨_, _, hok⟩
  · rwa [h]
  · exact hok hs

/-- A flow whose operations leave STATUS alone while it goes on; where it halts, a fault may have been raised. -/
inductive Flow.StatusBy (s : State) : Flow → Prop where
  | go {t : State} (h : t.status = s.status) : Flow.StatusBy s (.go t)
  | halt {t : State} (h : s.StatusBy t) : Flow.StatusBy s (.halt t)

theorem Flow.StatusBy.state {s : State} {w : Flow} (h : w.StatusBy s) : s.StatusBy w.state := by
  cases h with
  | go h => exact .same h
  | halt h => exact h

theorem Flow.StatusBy.after {s t : State} {w : Flow} (h : w.StatusBy t) (ht : t.status = s.status) : w.StatusBy s := by
  cases h with
  | go h => exact .go (h.trans ht)
  | halt h => exact .halt (.trans (.same ht) h)

theorem Flow.StatusBy.bind {s : State} {w : Flow} {f : State → Flow} (h : w.StatusBy s)
    (hf : ∀ t, (f t).StatusBy t) : (w.bind f).StatusBy s := by
  cases h with
  | go h => exact (hf _).after h
  | halt h => exact .halt h

/-- A flow that leaves STATUS alone, then operations that may stop the job. -/
theorem Flow.StatusBy.bind_state {s : State} {w : Flow} {f : State → Flow} (h : w.StatusBy s)
    (hf : ∀ t : State, t.StatusBy (f t).state) : s.StatusBy (w.bind f).state := by
  cases h with
  | go h => exact .trans (.same h) (hf _)
  | halt h => exact h

/-- Two parts that may both stop the job. -/
theorem State.StatusBy.bind {s : State} {w : Flow} {f : State → Flow} (h : s.StatusBy w.state)
    (hf : ∀ t : State, t.StatusBy (f t).state) : s.StatusBy (w.bind f).state := by
  cases w with
  | go t => exact h.trans (hf t)
  | halt t => exact h

/-! ### Stop and raise -/

theorem statusBy_stop (s : State) (reason : StopCode) : s.StatusBy (s.stop reason) := by
  unfold State.stop
  split
  · rename_i hrun
    exact .ended hrun (.inl rfl) fun h => ⟨rfl, (fun hr => by cases hr), h.2.2⟩
  · exact .same rfl

theorem statusBy_raise (s : State) {code : FaultCode} (hcode : code ≠ .format) (rows used : Nat) :
    s.StatusBy (s.raise code rows used) := by
  unfold State.raise
  split
  · rename_i hrun
    exact .ended hrun (.inr rfl) fun _ => ⟨rfl, (fun hr => by cases hr), hcode⟩
  · exact .same rfl

/-! ### The writer and the encoder (R144 to R146, R258 to R266) -/

theorem statusBy_putBit (s : State) (v : Bool) : (s.putBit v).StatusBy s := by
  unfold State.putBit
  simp only
  split
  · split
    · exact .halt (.after (statusBy_raise _ (code := .capacity) (by decide) _ _) rfl)
    · exact .go rfl
  · exact .go rfl

theorem statusBy_putBits (v n : Nat) (s : State) : (State.putBits v n s).StatusBy s := by
  induction n generalizing s with
  | zero => exact .go rfl
  | succ n ih => exact (statusBy_putBit s _).bind ih

theorem statusBy_putAlign (s : State) : s.putAlign.StatusBy s := by
  unfold State.putAlign
  split
  · exact statusBy_putBits _ _ s
  · exact .go rfl

theorem statusBy_putCode (code : Option (Nat × Nat)) (s : State) : (s.putCode code).StatusBy s := by
  unfold State.putCode
  split
  · exact statusBy_putBits _ _ s
  · exact .go rfl

theorem statusBy_putMakeups (k : Colour) (fuel m : Nat) (s : State) : (State.putMakeups k fuel m s).StatusBy s := by
  induction fuel generalizing m s with
  | zero => exact .go rfl
  | succ fuel ih =>
    unfold State.putMakeups
    split
    · exact (statusBy_putCode _ s).bind (ih _)
    · split
      · exact statusBy_putCode _ s
      · exact .go rfl

theorem statusBy_putRun (k : Colour) (n : Nat) (s : State) : (State.putRun k n s).StatusBy s :=
  (statusBy_putMakeups _ _ _ s).bind (statusBy_putCode _)

theorem statusBy_encodeStepG4 (s : State) : s.encodeStepG4.StatusBy s := by
  unfold State.encodeStepG4
  refine Flow.StatusBy.bind ?_ fun _ => .go rfl
  refine Flow.StatusBy.after (t := { s with a1 := s.findA.1, a2 := s.findA.2, b1 := s.findB.1, b2 := s.findB.2 }) ?_ rfl
  split
  · exact (statusBy_putCode _ _).bind fun _ => .go rfl
  · exact (statusBy_putCode _ _).bind fun t => (statusBy_putRun _ _ t).bind fun u =>
      (statusBy_putRun _ _ u).bind fun _ => .go rfl
  · exact (statusBy_putCode _ _).bind fun _ => .go rfl
  · exact .go rfl
  · exact .go rfl

theorem statusBy_alignRow (s : State) : s.alignRow.StatusBy s := by
  unfold State.alignRow
  split
  · exact statusBy_putAlign s
  · exact .go rfl

theorem statusBy_putEOFB (s : State) : s.putEOFB.StatusBy s := by
  unfold State.putEOFB
  split
  · exact (statusBy_putCode _ s).bind (statusBy_putCode _)
  · exact .go rfl

/-- `finish` writes OUT_LEN alone (R146), unless its alignment raises. -/
theorem status_finish (s : State) :
    s.StatusBy s.finish.state ∨ s.finish.state.status = { s.status with outLen := s.finish.state.status.outLen } := by
  have h := statusBy_putAlign s
  unfold State.finish
  generalize s.putAlign = w at *
  cases h with
  | go h => exact .inr (by rw [← h]; rfl)
  | halt h => exact .inl h

/-- The end of an encode job: Stop(ENCODED) (R251, R266), or the CapacityFault of the last alignment. -/
theorem statusBy_finishEncode {s : State} (hrun : s.running = true) : s.StatusBy s.finishEncode.state := by
  have h := statusBy_putAlign s
  unfold State.finishEncode State.finish
  generalize s.putAlign = w at *
  cases h with
  | @go t h =>
    refine .ended hrun (.inl rfl) fun ⟨heod, hnone, hfmt⟩ =>
      ⟨?_, (fun hr => by cases hr), by rw [← h] at hfmt; exact hfmt⟩
    have hstop : s.status.stop = .none := (hnone (of_decide_eq_true hrun)).1
    show t.status.endedOnEod = false
    rw [h, heod, hstop]
    rfl
  | halt h => exact h

/-- A flow that leaves STATUS alone, then operations that end a job in RUN by rule. -/
theorem Flow.StatusBy.bind_run {s : State} {w : Flow} {f : State → Flow} (hrun : s.running = true) (h : w.StatusBy s)
    (hf : ∀ t : State, t.running = true → t.StatusBy (f t).state) : s.StatusBy (w.bind f).state := by
  cases h with
  | go h => exact .trans (.same h) (hf _ (running_of_status h ▸ hrun))
  | halt h => exact h

theorem statusBy_endRowG4 {s : State} (hrun : s.running = true) : s.StatusBy s.endRowG4.state := by
  refine (statusBy_alignRow s).bind_run hrun fun t ht => ?_
  simp only
  split
  · exact State.StatusBy.after (t := { t with ref := t.cur, cur := [], y := t.y + 1 })
      ((statusBy_putEOFB _).bind_run ht fun u hu => statusBy_finishEncode hu) rfl
  · exact .same rfl

theorem status_clear (s : State) (n : Nat) : (s.clear n).status = s.status := setReader_status _ _

theorem status_countLoop (b : Bool) (fuel left n : Nat) (s : State) :
    (State.countLoop b fuel left n s).2.status = s.status := by
  induction fuel generalizing left n s with
  | zero => rfl
  | succ fuel ih =>
    have hfill : ∀ (t : State) (p : Prop) [Decidable p] (k : Nat),
        t.status = s.status → (if p then t.fillTo k else t).status = s.status := by
      intro t p _ k ht
      split <;> exact ht
    unfold State.countLoop
    split
    · rfl
    simp only
    have h24 := hfill s (24 ≤ left) 24 rfl
    generalize (if 24 ≤ left then s.fillTo 24 else s) = s1 at *
    split
    · rwa [ih, status_clear]
    have h8 := hfill s1 (8 ≤ left) 8 h24
    generalize (if 8 ≤ left then s1.fillTo 8 else s1) = s2 at *
    split
    · rwa [ih, status_clear]
    split
    · rwa [ih, status_clear]
    · exact h8

theorem status_countPixels (s : State) (k : Colour) (max : Nat) : (s.countPixels k max).2.status = s.status :=
  status_countLoop _ _ _ _ s

theorem status_scanLoop {fuel x : Nat} {k : Colour} {s t : State} (h : State.scanLoop fuel x k s = some t) :
    t.status = s.status := by
  induction fuel generalizing x k s with
  | zero =>
    unfold State.scanLoop at h
    split at h <;> cases h
    rfl
  | succ fuel ih =>
    unfold State.scanLoop at h
    split at h
    · cases h
      rfl
    · have hc := status_countPixels s k (s.imageWidth - x)
      generalize s.countPixels k (s.imageWidth - x) = out at *
      obtain ⟨n, u⟩ := out
      simp only at h hc
      rw [← hc, ih h]
      split <;> rfl

theorem status_startRowG4 {s t : State} (h : s.startRowG4 = some t) : t.status = s.status := by
  unfold State.startRowG4 at h
  split at h
  · unfold State.scanRow at h
    cases hs : State.scanLoop (s.imageWidth + 1) 0 .white { s with cur := [] } with
    | none => rw [hs] at h; cases h
    | some u =>
      rw [hs] at h
      cases h
      have hu := status_scanLoop hs
      exact hu
  · cases h
    rfl

theorem statusBy_jobStepG4 {s t : State} (hrun : s.running = true) (h : s.jobStepG4 = .next t) : s.StatusBy t := by
  unfold State.jobStepG4 at h
  cases hs : s.startRowG4 with
  | none => rw [hs] at h; cases h
  | some u =>
    have hu := status_startRowG4 hs
    rw [hs] at h
    cases h
    refine .after ((statusBy_encodeStepG4 u).bind_run (running_of_status hu ▸ hrun) fun v hv => ?_) hu
    split
    · exact statusBy_endRowG4 hv
    · exact .refl v

theorem statusBy_endRasterRow (s : State) : s.endRasterRow.StatusBy s := (statusBy_alignRow _).after rfl

theorem statusBy_endRowG31D {s : State} (hrun : s.running = true) : s.StatusBy s.endRowG31D.state := by
  refine (statusBy_endRasterRow s).bind_run hrun fun t ht => ?_
  simp only
  split
  · exact State.StatusBy.after (t := { t with y := t.y + 1 }) (statusBy_finishEncode ht) rfl
  · exact .same rfl

theorem status_startRowG31D (s : State) : s.startRowG31D.status = s.status := by
  unfold State.startRowG31D
  split <;> rfl

theorem statusBy_jobStepG31D {s : State} (hrun : s.running = true) : s.StatusBy s.jobStepG31D.state := by
  unfold State.jobStepG31D
  simp only
  have hu := (status_countPixels s.startRowG31D s.startRowG31D.c
    (s.startRowG31D.imageWidth - s.startRowG31D.a0)).trans (status_startRowG31D s)
  generalize State.countPixels s.startRowG31D s.startRowG31D.c (s.startRowG31D.imageWidth - s.startRowG31D.a0) = r at *
  refine .after ((statusBy_putRun _ _ _).bind_run (running_of_status hu ▸ hrun) fun v hv => ?_) hu
  refine State.StatusBy.after (t := { v with a0 := v.a0 + r.1, c := oppositeColour v.c, atStart := false }) ?_ rfl
  split
  · exact statusBy_endRowG31D hv
  · exact .refl _

theorem statusBy_rowLoopG31D (fuel x : Nat) (k : Colour) (s : State) : (State.rowLoopG31D fuel x k s).StatusBy s := by
  induction fuel generalizing x k s with
  | zero => exact .go rfl
  | succ fuel ih =>
    unfold State.rowLoopG31D
    split
    · exact .go rfl
    · exact ((statusBy_putRun _ _ _).bind fun t => ih _ _ t).after (status_countPixels s k _)

theorem statusBy_encodeRowG31D (s : State) : s.encodeRowG31D.StatusBy s :=
  (statusBy_rowLoopG31D _ _ _ s).bind statusBy_endRasterRow

/-! ### The pixel store and the row events (R185 to R193) -/

theorem statusBy_openRow (s : State) : s.openRow.StatusBy s := by
  unfold State.openRow
  split
  · exact .go rfl
  · split
    · split
      · exact .halt (statusBy_raise s (code := .capacity) (by decide) _ _)
      · exact .go rfl
    · exact .go rfl

theorem statusBy_fill (s : State) (k : Colour) (x0 x1 : Nat) : (s.fill k x0 x1).StatusBy s :=
  (statusBy_openRow s).bind fun _ => .go rfl

theorem status_record (s : State) (p : Nat) : (s.record p).status = s.status := by
  unfold State.record
  split <;> rfl

theorem statusBy_fillRun (s : State) (n : Nat) : (s.fillRun n).StatusBy s :=
  (statusBy_fill s _ _ _).bind fun t => .go (status_record (t.moveTo _) _)

theorem statusBy_padRow (s : State) : s.padRow.StatusBy s := by
  have hwhite : (if s.c = .black then { s.record s.a0 with c := .white } else s).status = s.status := by
    split
    · exact status_record s s.a0
    · rfl
  unfold State.padRow
  exact Flow.StatusBy.after (Flow.StatusBy.bind (statusBy_fill _ _ _ _) fun _ => .go rfl) hwhite

theorem statusBy_closeRow (s : State) (align : Bool) : s.StatusBy (s.closeRow align) := by
  rw [s.closeRow_eq align]
  simp only
  split
  · exact (statusBy_stop _ _).after rfl
  · exact .same rfl

theorem statusBy_closeIfFull (s : State) : s.StatusBy s.closeIfFull := by
  unfold State.closeIfFull
  split
  · exact statusBy_closeRow s true
  · exact .refl s

theorem statusBy_onEOD (s : State) (fromMode : Bool) : s.StatusBy (s.onEOD fromMode).state := by
  unfold State.onEOD
  split
  · exact statusBy_stop s _
  · refine Flow.StatusBy.bind_state ?_ fun t => statusBy_stop t _
    split
    · exact (statusBy_padRow s).bind fun _ => .go rfl
    · exact .go rfl

theorem statusBy_endOfBlock (s : State) : s.StatusBy s.endOfBlock := by
  unfold State.endOfBlock
  split
  · simp only
    split
    · exact (statusBy_stop _ _).after rfl
    · exact .same rfl
  · exact .refl s

theorem statusBy_afterEOL (s : State) : s.StatusBy s.afterEOL.state := by
  unfold State.afterEOL
  split
  · simp only
    split
    · exact (statusBy_onEOD _ false).after rfl
    · exact (statusBy_endOfBlock _).after rfl
  · exact statusBy_endOfBlock s

theorem statusBy_settleRow (s : State) : s.StatusBy s.settleRow.state := by
  unfold State.settleRow
  split
  · exact (statusBy_padRow s).bind_state fun t => statusBy_closeRow t false
  · exact .same rfl

theorem statusBy_onEOL (s : State) : s.StatusBy s.onEOL.state := by
  refine State.StatusBy.bind ((statusBy_settleRow s.dropRun).after rfl) fun t => ?_
  split
  · exact statusBy_afterEOL t
  · exact .refl t

theorem statusBy_scanForEOL (fuel : Nat) (s : State) : s.StatusBy (State.scanForEOL fuel s).state := by
  induction fuel generalizing s with
  | zero => exact .refl s
  | succ fuel ih =>
    unfold State.scanForEOL
    simp only
    split
    · exact (statusBy_onEOD _ false).after rfl
    · split
      · exact .same rfl
      · exact (ih _).after rfl

theorem status_skipBit (s : State) : s.skipBit.status = s.status := by
  unfold State.skipBit
  simp only
  split <;> rfl

theorem statusBy_onError (s : State) : s.StatusBy s.onError.state := by
  unfold State.onError
  split
  · refine State.StatusBy.bind ?_ fun t => ?_
    · exact .after (t := s.dropRun) ((statusBy_padRow _).bind_state fun t => statusBy_closeRow t true) rfl
    · split
      · exact statusBy_scanForEOL _ t
      · exact .refl t
  · exact .same (status_skipBit _)

/-! ### The decode step (R181, R223) -/

theorem statusBy_payRun (s : State) : s.StatusBy s.payRun := by
  unfold State.payRun
  simp only
  split
  · exact (statusBy_closeIfFull _).after rfl
  · exact .same rfl

theorem statusBy_terminate (v : Nat) (s : State) : s.StatusBy (s.terminate v).state :=
  ((statusBy_fillRun { s with acc := 0 } _).after (s := s) rfl).bind_state statusBy_payRun

theorem statusBy_terminatingRule (v : Nat) (s : State) : s.StatusBy (s.terminatingRule v).state := by
  unfold State.terminatingRule
  split
  · exact statusBy_onError s
  · exact statusBy_terminate v s

theorem statusBy_makeupRule (v : Nat) (s : State) : s.StatusBy (s.makeupRule v).state := by
  unfold State.makeupRule
  split
  · exact statusBy_onError s
  · exact .same rfl

theorem statusBy_doPass (s : State) : s.StatusBy s.doPass.state :=
  (statusBy_fill s _ _ _).bind_state fun _ =>
    (statusBy_closeIfFull _).after rfl

theorem statusBy_doVertical (d : Int) (s : State) : s.StatusBy (s.doVertical d).state :=
  (statusBy_fill s _ _ _).bind_state fun t =>
    (statusBy_closeIfFull _).after (status_record (t.moveTo _) _)

theorem statusBy_doExt1D (s : State) : s.StatusBy s.doExt1D.state := by
  unfold State.doExt1D
  simp only
  split
  · exact .same rfl
  · split
    · exact (statusBy_onEOL _).after rfl
    · exact (statusBy_onError _).after rfl

theorem status_decodeRun (s : State) (k : Colour) : (s.decodeRun k).2.status = s.status := by
  unfold State.decodeRun
  simp only
  split
  · rfl
  · split <;> rfl

theorem status_decodeMode (s : State) : s.decodeMode.2.status = s.status := by
  obtain ⟨r, hr⟩ := s.decodeMode_same
  rw [hr, setReader_status]

theorem statusBy_runStep (s : State) : s.StatusBy s.runStep.state := by
  have h := status_decodeRun s s.c
  unfold State.runStep
  generalize s.decodeRun s.c = out at *
  obtain ⟨r, t⟩ := out
  refine .after (t := t) ?_ h
  cases r with
  | run v =>
    simp only
    split
    · exact statusBy_makeupRule v t
    · exact statusBy_terminatingRule v t
  | eol => exact statusBy_onEOL t
  | zero => exact .same rfl
  | error => exact statusBy_onError t
  | eod => exact statusBy_onEOD t false

theorem statusBy_modeStep (s : State) : s.StatusBy s.modeStep.state := by
  have h := status_decodeMode s
  unfold State.modeStep
  generalize s.decodeMode = out at *
  obtain ⟨r, t⟩ := out
  refine .after (t := t) ?_ h
  cases r with
  | pass => exact statusBy_doPass t
  | horizontal => exact .same rfl
  | vertical d => exact statusBy_doVertical d t
  | ext2d => exact statusBy_onError t
  | ext1d => exact statusBy_doExt1D t
  | error => exact statusBy_onError t
  | eod => exact statusBy_onEOD t true

theorem statusBy_decodeStep (s : State) : s.StatusBy s.decodeStep.state := by
  unfold State.decodeStep
  split
  · exact statusBy_runStep s
  · exact statusBy_modeStep s

end Sys2Proof.Machine
end
section
/-! What an instruction and a step can do, said once: the codewords of the stream, the commands of the host, the block's own
step and the host's accesses (`spec/10_state.md` R40, R43; `spec/42_g3_decoder.md` R180, R181). -/

namespace Sys2Proof.Machine

/-! ### Codewords -/

/-- The rules that a codeword runs after its lookup (R181 to R184, R190, R223 to R229). -/
inductive CodewordRule : (State → Flow) → Prop where
  | terminating (v : Nat) : CodewordRule (State.terminatingRule v)
  | makeup (v : Nat) : CodewordRule (State.makeupRule v)
  | endOfLine : CodewordRule State.onEOL
  | zero : CodewordRule State.zeroRule
  | vertical (d : Int) : CodewordRule (State.doVertical d)
  | horizontal : CodewordRule State.doHorizontal
  | pass : CodewordRule State.doPass
  | error : CodewordRule State.onError
  | ext1d : CodewordRule State.doExt1D

/-- The meaning of a codeword: a lookup of a run context or of the mode context, then its rule. -/
inductive CodewordMeaning (f : State → Host.Outcome State Fault Refusal) : Prop where
  | run (len : Nat) {rule : State → Flow} (hrule : CodewordRule rule) (h : ∀ s, f s = runCodeword len rule s)
  | mode (len : Nat) {rule : State → Flow} (hrule : CodewordRule rule) (h : ∀ s, f s = modeCodeword len rule s)

/-- Every row of the code tables, FILL and EXT1D run as codewords. -/
theorem exec_codeword {i : Instr} {ctx : Context} {pattern len : Nat} (h : encode i = .code ctx pattern len) :
    CodewordMeaning (exec i) := by
  cases i
  case eol => exact .run 12 .endOfLine fun _ => rfl
  case fillBit => exact .run 1 .zero fun _ => rfl
  case h => exact .mode 3 .horizontal fun _ => rfl
  case p => exact .mode 4 .pass fun _ => rfl
  case ext2d => exact .mode 7 .error fun _ => rfl
  case ext1d => exact .mode 0 .ext1d fun _ => rfl
  all_goals first
    | (cases h; done)
    | exact .run _ (.terminating _) fun _ => rfl
    | exact .run _ (.makeup _) fun _ => rfl
    | exact .mode _ (.vertical _) fun _ => rfl

theorem CodewordRule.keptBy {rule : State → Flow} (h : CodewordRule rule) (s : State) : s.KeptBy (rule s) := by
  cases h with
  | terminating v => exact s.keptBy_terminatingRule v
  | makeup v => exact s.keptBy_makeupRule v
  | endOfLine => exact s.keptBy_onEOL
  | zero => exact s.keptBy_zeroRule
  | vertical d => exact s.keptBy_doVertical d
  | horizontal => exact ⟨rfl, rfl, rfl, rfl, id⟩
  | pass => exact s.keptBy_doPass
  | error => exact s.keptBy_onError
  | ext1d => exact s.keptBy_doExt1D

theorem runCodeword_next {len : Nat} {rule : State → Flow} {s t : State} (h : runCodeword len rule s = .next t) :
    s.decoding = true ∧ t = (rule ((s.fillTo 13).clear len)).state := by
  unfold runCodeword at h
  split at h
  · rename_i hd
    split at h <;> cases h
    exact ⟨hd, rfl⟩
  · cases h

theorem modeCodeword_next {len : Nat} {rule : State → Flow} {s t : State} (h : modeCodeword len rule s = .next t) :
    s.decoding = true ∧ t = (rule ((s.fillTo 7).clear len)).state := by
  unfold modeCodeword at h
  split at h
  · rename_i hd
    split at h <;> cases h
    exact ⟨hd, rfl⟩
  · cases h

theorem runCodeword_idle {s : State} (hd : s.decoding = false) (len : Nat) (rule : State → Flow) :
    runCodeword len rule s = .refused .stepOperationOutsideRun := by
  simp [runCodeword, hd]

theorem modeCodeword_idle {s : State} (hd : s.decoding = false) (len : Nat) (rule : State → Flow) :
    modeCodeword len rule s = .refused .stepOperationOutsideRun := by
  simp [modeCodeword, hd]

/-- A codeword keeps what every operation keeps, its lookup and its rule alike. -/
theorem CodewordMeaning.kept {f : State → Host.Outcome State Fault Refusal} (hf : CodewordMeaning f) {s t : State}
    (h : f s = .next t) : s.Kept t := by
  cases hf with
  | run len hrule hmeaning =>
    obtain ⟨_, rfl⟩ := runCodeword_next ((hmeaning s).symm.trans h)
    exact ((s.kept_fillTo 13).trans (State.kept_clear _ _)).after (hrule.keptBy _)
  | mode len hrule hmeaning =>
    obtain ⟨_, rfl⟩ := modeCodeword_next ((hmeaning s).symm.trans h)
    exact ((s.kept_fillTo 7).trans (State.kept_clear _ _)).after (hrule.keptBy _)

/-! ### Tag bits -/

theorem exec_tag {i : Instr} {bit : Bool} (h : encode i = .tag bit) (s : State) : exec i s = tagBit bit s := by
  cases i
  case t1 => cases h; rfl
  case t0 => cases h; rfl
  all_goals cases h

theorem tagBit_idle {s : State} (hd : s.decoding = false) (bit : Bool) :
    tagBit bit s = .refused .stepOperationOutsideRun := by
  simp [tagBit, hd]

theorem kept_tagBit {bit : Bool} {s t : State} (h : tagBit bit s = .next t) : s.Kept t := by
  unfold tagBit at h
  split at h
  · split at h <;> cases h
    exact (s.kept_fillTo 1).trans (State.kept_takeTag _ bit)
  · cases h

/-! ### Unit operations (R43, U5) -/

/-- A next state of a unit operation: with no job in RUN, everything that is kept, and STATUS but for OUT_LEN (R146, R314). -/
structure State.UnitNext (s t : State) : Prop where
  idle : s.running = false
  kept : s.Kept t
  status : t.status = { s.status with outLen := t.status.outLen }

theorem State.UnitNext.of_status {s t : State} (hs : s.running = false) (hk : s.Kept t) (h : t.status = s.status) :
    s.UnitNext t :=
  ⟨hs, hk, by rw [h]⟩

theorem State.UnitNext.of_flow {s t : State} {w : Flow} (hs : s.running = false) (hk : s.KeptBy w)
    (hw : s.StatusBy w.state) (h : w.out = .next t) : s.UnitNext t := by
  cases h
  exact .of_status hs hk (hw.idle hs)

theorem State.UnitNext.not_running {s t : State} (h : s.UnitNext t) : t.running = false := by
  have hs := h.idle
  unfold State.running at hs ⊢
  rw [h.status]
  exact hs

theorem unitOperation_running {s : State} (hs : s.running = true) (f : State → Host.Outcome State Fault Refusal) :
    unitOperation f s = .refused .unitOperationDuringRun := by
  simp [unitOperation, hs]

/-- A meaning that, driven with no job in RUN, leaves STATUS but for OUT_LEN and what every operation keeps. -/
def UnitRule (f : State → Host.Outcome State Fault Refusal) : Prop :=
  ∀ s t : State, s.running = false → f s = .next t → s.UnitNext t

theorem unitOperation_next {f : State → Host.Outcome State Fault Refusal} (hf : UnitRule f) {s t : State}
    (h : unitOperation f s = .next t) : s.UnitNext t := by
  cases hs : s.running
  · rw [unitOperation_go hs] at h
    exact hf s t hs h
  · rw [unitOperation_running hs] at h
    cases h

theorem UnitRule.next {g : State → State} (hkept : ∀ s : State, s.Kept (g s)) (hstatus : ∀ s : State, s.StatusBy (g s)) :
    UnitRule fun s => .next (g s) := by
  rintro s t hs ⟨⟩
  exact .of_status hs (hkept s) ((hstatus s).idle hs)

theorem UnitRule.flow {w : State → Flow} (hkept : ∀ s : State, s.KeptBy (w s))
    (hstatus : ∀ s : State, s.StatusBy (w s).state) : UnitRule fun s => (w s).out :=
  fun s _ hs h => .of_flow hs (hkept s) (hstatus s) h

/-- An operation that leaves a value in `result` (log 7). -/
theorem UnitRule.answer {g : State → State} (r : State → OpResult) (hkept : ∀ s : State, s.Kept (g s))
    (hstatus : ∀ s : State, (g s).status = s.status) : UnitRule fun s => .next ((g s).setResult (r s)) :=
  .next (fun s => (hkept s).trans (State.kept_setResult _ _)) fun s => .same (hstatus s)

/-- A contract (U1, U2, U4) before a unit's rule. -/
theorem UnitRule.guarded {p : State → Prop} [∀ s, Decidable (p s)] {r : Refusal}
    {f : State → Host.Outcome State Fault Refusal} (hf : UnitRule f) :
    UnitRule fun s => if p s then .refused r else f s := by
  intro s t hs h
  simp only at h
  split at h
  · cases h
  · exact hf s t hs h

theorem UnitRule.codeResult (code : Option (Nat × Nat)) : UnitRule (codeResult code) := by
  intro s t hs h
  unfold Machine.codeResult at h
  split at h <;> cases h
  exact .of_status hs (s.kept_setResult _) rfl

theorem UnitRule.finish : UnitRule fun s => s.finish.out := by
  rintro s t hs ⟨⟩
  refine ⟨hs, s.keptBy_finish, ?_⟩
  rcases status_finish s with h | h
  · rw [h.idle hs]
  · exact h

/-! ### Unit commands (R108) -/

/-- The meaning of a unit command: RESET, START, a step operation of a running job, or a unit operation. -/
inductive CommandMeaning : Instr → Prop where
  | reset : CommandMeaning .reset
  | start : CommandMeaning .start
  | decodeStep : CommandMeaning .decodeStep
  | modeStep : CommandMeaning .modeStep
  | encodeStepG4 : CommandMeaning .encodeStepG4
  | unit {i : Instr} {f : State → Host.Outcome State Fault Refusal} (h : ∀ s, exec i s = unitOperation f s)
      (hf : UnitRule f) : CommandMeaning i

theorem exec_command {i : Instr} {opsel : Byte} {x y z : Word} (h : encode i = .select opsel x y z) :
    CommandMeaning i := by
  cases i
  case reset => exact .reset
  case start => exact .start
  case decodeStep => exact .decodeStep
  case modeStep => exact .modeStep
  case encodeStepG4 => exact .encodeStepG4
  case hasBits n => exact .unit (fun _ => rfl) (.guarded (.answer _ (State.kept_fillTo · n) fun _ => rfl))
  case peekBits n => exact .unit (fun _ => rfl) (.guarded (.answer _ (State.kept_fillTo · n) fun _ => rfl))
  case getBits n =>
    exact .unit (fun _ => rfl) (.guarded (.guarded (.answer _
      (fun s => (s.kept_fillTo n).trans (State.kept_clear _ n)) fun _ => rfl)))
  case clearBits n => exact .unit (fun _ => rfl) (.guarded (.next (State.kept_clear · n) fun _ => .same rfl))
  case look n => exact .unit (fun _ => rfl) (.guarded (.answer _ (State.kept_fillTo · n) fun _ => rfl))
  case byteAlign => exact .unit (fun _ => rfl) (.next (State.kept_setReader · _) fun _ => .same rfl)
  case wordAlign => exact .unit (fun _ => rfl) (.next (State.kept_setReader · _) fun _ => .same rfl)
  case reverseBits => exact .unit (fun _ => rfl) (.next (State.kept_setReader · _) fun _ => .same rfl)
  case drain => exact .unit (fun _ => rfl) (.next (State.kept_setReader · _) fun _ => .same rfl)
  case putBits v n =>
    exact .unit (fun _ => rfl) (.guarded (.flow (State.keptBy_putBits v n) fun s => (statusBy_putBits v n s).state))
  case putAlign => exact .unit (fun _ => rfl) (.flow State.keptBy_putAlign fun s => (statusBy_putAlign s).state)
  case finish => exact .unit (fun _ => rfl) .finish
  case decodeRun k =>
    exact .unit (fun _ => rfl) (.answer _ (State.kept_decodeRun · k) (status_decodeRun · k))
  case decodeMode => exact .unit (fun _ => rfl) (.answer _ State.kept_decodeMode status_decodeMode)
  case termCode k n => exact .unit (fun _ => rfl) (.codeResult _)
  case makeupCode k m => exact .unit (fun _ => rfl) (.codeResult _)
  case modeCode m => exact .unit (fun _ => rfl) (.codeResult _)
  case fillPixels k x0 x1 =>
    exact .unit (fun _ => rfl) (.guarded (.flow (State.keptBy_fill · k x0 x1) fun s => (statusBy_fill s k x0 x1).state))
  case fillRun n => exact .unit (fun _ => rfl) (.flow (State.keptBy_fillRun · n) fun s => (statusBy_fillRun s n).state)
  case padRow => exact .unit (fun _ => rfl) (.flow State.keptBy_padRow fun s => (statusBy_padRow s).state)
  case closeRow align => exact .unit (fun _ => rfl) (.next (State.kept_closeRow · align) (statusBy_closeRow · align))
  case onEOL => exact .unit (fun _ => rfl) (.flow State.keptBy_onEOL statusBy_onEOL)
  case onError => exact .unit (fun _ => rfl) (.flow State.keptBy_onError statusBy_onError)
  case onEOD fromMode =>
    exact .unit (fun _ => rfl) (.flow (State.keptBy_onEOD · fromMode) (statusBy_onEOD · fromMode))
  case record p =>
    exact .unit (fun _ => rfl) (.guarded (.next (State.kept_record · p) fun s => .same (status_record s p)))
  case findB => exact .unit (fun _ => rfl) (.answer _ State.Kept.refl fun _ => rfl)
  case countPixels k max =>
    exact .unit (fun _ => rfl) (.answer _ (State.kept_countPixels · k max) (status_countPixels · k max))
  case selectMode a1 b1 b2 =>
    exact .unit (fun _ => rfl) (.guarded (.answer _ State.Kept.refl fun _ => rfl))
  case putRun k n =>
    exact .unit (fun _ => rfl) (.flow (State.keptBy_putRun k n) fun s => (statusBy_putRun k n s).state)
  case encodeRowG31D =>
    exact .unit (fun _ => rfl) (.flow State.keptBy_encodeRowG31D fun s => (statusBy_encodeRowG31D s).state)
  all_goals cases h


end Sys2Proof.Machine
end

section
/-! What a step of the machine can do, said once (`spec/00_scope.md` R12, `spec/10_state.md` R43, log 6). -/

namespace Sys2Proof.Machine

/-! ### The host's commands -/

theorem withOperand_ok {α : Type} {o : Option α} {f : α → Instr} {i : Instr} (h : withOperand o f = .ok i) :
    ∃ a, i = f a := by
  unfold withOperand at h
  split at h
  · cases h
    exact ⟨_, rfl⟩
  · cases h

/-- What an OPSEL code selects is encoded with that code (R108). -/
theorem decodeSelect_ok {opsel : Byte} {x y z : Word} {i : Instr} (h : decodeSelect opsel x y z = .ok i) :
    ∃ x' y' z', encode i = .select opsel x' y' z' := by
  have hcode : ∀ {n : Nat} {x' y' z' : Word}, opsel.toNat = n → encode i = .select (BitVec.ofNat 8 n) x' y' z' →
      ∃ x' y' z', encode i = .select opsel x' y' z' := by
    rintro n x' y' z' rfl he
    rw [BitVec.ofNat_toNat, BitVec.setWidth_eq] at he
    exact ⟨_, _, _, he⟩
  unfold decodeSelect at h
  split at h
  all_goals rename_i hop
  all_goals first
    | (cases h; done)
    | (cases h; exact hcode hop rfl)
    | (obtain ⟨a, rfl⟩ := withOperand_ok h; exact hcode hop rfl)

theorem selectDispatch_next {d : Decoded} {s t : State} (h : selectDispatch exec d s = .next t) :
    ∃ i, d = .ok i ∧ exec i s = .next t := by
  unfold selectDispatch at h
  split at h
  · exact ⟨_, rfl, h⟩
  · cases h
  · cases h

/-- A next state of a unit command with a code of R108 (R43, U5): RESET, START, a step operation in its job, or a unit
operation with no job in RUN. -/
inductive State.CommandNext (s : State) : Instr → State → Prop where
  | reset : CommandNext s .reset s.resetBlock
  | start : CommandNext s .start s.startJob
  | decodeStep (hd : s.decoding = true) : CommandNext s .decodeStep s.decodeStep.state
  | modeStep (hd : s.decoding = true) (hc : s.context = .mode) : CommandNext s .modeStep s.modeStep.state
  | encodeStepG4 (hrun : s.running = true) (hj : s.cfg.job = .encodeG4) :
      CommandNext s .encodeStepG4 s.encodeStepG4.state
  | unit {i : Instr} {t : State} (h : s.UnitNext t) : CommandNext s i t

theorem stepOperation_next {entered : Bool} {f : State → Flow} {s t : State}
    (h : stepOperation entered f s = .next t) : s.running = true ∧ entered = true ∧ t = (f s).state := by
  unfold stepOperation at h
  split at h
  · rename_i hrun
    split at h <;> cases h
    rename_i hent
    exact ⟨hrun, hent, rfl⟩
  · cases h

theorem decoding_iff {s : State} : s.decoding = true ↔ s.running = true ∧ s.cfg.job.isDecode = true := by
  simp [State.decoding]

theorem CommandMeaning.next {i : Instr} (hi : CommandMeaning i) {s t : State} (h : exec i s = .next t) :
    s.CommandNext i t := by
  cases hi with
  | reset => cases h; exact .reset
  | start => cases h; exact .start
  | decodeStep =>
    obtain ⟨hrun, hj, rfl⟩ := stepOperation_next h
    exact .decodeStep (decoding_iff.mpr ⟨hrun, hj⟩)
  | modeStep =>
    obtain ⟨hrun, hent, rfl⟩ := stepOperation_next h
    obtain ⟨hj, hc⟩ := Bool.and_eq_true_iff.mp hent
    exact .modeStep (decoding_iff.mpr ⟨hrun, hj⟩) (of_decide_eq_true hc)
  | encodeStepG4 =>
    obtain ⟨hrun, hent, rfl⟩ := stepOperation_next h
    exact .encodeStepG4 hrun (of_decide_eq_true (Bool.and_eq_true_iff.mp hent).1)
  | unit hmeaning hf => exact .unit (unitOperation_next hf ((hmeaning s).symm.trans h))

/-! ### The block's own step and the host's accesses -/

/-- A next state of the block's own step (R12, R284, R285). -/
inductive State.BlockNext (s : State) : State → Prop where
  | idle (hs : s.running = false) : BlockNext s s
  | decode (hd : s.decoding = true) : BlockNext s s.decodeStep.state
  | encodeG4 {t : State} (hrun : s.running = true) (hj : s.cfg.job = .encodeG4) (h : s.jobStepG4 = .next t) :
      BlockNext s t
  | encodeG31D (hrun : s.running = true) (hj : s.cfg.job = .encodeG31D) : BlockNext s s.jobStepG31D.state

theorem decodeDispatch_next {s t : State} (hd : s.decoding = true) (h : decodeDispatch exec s = .next t) :
    s.BlockNext t := by
  rw [s.decodeStep_eq_dispatch hd] at h
  cases h
  exact .decode hd

theorem blockStep_next {s t : State} (h : blockStep s = .next t) : s.BlockNext t := by
  unfold blockStep at h
  split at h
  · rename_i hrun
    split at h
    · rename_i hj
      exact decodeDispatch_next (decoding_iff.mpr ⟨hrun, by rw [hj]; rfl⟩) h
    · rename_i hj
      exact decodeDispatch_next (decoding_iff.mpr ⟨hrun, by rw [hj]; rfl⟩) h
    · rename_i hj
      exact .encodeG4 hrun hj h
    · rename_i hj
      cases h
      exact .encodeG31D hrun hj
  · rename_i hrun
    cases h
    exact .idle (Bool.eq_false_iff.mpr hrun)

/-- A next state of a host access (R40, R77, R313, R338): STATUS is kept, and a job in RUN keeps everything but `result`. -/
theorem hostAccess_next {cmd : HostCommand} {s t : State} (h : hostAccess cmd s = .next t) :
    t.status = s.status ∧ (s.running = true → t = s.setResult t.result) := by
  have hsrc : ∀ (a : Nat) (f : State → State), hostSrc a f s = .next t → (∀ u : State, (f u).status = u.status) →
      t.status = s.status ∧ (s.running = true → t = s.setResult t.result) := by
    intro a f h hf
    unfold hostSrc at h
    split at h
    · cases h
    · rename_i hrun
      split at h <;> cases h
      exact ⟨hf s, fun hr => absurd hr hrun⟩
  have hdst : ∀ f : State → State, hostDst f s = .next t → (∀ u : State, (f u).status = u.status) →
      t.status = s.status ∧ (s.running = true → t = s.setResult t.result) := by
    intro f h hf
    unfold hostDst at h
    split at h <;> cases h
    rename_i hrun
    exact ⟨hf s, fun hr => absurd hr hrun⟩
  cases cmd with
  | select => cases h; exact ⟨rfl, fun _ => rfl⟩
  | idle => cases h; exact ⟨rfl, fun _ => rfl⟩
  | writeCfg reg v =>
    cases h
    unfold State.hostWriteCfg
    split
    · exact ⟨rfl, fun _ => rfl⟩
    · rename_i hrun
      exact ⟨rfl, fun hr => absurd hr hrun⟩
  | readReg reg => cases h; exact ⟨rfl, fun _ => rfl⟩
  | writeSrc a v =>
    simp only [hostAccess] at h
    exact hsrc a _ h fun _ => rfl
  | readSrc a =>
    simp only [hostAccess] at h
    exact hsrc a _ h fun _ => rfl
  | writeDst a v =>
    simp only [hostAccess] at h
    exact hdst _ h fun _ => rfl
  | readDst a =>
    simp only [hostAccess] at h
    exact hdst _ h fun _ => rfl

/-! ### The step -/

/-- A next state of a step (R12, R43, log 6), the command taken from the list first: the block's own step, a unit command, or
a host access. -/
inductive State.StepNext (s t : State) : Prop where
  | own (rest : List HostCommand) (h : (s.setCommands rest).BlockNext t)
  | command {opsel : Byte} {x y z : Word} {rest : List HostCommand} {i : Instr} (x' y' z' : Word)
      (hcmd : s.commands = .select opsel x y z :: rest) (hi : encode i = .select opsel x' y' z')
      (h : (s.setCommands rest).CommandNext i t)
  | access (rest : List HostCommand) (hstatus : t.status = s.status)
      (hrun : s.running = true → t = (s.setCommands rest).setResult t.result)

theorem setCommands_self {s : State} {l : List HostCommand} (h : s.commands = l) : s.setCommands l = s := by
  subst h
  rfl

theorem step_next {s t : State} (h : step s = .next t) : s.StepNext t := by
  unfold step at h
  split at h
  · rename_i hcmd
    rw [← setCommands_self hcmd] at h
    exact .own [] (blockStep_next h)
  · exact .own _ (blockStep_next h)
  · rename_i hcmd
    obtain ⟨i, hi, hexec⟩ := selectDispatch_next h
    obtain ⟨x', y', z', he⟩ := decodeSelect_ok hi
    exact .command x' y' z' hcmd he ((exec_command he).next hexec)
  · obtain ⟨hstatus, hrun⟩ := hostAccess_next h
    exact .access _ hstatus hrun

end Sys2Proof.Machine
end

section
/-! What the block and its job registers keep from step to step (`spec/10_state.md` R22, R26, R29, R32, R36, R40, R42): the
statements about CFG, SRC, STATUS and the invariants of the two kinds of job. -/

namespace Sys2Proof.Machine

/-! ### CFG and SRC (R40, R60) -/

theorem State.BlockNext.kept {s t : State} (h : s.BlockNext t) : s.Kept t := by
  cases h with
  | idle => exact .refl s
  | decode => exact s.keptBy_decodeStep
  | encodeG4 _ _ h => exact State.kept_jobStepG4 h
  | encodeG31D => exact s.keptBy_jobStepG31D

/-- A unit command but RESET keeps what every operation keeps. -/
theorem State.CommandNext.kept {i : Instr} {s t : State} (h : s.CommandNext i t) (hi : i ≠ .reset) : s.Kept t := by
  cases h with
  | reset => exact absurd rfl hi
  | start => exact s.kept_startJob
  | decodeStep => exact s.keptBy_decodeStep
  | modeStep => exact s.keptBy_modeStep
  | encodeStepG4 => exact s.keptBy_encodeStepG4
  | unit h => exact h.kept

theorem kept_of_exec {i : Instr} {s t : State} (h : exec i s = .next t) (hi : i ≠ .reset) : s.Kept t := by
  cases he : encode i with
  | code => exact (exec_codeword he).kept h
  | tag => exact kept_tagBit ((exec_tag he s).symm.trans h)
  | select => exact ((exec_command he).next h).kept hi

/-- Settles O47: every operation keeps CFG, SRC and the commands; RESET writes none of them (log 3). -/
theorem cfgAndSrcAreReadOnly : Obligations.CfgAndSrcAreReadOnly := by
  refine ⟨fun i s t h => ?_, fun s t hcmd h => ?_⟩
  · by_cases hi : i = .reset
    · subst hi
      cases h
      exact ⟨rfl, rfl, rfl⟩
    · have hk := kept_of_exec h hi
      exact ⟨hk.cfg, hk.src, hk.commands⟩
  · have hown : step s = blockStep s := by simp only [step, hcmd]
    have hk := (blockStep_next (hown.symm.trans h)).kept
    exact ⟨hk.cfg, hk.src, hk.commands.trans hcmd⟩

/-! ### STATUS (R42, R194, R301, R307) -/

theorem State.BlockNext.statusBy {s t : State} (h : s.BlockNext t) : s.StatusBy t := by
  cases h with
  | idle => exact .refl s
  | decode => exact statusBy_decodeStep s
  | encodeG4 hrun _ h => exact statusBy_jobStepG4 hrun h
  | encodeG31D hrun => exact statusBy_jobStepG31D hrun

theorem clearedStatus_ok (state : JobState) : Status.Ok (clearedStatus state) :=
  ⟨rfl, fun _ => ⟨rfl, rfl⟩, by simp [clearedStatus]⟩

theorem startJob_status_ok {s : State} (hs : Status.Ok s.status) : Status.Ok s.startJob.status := by
  unfold State.startJob
  split
  · exact hs
  · simp only
    split
    · exact ⟨rfl, (fun h => by cases h), by simp [State.raiseAtStart, State.enterFault]⟩
    · split
      · exact ⟨rfl, (fun h => by cases h), by simp [State.raiseAtStart, State.enterFault]⟩
      · exact clearedStatus_ok .run

theorem State.UnitNext.status_ok {s t : State} (h : s.UnitNext t) (hs : Status.Ok s.status) : Status.Ok t.status := by
  rw [h.status]
  exact hs

theorem State.CommandNext.status_ok {i : Instr} {s t : State} (h : s.CommandNext i t) (hs : Status.Ok s.status) :
    Status.Ok t.status := by
  cases h with
  | reset => exact clearedStatus_ok .idle
  | start => exact startJob_status_ok hs
  | decodeStep => exact (statusBy_decodeStep s).ok hs
  | modeStep => exact (statusBy_modeStep s).ok hs
  | encodeStepG4 => exact (statusBy_encodeStepG4 s).state.ok hs
  | unit h => exact h.status_ok hs

/-- Settles O51: each kind of step keeps the consistency of STATUS. -/
theorem statusStaysConsistent : Obligations.StatusStaysConsistent := by
  intro s t hs h
  cases step_next h with
  | own rest h => exact h.statusBy.ok hs
  | command _ _ _ _ _ h => exact h.status_ok hs
  | access rest hstatus => rwa [hstatus]

/-! ### The invariants of a decode job (R29, R32) -/

/-- The decoder's invariants, where a decode job is in RUN. -/
def State.DecodeKept (s : State) : Prop := s.running = true → s.cfg.job.isDecode = true → s.DecodeOk

/-- The invariants do not speak of the model's own registers (logs 6, 7). -/
theorem State.DecodeOk.setCommands {s : State} (h : s.DecodeOk) (l : List HostCommand) : (s.setCommands l).DecodeOk :=
  ⟨h.width_pos, h.a0_le, h.a0_lt, h.start, h.cur_ok, h.cur_le, h.ref_ok, h.parity, h.hphase_le, h.hphase_mode, h.rows_lt,
    h.row_open, h.kind_1d, h.kind_g4, h.reader_ok⟩

theorem State.DecodeOk.setResult {s : State} (h : s.DecodeOk) (r : OpResult) : (s.setResult r).DecodeOk :=
  ⟨h.width_pos, h.a0_le, h.a0_lt, h.start, h.cur_ok, h.cur_le, h.ref_ok, h.parity, h.hphase_le, h.hphase_mode, h.rows_lt,
    h.row_open, h.kind_1d, h.kind_g4, h.reader_ok⟩

theorem State.DecodeKept.of_decoding {s : State} (h : s.DecodeKept) (hd : s.decoding = true) : s.DecodeOk :=
  h (decoding_iff.mp hd).1 (decoding_iff.mp hd).2

theorem State.DecodeKept.of_idle {s : State} (h : s.running = false) : s.DecodeKept :=
  fun hrun => by rw [h] at hrun; cases hrun

theorem State.DecodeKept.of_encode {s : State} (h : s.cfg.job.isDecode = false) : s.DecodeKept :=
  fun _ hd => by rw [h] at hd; cases hd

/-- START is ignored in RUN (R338), or leaves the invariants of the job it begins. -/
theorem startJob_cases (s : State) : s.startJob = s ∨ s.startJob.JobOk := by
  cases hs : s.running
  · exact .inr (State.startJob_ok hs)
  · exact .inl (by simp [State.startJob, hs])

theorem resetBlock_not_running (s : State) : s.resetBlock.running = false := rfl

/-- The mode context has no run owed and reads a 2D line (R92). -/
theorem of_context_mode {s : State} (h : s.context = .mode) : s.hphase = 0 ∧ s.lineMode = .l2d := by
  have hnot : ¬ (s.lineMode = .l1d ∨ 0 < s.hphase) :=
    fun hrun => runContext_ne_mode s.c ((State.context_run hrun).symm.trans h)
  obtain ⟨hline, hphase⟩ := not_or.mp hnot
  refine ⟨Nat.eq_zero_of_not_pos hphase, ?_⟩
  cases hm : s.lineMode with
  | l1d => exact absurd hm hline
  | l2d => rfl

theorem State.BlockNext.decodeKept {s t : State} (h : s.BlockNext t) (hs : s.DecodeKept) : t.DecodeKept := by
  have hcfg := h.kept.cfg
  cases h with
  | idle => exact hs
  | decode hd => exact fun hrun _ => (hs.of_decoding hd).safe_decodeStep hrun
  | encodeG4 _ hj => exact .of_encode (by rw [hcfg, hj]; rfl)
  | encodeG31D _ hj => exact .of_encode (by rw [hcfg, hj]; rfl)

theorem State.CommandNext.decodeKept {i : Instr} {s t : State} (h : s.CommandNext i t) (hs : s.DecodeKept) :
    t.DecodeKept := by
  cases h with
  | reset => exact .of_idle (resetBlock_not_running s)
  | start =>
    rcases startJob_cases s with hself | hjob
    · rwa [hself]
    · exact fun hrun => (hjob hrun).1
  | decodeStep hd => exact fun hrun _ => (hs.of_decoding hd).safe_decodeStep hrun
  | modeStep hd hc =>
    obtain ⟨hp, hm⟩ := of_context_mode hc
    exact fun hrun _ => (hs.of_decoding hd).safe_modeStep hp hm hrun
  | encodeStepG4 _ hj => exact .of_encode (by rw [s.keptBy_encodeStepG4.cfg, hj]; rfl)
  | unit h => exact .of_idle h.not_running

/-- Settles O49: each kind of step keeps the decoder's invariants, START establishes them. -/
theorem decoderInvariantsKept : Obligations.DecoderInvariantsKept := by
  intro s t h hs
  have hkept : ∀ rest, (s.setCommands rest).DecodeKept := fun rest hrun hd => (hs hrun hd).setCommands rest
  cases step_next h with
  | own rest h => exact h.decodeKept (hkept rest)
  | command _ _ _ _ _ h => exact h.decodeKept (hkept _)
  | access rest hstatus heq =>
    intro hrun hd
    have hsrun := (running_of_status hstatus).symm.trans hrun
    rw [heq hsrun] at hd ⊢
    exact ((hs hsrun hd).setCommands rest).setResult _

/-! ### The invariants of an encode job (R26, R36, R253) -/

/-- The encoder's invariants, where an encode job is in RUN. -/
def State.EncodeKept (s : State) : Prop := s.running = true → s.cfg.job.isDecode = false → s.EncodeOk

theorem State.EncodeOk.setCommands {s : State} (h : s.EncodeOk) (l : List HostCommand) : (s.setCommands l).EncodeOk :=
  ⟨h.width_pos, h.y_lt, h.raster, h.reader_len, h.reader_rev, h.reader_ok, h.writer_ok, h.position, h.a0_le, h.cur_ok,
    h.ref_ok⟩

theorem State.EncodeOk.setResult {s : State} (h : s.EncodeOk) (r : OpResult) : (s.setResult r).EncodeOk :=
  ⟨h.width_pos, h.y_lt, h.raster, h.reader_len, h.reader_rev, h.reader_ok, h.writer_ok, h.position, h.a0_le, h.cur_ok,
    h.ref_ok⟩

theorem State.EncodeKept.of_idle {s : State} (h : s.running = false) : s.EncodeKept :=
  fun hrun => by rw [h] at hrun; cases hrun

theorem State.EncodeKept.of_decoding {s t : State} (hd : s.decoding = true) (hk : s.Kept t) : t.EncodeKept := by
  intro _ he
  rw [hk.cfg, (decoding_iff.mp hd).2] at he
  cases he

theorem State.BlockNext.encodeKept {s t : State} (h : s.BlockNext t) (hdst : s.dst.wf = true) (hs : s.EncodeKept) :
    t.EncodeKept := by
  have hk := h.kept
  cases h with
  | idle => exact hs
  | decode hd => exact .of_decoding hd hk
  | encodeG4 hrun hj h =>
    obtain ⟨u, hu, hok⟩ := (hs hrun (by rw [hj]; rfl)).jobStepG4 hj hdst
    rw [h] at hu
    cases hu
    exact fun hrun' _ => (hok hrun').2.2
  | encodeG31D hrun hj =>
    have hok := (hs hrun (by rw [hj]; rfl)).jobStepG31D (by rw [hj]; decide) hdst
    exact fun hrun' _ => (hok hrun').2.2

theorem State.CommandNext.encodeKept {i : Instr} {s t : State} (h : s.CommandNext i t) (hi : i ≠ .encodeStepG4)
    (hs : s.EncodeKept) : t.EncodeKept := by
  cases h with
  | reset => exact .of_idle (resetBlock_not_running s)
  | start =>
    rcases startJob_cases s with hself | hjob
    · rwa [hself]
    · exact fun hrun => (hjob hrun).2
  | decodeStep hd => exact .of_decoding hd s.keptBy_decodeStep
  | modeStep hd => exact .of_decoding hd s.keptBy_modeStep
  | encodeStepG4 => exact absurd rfl hi
  | unit h => exact .of_idle h.not_running

/-- Settles O50: each kind of step but a host-driven `EncodeStepG4` (log 28) keeps the encoder's invariants, START
establishes them. -/
theorem encoderInvariantsKept : Obligations.EncoderInvariantsKept := by
  intro s t hmem h hcmd hs
  have hkept : ∀ rest, (s.setCommands rest).EncodeKept := fun rest hrun he => (hs hrun he).setCommands rest
  cases step_next h with
  | own rest h => exact h.encodeKept hmem.2 (hkept rest)
  | command _ _ _ hcommand hi h =>
    refine h.encodeKept ?_ (hkept _)
    rintro rfl
    cases hi
    exact hcmd _ _ _ _ hcommand
  | access rest hstatus heq =>
    intro hrun he
    have hsrun := (running_of_status hstatus).symm.trans hrun
    rw [heq hsrun] at he ⊢
    exact ((hs hsrun he).setCommands rest).setResult _

end Sys2Proof.Machine
end

section
/-! The refusals of unit operations (U5), the host's registers (`spec/10_state.md` R40, R42), the reset state (R44) and what
the writer appends (`spec/40_bitcursor.md` R144 to R146; R259). -/

namespace Sys2Proof.Machine

/-! ### Refusals (R43, U5) -/

/-- A codeword or a tag bit outside a running decode job is refused (R181). -/
theorem exec_stream_idle {s : State} {i : Instr} (hd : s.decoding = false)
    (h : (∃ context pattern len, encode i = .code context pattern len) ∨ ∃ bit, encode i = .tag bit) :
    exec i s = .refused .stepOperationOutsideRun := by
  rcases h with ⟨_, _, _, he⟩ | ⟨bit, he⟩
  · cases exec_codeword he with
    | run len _ hmeaning => rw [hmeaning, runCodeword_idle hd]
    | mode len _ hmeaning => rw [hmeaning, modeCodeword_idle hd]
  · rw [exec_tag he, tagBit_idle hd]

theorem stepOperation_idle {s : State} (hs : s.running = false) (entered : Bool) (f : State → Flow) :
    stepOperation entered f s = .refused .stepOperationOutsideRun := by
  simp [stepOperation, hs]

/-- While a job is in RUN every unit command is refused but RESET, START and the step operations. -/
theorem exec_command_running {s : State} {i : Instr} {opsel : Byte} {x y z : Word} (hs : s.running = true)
    (he : encode i = .select opsel x y z) (hop : 0x10 ≤ opsel.toNat) (h30 : opsel ≠ 0x30) (h41 : opsel ≠ 0x41)
    (h52 : opsel ≠ 0x52) : exec i s = .refused .unitOperationDuringRun := by
  cases exec_command he with
  | reset => cases he; exact absurd hop (by decide)
  | start => cases he; exact absurd hop (by decide)
  | decodeStep => cases he; exact absurd rfl h30
  | modeStep => cases he; exact absurd rfl h41
  | encodeStepG4 => cases he; exact absurd rfl h52
  | unit hmeaning => rw [hmeaning, unitOperation_running hs]

/-- Settles O14: codewords, tag bits and unit commands by their meanings; the three step operations by their codes. -/
theorem unitOperationsAndRun : Obligations.UnitOperationsAndRun := by
  refine ⟨fun s i hd h => exec_stream_idle hd h, fun s opsel x y z i hi => ⟨?_, fun hs hop => ?_⟩⟩
  · obtain ⟨_, _, _, he⟩ := decodeSelect_ok hi
    exact fun hs hop h30 h41 h52 => exec_command_running hs he hop h30 h41 h52
  · rcases hop with rfl | rfl | rfl <;> cases hi <;> exact stepOperation_idle hs _ _

/-! ### The host's registers (R40, R42, R338, U7) -/

theorem step_writeCfg {s : State} {reg : CfgReg} {v : Word} {rest : List HostCommand}
    (h : s.commands = .writeCfg reg v :: rest) : step s = .next ((s.setCommands rest).hostWriteCfg reg v) := by
  simp only [step, h, hostAccess]

theorem step_readReg {s : State} {reg : HostReg} {rest : List HostCommand} (h : s.commands = .readReg reg :: rest) :
    step s = .next ((s.setCommands rest).setResult (.register (s.readReg reg))) := by
  simp only [step, h, hostAccess]
  cases reg <;> rfl

theorem hostWriteCfg_running {s : State} (hs : s.running = true) (reg : CfgReg) (v : Word) :
    s.hostWriteCfg reg v = s := by
  simp [State.hostWriteCfg, hs]

theorem hostWriteCfg_idle {s : State} (hs : s.running = false) (reg : CfgReg) (v : Word) :
    s.hostWriteCfg reg v = { s with cfg := s.cfg.writeReg v reg } := by
  simp [State.hostWriteCfg, hs]

theorem readReg_writeReg_other (g : Cfg) (v : Word) {reg other : CfgReg} (h : other ≠ reg) :
    (g.writeReg v reg).readReg other = g.readReg other := by
  cases reg <;> cases other <;> first | rfl | exact absurd rfl h

/-- Settles O44: a write and the read that follows it, then the reads of CFG and of the STATUS registers one by one. -/
theorem hostRegisters : Obligations.HostRegisters := by
  intro s reg v rest
  refine ⟨fun h hs => ?_, fun h hs => ?_, fun r h _ => step_readReg h, fun r n hmem h => ?_⟩
  · rw [step_writeCfg h, hostWriteCfg_running (s := s.setCommands rest) hs]
    rfl
  · rw [step_writeCfg h, hostWriteCfg_idle (s := s.setCommands (.readReg (.cfg reg) :: rest)) hs]
    refine ⟨_, _, _, rfl, rfl, fun other hne => readReg_writeReg_other _ _ hne, step_readReg rfl, rfl, ?_⟩
    cases reg <;> rfl
  · rw [step_readReg h]
    simp only [List.mem_cons, Prod.mk.injEq, List.not_mem_nil, or_false] at hmem
    rcases hmem with ⟨rfl, rfl⟩ | ⟨rfl, rfl⟩ | ⟨rfl, rfl⟩ | ⟨rfl, rfl⟩ | ⟨rfl, rfl⟩ | ⟨rfl, rfl⟩ | ⟨rfl, rfl⟩
    all_goals rfl

/-! ### The reset state (R44) -/

/-- Settles O46: the registers of `State.reset` by evaluation; with no job in RUN nothing is asked of the invariants. -/
theorem resetState : Obligations.ResetState :=
  ⟨rfl, rfl, rfl, ⟨rfl, rfl⟩, clearedStatus_ok .idle, (fun h => by cases h), rfl⟩

/-! ### The writer (R144 to R146, R259) -/

theorem exec_putAlign {s : State} (hs : s.running = false) : exec .putAlign s = s.putAlign.out :=
  unitOperation_go hs fun s => s.putAlign.out

theorem exec_finish {s : State} (hs : s.running = false) : exec .finish s = s.finish.out :=
  unitOperation_go hs fun s => s.finish.out

theorem exec_putRun {s : State} (hs : s.running = false) (k : Colour) (n : Nat) :
    exec (.putRun k n) s = (State.putRun k n s).out :=
  unitOperation_go hs fun s => (State.putRun k n s).out

/-- The zero bits of `putAlign` complete the byte. -/
theorem State.Wrote.aligned {s t : State} (hs : s.writer.Ok)
    (h : s.Wrote (List.replicate ((8 - s.writer.wn) % 8) false) t) : t.writer.wn = 0 := by
  have hpos := h.position
  have hs8 := hs.1
  have ht8 := h.writer_ok.1
  rw [List.length_replicate] at hpos
  omega

/-- Settles O11: each operation emits its bits with room for them; `finish` is `putAlign` and OUT_LEN. -/
theorem writerAppends : Obligations.WriterAppends := by
  intro s hs hw hd
  refine ⟨fun v n hn hv hroom => ?_, fun hroom => ?_, fun k n hroom => ?_⟩
  · obtain ⟨t, ht, hwrote⟩ := State.putBits_go v n s hw hd hroom
    exact ⟨t, hwrote, by rw [putBits_unit hs hn hv, ht, Flow.out_go]⟩
  · obtain ⟨t, hwrote, ht⟩ := writer_out (by rwa [List.length_replicate]) (s.putAlign_cases hw hd)
    have hstatus : t.status = s.status := by rw [hwrote.same]
    refine ⟨t, hwrote, hwrote.aligned hw, by rw [exec_putAlign hs, ht, Flow.out_go], ?_⟩
    rw [exec_finish hs, State.finish, ht, Flow.bind_go, Flow.out_go, hstatus]
    rfl
  · obtain ⟨t, hwrote, ht⟩ := writer_out hroom (State.putRun_cases k n s hw hd)
    exact ⟨t, hwrote, by rw [exec_putRun hs, ht, Flow.out_go]⟩

end Sys2Proof.Machine
end

section
/-! Look-ahead is hidden (`spec/10_state.md` R25, `spec/40_bitcursor.md` R143): every rule of a decode job commutes with
another choice of how far the reader's buffer runs ahead. -/

namespace Sys2Proof.Machine

/-! ### States that differ in look-ahead -/

/-- `s` with another reader and another SRC_USED: what look-ahead may show in (R25). -/
def State.withAhead (s : State) (r : Reader) (used : Nat) : State :=
  { s with reader := r, status := { s.status with srcUsed := used } }

/-- `u` is `s` but for how far the buffer runs ahead, the cursor invariant true of both. -/
def State.AheadOf (s u : State) : Prop :=
  ∃ r used, u = s.withAhead r used ∧ s.reader.Ok s.src ∧ s.reader.Moved s.src 0 r

variable {s u : State}

theorem State.AheadOf.ok (h : s.AheadOf u) : s.reader.Ok s.src := by
  obtain ⟨_, _, _, hok, _⟩ := h
  exact hok

theorem State.AheadOf.src (h : s.AheadOf u) : u.src = s.src := by
  obtain ⟨_, _, rfl, _⟩ := h
  rfl

theorem State.AheadOf.moved (h : s.AheadOf u) : s.reader.Moved s.src 0 u.reader := by
  obtain ⟨_, _, rfl, _, hm⟩ := h
  exact hm

theorem State.AheadOf.ok_right (h : s.AheadOf u) : u.reader.Ok u.src := by
  rw [h.src]
  exact h.moved.ok

/-- An update that touches neither the reader nor SRC_USED. -/
theorem State.AheadOf.map (h : s.AheadOf u) (f : State → State)
    (hf : ∀ r used, f (s.withAhead r used) = (f s).withAhead r used) (hsrc : (f s).src = s.src) : (f s).AheadOf (f u) := by
  have hself : f s = (f s).withAhead s.reader s.status.srcUsed := hf s.reader s.status.srcUsed
  have hrd : (f s).reader = s.reader := by
    rw [hself]
    rfl
  obtain ⟨r, used, rfl, hok, hm⟩ := h
  exact ⟨r, used, hf r used, by rwa [hrd, hsrc], by rwa [hrd, hsrc]⟩

theorem State.AheadOf.ite {p q : Prop} [Decidable p] [Decidable q] {s' u' : State} (hpq : p ↔ q)
    (ht : p → s.AheadOf u) (hf : ¬ p → s'.AheadOf u') : (if p then s else s').AheadOf (if q then u else u') := by
  by_cases hp : p
  · rw [if_pos hp, if_pos (hpq.mp hp)]
    exact ht hp
  · rw [if_neg hp, if_neg (fun hq => hp (hpq.mpr hq))]
    exact hf hp

/-- Two flows that go on, or end, in such states. -/
inductive Flow.AheadOf : Flow → Flow → Prop where
  | go {s u : State} (h : s.AheadOf u) : Flow.AheadOf (.go s) (.go u)
  | halt {s u : State} (h : s.AheadOf u) : Flow.AheadOf (.halt s) (.halt u)

theorem Flow.AheadOf.state {w w' : Flow} (h : w.AheadOf w') : w.state.AheadOf w'.state := by
  cases h with
  | go h => exact h
  | halt h => exact h

theorem Flow.AheadOf.bind {w w' : Flow} {f f' : State → Flow} (h : w.AheadOf w')
    (hf : ∀ {s u : State}, s.AheadOf u → (f s).AheadOf (f' u)) : (w.bind f).AheadOf (w'.bind f') := by
  cases h with
  | go h => exact hf h
  | halt h => exact .halt h

theorem Flow.AheadOf.ite {p q : Prop} [Decidable p] [Decidable q] {w w' v v' : Flow} (hpq : p ↔ q)
    (ht : p → w.AheadOf w') (hf : ¬ p → v.AheadOf v') : (if p then w else v).AheadOf (if q then w' else v') := by
  by_cases hp : p
  · rw [if_pos hp, if_pos (hpq.mp hp)]
    exact ht hp
  · rw [if_neg hp, if_neg (fun hq => hp (hpq.mpr hq))]
    exact hf hp

/-! ### The reader -/

/-- Equal moves of two readers at one position. -/
theorem Reader.Moved.same_move {src : Memory} {r r' a b : Reader} {k : Nat} (h : r.Moved src 0 r') (ha : r.Moved src k a)
    (hb : r'.Moved src k b) : a.Moved src 0 b :=
  ⟨hb.ok, by rw [hb.position, ha.position, h.position]; omega, hb.len.trans (h.len.trans ha.len.symm),
    hb.rev.trans (h.rev.trans ha.rev.symm)⟩

theorem State.AheadOf.rest (h : s.AheadOf u) : u.reader.rest u.src = s.reader.rest s.src := by
  rw [h.src, h.moved.rest, List.drop_zero]

theorem State.AheadOf.left (h : s.AheadOf u) :
    8 * u.reader.len - u.reader.position = 8 * s.reader.len - s.reader.position := by
  rw [h.moved.len, h.moved.position, Nat.add_zero]

theorem State.AheadOf.setReader {a b : Reader} {k : Nat} (h : s.AheadOf u) (ha : s.reader.Moved s.src k a)
    (hb : u.reader.Moved s.src k b) : (s.setReader a).AheadOf (u.setReader b) := by
  obtain ⟨r, used, rfl, hok, hm⟩ := h
  exact ⟨b, used, rfl, ha.ok, hm.same_move ha hb⟩

theorem State.AheadOf.fillTo (h : s.AheadOf u) {n : Nat} (hn : n ≤ 32) : (s.fillTo n).AheadOf (u.fillTo n) := by
  refine h.setReader (h.ok.moved_fillTo hn) ?_
  rw [h.src]
  exact h.moved.ok.moved_fillTo hn

theorem State.AheadOf.clear (h : s.AheadOf u) {n : Nat} (hs : n ≤ s.reader.cnt) (hu : n ≤ u.reader.cnt) :
    (s.clear n).AheadOf (u.clear n) :=
  h.setReader (h.ok.moved_clear hs) (h.moved.ok.moved_clear hu)

/-- The refilled windows show the same bits (R136). -/
theorem State.AheadOf.window (h : s.AheadOf u) {n : Nat} (hn : n ≤ 32) :
    (u.fillTo n).reader.window n = (s.fillTo n).reader.window n := by
  have hs : (s.fillTo n).reader.window n = s.reader.ahead s.src n := h.ok.window_fillTo hn le_rfl
  have hu : (u.fillTo n).reader.window n = u.reader.ahead u.src n := h.ok_right.window_fillTo hn le_rfl
  rw [hs, hu, Reader.ahead, Reader.ahead, h.rest]

theorem State.AheadOf.avail (h : s.AheadOf u) {n : Nat} (hn : n ≤ 32) :
    (u.fillTo n).reader.avail n = (s.fillTo n).reader.avail n := by
  have hs : (s.fillTo n).reader.avail n = min n (8 * s.reader.len - s.reader.position) :=
    (h.ok.fillTo hn).2.2.2.2.2 n le_rfl
  have hu : (u.fillTo n).reader.avail n = min n (8 * u.reader.len - u.reader.position) :=
    (h.ok_right.fillTo hn).2.2.2.2.2 n le_rfl
  rw [hs, hu, h.left]

/-- A refill makes `k ≤ n` bits available on both sides, or on neither. -/
theorem State.AheadOf.cnt_iff (h : s.AheadOf u) {n k : Nat} (hn : n ≤ 32) (hk : k ≤ n) :
    k ≤ (s.fillTo n).reader.cnt ↔ k ≤ (u.fillTo n).reader.cnt := by
  have hav := h.avail hn
  unfold Reader.avail at hav
  omega

theorem State.AheadOf.clear_fillTo (h : s.AheadOf u) {n k : Nat} (hn : n ≤ 32) (hk : k ≤ n)
    (hcnt : k ≤ (s.fillTo n).reader.cnt) : ((s.fillTo n).clear k).AheadOf ((u.fillTo n).clear k) :=
  (h.fillTo hn).clear hcnt ((h.cnt_iff hn hk).mp hcnt)

theorem State.AheadOf.byteAlign (h : s.AheadOf u) :
    (s.setReader s.reader.byteAlign).AheadOf (u.setReader u.reader.byteAlign) := by
  obtain ⟨r, used, rfl, hok, hm⟩ := h
  obtain ⟨hsok, hspos⟩ := hok.byteAlign
  obtain ⟨huok, hupos⟩ := hm.ok.byteAlign
  exact ⟨r.byteAlign, used, rfl, hsok, huok, by rw [hupos, hm.position]; exact hspos.symm, hm.len, hm.rev⟩

theorem State.AheadOf.drain (h : s.AheadOf u) :
    (s.setReader (s.reader.drain s.src)).AheadOf (u.setReader (u.reader.drain u.src)) := by
  obtain ⟨r, used, rfl, hok, hm⟩ := h
  obtain ⟨hsok, hscnt, hscons, hslen, hsrev⟩ := hok.drain
  obtain ⟨huok, hucnt, hucons, hulen, hurev⟩ := hm.ok.drain
  refine ⟨r.drain s.src, used, rfl, hsok, huok, ?_, hulen.trans (hm.len.trans hslen.symm),
    hurev.trans (hm.rev.trans hsrev.symm)⟩
  show 8 * (r.drain s.src).consumed - (r.drain s.src).cnt =
    8 * (s.reader.drain s.src).consumed - (s.reader.drain s.src).cnt + 0
  rw [hucnt, hucons, hscnt, hscons, hm.len, Nat.add_zero]

/-! ### Stops, faults and the pixel store -/

theorem State.AheadOf.stop (h : s.AheadOf u) (reason : StopCode) : (s.stop reason).AheadOf (u.stop reason) := by
  obtain ⟨r, used, rfl, hok, hm⟩ := h
  exact .ite Iff.rfl (fun _ => ⟨r, r.consumed, rfl, hok, hm⟩) fun _ => ⟨r, used, rfl, hok, hm⟩

theorem State.AheadOf.raiseDecodeCapacity (h : s.AheadOf u) : s.raiseDecodeCapacity.AheadOf u.raiseDecodeCapacity := by
  obtain ⟨r, used, rfl, hok, hm⟩ := h
  exact .ite Iff.rfl (fun _ => ⟨r, r.consumed, rfl, hok, hm⟩) fun _ => ⟨r, used, rfl, hok, hm⟩

theorem State.AheadOf.openRow (h : s.AheadOf u) : s.openRow.AheadOf u.openRow := by
  obtain ⟨r, used, rfl, -⟩ := id h
  refine .ite .rfl (fun _ => .go h) fun _ => .ite .rfl (fun _ => ?_)
    fun _ => .go (h.map State.initRow (fun _ _ => rfl) rfl)
  exact .ite .rfl (fun _ => .halt h.raiseDecodeCapacity)
    fun _ => .go (h.map (fun s => { s with capRows := max 1 (2 * s.capRows) }.initRow) (fun _ _ => rfl) rfl)

theorem State.AheadOf.fill (h : s.AheadOf u) (k : Colour) (x0 x1 : Nat) : (s.fill k x0 x1).AheadOf (u.fill k x0 x1) :=
  h.openRow.bind fun h => .go (h.map (State.draw · k x0 x1) (fun _ _ => rfl) rfl)

theorem State.AheadOf.record (h : s.AheadOf u) (p : Nat) : (s.record p).AheadOf (u.record p) := by
  obtain ⟨r, used, rfl, -⟩ := id h
  exact .ite .rfl (fun _ => h) fun _ => h.map (fun s => { s with cur := recordChange s.cur p }) (fun _ _ => rfl) rfl

/-- The end of a run or of a vertical mode: `a0` moved, the position recorded, the colour flipped. -/
theorem State.AheadOf.advance (h : s.AheadOf u) (e : Nat) :
    ((s.moveTo e).record e).flipColour.AheadOf ((u.moveTo e).record e).flipColour :=
  ((h.map (State.moveTo · e) (fun _ _ => rfl) rfl).record e).map State.flipColour (fun _ _ => rfl) rfl

theorem State.AheadOf.closeRow (h : s.AheadOf u) (align : Bool) : (s.closeRow align).AheadOf (u.closeRow align) := by
  have hnext : s.nextRow.AheadOf u.nextRow := h.map State.nextRow (fun _ _ => rfl) rfl
  have haligned : (if align && s.nextRow.rowAlign then s.nextRow.setReader s.nextRow.reader.byteAlign else s.nextRow).AheadOf
      (if align && u.nextRow.rowAlign then u.nextRow.setReader u.nextRow.reader.byteAlign else u.nextRow) := by
    obtain ⟨r, used, rfl, -⟩ := id h
    exact .ite .rfl (fun _ => hnext.byteAlign) fun _ => hnext
  have hlast : ∀ {t v : State}, t.AheadOf v →
      (if t.imageHeight ≠ 0 ∧ t.rows = t.imageHeight then t.stop .height else t).AheadOf
        (if v.imageHeight ≠ 0 ∧ v.rows = v.imageHeight then v.stop .height else v) := by
    intro t v h
    obtain ⟨r, used, rfl, -⟩ := id h
    exact .ite .rfl (fun _ => h.stop .height) fun _ => h
  exact hlast haligned

theorem State.AheadOf.closeIfFull (h : s.AheadOf u) : s.closeIfFull.AheadOf u.closeIfFull := by
  obtain ⟨r, used, rfl, -⟩ := id h
  exact .ite .rfl (fun _ => h.closeRow true) fun _ => h

theorem State.AheadOf.padRow (h : s.AheadOf u) : s.padRow.AheadOf u.padRow := by
  have hwhite : (if s.c = .black then { s.record s.a0 with c := .white } else s).AheadOf
      (if u.c = .black then { u.record u.a0 with c := .white } else u) := by
    obtain ⟨r, used, rfl, -⟩ := id h
    exact .ite .rfl (fun _ => (h.record s.a0).map (fun t => { t with c := .white }) (fun _ _ => rfl) rfl) fun _ => h
  have hfill : ∀ {t v : State}, t.AheadOf v →
      ((t.fill .white t.a0 t.imageWidth).bind fun t => .go (t.moveTo t.imageWidth)).AheadOf
        ((v.fill .white v.a0 v.imageWidth).bind fun v => .go (v.moveTo v.imageWidth)) := by
    intro t v h
    obtain ⟨r, used, rfl, -⟩ := id h
    exact (h.fill .white t.a0 t.imageWidth).bind
      fun h => .go (h.map (fun s => s.moveTo s.imageWidth) (fun _ _ => rfl) rfl)
  exact hfill hwhite

/-! ### Row events (R190 to R193) -/

theorem State.AheadOf.onEOD (h : s.AheadOf u) (fromMode : Bool) : (s.onEOD fromMode).AheadOf (u.onEOD fromMode) := by
  obtain ⟨r, used, rfl, -⟩ := id h
  refine .ite .rfl (fun _ => .go (h.stop .lenient)) fun _ => Flow.AheadOf.bind ?_ fun h => .go (h.stop .eod)
  exact .ite .rfl (fun _ => h.padRow.bind fun h => .go (h.map State.nextRow (fun _ _ => rfl) rfl)) fun _ => .go h

theorem State.AheadOf.endOfBlock (h : s.AheadOf u) : s.endOfBlock.AheadOf u.endOfBlock := by
  have hav := h.avail (n := 12) (by omega)
  have hwin := h.window (n := 12) (by omega)
  have hcnt := avail_le_cnt (s.fillTo 12).reader 12
  have hprobe : (if (s.fillTo 12).reader.window 12 = 1 ∧ (s.fillTo 12).reader.avail 12 = 12 then
        ((s.fillTo 12).clear 12).stop .eob else s.fillTo 12).AheadOf
      (if (u.fillTo 12).reader.window 12 = 1 ∧ (u.fillTo 12).reader.avail 12 = 12 then
        ((u.fillTo 12).clear 12).stop .eob else u.fillTo 12) :=
    .ite (by rw [hav, hwin])
      (fun hp => (h.clear_fillTo (n := 12) (by omega) le_rfl (by omega)).stop .eob) fun _ => h.fillTo (by omega)
  obtain ⟨r, used, rfl, -⟩ := id h
  exact .ite .rfl (fun _ => hprobe) fun _ => h

theorem State.AheadOf.afterEOL (h : s.AheadOf u) : s.afterEOL.AheadOf u.afterEOL := by
  have hwin := h.window (n := 1) (by omega)
  have hcnt := h.cnt_iff (n := 1) (k := 1) (by omega) le_rfl
  have htag : (if (s.fillTo 1).reader.cnt < 1 then (s.fillTo 1).onEOD false
        else .go ((s.fillTo 1).takeTag (decide ((s.fillTo 1).reader.window 1 = 1))).endOfBlock).AheadOf
      (if (u.fillTo 1).reader.cnt < 1 then (u.fillTo 1).onEOD false
        else .go ((u.fillTo 1).takeTag (decide ((u.fillTo 1).reader.window 1 = 1))).endOfBlock) := by
    refine .ite (by omega) (fun _ => (h.fillTo (by omega)).onEOD false) fun hc => ?_
    rw [hwin]
    have hclear := h.clear_fillTo (n := 1) (k := 1) (by omega) le_rfl (by omega)
    generalize decide ((s.fillTo 1).reader.window 1 = 1) = tag
    exact .go (hclear.map (fun t => { t with lineMode := lineModeOfTag tag }) (fun _ _ => rfl) rfl).endOfBlock
  obtain ⟨r, used, rfl, -⟩ := id h
  exact .ite .rfl (fun _ => htag) fun _ => .go h.endOfBlock

theorem State.AheadOf.settleRow (h : s.AheadOf u) : s.settleRow.AheadOf u.settleRow := by
  obtain ⟨r, used, rfl, -⟩ := id h
  exact .ite .rfl (fun _ => h.padRow.bind fun h => .go (h.closeRow false))
    fun _ => .go (h.map (fun s => { s with c := .white, cur := [], atStart := true }) (fun _ _ => rfl) rfl)

/-- What a job in RUN goes on with after its row is closed. -/
theorem State.AheadOf.ifRunning {f : State → Flow} (h : s.AheadOf u) (hf : (f s).AheadOf (f u)) :
    (if s.running then f s else .go s).AheadOf (if u.running then f u else .go u) := by
  obtain ⟨r, used, rfl, -⟩ := id h
  exact .ite .rfl (fun _ => hf) fun _ => .go h

theorem State.AheadOf.onEOL (h : s.AheadOf u) : s.onEOL.AheadOf u.onEOL :=
  (h.map State.dropRun (fun _ _ => rfl) rfl).settleRow.bind fun h => h.ifRunning h.afterEOL

theorem State.AheadOf.scanForEOL (fuel : Nat) (h : s.AheadOf u) :
    (State.scanForEOL fuel s).AheadOf (State.scanForEOL fuel u) := by
  induction fuel generalizing s u with
  | zero => exact .go h
  | succ fuel ih =>
    have hav := h.avail (n := 12) (by omega)
    have hwin := h.window (n := 12) (by omega)
    have hcnt := avail_le_cnt (s.fillTo 12).reader 12
    have hfill := h.fillTo (n := 12) (by omega)
    unfold State.scanForEOL
    refine .ite (by rw [hav]) (fun _ => hfill.drain.onEOD false) fun hlong =>
      .ite (by rw [hwin]) (fun _ => .go hfill) fun _ => ih ?_
    have halign : (u.fillTo 12).rowAlign = (s.fillTo 12).rowAlign := by
      obtain ⟨r, used, rfl, _⟩ := h
      rfl
    rw [halign]
    exact h.clear_fillTo (by omega) (by split <;> omega) (by split <;> omega)

theorem State.AheadOf.resync (h : s.AheadOf u) : s.resync.AheadOf u.resync := by
  have hleft : u.reader.bitsLeft = s.reader.bitsLeft := by rw [h.ok.bitsLeft_eq, h.ok_right.bitsLeft_eq, h.left]
  unfold State.resync
  rw [hleft]
  exact h.scanForEOL _

theorem State.AheadOf.skipBit (h : s.AheadOf u) : s.skipBit.AheadOf u.skipBit :=
  .ite (h.cnt_iff (by omega) le_rfl) (fun hc => h.clear_fillTo (by omega) le_rfl hc) fun _ => h.fillTo (by omega)

theorem State.AheadOf.onError (h : s.AheadOf u) : s.onError.AheadOf u.onError := by
  obtain ⟨r, used, rfl, -⟩ := id h
  refine .ite .rfl (fun _ => ?_) fun _ => .go (h.map (fun s => { s with afterZero := false }) (fun _ _ => rfl) rfl).skipBit
  exact ((h.map State.dropRun (fun _ _ => rfl) rfl).padRow.bind fun h => .go (h.closeRow true)).bind
    fun h => h.ifRunning h.resync

/-! ### The rules of the codewords (R181 to R184, R223 to R229) -/

theorem State.AheadOf.terminate (h : s.AheadOf u) (v : Nat) : (s.terminate v).AheadOf (u.terminate v) := by
  have hpay : ∀ {t v : State}, t.AheadOf v → t.payRun.AheadOf v.payRun := by
    intro t v h
    have howed := h.map (fun s => { s with hphase := s.hphase - 1 }) (fun _ _ => rfl) rfl
    obtain ⟨r, used, rfl, -⟩ := id h
    exact .ite .rfl (fun _ => howed.closeIfFull) fun _ => howed
  obtain ⟨r, used, rfl, -⟩ := id h
  exact (((h.map (fun s => { s with acc := 0 }) (fun _ _ => rfl) rfl).fill s.c s.a0 (s.runEnd (s.acc + v))).bind
    fun h => .go (h.advance (s.runEnd (s.acc + v)))).bind fun h => .go (hpay h)

theorem State.AheadOf.terminatingRule (h : s.AheadOf u) (v : Nat) :
    (s.terminatingRule v).AheadOf (u.terminatingRule v) := by
  obtain ⟨r, used, rfl, -⟩ := id h
  exact .ite .rfl (fun _ => h.onError) fun _ => h.terminate v

theorem State.AheadOf.makeupRule (h : s.AheadOf u) (v : Nat) : (s.makeupRule v).AheadOf (u.makeupRule v) := by
  obtain ⟨r, used, rfl, -⟩ := id h
  exact .ite .rfl (fun _ => h.onError) fun _ => .go (h.map (State.makeUp v) (fun _ _ => rfl) rfl)

theorem State.AheadOf.doPass (h : s.AheadOf u) : s.doPass.AheadOf u.doPass := by
  obtain ⟨r, used, rfl, -⟩ := id h
  exact (h.fill s.c s.a0 (min s.findB.2 s.imageWidth)).bind fun h =>
    .go (h.map (fun t => { t with a0 := min s.findB.2 s.imageWidth, atStart := false }) (fun _ _ => rfl) rfl).closeIfFull

theorem State.AheadOf.doVertical (h : s.AheadOf u) (d : Int) : (s.doVertical d).AheadOf (u.doVertical d) := by
  obtain ⟨r, used, rfl, -⟩ := id h
  exact (h.fill s.c s.a0 (s.verticalTarget d)).bind fun h => .go (h.advance (s.verticalTarget d)).closeIfFull

theorem State.AheadOf.doExt1D (h : s.AheadOf u) : s.doExt1D.AheadOf u.doExt1D := by
  have hav := h.avail (n := 12) (by omega)
  have hwin := h.window (n := 12) (by omega)
  have hcnt := avail_le_cnt (s.fillTo 12).reader 12
  refine .ite (by rw [hav, hwin]) (fun hp => .go (h.clear_fillTo (by omega) (by omega) (by omega))) fun _ => ?_
  exact .ite (by rw [hav, hwin]) (fun hp => (h.clear_fillTo (by omega) le_rfl (by omega)).onEOL)
    fun _ => (h.fillTo (by omega)).onError

/-! ### The decode step -/

/-- Equal lookups (R161): the same result, and readers at one position. -/
theorem State.AheadOf.decodeRun (h : s.AheadOf u) (k : Colour) :
    (u.decodeRun k).1 = (s.decodeRun k).1 ∧ (s.decodeRun k).2.AheadOf (u.decodeRun k).2 := by
  obtain ⟨a, ha, hs⟩ := runLookup_eq h.ok k
  obtain ⟨b, hb, hu⟩ := runLookup_eq h.ok_right k
  rw [h.rest] at hb hu
  rw [h.src] at hb
  rw [hs, hu]
  exact ⟨rfl, h.setReader ha hb⟩

theorem State.AheadOf.decodeMode (h : s.AheadOf u) :
    u.decodeMode.1 = s.decodeMode.1 ∧ s.decodeMode.2.AheadOf u.decodeMode.2 := by
  obtain ⟨a, ha, hs⟩ := modeLookup_eq h.ok
  obtain ⟨b, hb, hu⟩ := modeLookup_eq h.ok_right
  rw [h.rest] at hb hu
  rw [h.src] at hb
  rw [hs, hu]
  exact ⟨rfl, h.setReader ha hb⟩

theorem State.AheadOf.runStep (h : s.AheadOf u) : s.runStep.AheadOf u.runStep := by
  have hc : u.c = s.c := by
    obtain ⟨r, used, rfl, _⟩ := h
    rfl
  obtain ⟨hres, hst⟩ := h.decodeRun s.c
  have hsz := State.decodeRun_zero (s := s) (k := s.c)
  have huz := State.decodeRun_zero (s := u) (k := s.c)
  unfold State.runStep
  rw [hc]
  generalize s.decodeRun s.c = outs at *
  generalize u.decodeRun s.c = outu at *
  obtain ⟨res, s'⟩ := outs
  obtain ⟨resu, u'⟩ := outu
  obtain rfl : resu = res := hres
  cases resu with
  | run v => exact .ite .rfl (fun _ => hst.makeupRule v) fun _ => hst.terminatingRule v
  | eol => exact hst.onEOL
  | zero => exact .go ((hst.clear (hsz rfl) (huz rfl)).map State.markZero (fun _ _ => rfl) rfl)
  | error => exact hst.onError
  | eod => exact hst.onEOD false

theorem State.AheadOf.modeStep (h : s.AheadOf u) : s.modeStep.AheadOf u.modeStep := by
  obtain ⟨hres, hst⟩ := h.decodeMode
  unfold State.modeStep
  generalize s.decodeMode = outs at *
  generalize u.decodeMode = outu at *
  obtain ⟨res, s'⟩ := outs
  obtain ⟨resu, u'⟩ := outu
  obtain rfl : resu = res := hres
  cases resu with
  | pass => exact hst.doPass
  | horizontal => exact .go (hst.map (fun s => { s with hphase := 2 }) (fun _ _ => rfl) rfl)
  | vertical d => exact hst.doVertical d
  | ext2d => exact hst.onError
  | ext1d => exact hst.doExt1D
  | error => exact hst.onError
  | eod => exact hst.onEOD true

theorem State.AheadOf.decodeStep (h : s.AheadOf u) : s.decodeStep.AheadOf u.decodeStep := by
  obtain ⟨r, used, rfl, -⟩ := id h
  exact .ite .rfl (fun _ => h.runStep) fun _ => h.modeStep

theorem step_decodeStep (hd : s.decoding = true) (hc : s.commands = []) : step s = .next s.decodeStep.state := by
  rw [step_decoding hd hc, s.decodeStep_eq_dispatch hd, Flow.out_eq]

/-- Settles O58: both steps are `DecodeStep`, which keeps the relation. -/
theorem lookAheadIsHidden : Obligations.LookAheadIsHidden := by
  intro s r hd hc hok hm
  have h : s.AheadOf { s with reader := r } := ⟨r, s.status.srcUsed, rfl, hok, hm⟩
  refine ⟨_, _, step_decodeStep hd hc, step_decodeStep (s := { s with reader := r }) hd hc, ?_⟩
  have hnext := h.decodeStep.state
  generalize State.decodeStep { s with reader := r } = w at *
  have hsrc := s.keptBy_decodeStep.src
  obtain ⟨r', used, heq, _, hm'⟩ := hnext
  rw [heq, ← hsrc]
  exact ⟨rfl, hm'⟩

end Sys2Proof.Machine
end

section
/-! The byte memories behind the host and the block (`spec/20_memory.md` R60, R63, R77; U6): the host's accesses in and
outside RUN, and the canonical form that every step keeps (log 4). -/

namespace Sys2Proof.Machine

/-! ### The gates of a host access (U6, log 20) -/

theorem hostSrc_running {s : State} (hs : s.running = true) (a : Nat) (f : State → State) :
    hostSrc a f s = .refused .hostAccessDuringRun := by
  simp [hostSrc, hs]

theorem hostSrc_idle {s : State} {a : Nat} (hs : s.running = false) (ha : a ≤ 2 ^ 32 - 2) (f : State → State) :
    hostSrc a f s = .next (f s) := by
  have hlt : a < 2 ^ 32 - 1 := by omega
  simp only [hostSrc, hs, hlt, Bool.false_eq_true, if_false, if_true]

/-- No SRC_LEN reaches the address (log 20). -/
theorem hostSrc_beyond {s : State} {a : Nat} (hs : s.running = false) (ha : 2 ^ 32 - 2 < a) (f : State → State) :
    hostSrc a f s = .fault .noSuchAddress := by
  have hlt : ¬ a < 2 ^ 32 - 1 := by omega
  simp only [hostSrc, hs, hlt, Bool.false_eq_true, if_false]

theorem hostDst_running {s : State} (hs : s.running = true) (f : State → State) :
    hostDst f s = .refused .hostAccessDuringRun := by
  simp [hostDst, hs]

theorem hostDst_idle {s : State} (hs : s.running = false) (f : State → State) : hostDst f s = .next (f s) := by
  simp [hostDst, hs]

theorem hostSrc_next {a : Nat} {f : State → State} {s t : State} (h : hostSrc a f s = .next t) : t = f s := by
  unfold hostSrc at h
  split at h
  · cases h
  · split at h <;> cases h
    rfl

theorem hostDst_next {f : State → State} {s t : State} (h : hostDst f s = .next t) : t = f s := by
  unfold hostDst at h
  split at h <;> cases h
  rfl

/-! ### The steps that carry a memory access -/

section
variable {s : State} {a : Nat} {v : Byte} {rest : List HostCommand}

theorem step_writeSrc (h : s.commands = .writeSrc a v :: rest) :
    step s = hostSrc a (fun u => { u with src := u.src.write a v }) (s.setCommands rest) := by
  simp only [step, h, hostAccess]

theorem step_readSrc (h : s.commands = .readSrc a :: rest) :
    step s = hostSrc a (fun u => u.setResult (.byte (u.src.read a))) (s.setCommands rest) := by
  simp only [step, h, hostAccess]

theorem step_writeDst (h : s.commands = .writeDst a v :: rest) :
    step s = hostDst (fun u => u.setDst (u.dst.write a v)) (s.setCommands rest) := by
  simp only [step, h, hostAccess]

theorem step_readDst (h : s.commands = .readDst a :: rest) :
    step s = hostDst (fun u => u.setResult (.byte (u.dst.read a))) (s.setCommands rest) := by
  simp only [step, h, hostAccess]

end

theorem running_setCommands (s : State) (l : List HostCommand) : (s.setCommands l).running = s.running := rfl

/-- Settles O45: each access passes or meets its gate; a write that passes is `Memory.write`. -/
theorem hostMemories : Obligations.HostMemories := by
  intro s a v rest
  rw [← running_setCommands s rest]
  refine ⟨fun h hs hwf => ?_, fun h hs hwf ha => ?_, fun h hs => ?_, fun h hs ha => ?_, fun h hs ha => ?_, fun h hs => ?_⟩
  · exact ⟨_, Memory.wf_write a v hwf, Memory.read_write s.dst a v, (step_writeDst h).trans (hostDst_idle hs _)⟩
  · exact ⟨_, Memory.wf_write a v hwf, Memory.read_write s.src a v, (step_writeSrc h).trans (hostSrc_idle hs ha _)⟩
  · exact (step_readDst h).trans (hostDst_idle hs _)
  · exact (step_readSrc h).trans (hostSrc_idle hs ha _)
  · rcases h with h | h
    · exact (step_writeSrc h).trans (hostSrc_beyond hs ha _)
    · exact (step_readSrc h).trans (hostSrc_beyond hs ha _)
  · rcases h with h | h | h | h
    · exact (step_writeDst h).trans (hostDst_running hs _)
    · exact (step_writeSrc h).trans (hostSrc_running hs _ _)
    · exact (step_readDst h).trans (hostDst_running hs _)
    · exact (step_readSrc h).trans (hostSrc_running hs _ _)

/-! ### Canonical form (log 4) -/

theorem State.Kept.memoriesOk {s t : State} (h : s.Kept t) (hs : s.memoriesOk) : t.memoriesOk := by
  obtain ⟨hsrc, hdst⟩ := hs
  exact ⟨by rwa [h.src], h.dst_wf hdst⟩

/-- RESET writes neither memory (R330); every other instruction keeps SRC and the form of DST. -/
theorem exec_memoriesOk {i : Instr} {s t : State} (h : exec i s = .next t) (hs : s.memoriesOk) : t.memoriesOk := by
  by_cases hi : i = .reset
  · subst hi
    cases h
    exact hs
  · exact (kept_of_exec h hi).memoriesOk hs

theorem hostWriteCfg_memoriesOk {s : State} (reg : CfgReg) (v : Word) (hs : s.memoriesOk) :
    (s.hostWriteCfg reg v).memoriesOk := by
  unfold State.hostWriteCfg
  split
  · exact hs
  · exact hs

/-- A host access leaves the memories or writes one byte of one of them. -/
theorem hostAccess_memoriesOk {cmd : HostCommand} {s t : State} (h : hostAccess cmd s = .next t) (hs : s.memoriesOk) :
    t.memoriesOk := by
  obtain ⟨hsrc, hdst⟩ := id hs
  cases cmd with
  | select => cases h; exact hs
  | idle => cases h; exact hs
  | writeCfg reg v => cases h; exact hostWriteCfg_memoriesOk reg v hs
  | readReg reg => cases h; exact hs
  | writeSrc a v =>
    simp only [hostAccess] at h
    cases hostSrc_next h
    exact ⟨Memory.wf_write a v hsrc, hdst⟩
  | readSrc a =>
    simp only [hostAccess] at h
    cases hostSrc_next h
    exact hs
  | writeDst a v =>
    simp only [hostAccess] at h
    cases hostDst_next h
    exact ⟨hsrc, Memory.wf_write a v hdst⟩
  | readDst a =>
    simp only [hostAccess] at h
    cases hostDst_next h
    exact hs

/-- Settles O48: the block's own step, a unit command and a host access each keep the canonical form. -/
theorem memoriesStayCanonical : Obligations.MemoriesStayCanonical := by
  intro s t hs h
  unfold step at h
  split at h
  · exact (blockStep_next h).kept.memoriesOk hs
  · exact (blockStep_next h).kept.memoriesOk hs
  · obtain ⟨i, _, hexec⟩ := selectDispatch_next h
    exact exec_memoriesOk hexec hs
  · exact hostAccess_memoriesOk h hs

end Sys2Proof.Machine
end

section
/-! In each context at most one codeword begins a window (`spec/30_encoding.md` R92 to R106), and the fetch reads the one that
begins the stream (`spec/41_code_tables.md` R161 to R169). -/

namespace Sys2Proof.Machine

/-! ### Lookups in a window -/

theorem codewordFits_iff {width v avail pattern len : Nat} :
    codewordFits width v avail pattern len = true ↔ len ≤ avail ∧ v >>> (width - len) = pattern := by
  simp [codewordFits]

/-- Of two bit strings that begin a window, the shorter begins the longer. -/
theorem window_prefix {width v len len' : Nat} (hle : len ≤ len') (hwidth : len' ≤ width) :
    (v >>> (width - len')) >>> (len' - len) = v >>> (width - len) := by
  rw [← Nat.shiftRight_add]
  congr 1
  omega

/-- A search finds the one entry that passes its test. -/
theorem find?_of_unique {α : Type} {p : α → Bool} {l : List α} {a : α} (ha : a ∈ l) (hp : p a = true)
    (huniq : ∀ b ∈ l, p b = true → b = a) : l.find? p = some a := by
  cases hfind : l.find? p with
  | none => exact absurd hp (List.find?_eq_none.mp hfind a ha)
  | some b => rw [huniq b (List.mem_of_find?_eq_some hfind) (List.find?_some hfind)]

/-- R106, R161: the row whose codeword begins the window is the one found, since no other row's pattern begins it too. -/
theorem lookupRun_of_fits {k : Colour} {v avail : Nat} {r : CodeRow} (hr : r ∈ runSet k)
    (hfits : codewordFits 13 v avail r.pattern r.len = true) : lookupRun k v avail = some r := by
  refine find?_of_unique hr hfits fun r' hr' hfits' => ?_
  obtain ⟨_, hpat⟩ := codewordFits_iff.mp hfits
  obtain ⟨_, hpat'⟩ := codewordFits_iff.mp hfits'
  rcases Nat.le_total r.len r'.len with hle | hle
  · exact (runSet_prefix_unique k r hr r' hr' hle
      (by rw [← hpat, ← hpat', window_prefix hle (runSet_patterns k r' hr').1])).symm
  · exact runSet_prefix_unique k r' hr' r hr hle
      (by rw [← hpat, ← hpat', window_prefix hle (runSet_patterns k r hr).1])

/-- R106, R167: the same of the mode codes. -/
theorem lookupMode_of_fits {v avail : Nat} {r : ModeRow} (hr : r ∈ modeSet)
    (hfits : codewordFits 7 v avail r.pattern r.len = true) : lookupMode v avail = some r := by
  refine find?_of_unique hr hfits fun r' hr' hfits' => ?_
  obtain ⟨_, hpat⟩ := codewordFits_iff.mp hfits
  obtain ⟨_, hpat'⟩ := codewordFits_iff.mp hfits'
  rcases Nat.le_total r.len r'.len with hle | hle
  · exact (modeSet_prefix_unique r hr r' hr' hle
      (by rw [← hpat, ← hpat', window_prefix hle (modeSet_patterns r' hr').1])).symm
  · exact modeSet_prefix_unique r' hr' r hr hle
      (by rw [← hpat, ← hpat', window_prefix hle (modeSet_patterns r hr).1])

/-- Settles O2: a codeword that begins the window fits it, and at most one does. -/
theorem atMostOneCodeword : Obligations.AtMostOneCodeword :=
  ⟨fun _ _ _ _ hr _ _ hlen hpat => lookupRun_of_fits hr (codewordFits_iff.mpr ⟨hlen, hpat⟩),
    fun _ _ _ hr _ _ hlen hpat => lookupMode_of_fits hr (codewordFits_iff.mpr ⟨hlen, hpat⟩)⟩

/-! ### Fetching from the stream -/

/-- R161 to R165: a run context reads from its filled window what begins the stream. -/
theorem decodeRunWindow_ahead {s : State} (h : s.reader.Ok s.src) (k : Colour) :
    decodeRunWindow k ((s.fillTo 13).reader.window 13) ((s.fillTo 13).reader.avail 13) =
      runInstrAhead k (s.reader.rest s.src) := by
  unfold decodeRunWindow runInstrAhead
  rw [lookupRun_ahead h, zeroWindow_ahead h]
  exact if_congr (avail_zero_iff h (by omega) (by omega)) rfl rfl

/-- R167 to R169: the mode context reads from its filled window what begins the stream. -/
theorem decodeModeWindow_ahead {s : State} (h : s.reader.Ok s.src) :
    decodeModeWindow ((s.fillTo 7).reader.window 7) ((s.fillTo 7).reader.avail 7) =
      instrAhead .mode (s.reader.rest s.src) := by
  unfold decodeModeWindow instrAhead
  rw [lookupMode_ahead h]
  refine if_congr (avail_zero_iff h (by omega) (by omega)) rfl ?_
  cases modeRowAhead (s.reader.rest s.src) with
  | some r => rfl
  | none => exact if_congr (extWindow_ahead h) rfl rfl

/-- Settles O5: by the context that reads the next codeword. -/
theorem fetchReadsTheStream : Obligations.FetchReadsTheStream := by
  intro s h
  unfold State.fetch State.fetchFill
  cases s.context with
  | white => exact decodeRunWindow_ahead h .white
  | black => exact decodeRunWindow_ahead h .black
  | mode => exact decodeModeWindow_ahead h

/-! ### Words written out -/

/-- Settles O3: each word is looked up in the table of its context. -/
theorem writtenWordsDecode : Obligations.WrittenWordsDecode := by
  unfold Obligations.WrittenWordsDecode
  decide

end Sys2Proof.Machine
end

section
/-! The encoder and the decoder agree (`spec/30_encoding.md` R91 to R108): codewords because no other row of their
context begins the window, unit commands by their operand words (log 5). -/

namespace Sys2Proof.Machine

/-! ### Codewords -/

/-- The codewords that a context looks up, with their patterns and lengths (R92 to R101). -/
def contextRows : Context → List (Instr × Nat × Nat)
  | .white => (runSet .white).map fun r => (r.instr, r.pattern, r.len)
  | .black => (runSet .black).map fun r => (r.instr, r.pattern, r.len)
  | .mode => modeSet.map fun r => (r.instr, r.pattern, r.len)

/-- R93 to R101: what is encoded as a codeword is a row of its context, but for the two all-zero windows FILL and EXT1D. -/
theorem encode_mem_contextRows {i : Instr} {ctx : Context} {pattern len : Nat} (h : encode i = .code ctx pattern len)
    (hfill : i ≠ .fillBit) (hext : i ≠ .ext1d) : (i, pattern, len) ∈ contextRows ctx := by
  cases i
  case fillBit => exact absurd rfl hfill
  case ext1d => exact absurd rfl hext
  all_goals cases h
  all_goals decide +kernel

theorem codewordFits_shiftLeft {width pattern len : Nat} (hlen : len ≤ width) :
    codewordFits width (pattern <<< (width - len)) width pattern len = true :=
  codewordFits_iff.mpr ⟨hlen, Nat.shiftLeft_shiftRight _ _⟩

/-- A codeword of a run context is read back from a full window that it begins (R161). -/
theorem decodeRunWindow_row {k : Colour} {r : CodeRow} (hr : r ∈ runSet k) :
    decodeRunWindow k (r.pattern <<< (13 - r.len)) 13 = .ok r.instr := by
  simp [decodeRunWindow, lookupRun_of_fits hr (codewordFits_shiftLeft (runSet_patterns k r hr).1)]

/-- A codeword of the mode context is read back from a full window that it begins (R167). -/
theorem decodeModeWindow_row {r : ModeRow} (hr : r ∈ modeSet) :
    decodeModeWindow (r.pattern <<< (7 - r.len)) 7 = .ok r.instr := by
  simp [decodeModeWindow, lookupMode_of_fits hr (codewordFits_shiftLeft (modeSet_patterns r hr).1)]

theorem decodeWindow_contextRow {i : Instr} {ctx : Context} {pattern len : Nat} (h : (i, pattern, len) ∈ contextRows ctx) :
    decodeWindow ctx (pattern <<< (ctx.width - len)) ctx.width = .ok i := by
  cases ctx with
  | white =>
    obtain ⟨r, hr, heq⟩ := List.mem_map.mp h
    cases heq
    exact decodeRunWindow_row hr
  | black =>
    obtain ⟨r, hr, heq⟩ := List.mem_map.mp h
    cases heq
    exact decodeRunWindow_row hr
  | mode =>
    obtain ⟨r, hr, heq⟩ := List.mem_map.mp h
    cases heq
    exact decodeModeWindow_row hr

/-- R92 to R101: every codeword is read back, a row of the tables by its lookup, FILL and EXT1D by their zero windows. -/
theorem decodeWindow_encode {i : Instr} {ctx : Context} {pattern len : Nat} (h : encode i = .code ctx pattern len) :
    decodeWindow ctx (pattern <<< (ctx.width - len)) ctx.width = .ok i := by
  by_cases hfill : i = .fillBit
  · subst hfill
    cases h
    rfl
  by_cases hext : i = .ext1d
  · subst hext
    cases h
    rfl
  exact decodeWindow_contextRow (encode_mem_contextRows h hfill hext)

/-! ### Tag bits -/

/-- R105. -/
theorem decodeTag_encode {i : Instr} {bit : Bool} (h : encode i = .tag bit) : decodeTag bit = i := by
  cases i
  case t1 => cases h; rfl
  case t0 => cases h; rfl
  all_goals cases h

/-! ### Unit commands -/

/-- A number below 2^32 is read back from its operand word. -/
theorem decoded_number {n : Nat} (hn : n < 2 ^ 32) (f : Nat → Instr) :
    Decoded.ok (f (BitVec.ofNat 32 n).toNat) = .ok (f n) := by
  rw [BitVec.toNat_ofNat, Nat.mod_eq_of_lt hn]

/-- A bit count within the bound `b` of its operation (U1, U2). -/
theorem decoded_count {n b : Nat} (hn : decide (n ≤ b) = true) (hb : b < 2 ^ 32) (f : Nat → Instr) :
    Decoded.ok (f (BitVec.ofNat 32 n).toNat) = .ok (f n) :=
  decoded_number (Nat.lt_of_le_of_lt (of_decide_eq_true hn) hb) f

@[simp] theorem decodeColour_encodeColour (k : Colour) : decodeColour (encodeColour k) = some k := by
  cases k <;> rfl

@[simp] theorem decodeBit_encodeBit (b : Bool) : decodeBit (encodeBit b) = some b := by
  cases b <;> rfl

/-- A vertical offset in -3 .. 3 is read back from its two's complement word. -/
theorem decodeModeName_encodeModeName {m : ModeName} (h : m.encodable = true) :
    decodeModeName (encodeModeName m) (encodeOffset m) = some m := by
  cases m with
  | pass => rfl
  | horizontal => rfl
  | vertical d =>
    obtain ⟨hlo, hhi⟩ : -3 ≤ d ∧ d ≤ 3 := by simpa [ModeName.encodable] using h
    have hd : (BitVec.ofInt 32 d).toInt = d := by
      rw [BitVec.toInt_ofInt]
      exact Int.bmod_eq_of_le (by omega) (by omega)
    exact congrArg (fun e => some (ModeName.vertical e)) hd
  | ext1d => cases h
  | ext2d => cases h

/-- An operation of a colour is read back where its colour's word is. -/
theorem decoded_colour (k : Colour) (f : Colour → Instr) : withOperand (decodeColour (encodeColour k)) f = .ok (f k) := by
  rw [decodeColour_encodeColour]
  rfl

theorem decoded_bit (b : Bool) (f : Bool → Instr) : withOperand (decodeBit (encodeBit b)) f = .ok (f b) := by
  rw [decodeBit_encodeBit]
  rfl

/-- An operation of a colour and a number. -/
theorem decoded_colour_number (k : Colour) {n : Nat} (hn : n < 2 ^ 32) (f : Colour → Nat → Instr) :
    withOperand (decodeColour (encodeColour k)) (fun c => f c (BitVec.ofNat 32 n).toNat) = .ok (f k n) :=
  (decoded_colour k _).trans (decoded_number hn (f k))

/-- R108: every unit command with well-formed operands is read back from its code and operand words. -/
theorem decodeSelect_encode {i : Instr} (hwf : i.WellFormed) {opsel : Byte} {x y z : Word}
    (h : encode i = .select opsel x y z) : decodeSelect opsel x y z = .ok i := by
  cases i
  case hasBits n => cases h; exact decoded_count (b := 32) hwf (by omega) .hasBits
  case peekBits n => cases h; exact decoded_count (b := 32) hwf (by omega) .peekBits
  case getBits n => cases h; exact decoded_count (b := 32) hwf (by omega) .getBits
  case clearBits n => cases h; exact decoded_count (b := 40) hwf (by omega) .clearBits
  case look n => cases h; exact decoded_count (b := 32) hwf (by omega) .look
  case putBits v n =>
    cases h
    obtain ⟨hn, hv⟩ := (Bool.and_eq_true _ _).mp hwf
    have hn : n ≤ 32 := of_decide_eq_true hn
    have hv : v < 2 ^ 32 := Nat.lt_of_lt_of_le (of_decide_eq_true hv) (Nat.pow_le_pow_right (by omega) hn)
    exact (decoded_number hv (.putBits · _)).trans (decoded_number (by omega) (.putBits v))
  case decodeRun k => cases h; exact decoded_colour k .decodeRun
  case termCode k n =>
    cases h
    have hn : n ≤ 63 := of_decide_eq_true hwf
    exact decoded_colour_number k (by omega) .termCode
  case makeupCode k m =>
    cases h
    obtain ⟨hm, _⟩ := (Bool.and_eq_true _ _).mp hwf
    obtain ⟨_, hm⟩ := (Bool.and_eq_true _ _).mp hm
    have hm : m ≤ 2560 := of_decide_eq_true hm
    exact decoded_colour_number k (by omega) .makeupCode
  case modeCode m =>
    cases h
    exact congrArg (withOperand · Instr.modeCode) (decodeModeName_encodeModeName hwf)
  case fillPixels k x0 x1 =>
    cases h
    obtain ⟨hle, hx1⟩ := (Bool.and_eq_true _ _).mp hwf
    have hle : x0 ≤ x1 := of_decide_eq_true hle
    have hx1 : x1 < 2 ^ 32 := of_decide_eq_true hx1
    exact (decoded_colour_number k (by omega) (.fillPixels · · _)).trans (decoded_number hx1 (.fillPixels k x0))
  case fillRun n => cases h; exact decoded_number (of_decide_eq_true hwf) .fillRun
  case closeRow align => cases h; exact decoded_bit align .closeRow
  case onEOD fromMode => cases h; exact decoded_bit fromMode .onEOD
  case record p => cases h; exact decoded_number (of_decide_eq_true hwf) .record
  case countPixels k max => cases h; exact decoded_colour_number k (of_decide_eq_true hwf) .countPixels
  case selectMode a1 b1 b2 =>
    cases h
    obtain ⟨ha1b1, hb2⟩ := (Bool.and_eq_true _ _).mp hwf
    obtain ⟨ha1, hb1⟩ := (Bool.and_eq_true _ _).mp ha1b1
    exact ((decoded_number (of_decide_eq_true ha1) (.selectMode · _ _)).trans
      (decoded_number (of_decide_eq_true hb1) (.selectMode a1 · _))).trans
      (decoded_number (of_decide_eq_true hb2) (.selectMode a1 b1))
  case putRun k n => cases h; exact decoded_colour_number k (of_decide_eq_true hwf) .putRun
  all_goals cases h
  all_goals rfl

/-- Settles O1: a codeword, a tag bit and a unit command are each read back. -/
theorem encodeDecodeRoundTrip : Obligations.EncodeDecodeRoundTrip := by
  intro i hwf
  cases h : encode i with
  | code ctx pattern len => exact decodeWindow_encode h
  | tag bit => exact congrArg Decoded.ok (decodeTag_encode h)
  | select opsel x y z => exact decodeSelect_encode hwf h

end Sys2Proof.Machine
end

section
/-! A run decodes to the run that was encoded (`spec/42_g3_decoder.md` R181 to R183, `spec/44_encoder.md` R259): one step for
each make-up code, one for the terminating code. -/

namespace Sys2Proof.Machine

/-! ### The codes of a run -/

/-- R173, R259: a run's make-up values are lengths of make-up codes. -/
theorem makeupValues_coded {n m : Nat} (hm : m ∈ makeupValues n) : 64 ≤ m ∧ m ≤ 2560 ∧ m % 64 = 0 := by
  simp only [makeupValues, List.mem_append, List.mem_replicate] at hm
  rcases hm with ⟨_, rfl⟩ | hm
  · decide
  · split at hm
    · rw [List.mem_singleton] at hm
      omega
    · simp at hm

/-- R259: the make-up codes carry the multiple of 64 below the run length. -/
theorem sum_makeupValues (n : Nat) : (makeupValues n).sum = 64 * (n / 64) := by
  simp only [makeupValues, List.sum_append, List.sum_replicate, smul_eq_mul]
  split
  · rw [List.sum_singleton]
    omega
  · simp
    omega

/-- R173: a make-up value is coded by a row of its colour's table. -/
theorem makeupCode_row (k : Colour) {m : Nat} (hm : 64 ≤ m ∧ m ≤ 2560 ∧ m % 64 = 0) :
    ∃ r ∈ makeupTable k, r.value = m ∧ codeBits (makeupCode k m) = bitsOf r.pattern r.len := by
  obtain ⟨hlo, hhi, hmod⟩ := hm
  obtain ⟨r, hr, hv⟩ := makeupTable_total k (m / 64 - 1) (by omega)
  have hvm : r.value = m := by omega
  refine ⟨r, hr, hvm, ?_⟩
  rw [← hvm, makeupCode, makeupTable_find k r hr]
  rfl

/-- R172: a run length below 64 is coded by a row of its colour's table. -/
theorem termCode_row (k : Colour) {n : Nat} (hn : n < 64) :
    ∃ r ∈ terminatingTable k, r.value = n ∧ codeBits (termCode k n) = bitsOf r.pattern r.len := by
  obtain ⟨r, hr, rfl⟩ := terminatingTable_total k n hn
  refine ⟨r, hr, rfl, ?_⟩
  rw [termCode, terminatingTable_find k r hr]
  rfl

/-! ### One codeword -/

/-- The stream goes on with the codeword of the row `r`. -/
abbrev State.RowAhead (s : State) (r : CodeRow) : Prop :=
  (bitsOf r.pattern r.len).isPrefixOf (s.reader.rest s.src) = true

theorem State.RowAhead.len_le {s : State} {r : CodeRow} (h : s.RowAhead r) :
    r.len ≤ 8 * s.reader.len - s.reader.position := by
  have := prefix_length h
  rwa [length_bitsOf, Reader.length_rest] at this

theorem runSet_len_pos (k : Colour) : ∀ r ∈ runSet k, 0 < r.len := by
  cases k <;> decide

/-- R92, R106: in a run context the codeword ahead is the one fetched. -/
theorem fetch_rowAhead {s : State} (hok : s.reader.Ok s.src) (hctx : s.lineMode = .l1d ∨ 0 < s.hphase) {r : CodeRow}
    (hr : r ∈ runSet s.c) (hahead : s.RowAhead r) : s.fetch = .ok r.instr := by
  obtain ⟨hlen, hpat⟩ := runSet_patterns s.c r hr
  have hfits := (fits_iff hok (by omega) hlen _ hpat).trans hahead
  have hpos := runSet_len_pos s.c r hr
  have hav := (codewordFits_iff.mp hfits).1
  unfold State.fetch State.fetchFill
  rw [State.context_run hctx, decodeWindow_run, runContext_width]
  unfold decodeRunWindow
  rw [if_neg (by omega), lookupRun_of_fits hr hfits]

/-- A running decode job about to read a codeword in a run context, its cursor valid, no fill before it (R92, R181). -/
structure State.ReadsRun (s : State) : Prop where
  decoding : s.decoding = true
  commands : s.commands = []
  reader_ok : s.reader.Ok s.src
  context : s.lineMode = .l1d ∨ 0 < s.hphase
  afterZero : s.afterZero = false

/-- A step on the codeword ahead is its lookup and its rule. -/
theorem State.ReadsRun.step_row {s : State} (h : s.ReadsRun) {r : CodeRow} (hr : r ∈ runSet s.c) (hahead : s.RowAhead r)
    {rule : State → Flow} (hexec : exec r.instr s = runCodeword r.len rule s) :
    ∃ rd, s.reader.Moved s.src r.len rd ∧ step s = .next (rule { s with reader := rd }).state := by
  obtain ⟨rd, hmoved, hgo⟩ :=
    runCodeword_go h.decoding h.reader_ok (runSet_patterns s.c r hr).1 hahead.len_le rule
  refine ⟨rd, hmoved, ?_⟩
  rw [step_decoding h.decoding h.commands, decodeDispatch_fetched (fetch_rowAhead h.reader_ok h.context hr hahead), hexec,
    hgo, Flow.out_eq]

/-- R182: a step on a make-up code adds its value to `acc`. -/
theorem State.ReadsRun.step_makeup {s : State} (h : s.ReadsRun) {r : CodeRow} (hr : r ∈ makeupTable s.c)
    (hahead : s.RowAhead r) :
    ∃ rd, s.reader.Moved s.src r.len rd ∧ step s = .next { s with reader := rd, acc := s.acc + r.value } := by
  obtain ⟨rd, hmoved, hstep⟩ := h.step_row (mem_runSet.mpr (.inr (.inl hr))) hahead (exec_makeup s.c r hr s)
  refine ⟨rd, hmoved, hstep.trans ?_⟩
  unfold State.makeupRule
  rw [if_neg (by simp [h.afterZero])]
  rfl

/-- R183, where the row goes on: a run owed by a horizontal mode is paid, and the row is not closed. -/
theorem payRun_inside {t : State} (h : t.a0 < t.imageWidth) : t.payRun = { t with hphase := t.hphase - 1 } := by
  by_cases h0 : t.hphase - 1 = 0
  · rw [payRun_paid h0]
    exact closeIfFull_lt h
  · exact payRun_owed h0

/-- R188, where the row goes on: the run is drawn as it is, and its end recorded. -/
theorem fillRun_inside {s : State} {n : Nat} (hwf : s.dst.wf = true) (hroom : s.RoomForRow)
    (hin : s.a0 + n < s.imageWidth) :
    ∃ m, m.wf = true ∧ s.Drawn s.c s.a0 (s.a0 + n) m ∧ s.fillRun n = .go { s.opened m with
      a0 := s.a0 + n
      cur := recordChange s.cur (s.a0 + n)
      c := oppositeColour s.c
      atStart := false } := by
  have hend : s.runEnd n = s.a0 + n := Nat.min_eq_left (Nat.le_of_lt hin)
  obtain ⟨m, hm, hdrawn, hfill⟩ := fillRun_eq (n := n) hwf hroom
  rw [hend] at hdrawn hfill
  rw [if_neg (Nat.not_le.mpr hin)] at hfill
  exact ⟨m, hm, hdrawn, hfill⟩

/-- R183, R188: a terminating code whose run stays inside the row draws it, records the change and flips the colour. -/
theorem terminate_inside {s : State} {v : Nat} (hwf : s.dst.wf = true) (hroom : s.RoomForRow)
    (hin : s.a0 + (s.acc + v) < s.imageWidth) :
    ∃ m, m.wf = true ∧ s.Drawn s.c s.a0 (s.a0 + (s.acc + v)) m ∧ s.terminate v = .go { s.opened m with
      acc := 0
      a0 := s.a0 + (s.acc + v)
      cur := recordChange s.cur (s.a0 + (s.acc + v))
      c := oppositeColour s.c
      atStart := false
      hphase := s.hphase - 1 } := by
  obtain ⟨m, hm, hdrawn, hfill⟩ := fillRun_inside (s := { s with acc := 0 }) (n := s.acc + v) hwf hroom hin
  refine ⟨m, hm, hdrawn, ?_⟩
  unfold State.terminate
  rw [hfill, Flow.bind_go, payRun_inside hin]
  rfl

/-- R183: a step on a terminating code whose run stays inside the row. -/
theorem State.ReadsRun.step_terminating {s : State} (h : s.ReadsRun) {r : CodeRow} (hr : r ∈ terminatingTable s.c)
    (hahead : s.RowAhead r) (hwf : s.dst.wf = true) (hroom : s.RoomForRow)
    (hin : s.a0 + (s.acc + r.value) < s.imageWidth) :
    ∃ rd m, s.reader.Moved s.src r.len rd ∧ m.wf = true ∧ s.Drawn s.c s.a0 (s.a0 + (s.acc + r.value)) m ∧
      step s = .next { s.opened m with
        reader := rd
        acc := 0
        a0 := s.a0 + (s.acc + r.value)
        cur := recordChange s.cur (s.a0 + (s.acc + r.value))
        c := oppositeColour s.c
        atStart := false
        hphase := s.hphase - 1 } := by
  obtain ⟨rd, hmoved, hstep⟩ := h.step_row (mem_runSet.mpr (.inl hr)) hahead (exec_terminating s.c r hr s)
  obtain ⟨m, hm, hdrawn, hgo⟩ := terminate_inside (s := { s with reader := rd }) (v := r.value) hwf hroom hin
  refine ⟨rd, m, hmoved, hm, hdrawn, hstep.trans ?_⟩
  unfold State.terminatingRule
  rw [if_neg (by simp [h.afterZero]), hgo]
  rfl

/-! ### The whole run -/

theorem run_step {s t : State} (h : step s = .next t) (k : Nat) :
    Host.Core.run Sys2Proof.core (k + 1) s = Host.Core.run Sys2Proof.core k t := by
  have h' : Sys2Proof.core.step s = .next t := h
  simp only [Host.Core.run, h']

/-- What is left of the stream after a part that begins it. -/
theorem prefix_rest {src : Memory} {r r' : Reader} {a b : List Bool} (h : (a ++ b).isPrefixOf (r.rest src) = true)
    (hmoved : r.Moved src a.length r') : b.isPrefixOf (r'.rest src) = true := by
  rw [List.isPrefixOf_iff_prefix] at h ⊢
  obtain ⟨tail, htail⟩ := h
  exact ⟨tail, by rw [hmoved.rest, ← htail, List.append_assoc, List.drop_left]⟩

/-- The make-up codes of the values `l` ahead: as many steps add their sum to `acc`. -/
theorem State.ReadsRun.run_makeups {s : State} (h : s.ReadsRun) {l : List Nat} {tail : List Bool}
    (hl : ∀ m ∈ l, 64 ≤ m ∧ m ≤ 2560 ∧ m % 64 = 0)
    (hahead : (l.flatMap (fun m => codeBits (makeupCode s.c m)) ++ tail).isPrefixOf (s.reader.rest s.src) = true) :
    ∃ rd, s.reader.Moved s.src (l.flatMap fun m => codeBits (makeupCode s.c m)).length rd ∧
      ∀ k, Host.Core.run Sys2Proof.core (l.length + k) s =
        Host.Core.run Sys2Proof.core k { s with reader := rd, acc := s.acc + l.sum } := by
  induction l generalizing s with
  | nil => exact ⟨s.reader, .rfl' h.reader_ok, fun k => by rw [List.length_nil, Nat.zero_add]; rfl⟩
  | cons m l ih =>
    obtain ⟨r, hr, rfl, hbits⟩ := makeupCode_row s.c (hl m (List.mem_cons_self ..))
    rw [List.flatMap_cons, List.append_assoc, hbits] at hahead
    have hrow : s.RowAhead r := by
      rw [State.RowAhead, List.isPrefixOf_iff_prefix]
      exact (List.prefix_append _ _).trans (List.isPrefixOf_iff_prefix.mp hahead)
    obtain ⟨rd, hmoved, hstep⟩ := h.step_makeup hr hrow
    have hnext : State.ReadsRun { s with reader := rd, acc := s.acc + r.value } :=
      ⟨h.decoding, h.commands, hmoved.ok, h.context, h.afterZero⟩
    obtain ⟨rd', hmoved', hrun⟩ := ih hnext (fun x hx => hl x (List.mem_cons_of_mem _ hx))
      (prefix_rest hahead (by rwa [length_bitsOf]))
    refine ⟨rd', ?_, fun k => ?_⟩
    · rw [List.flatMap_cons, hbits, List.length_append, length_bitsOf]
      exact hmoved.trans hmoved'
    · rw [List.length_cons, Nat.add_right_comm, run_step hstep, hrun, List.sum_cons, ← Nat.add_assoc]

/-- Settles O39: the make-up codes leave `acc` at the multiple of 64, the terminating code draws the whole run. -/
theorem runRoundTrip : Obligations.RunRoundTrip := by
  intro s n hdec hcmd hok hctx haz hacc hwf hroom hin hahead
  have h : s.ReadsRun := ⟨hdec, hcmd, hok, hctx, haz⟩
  obtain ⟨rd, hmoved, hrun⟩ := h.run_makeups (fun _ => makeupValues_coded) hahead
  have hmid : State.ReadsRun { s with reader := rd, acc := s.acc + (makeupValues n).sum } :=
    ⟨hdec, hcmd, hmoved.ok, hctx, haz⟩
  have hterm := prefix_rest hahead hmoved
  obtain ⟨r, hr, hvalue, hbits⟩ := termCode_row s.c (n := n % 64) (Nat.mod_lt _ (by omega))
  have hsum : s.acc + (makeupValues n).sum + r.value = n := by
    rw [hacc, sum_makeupValues, hvalue]
    omega
  rw [hbits] at hterm
  obtain ⟨rd', m, hmoved', hm, hdrawn, hstep⟩ := hmid.step_terminating hr hterm hwf hroom
    (show s.a0 + (s.acc + (makeupValues n).sum + r.value) < s.imageWidth by rwa [hsum])
  simp only [hsum] at hdrawn hstep
  refine ⟨rd', m, ?_, hm, hdrawn, ?_⟩
  · rw [runBits, List.length_append, hbits, length_bitsOf]
    exact hmoved.trans hmoved'
  · rw [hrun, run_step hstep]
    simp only [State.opened, hacc]
    rfl

end Sys2Proof.Machine
end

section
/-! No job meets a fault or a refusal of the model (`spec/45_jobs.md` R284, R285; R302). -/

namespace Sys2Proof.Machine

/-- The block's own step answers a next state wherever the job's invariants hold (R110, R302): DecodeStep and one run of
ENCODE_G31D always do, a mode selection of ENCODE_G4 because its row lies in the raster (R288). -/
theorem blockStep_answers {s : State} (hmem : s.memoriesOk) (hjob : s.JobOk) : ∃ t, blockStep s = .next t := by
  unfold blockStep
  cases hrun : s.running with
  | false => exact ⟨s, if_neg (by simp)⟩
  | true =>
    obtain ⟨_, hencode⟩ := hjob hrun
    rw [if_pos rfl]
    cases hj : s.cfg.job with
    | decodeG3 => exact ⟨_, (s.decodeStep_eq_dispatch (decoding_iff.mpr ⟨hrun, by rw [hj]; rfl⟩)).trans (Flow.out_eq _)⟩
    | decodeG4 => exact ⟨_, (s.decodeStep_eq_dispatch (decoding_iff.mpr ⟨hrun, by rw [hj]; rfl⟩)).trans (Flow.out_eq _)⟩
    | encodeG4 =>
      obtain ⟨t, hnext, _⟩ := (hencode (by rw [hj]; rfl)).jobStepG4 hj hmem.2
      exact ⟨t, hnext⟩
    | encodeG31D => exact ⟨_, Flow.out_eq _⟩

/-- Settles O54: with no host command the step is the block's own. -/
theorem jobsNeverGetStuck : Obligations.JobsNeverGetStuck := by
  intro s hmem hjob hnone
  unfold step
  rw [hnone]
  exact blockStep_answers hmem hjob

end Sys2Proof.Machine
end

section
/-! What the operations of the bit cursor answer (`spec/40_bitcursor.md` R131 to R146): the reader looks and moves, the
writer overflows, and what lies outside a unit's contract is refused (U1, U2, U4). -/

namespace Sys2Proof.Machine

/-! ### The refill (R131, R143) -/

/-- A refill makes `n` bits available iff the stream has `n` left. -/
theorem Reader.Ok.le_cnt_fillTo {src : Memory} {r : Reader} (h : r.Ok src) {n : Nat} (hn : n ≤ 32) :
    n ≤ (r.fillTo src n).cnt ↔ n ≤ 8 * r.len - r.position := by
  obtain ⟨_, _, _, _, _, havail⟩ := h.fillTo hn
  have := havail n le_rfl
  omega

theorem Reader.Ok.avail_fillTo {src : Memory} {r : Reader} (h : r.Ok src) {n : Nat} (hn : n ≤ 32) :
    (r.fillTo src n).avail n = min n (8 * r.len - r.position) := by
  obtain ⟨_, _, _, _, _, havail⟩ := h.fillTo hn
  exact havail n le_rfl

/-- A refill pulls just the bytes that the missing bits need, as far as the data goes. -/
theorem Reader.Ok.consumed_fillTo {src : Memory} {r : Reader} (h : r.Ok src) {n : Nat} (hn : n ≤ 32) :
    (r.fillTo src n).consumed = min r.len (r.consumed + (n - r.cnt + 7) / 8) := by
  obtain ⟨_, hconsumed, _, _⟩ := h
  exact refill_consumed 5 hconsumed (by omega)

/-! ### Moves of the reader (R134, R138 to R140) -/

theorem Reader.Ok.moved_getBits {src : Memory} {r : Reader} (h : r.Ok src) {n : Nat} (hn : n ≤ 32)
    (hleft : n ≤ 8 * r.len - r.position) : r.Moved src n ((r.fillTo src n).clear n) := by
  have hfill := h.moved_fillTo hn
  have hclear := hfill.ok.moved_clear ((h.le_cnt_fillTo hn).mpr hleft)
  simpa using hfill.trans hclear

theorem Reader.Ok.moved_byteAlign {src : Memory} {r : Reader} (h : r.Ok src) :
    r.Moved src (r.toByte 0) r.byteAlign := by
  obtain ⟨hok, hpos⟩ := h.byteAlign
  refine ⟨hok, ?_, rfl, rfl⟩
  rw [hpos, Reader.toByte]
  omega

theorem Reader.Ok.moved_wordAlign {src : Memory} {r : Reader} (h : r.Ok src) :
    r.Moved src (min (16 * ((r.position + 15) / 16)) (8 * r.len) - r.position) (r.wordAlign src) := by
  obtain ⟨hok, hpos, hlen, hrev⟩ := h.wordAlign
  have hle := h.position_le
  exact ⟨hok, by omega, hlen, hrev⟩

theorem Reader.Ok.moved_drain {src : Memory} {r : Reader} (h : r.Ok src) :
    r.Moved src (8 * r.len - r.position) (r.drain src) := by
  obtain ⟨hok, hcnt, hconsumed, hlen, hrev⟩ := h.drain
  have hle := h.position_le
  have hpos : (r.drain src).position = 8 * (r.drain src).consumed - (r.drain src).cnt := rfl
  exact ⟨hok, by omega, hlen, hrev⟩

/-! ### What each unit operation answers with no job in RUN -/

section
variable {s : State} (hs : s.running = false)
include hs

theorem exec_hasBits (n : Nat) :
    exec (.hasBits n) s = if 32 < n then .refused .bitCountOutOfContract
      else .next { s with
        reader := s.reader.fillTo s.src n, result := .flag (decide (n ≤ (s.reader.fillTo s.src n).cnt)) } :=
  show execHasBits n s = _ from unitOperation_go hs _

theorem exec_peekBits (n : Nat) :
    exec (.peekBits n) s = if 32 < n then .refused .bitCountOutOfContract
      else .next { s with
        reader := s.reader.fillTo s.src n, result := .bits ((s.reader.fillTo s.src n).window n) } :=
  show execPeekBits n s = _ from unitOperation_go hs _

theorem exec_getBits (n : Nat) :
    exec (.getBits n) s = if 32 < n then .refused .bitCountOutOfContract
      else if (s.reader.fillTo s.src n).cnt < n then .refused .bitsBeyondBuffer
      else .next { s with
        reader := (s.reader.fillTo s.src n).clear n, result := .bits ((s.reader.fillTo s.src n).window n) } :=
  show execGetBits n s = _ from unitOperation_go hs _

theorem exec_clearBits (n : Nat) :
    exec (.clearBits n) s = if s.reader.cnt < n then .refused .bitsBeyondBuffer
      else .next { s with reader := s.reader.clear n } :=
  show execClearBits n s = _ from unitOperation_go hs _

theorem exec_look (n : Nat) :
    exec (.look n) s = if 32 < n then .refused .bitCountOutOfContract
      else .next { s with
        reader := s.reader.fillTo s.src n
        result := .window ((s.reader.fillTo s.src n).window n) ((s.reader.fillTo s.src n).avail n) } :=
  show execLook n s = _ from unitOperation_go hs _

theorem exec_byteAlign : exec .byteAlign s = .next { s with reader := s.reader.byteAlign } :=
  show execByteAlign s = _ from unitOperation_go hs _

theorem exec_wordAlign : exec .wordAlign s = .next { s with reader := s.reader.wordAlign s.src } :=
  show execWordAlign s = _ from unitOperation_go hs _

theorem exec_reverseBits : exec .reverseBits s = .next { s with reader := s.reader.reverseBits } :=
  show execReverseBits s = _ from unitOperation_go hs _

theorem exec_drain : exec .drain s = .next { s with reader := s.reader.drain s.src } :=
  show execDrain s = _ from unitOperation_go hs _

theorem exec_putBits (v n : Nat) :
    exec (.putBits v n) s = if 32 < n ∨ 2 ^ n ≤ v then .refused .bitCountOutOfContract
      else (State.putBits v n s).out :=
  show execPutBits v n s = _ from unitOperation_go hs _

theorem exec_fillPixels (k : Colour) (x0 x1 : Nat) :
    exec (.fillPixels k x0 x1) s = if x1 < x0 ∨ s.imageWidth < x1 then .refused .operandOutOfRange
      else (s.fill k x0 x1).out :=
  show execFillPixels k x0 x1 s = _ from unitOperation_go hs _

theorem exec_record (p : Nat) :
    exec (.record p) s = if s.imageWidth < p then .refused .operandOutOfRange else .next (s.record p) :=
  show execRecord p s = _ from unitOperation_go hs _

theorem exec_selectMode (a1 b1 b2 : Nat) :
    exec (.selectMode a1 b1 b2) s =
      if s.imageWidth < a1 ∨ s.imageWidth < b1 ∨ s.imageWidth < b2 then .refused .operandOutOfRange
      else .next { s with result := .selected (selectMode a1 b1 b2) } :=
  show execSelectMode a1 b1 b2 s = _ from unitOperation_go hs _

end

/-! ### The writer without room (R144) -/

theorem State.putBits_halt (v n : Nat) (s : State) (hw : s.writer.Ok) (hd : s.dst.wf = true)
    (hroom : ¬ s.RoomForBits n) : ∃ t, State.putBits v n s = .halt t ∧ s.Overflowed (bitsOf v n) t := by
  rcases State.putBits_cases v n s hw hd with ⟨hfits, _⟩ | ⟨_, hhalt⟩
  · exact absurd hfits hroom
  · exact hhalt

/-! ### The obligations -/

/-- Settles O9: one refill serves the three operations that look, and `getBits` clears `n` bits after it. -/
theorem readerLooks : Obligations.ReaderLooks := by
  intro s n hs hok hn
  have hcontract : ¬ 32 < n := Nat.not_lt.mpr hn
  have hwindow : (s.reader.fillTo s.src n).window n = s.reader.ahead s.src n := hok.window_fillTo hn le_rfl
  refine ⟨⟨s.reader.fillTo s.src n, hok.moved_fillTo hn, hok.consumed_fillTo hn, ?_, ?_, ?_⟩, fun hleft =>
    ⟨(s.reader.fillTo s.src n).clear n, hok.moved_getBits hn hleft, ?_⟩⟩
  · rw [exec_hasBits hs, if_neg hcontract, decide_eq_decide.mpr (hok.le_cnt_fillTo hn)]
  · rw [exec_peekBits hs, if_neg hcontract, hwindow]
  · rw [exec_look hs, if_neg hcontract, hwindow, hok.avail_fillTo hn]
  · have hbuffered : ¬ (s.reader.fillTo s.src n).cnt < n := Nat.not_lt.mpr ((hok.le_cnt_fillTo hn).mpr hleft)
    rw [exec_getBits hs, if_neg hcontract, if_neg hbuffered, hwindow]

/-- Settles O10: each operation is one move of the reader. -/
theorem readerMoves : Obligations.ReaderMoves := by
  intro s hs hok
  refine ⟨fun n hn => ?_, ?_, ?_, ?_, exec_reverseBits hs⟩
  · exact ⟨_, hok.moved_clear hn, rfl, by rw [exec_clearBits hs, if_neg (Nat.not_lt.mpr hn)]⟩
  · exact ⟨_, hok.moved_byteAlign, rfl, exec_byteAlign hs⟩
  · exact ⟨_, hok.moved_wordAlign, exec_wordAlign hs⟩
  · obtain ⟨_, hcnt, hconsumed, hlen, _⟩ := hok.drain
    exact ⟨_, hok.moved_drain, hconsumed.trans hlen.symm, hcnt, exec_drain hs⟩

/-- Settles O12: each operation halts without room for its bits; `finish` ends with its `putAlign`. -/
theorem writerOverflows : Obligations.WriterOverflows := by
  intro s hs hw hd
  refine ⟨fun v n hn hv hroom => ?_, fun hroom => ?_, fun k n hroom => ?_⟩
  · obtain ⟨t, ht, hover⟩ := State.putBits_halt v n s hw hd hroom
    exact ⟨t, hover, by rw [putBits_unit hs hn hv, ht, Flow.out_halt]⟩
  · obtain ⟨t, hover, ht⟩ := writer_halt (by rwa [List.length_replicate]) (s.putAlign_cases hw hd)
    refine ⟨t, hover, by rw [exec_putAlign hs, ht, Flow.out_halt], ?_⟩
    rw [exec_finish hs, State.finish, ht, Flow.bind_halt, Flow.out_halt]
  · obtain ⟨t, hover, ht⟩ := writer_halt hroom (State.putRun_cases k n s hw hd)
    exact ⟨t, hover, by rw [exec_putRun hs, ht, Flow.out_halt]⟩

/-- Settles O13: the refusing branch of each operation; for `getBits` the refill ends short of `n` bits. -/
theorem outOfContractIsRefused : Obligations.OutOfContractIsRefused := by
  intro s hs
  refine ⟨fun n hn => ⟨?_, ?_, ?_, ?_⟩, fun n hok hn hbeyond => ?_, fun n hn => ?_, fun v n h => ?_, fun k x0 x1 h => ?_,
    fun p hp => ?_, fun a1 b1 b2 h => ?_⟩
  · rw [exec_hasBits hs, if_pos hn]
  · rw [exec_peekBits hs, if_pos hn]
  · rw [exec_getBits hs, if_pos hn]
  · rw [exec_look hs, if_pos hn]
  · have hshort : (s.reader.fillTo s.src n).cnt < n :=
      Nat.lt_of_not_le fun hle => Nat.not_le.mpr hbeyond ((hok.le_cnt_fillTo hn).mp hle)
    rw [exec_getBits hs, if_neg (Nat.not_lt.mpr hn), if_pos hshort]
  · rw [exec_clearBits hs, if_pos hn]
  · rw [exec_putBits hs, if_pos h]
  · rw [exec_fillPixels hs, if_pos h]
  · rw [exec_record hs, if_pos hp]
  · rw [exec_selectMode hs, if_pos h]

end Sys2Proof.Machine
end

section
/-! What a window without a codeword is (`spec/30_encoding.md` R102, R106; `spec/41_code_tables.md` R164, R168): walking the
bits of a full window from its first one meets a codeword, or ends in one of the words that are none. -/

namespace Sys2Proof.Machine

/-! ### The walk along a window (R106) -/

/-- Below the bit string of `len` bits that reads `p`, every path `depth` bits long meets a `stop`. -/
def stopsBelow (stop : Nat → Nat → Bool) : Nat → Nat → Nat → Bool
  | 0, p, len => stop p len
  | depth + 1, p, len =>
    stop p len || (stopsBelow stop depth (2 * p) (len + 1) && stopsBelow stop depth (2 * p + 1) (len + 1))

/-- Where every path stops, the bits of a number `v` do: `e` bits before its last. -/
theorem exists_stop_of_stopsBelow {stop : Nat → Nat → Bool} {v : Nat} (depth : Nat) {p len : Nat}
    (hstops : stopsBelow stop depth p len = true) (hv : v >>> depth = p) :
    ∃ e ≤ depth, stop (v >>> e) (len + depth - e) = true := by
  induction depth generalizing p len with
  | zero => exact ⟨0, le_rfl, by subst hv; exact hstops⟩
  | succ depth ih =>
    rw [stopsBelow, Bool.or_eq_true, Bool.and_eq_true] at hstops
    rcases hstops with hstop | ⟨hzero, hone⟩
    · exact ⟨depth + 1, le_rfl, by rw [hv, Nat.add_sub_cancel]; exact hstop⟩
    · have hbelow : ∃ e ≤ depth, stop (v >>> e) (len + 1 + depth - e) = true := by
        rw [Nat.shiftRight_succ] at hv
        rcases Nat.mod_two_eq_zero_or_one (v >>> depth) with hbit | hbit
        · exact ih hzero (by omega)
        · exact ih hone (by omega)
      obtain ⟨e, he, hstop⟩ := hbelow
      exact ⟨e, he.trans (Nat.le_succ depth), by rwa [← Nat.add_assoc, Nat.add_right_comm]⟩

/-- The walk from the first bit of a full window. -/
theorem window_stops {stop : Nat → Nat → Bool} {width v : Nat} (hstops : stopsBelow stop width 0 0 = true)
    (hv : v < 2 ^ width) : ∃ len ≤ width, stop (v >>> (width - len)) len = true := by
  have hempty : v >>> width = 0 := by rw [Nat.shiftRight_eq_div_pow, Nat.div_eq_of_lt hv]
  obtain ⟨e, he, hstop⟩ := exists_stop_of_stopsBelow width hstops hempty
  exact ⟨width - e, Nat.sub_le _ _, by rwa [Nat.sub_sub_self he, ← Nat.zero_add (width - e), ← Nat.add_sub_assoc he]⟩

/-! ### Run contexts (R164) -/

/-- A codeword of `RunSet(k)`, or twelve bits that begin with eight zeros and are not EOL. -/
def runStop (k : Colour) (p len : Nat) : Bool :=
  (runSet k).any (fun r => decide (r.pattern = p ∧ r.len = len)) || decide (len = 12 ∧ p < 2 ^ 4 ∧ p ≠ 1)

theorem runStop_stops (k : Colour) : stopsBelow (runStop k) 13 0 0 = true := by
  cases k <;> decide +kernel

/-- R102: a codeword begins the window unless eight zeros do, and then EOL does not. -/
theorem lookupRun_full (k : Colour) {v : Nat} (hv : v < 2 ^ 13) :
    (∃ r, lookupRun k v 13 = some r) ∨ v >>> 1 < 2 ^ 4 ∧ v >>> 1 ≠ 1 := by
  obtain ⟨len, hlen, hstop⟩ := window_stops (runStop_stops k) hv
  rw [runStop, Bool.or_eq_true, List.any_eq_true, decide_eq_true_iff] at hstop
  rcases hstop with ⟨r, hr, hrow⟩ | ⟨rfl, hzeros, heol⟩
  · obtain ⟨hpat, rfl⟩ := of_decide_eq_true hrow
    exact .inl ⟨r, lookupRun_of_fits hr (codewordFits_iff.mpr ⟨hlen, hpat.symm⟩)⟩
  · exact .inr ⟨hzeros, heol⟩

/-- Every codeword of a run context but EOL has a one among its first eight bits. -/
theorem runSet_eight_zeros (k : Colour) : ∀ r ∈ runSet k, r = eolRow ∨ 2 ^ 5 ≤ r.pattern <<< (13 - r.len) := by
  cases k <;> decide

/-- R102: no codeword but EOL begins with eight zeros. -/
theorem lookupRun_eight_zeros (k : Colour) {v avail : Nat} (hzeros : v < 2 ^ 5) (heol : v >>> 1 ≠ 1) :
    lookupRun k v avail = none := by
  refine List.find?_eq_none.mpr fun r hr hfits => ?_
  obtain ⟨_, hpat⟩ := codewordFits_iff.mp hfits
  rcases runSet_eight_zeros k r hr with rfl | hone
  · exact heol hpat
  · have hle : r.pattern <<< (13 - r.len) ≤ v := by
      rw [← hpat, Nat.shiftLeft_eq, Nat.shiftRight_eq_div_pow]
      exact Nat.div_mul_le_self _ _
    omega

theorem decodeRunWindow_noCodeword {k : Colour} {v avail : Nat} : decodeRunWindow k v avail = .reject .noCodeword ↔
    avail ≠ 0 ∧ lookupRun k v avail = none ∧ zeroWindow v avail = false := by
  unfold decodeRunWindow
  by_cases havail : avail = 0
  · simp [havail]
  · cases lookupRun k v avail <;> cases zeroWindow v avail <;> simp [havail]

theorem zeroWindow_full {v : Nat} : zeroWindow v 13 = false ↔ v >>> 1 ≠ 0 := by simp [zeroWindow]

/-! ### The mode context (R168) -/

/-- A mode code, EXT2D, or the window of EXT1D. -/
def modeStop (p len : Nat) : Bool :=
  modeSet.any (fun r => decide (r.pattern = p ∧ r.len = len)) || decide (len = 7 ∧ p = 0)

theorem modeStop_stops : stopsBelow modeStop 7 0 0 = true := by decide

/-- R168: the eleven patterns exhaust the 7-bit windows. -/
theorem lookupMode_full {v : Nat} (hv : v < 2 ^ 7) : (∃ r, lookupMode v 7 = some r) ∨ v = 0 := by
  obtain ⟨len, hlen, hstop⟩ := window_stops modeStop_stops hv
  rw [modeStop, Bool.or_eq_true, List.any_eq_true, decide_eq_true_iff] at hstop
  rcases hstop with ⟨r, hr, hrow⟩ | ⟨rfl, hzero⟩
  · obtain ⟨hpat, rfl⟩ := of_decide_eq_true hrow
    exact .inl ⟨r, lookupMode_of_fits hr (codewordFits_iff.mpr ⟨hlen, hpat.symm⟩)⟩
  · exact .inr hzero

/-- Settles O4: a walk along the window meets a codeword, or ends in one of the words that R102 lists. -/
theorem fullWindowsWithoutCodeword : Obligations.FullWindowsWithoutCodeword := by
  refine ⟨fun k v hv => ?_, fun v hv => ?_⟩
  · rw [decodeRunWindow_noCodeword, zeroWindow_full]
    have hhalf : v >>> 1 = v / 2 := Nat.shiftRight_eq_div_pow v 1
    constructor
    · rintro ⟨_, hnone, hfill⟩
      obtain ⟨r, hrow⟩ | ⟨hzeros, heol⟩ := lookupRun_full k hv
      · rw [hnone] at hrow
        cases hrow
      · omega
    · rintro ⟨hzeros, hfill, heol⟩
      exact ⟨by decide, lookupRun_eight_zeros k (by omega) (by omega), by omega⟩
  · rcases lookupMode_full hv with ⟨r, hrow⟩ | rfl
    · exact ⟨r.instr, by simp [decodeModeWindow, hrow]⟩
    · exact ⟨.ext1d, rfl⟩

end Sys2Proof.Machine
end

section
/-! What the unit fax_huffman_code_table answers (`spec/41_code_tables.md` R161 to R178): its decode lookups on the stream and its
encode lookups in the tables. -/

namespace Sys2Proof.Machine

/-! ### What each unit operation answers with no job in RUN -/

section
variable {s : State} (hs : s.running = false)
include hs

theorem exec_decodeRun (k : Colour) :
    exec (.decodeRun k) s = .next ((s.decodeRun k).2.setResult (.run (s.decodeRun k).1)) :=
  show execDecodeRun k s = _ from unitOperation_go hs _

theorem exec_decodeMode : exec .decodeMode s = .next (s.decodeMode.2.setResult (.mode s.decodeMode.1)) :=
  show execDecodeMode s = _ from unitOperation_go hs _

theorem exec_termCode (k : Colour) (n : Nat) : exec (.termCode k n) s = codeResult (termCode k n) s :=
  show execTermCode k n s = _ from unitOperation_go hs _

theorem exec_makeupCode (k : Colour) (m : Nat) : exec (.makeupCode k m) s = codeResult (makeupCode k m) s :=
  show execMakeupCode k m s = _ from unitOperation_go hs _

theorem exec_modeCode (m : ModeName) : exec (.modeCode m) s = codeResult (modeCode m) s :=
  show execModeCode m s = _ from unitOperation_go hs _

/-- R161 to R165: `decodeRun` answers what begins the stream. -/
theorem exec_decodeRun_ahead (hok : s.reader.Ok s.src) (k : Colour) :
    ∃ rd, s.reader.Moved s.src (runAhead k (s.reader.rest s.src)).2 rd ∧
      exec (.decodeRun k) s = .next { s with reader := rd, result := .run (runAhead k (s.reader.rest s.src)).1 } := by
  obtain ⟨rd, hmoved, hlookup⟩ := runLookup_eq hok k
  exact ⟨rd, hmoved, by rw [exec_decodeRun hs, hlookup]; rfl⟩

/-- R167 to R169: `decodeMode` answers what begins the stream. -/
theorem exec_decodeMode_ahead (hok : s.reader.Ok s.src) :
    ∃ rd, s.reader.Moved s.src (modeAhead (s.reader.rest s.src)).2 rd ∧
      exec .decodeMode s = .next { s with reader := rd, result := .mode (modeAhead (s.reader.rest s.src)).1 } := by
  obtain ⟨rd, hmoved, hlookup⟩ := modeLookup_eq hok
  exact ⟨rd, hmoved, by rw [exec_decodeMode hs, hlookup]; rfl⟩

end

/-- Settles O6: each lookup reads its window from the stream. -/
theorem lookupsReadTheStream : Obligations.LookupsReadTheStream :=
  fun _ hs hok => ⟨exec_decodeRun_ahead hs hok, exec_decodeMode_ahead hs hok⟩

/-! ### The rows of the run tables (R172, R173, R178) -/

theorem termCode_of_mem {k : Colour} {r : CodeRow} (hr : r ∈ terminatingTable k) :
    termCode k r.value = some (r.pattern, r.len) := by
  rw [termCode, terminatingTable_find k r hr, Option.map_some]

theorem makeupCode_of_mem {k : Colour} {r : CodeRow} (hr : r ∈ makeupTable k) :
    makeupCode k r.value = some (r.pattern, r.len) := by
  rw [makeupCode, makeupTable_find k r hr, Option.map_some]

/-- A row of `RunSet(k)` whose codeword begins the stream is the one that a lookup finds (R106, R161). -/
theorem runRowAhead_of_rowAhead {s : State} (hok : s.reader.Ok s.src) {k : Colour} {r : CodeRow} (hr : r ∈ runSet k)
    (hahead : s.RowAhead r) : runRowAhead k (s.reader.rest s.src) = some r := by
  obtain ⟨hlen, hpat⟩ := runSet_patterns k r hr
  rw [← lookupRun_ahead hok]
  exact lookupRun_of_fits hr ((fits_iff hok (by omega) hlen _ hpat).trans hahead)

theorem runAhead_of_rowAhead {s : State} (hok : s.reader.Ok s.src) {k : Colour} {r : CodeRow} (hr : r ∈ runSet k)
    (heol : r.instr ≠ .eol) (hahead : s.RowAhead r) : runAhead k (s.reader.rest s.src) = (.run r.value, r.len) := by
  have hrest : s.reader.rest s.src ≠ [] := by
    have hpos := runSet_len_pos k r hr
    have hle := hahead.len_le
    rw [← rest_length] at hle
    exact List.ne_nil_of_length_pos (by omega)
  simp only [runAhead, if_neg hrest, runRowAhead_of_rowAhead hok hr hahead, if_neg heol]

/-- Settles O7: the row is the one that the lookup finds on the stream, and the one that the tables hold for its value. -/
theorem tablesAreConsistent : Obligations.TablesAreConsistent := by
  intro k s r hs hok hr hahead
  have hset : r ∈ runSet k := mem_runSet.mpr (hr.imp_right Or.inl)
  have heol : r.instr ≠ .eol := by
    rcases hr with hterm | hmake
    · obtain ⟨_, heol, _, _⟩ := terminating_row k r hterm
      exact heol
    · obtain ⟨_, heol, _, _⟩ := makeup_row k r hmake
      exact heol
  refine ⟨?_, fun hterm => ?_, fun hmake => ?_⟩
  · have hdecode := exec_decodeRun_ahead hs hok k
    rwa [runAhead_of_rowAhead hok hset heol hahead] at hdecode
  · rw [exec_termCode hs, termCode_of_mem hterm]
    rfl
  · rw [exec_makeupCode hs, makeupCode_of_mem hmake]
    rfl

/-! ### The domains of the encode lookups (R172 to R174, U3) -/

theorem termCode_none (k : Colour) {n : Nat} (hn : 63 < n) : termCode k n = none := by
  rw [termCode, Option.map_eq_none_iff, List.find?_eq_none]
  intro r hr hvalue
  obtain ⟨hle, _⟩ := terminating_row k r hr
  have hvalue := of_decide_eq_true hvalue
  omega

theorem makeupCode_none (k : Colour) {m : Nat} (hm : m < 64 ∨ 2560 < m ∨ m % 64 ≠ 0) : makeupCode k m = none := by
  rw [makeupCode, Option.map_eq_none_iff, List.find?_eq_none]
  intro r hr hvalue
  obtain ⟨hlo, hhi, hmod⟩ := makeupTable_values k r hr
  have hvalue := of_decide_eq_true hvalue
  omega

/-- R174: the vertical codes have offsets −3..+3. -/
theorem modeSet_vertical {r : ModeRow} (hr : r ∈ modeSet) {d : Int} (hd : r.result = .vertical d) : -3 ≤ d ∧ d ≤ 3 := by
  unfold modeSet at hr
  fin_cases hr <;> cases hd <;> decide

theorem modeCode_none {m : ModeName} (hm : m.encodable = false) : modeCode m = none := by
  cases m with
  | pass => cases hm
  | horizontal => cases hm
  | vertical d =>
    simp only [modeCode, encodableMode, Option.map_eq_none_iff, List.find?_eq_none]
    intro r hr hresult
    obtain ⟨hlo, hhi⟩ := modeSet_vertical hr (of_decide_eq_true hresult)
    simp [ModeName.encodable, hlo, hhi] at hm
  | ext1d => rfl
  | ext2d => rfl

/-- Settles O8: every value of a domain has its row, and no row has a value outside it. -/
theorem encodeLookups : Obligations.EncodeLookups := by
  intro s hs
  refine ⟨fun k n hn => ?_, fun k n hn => ?_, fun k m hlo hhi hmod => ?_, fun k m hm => ?_, fun m pattern len hm => ?_,
    fun m hm => ?_⟩
  · obtain ⟨r, hr, rfl⟩ := terminatingTable_total k n (by omega)
    exact ⟨r, hr, rfl, by rw [exec_termCode hs, termCode_of_mem hr]; rfl⟩
  · rw [exec_termCode hs, termCode_none k hn]
    rfl
  · obtain ⟨r, hr, hvalue, _⟩ := makeupCode_row k ⟨hlo, hhi, hmod⟩
    subst hvalue
    exact ⟨r, hr, rfl, by rw [exec_makeupCode hs, makeupCode_of_mem hr]; rfl⟩
  · rw [exec_makeupCode hs, makeupCode_none k hm]
    rfl
  · rw [exec_modeCode hs]
    simp only [List.mem_cons, Prod.mk.injEq, List.not_mem_nil, or_false] at hm
    rcases hm with ⟨rfl, rfl, rfl⟩ | ⟨rfl, rfl, rfl⟩ | ⟨rfl, rfl, rfl⟩ | ⟨rfl, rfl, rfl⟩ | ⟨rfl, rfl, rfl⟩ |
      ⟨rfl, rfl, rfl⟩ | ⟨rfl, rfl, rfl⟩ | ⟨rfl, rfl, rfl⟩ | ⟨rfl, rfl, rfl⟩
    all_goals rfl
  · rw [exec_modeCode hs, modeCode_none hm]
    rfl

end Sys2Proof.Machine
end

section
/-! The position in the stream (`spec/10_state.md` R24; `spec/42_g3_decoder.md` R197): no rule of a decode job moves
it back, every step that leaves the job in RUN moves it forward, and so the job ends. -/

namespace Sys2Proof.Machine

/-- `t` is `s` after its reader moved at least `k` bits on over the same SRC (R24). -/
def State.Passed (s : State) (k : Nat) (t : State) : Prop :=
  t.src = s.src ∧ ∃ n, k ≤ n ∧ s.reader.Moved s.src n t.reader

variable {s t u : State} {k j : Nat}

theorem State.Passed.ok (h : s.Passed k t) : t.reader.Ok t.src := by
  obtain ⟨hsrc, _, _, hm⟩ := h
  rw [hsrc]
  exact hm.ok

theorem State.Passed.position_le (h : s.Passed k t) : s.reader.position + k ≤ t.reader.position := by
  obtain ⟨_, _, hn, hm⟩ := h
  rw [hm.position]
  omega

theorem State.Passed.len (h : s.Passed k t) : t.reader.len = s.reader.len := by
  obtain ⟨_, _, _, hm⟩ := h
  exact hm.len

theorem State.Passed.trans (h : s.Passed k t) (h' : t.Passed j u) : s.Passed (k + j) u := by
  obtain ⟨hsrc, n, hn, hm⟩ := h
  obtain ⟨hsrc', n', hn', hm'⟩ := h'
  rw [hsrc] at hm'
  exact ⟨hsrc'.trans hsrc, n + n', by omega, hm.trans hm'⟩

theorem State.Passed.mono (h : s.Passed k t) (hj : j ≤ k) : s.Passed j t := by
  obtain ⟨hsrc, n, hn, hm⟩ := h
  exact ⟨hsrc, n, hj.trans hn, hm⟩

/-- What follows a move may leave the reader where it is. -/
theorem State.Passed.then (h : s.Passed k t) (h' : t.reader.Ok t.src → t.Passed 0 u) : s.Passed k u :=
  h.trans (h' h.ok)

/-- An operation that touches neither the reader nor SRC. -/
theorem State.Passed.still (hok : s.reader.Ok s.src) (hrd : t.reader = s.reader) (hsrc : t.src = s.src) :
    s.Passed 0 t :=
  ⟨hsrc, 0, le_rfl, by rw [hrd]; exact .rfl' hok⟩

theorem State.Passed.of_moved {r : Reader} (h : s.reader.Moved s.src k r) : s.Passed k (s.setReader r) :=
  ⟨rfl, k, le_rfl, h⟩

theorem passed_fillTo (hok : s.reader.Ok s.src) {n : Nat} (hn : n ≤ 32) : s.Passed 0 (s.fillTo n) :=
  .of_moved (hok.moved_fillTo hn)

theorem passed_clear (hok : s.reader.Ok s.src) (hk : k ≤ s.reader.cnt) : s.Passed k (s.clear k) :=
  .of_moved (hok.moved_clear hk)

/-- Bits that a refill has made available, consumed. -/
theorem passed_take (hok : s.reader.Ok s.src) {n : Nat} (hn : n ≤ 32) (hk : k ≤ (s.fillTo n).reader.cnt) :
    s.Passed k ((s.fillTo n).clear k) := by
  have h := passed_fillTo hok hn
  simpa using h.trans (passed_clear h.ok hk)

/-! ### The pixel store and the row events (R185 to R193) -/

theorem passed_stop (hok : s.reader.Ok s.src) (reason : StopCode) : s.Passed 0 (s.stop reason) := by
  unfold State.stop
  split
  · exact .still hok rfl rfl
  · exact .still hok rfl rfl

theorem passed_fill (hok : s.reader.Ok s.src) (c : Colour) (x0 x1 : Nat) : s.Passed 0 (s.fill c x0 x1).state := by
  rcases s.fill_cases c x0 x1 with ⟨_, m, hgo⟩ | ⟨_, hhalt⟩
  · rw [hgo]
    exact .still hok rfl rfl
  · rw [hhalt]
    unfold State.raiseDecodeCapacity State.raise
    split
    · exact .still hok rfl rfl
    · exact .still hok rfl rfl

theorem State.Passed.stopped (h : s.Passed k t) (reason : StopCode) : s.Passed k (t.stop reason) :=
  h.then (passed_stop · reason)

/-- A flow, then operations that do not move the reader back. -/
theorem State.Passed.bind {w : Flow} {f : State → Flow} (h : s.Passed k w.state)
    (hf : ∀ t : State, t.reader.Ok t.src → t.Passed 0 (f t).state) : s.Passed k (w.bind f).state := by
  cases w with
  | go t => exact h.then (hf t)
  | halt t => exact h

theorem passed_record (hok : s.reader.Ok s.src) (p : Nat) : s.Passed 0 (s.record p) := by
  rw [State.record_eq]
  exact .still hok rfl rfl

theorem passed_closeRow (hok : s.reader.Ok s.src) (align : Bool) : s.Passed 0 (s.closeRow align) := by
  have hread : s.Passed 0 (s.setReader (if align && s.rowAlign then s.reader.byteAlign else s.reader)) := by
    split
    · exact (State.Passed.of_moved hok.moved_byteAlign).mono (Nat.zero_le _)
    · exact .still hok rfl rfl
  rw [s.closeRow_eq align]
  generalize (if align && s.rowAlign then s.reader.byteAlign else s.reader) = rd at hread ⊢
  refine hread.then fun hread => ?_
  simp only
  split
  · refine State.Passed.stopped ?_ _
    exact .still hread rfl rfl
  · exact .still hread rfl rfl

theorem passed_closeIfFull (hok : s.reader.Ok s.src) : s.Passed 0 s.closeIfFull := by
  unfold State.closeIfFull
  split
  · exact passed_closeRow hok true
  · exact .still hok rfl rfl

theorem passed_padRow (hok : s.reader.Ok s.src) : s.Passed 0 s.padRow.state := by
  have hwhite : s.Passed 0 (if s.c = .black then { s.record s.a0 with c := .white } else s) := by
    split
    · exact (passed_record hok _).then (.still · rfl rfl)
    · exact .still hok rfl rfl
  unfold State.padRow
  exact hwhite.then fun hok => (passed_fill hok _ _ _).bind fun t ht => .still ht rfl rfl

theorem passed_onEOD (hok : s.reader.Ok s.src) (fromMode : Bool) : s.Passed 0 (s.onEOD fromMode).state := by
  unfold State.onEOD
  split
  · exact passed_stop hok _
  · refine State.Passed.bind ?_ fun t ht => passed_stop ht _
    split
    · exact (passed_padRow hok).bind fun t ht => .still ht rfl rfl
    · exact .still hok rfl rfl

theorem passed_endOfBlock (hok : s.reader.Ok s.src) : s.Passed 0 s.endOfBlock := by
  unfold State.endOfBlock
  split
  · simp only
    split
    · rename_i hprobe
      have hcnt := avail_le_cnt (s.fillTo 12).reader 12
      exact ((passed_take hok (by omega) (by omega)).mono (Nat.zero_le 12)).then (passed_stop · _)
    · exact passed_fillTo hok (by omega)
  · exact .still hok rfl rfl

theorem passed_afterEOL (hok : s.reader.Ok s.src) : s.Passed 0 s.afterEOL.state := by
  unfold State.afterEOL
  split
  · simp only
    split
    · exact (passed_fillTo hok (by omega)).then (passed_onEOD · false)
    · have htag := (passed_take hok (n := 1) (k := 1) (by omega) (by omega)).mono (Nat.zero_le 1)
      generalize decide ((s.fillTo 1).reader.window 1 = 1) = tag
      exact (htag.then (u := (s.fillTo 1).takeTag tag) (.still · rfl rfl)).then passed_endOfBlock
  · exact passed_endOfBlock hok

theorem passed_settleRow (hok : s.reader.Ok s.src) : s.Passed 0 s.settleRow.state := by
  unfold State.settleRow
  split
  · exact (passed_padRow hok).bind fun t ht => passed_closeRow ht false
  · exact .still hok rfl rfl

/-- What a job in RUN goes on with after its row is closed. -/
theorem passed_ifRunning {f : State → Flow} (hok : s.reader.Ok s.src) (hf : s.Passed 0 (f s).state) :
    s.Passed 0 (if s.running then f s else .go s).state := by
  split
  · exact hf
  · exact .still hok rfl rfl

theorem passed_onEOL (hok : s.reader.Ok s.src) : s.Passed 0 s.onEOL.state := by
  refine State.Passed.bind ?_ fun t ht => passed_ifRunning ht (passed_afterEOL ht)
  exact State.Passed.then (t := s.dropRun) (.still hok rfl rfl) passed_settleRow

/-! ### The error policy (R191) -/

theorem passed_scanForEOL (fuel : Nat) (hok : s.reader.Ok s.src) : s.Passed 0 (State.scanForEOL fuel s).state := by
  induction fuel generalizing s with
  | zero => exact .still hok rfl rfl
  | succ fuel ih =>
    have hfill := passed_fillTo hok (n := 12) (by omega)
    have hcnt := avail_le_cnt (s.fillTo 12).reader 12
    unfold State.scanForEOL
    simp only
    split
    · have hdrain := (hfill.trans (.of_moved hfill.ok.moved_drain)).mono (Nat.zero_le _)
      exact hdrain.then (passed_onEOD · false)
    · split
      · exact hfill
      · exact ((passed_take hok (n := 12) (by omega) (by split <;> omega)).mono (Nat.zero_le _)).then ih

/-- The scan leaves the job in RUN where it began only if an EOL begins the stream there. -/
theorem passed_scanForEOL_forward (fuel : Nat) (h : s.DecodeOk) (heol : eolAhead (s.reader.rest s.src) = false)
    (hrun : (State.scanForEOL (fuel + 1) s).state.running = true) :
    s.Passed 1 (State.scanForEOL (fuel + 1) s).state := by
  have hcnt := avail_le_cnt (s.fillTo 12).reader 12
  have hfill := h.fillTo (n := 12) (by omega)
  unfold State.scanForEOL at hrun ⊢
  simp only at hrun ⊢
  split at hrun
  · have hdrain := hfill.with_reader hfill.reader_ok.drain.1
    rw [State.onEOD_not_running hdrain] at hrun
    cases hrun
  · rename_i hlong
    rw [if_neg hlong]
    by_cases hfound : (s.fillTo 12).reader.window 12 = 1
    · have hahead := (window_iff h.reader_ok (n := 12) (by omega) 1 (by omega)).mp
        ⟨le_antisymm (Nat.min_le_right _ _) (Nat.not_lt.mp hlong), hfound⟩
      rw [eolAhead, hahead] at heol
      cases heol
    · rw [if_neg hfound]
      exact ((passed_take h.reader_ok (n := 12) (by omega) (by split <;> omega)).mono (by split <;> omega)).then
        (passed_scanForEOL fuel)

/-- A move of the reader goes forward, or leaves the same stream ahead. -/
theorem State.Passed.forward_or_same (h : s.Passed 0 t) :
    s.Passed 1 t ∨ t.reader.rest t.src = s.reader.rest s.src := by
  obtain ⟨hsrc, n, _, hm⟩ := h
  cases n with
  | zero => exact .inr (by rw [hsrc, hm.rest, List.drop_zero])
  | succ n => exact .inl ⟨hsrc, n + 1, by omega, hm⟩

theorem passed_skipBit (hok : s.reader.Ok s.src) : s.Passed 0 s.skipBit := by
  obtain ⟨rd, hm, hskip⟩ := skipBit_eq hok
  rw [hskip]
  exact (State.Passed.of_moved hm).mono (Nat.zero_le _)

theorem passed_skipBit_forward (hok : s.reader.Ok s.src) (hleft : s.reader.rest s.src ≠ []) : s.Passed 1 s.skipBit := by
  obtain ⟨rd, hm, hskip⟩ := skipBit_eq hok
  have hlen := List.length_pos_iff.mpr hleft
  rw [Reader.length_rest] at hlen
  rw [hskip]
  exact (State.Passed.of_moved hm).mono (by omega)

/-- The row part of the error policy. -/
theorem passed_giveUpRow (hok : s.reader.Ok s.src) :
    s.Passed 0 (s.dropRun.padRow.bind fun t => .go (t.closeRow true)).state := by
  refine State.Passed.bind ?_ fun t ht => passed_closeRow ht true
  exact State.Passed.then (t := s.dropRun) (.still hok rfl rfl) passed_padRow

theorem passed_onError (hok : s.reader.Ok s.src) : s.Passed 0 s.onError.state := by
  unfold State.onError
  split
  · exact (passed_giveUpRow hok).bind fun t ht => passed_ifRunning ht (passed_scanForEOL _ ht)
  · exact State.Passed.then (t := { s with afterZero := false }) (.still hok rfl rfl) passed_skipBit

/-- The error policy goes forward: it is entered where no EOL begins the stream, and some bit is left (R191). -/
theorem passed_onError_forward (h : s.DecodeOk) (heol : eolAhead (s.reader.rest s.src) = false)
    (hleft : s.reader.rest s.src ≠ []) (hrun : s.onError.state.running = true) : s.Passed 1 s.onError.state := by
  have hrow := passed_giveUpRow h.reader_ok
  unfold State.onError at hrun ⊢
  by_cases hhas : s.hasEol = true
  · rw [if_pos hhas] at hrun ⊢
    rcases State.padRow_cases h.dropRun_rowOk h.cur_le with ⟨t, hgo, hok, _⟩ | ⟨t, hhalt, hstop⟩
    · rw [hgo] at hrun hrow ⊢
      simp only [Flow.bind_go] at hrun hrow ⊢
      split at hrun
      · rename_i hclosed
        rw [if_pos hclosed]
        have hok := (hok.closeRow true hclosed).1
        rcases hrow.forward_or_same with hforward | hsame
        · exact hforward.then (passed_scanForEOL _)
        · have hscan := passed_scanForEOL_forward _ hok ((congrArg eolAhead hsame).trans heol) hrun
          exact hrow.trans hscan
      · rename_i hclosed
        exact absurd hrun hclosed
    · rw [hhalt] at hrun
      exact absurd hrun (by simp [hstop])
  · rw [if_neg hhas]
    exact State.Passed.trans (k := 0) (t := { s with afterZero := false }) (.still h.reader_ok rfl rfl)
      (passed_skipBit_forward h.reader_ok hleft)

/-! ### The rules of the codewords (R181 to R184, R223 to R229) -/

theorem passed_payRun (hok : s.reader.Ok s.src) : s.Passed 0 s.payRun := by
  by_cases hpaid : s.hphase - 1 = 0
  · rw [payRun_paid hpaid]
    exact State.Passed.then (t := { s with hphase := s.hphase - 1 }) (.still hok rfl rfl) passed_closeIfFull
  · rw [payRun_owed hpaid]
    exact .still hok rfl rfl

/-- The end of a run or of a vertical mode: `a0` moved, the position recorded, the colour flipped. -/
theorem passed_advance (hok : s.reader.Ok s.src) (e : Nat) : s.Passed 0 ((s.moveTo e).record e).flipColour := by
  rw [State.record_eq]
  exact .still hok rfl rfl

theorem passed_terminate (v : Nat) (hok : s.reader.Ok s.src) : s.Passed 0 (s.terminate v).state := by
  refine State.Passed.bind ?_ fun t ht => passed_payRun ht
  refine State.Passed.then (t := { s with acc := 0 }) (.still hok rfl rfl) fun hok => ?_
  exact (passed_fill hok _ _ _).bind fun t ht => passed_advance ht _

theorem passed_terminatingRule (v : Nat) (hok : s.reader.Ok s.src) : s.Passed 0 (s.terminatingRule v).state := by
  unfold State.terminatingRule
  split
  · exact passed_onError hok
  · exact passed_terminate v hok

theorem passed_makeupRule (v : Nat) (hok : s.reader.Ok s.src) : s.Passed 0 (s.makeupRule v).state := by
  unfold State.makeupRule
  split
  · exact passed_onError hok
  · exact .still hok rfl rfl

theorem passed_doPass (hok : s.reader.Ok s.src) : s.Passed 0 s.doPass.state :=
  (passed_fill hok _ _ _).bind fun t ht =>
    State.Passed.then (t := { t with a0 := min s.findB.2 s.imageWidth, atStart := false }) (.still ht rfl rfl)
      passed_closeIfFull

theorem passed_doVertical (d : Int) (hok : s.reader.Ok s.src) : s.Passed 0 (s.doVertical d).state :=
  (passed_fill hok _ _ _).bind fun _ ht => (passed_advance ht _).then passed_closeIfFull

theorem passed_doExt1D (hok : s.reader.Ok s.src) : s.Passed 0 s.doExt1D.state := by
  have hcnt := avail_le_cnt (s.fillTo 12).reader 12
  unfold State.doExt1D
  simp only
  split
  · exact (passed_take hok (by omega) (by omega)).mono (Nat.zero_le 1)
  · split
    · exact ((passed_take hok (by omega) (by omega)).mono (Nat.zero_le 12)).then passed_onEOL
    · exact (passed_fillTo hok (by omega)).then passed_onError

/-- EXT1D goes forward by its fill bit, by its EOL, or by the error policy where neither is ahead (R229). -/
theorem passed_doExt1D_forward (h : s.DecodeOk) (hleft : s.reader.rest s.src ≠ [])
    (hrun : s.doExt1D.state.running = true) : s.Passed 1 s.doExt1D.state := by
  have hcnt := avail_le_cnt (s.fillTo 12).reader 12
  have hfill := passed_fillTo h.reader_ok (n := 12) (by omega)
  have hrest : (s.fillTo 12).reader.rest (s.fillTo 12).src = s.reader.rest s.src :=
    (h.reader_ok.moved_fillTo (n := 12) (by omega)).rest
  unfold State.doExt1D at hrun ⊢
  simp only at hrun ⊢
  split at hrun
  · rename_i hzero
    rw [if_pos hzero]
    exact passed_take h.reader_ok (by omega) (by omega)
  · rename_i hzero
    rw [if_neg hzero]
    split at hrun
    · rename_i heol
      rw [if_pos heol]
      exact ((passed_take h.reader_ok (n := 12) (k := 12) (by omega) (by omega)).mono (by omega)).then passed_onEOL
    · rename_i heol
      rw [if_neg heol]
      have hno : eolAhead (s.reader.rest s.src) = false :=
        Bool.eq_false_iff.mpr fun hahead => heol ((window_iff h.reader_ok (by omega) 1 (by omega)).mpr hahead)
      exact hfill.trans (passed_onError_forward (h.fillTo (by omega)) (by rwa [hrest]) (by rwa [hrest]) hrun)

/-! ### The decode step (R181, R223) -/

/-- EOL is a codeword of every run context (R98, R161). -/
theorem runRowAhead_none {c : Colour} {bits : List Bool} (h : runRowAhead c bits = none) : eolAhead bits = false := by
  have := List.find?_eq_none.mp h eolRow (mem_runSet.mpr (.inr (.inr rfl)))
  exact Bool.eq_false_iff.mpr this

/-- An EOL begins with the seven zeros of EXT1D (R98, R101). -/
theorem eolAhead_ext1d {bits : List Bool} (h : eolAhead bits = true) :
    (List.replicate 7 false).isPrefixOf bits = true := by
  rw [eolAhead, List.isPrefixOf_iff_prefix] at h
  rw [List.isPrefixOf_iff_prefix]
  exact List.IsPrefix.trans (by decide) h

/-- What a run lookup answers (R161 to R165): a row's result with its bits consumed, or nothing consumed. -/
theorem runAhead_cases (c : Colour) (bits : List Bool) :
    (∃ len res, 1 ≤ len ∧ (res = .eol ∨ ∃ v, res = .run v) ∧ runAhead c bits = (res, len)) ∨
      runAhead c bits = (.eod, 0) ∨ runAhead c bits = (.zero, 0) ∨
      (runAhead c bits = (.error, 0) ∧ eolAhead bits = false ∧ bits ≠ []) := by
  unfold runAhead
  split
  · exact .inr (.inl rfl)
  · rename_i hbits
    split
    · rename_i r hrow
      refine .inl ⟨r.len, _, runSet_len_pos c r (List.mem_of_find?_eq_some hrow), ?_, rfl⟩
      split
      · exact .inl rfl
      · exact .inr ⟨_, rfl⟩
    · rename_i hnone
      split
      · exact .inr (.inr (.inl rfl))
      · exact .inr (.inr (.inr ⟨rfl, runRowAhead_none hnone, hbits⟩))

/-- What a mode lookup answers (R167 to R169). -/
theorem modeAhead_cases (bits : List Bool) :
    (∃ r ∈ modeSet, modeAhead bits = (r.result, r.len)) ∨ modeAhead bits = (.eod, 0) ∨
      (modeAhead bits = (.ext1d, 0) ∧ bits ≠ []) ∨
      (modeAhead bits = (.error, 0) ∧ eolAhead bits = false ∧ bits ≠ []) := by
  unfold modeAhead
  split
  · exact .inr (.inl rfl)
  · rename_i hbits
    split
    · rename_i r hrow
      exact .inl ⟨r, List.mem_of_find?_eq_some hrow, rfl⟩
    · split
      · exact .inr (.inr (.inl ⟨rfl, hbits⟩))
      · rename_i hext
        exact .inr (.inr (.inr ⟨rfl, Bool.eq_false_iff.mpr fun h => hext (eolAhead_ext1d h), hbits⟩))

/-- A lookup moves over the bits that it consumes; where it consumes none, the same stream is ahead. -/
theorem passed_decodeRun (hok : s.reader.Ok s.src) (c : Colour) :
    ∃ t, s.decodeRun c = ((runAhead c (s.reader.rest s.src)).1, t) ∧ s.Passed (runAhead c (s.reader.rest s.src)).2 t ∧
      ((runAhead c (s.reader.rest s.src)).2 = 0 → t.reader.rest t.src = s.reader.rest s.src) := by
  obtain ⟨rd, hmoved, hlookup⟩ := runLookup_eq hok c
  exact ⟨s.setReader rd, hlookup, .of_moved hmoved, fun hzero => by rw [hzero] at hmoved; exact hmoved.rest⟩

theorem passed_decodeMode (hok : s.reader.Ok s.src) :
    ∃ t, s.decodeMode = ((modeAhead (s.reader.rest s.src)).1, t) ∧ s.Passed (modeAhead (s.reader.rest s.src)).2 t ∧
      ((modeAhead (s.reader.rest s.src)).2 = 0 → t.reader.rest t.src = s.reader.rest s.src) := by
  obtain ⟨rd, hmoved, hlookup⟩ := modeLookup_eq hok
  exact ⟨s.setReader rd, hlookup, .of_moved hmoved, fun hzero => by rw [hzero] at hmoved; exact hmoved.rest⟩

/-- A run codeword is consumed by its lookup, whatever its rule does then; FILL and ERROR move by their rules. -/
theorem passed_runStep_forward (h : s.DecodeOk) (hrun : s.runStep.state.running = true) :
    s.Passed 1 s.runStep.state := by
  obtain ⟨t, hlookup, hmid, hrest⟩ := passed_decodeRun h.reader_ok s.c
  have hbit := State.decodeRun_zero (s := s) (k := s.c)
  have hok := h.safe_decodeRun s.c
  unfold State.runStep at hrun ⊢
  rw [hlookup] at hrun hbit hok ⊢
  rcases runAhead_cases s.c (s.reader.rest s.src) with ⟨len, res, hlen, hres, heq⟩ | heq | heq | ⟨heq, heol, hleft⟩ <;>
    rw [heq] at hrun hmid hbit hrest ⊢
  · have hconsumed : s.Passed 1 t := hmid.mono hlen
    rcases hres with rfl | ⟨v, rfl⟩
    · exact hconsumed.then passed_onEOL
    · simp only
      split
      · exact hconsumed.then (passed_makeupRule v)
      · exact hconsumed.then (passed_terminatingRule v)
  · rw [State.onEOD_not_running hok] at hrun
    cases hrun
  · exact (hmid.trans (passed_clear hmid.ok (hbit rfl))).then (.still · rfl rfl)
  · rw [← hrest rfl] at heol hleft
    exact hmid.trans (passed_onError_forward hok heol hleft hrun)

/-- The same of the mode codes; EXT1D and ERROR move by their rules. -/
theorem passed_modeStep_forward (h : s.DecodeOk) (hrun : s.modeStep.state.running = true) :
    s.Passed 1 s.modeStep.state := by
  obtain ⟨t, hlookup, hmid, hrest⟩ := passed_decodeMode h.reader_ok
  have hok := h.safe_decodeMode
  unfold State.modeStep at hrun ⊢
  rw [hlookup] at hrun hok ⊢
  rcases modeAhead_cases (s.reader.rest s.src) with ⟨r, hr, heq⟩ | heq | ⟨heq, hleft⟩ | ⟨heq, heol, hleft⟩ <;>
    rw [heq] at hrun hmid hrest ⊢
  · have hconsumed : s.Passed 1 t := hmid.mono (mode_row r hr).1
    cases r.result with
    | pass => exact hconsumed.then passed_doPass
    | horizontal => exact hconsumed.then (.still · rfl rfl)
    | vertical d => exact hconsumed.then (passed_doVertical d)
    | ext2d => exact hconsumed.then passed_onError
    | ext1d => exact hconsumed.then passed_doExt1D
    | error => exact hconsumed.then passed_onError
    | eod => exact hconsumed.then (passed_onEOD · true)
  · rw [State.onEOD_not_running hok] at hrun
    cases hrun
  · rw [← hrest rfl] at hleft
    exact hmid.trans (passed_doExt1D_forward hok hleft hrun)
  · rw [← hrest rfl] at heol hleft
    exact hmid.trans (passed_onError_forward hok heol hleft hrun)

theorem passed_decodeStep_forward (h : s.DecodeOk) (hrun : s.decodeStep.state.running = true) :
    s.Passed 1 s.decodeStep.state := by
  unfold State.decodeStep at hrun ⊢
  split at hrun
  · rename_i hctx
    rw [if_pos hctx]
    exact passed_runStep_forward h hrun
  · rename_i hctx
    rw [if_neg hctx]
    exact passed_modeStep_forward h hrun

/-- Settles O55: the step is `DecodeStep`, which goes forward while the job is in RUN. -/
theorem decodeStepsProgress : Obligations.DecodeStepsProgress := by
  intro s t hd h hcmd hstep hrun
  rw [step_decodeStep hd hcmd] at hstep
  cases hstep
  exact (passed_decodeStep_forward h hrun).position_le

/-! ### The end of a job (R197, R284) -/

/-- A decode job in RUN between two steps: no host command pending, the invariants true. -/
structure State.DecodeRuns (s : State) : Prop where
  decoding : s.decoding = true
  commands : s.commands = []
  ok : s.DecodeOk

/-- A step of such a job ends it, or leaves such a job with the reader further on in the same data. -/
theorem State.DecodeRuns.step (h : s.DecodeRuns) : ∃ t, Machine.step s = .next t ∧
    (t.running = false ∨
      (t.DecodeRuns ∧ t.reader.len = s.reader.len ∧ s.reader.position < t.reader.position)) := by
  refine ⟨_, step_decodeStep h.decoding h.commands, ?_⟩
  cases hrun : s.decodeStep.state.running with
  | false => exact .inl rfl
  | true =>
    have hpassed := passed_decodeStep_forward h.ok hrun
    have hkept := s.keptBy_decodeStep
    have hjob : s.decodeStep.state.cfg.job.isDecode = true := by
      rw [hkept.cfg]
      exact (decoding_iff.mp h.decoding).2
    exact .inr ⟨⟨decoding_iff.mpr ⟨hrun, hjob⟩, hkept.commands.trans h.commands, h.ok.safe_decodeStep hrun⟩,
      hpassed.len, hpassed.position_le⟩

/-- A job with at most `b` bits left ends within `b + 1` steps. -/
theorem State.DecodeRuns.ends {b : Nat} (h : s.DecodeRuns) (hb : 8 * s.reader.len ≤ s.reader.position + b) :
    ∃ n v, n ≤ b + 1 ∧ Host.Core.run Sys2Proof.core n s = .next v ∧ v.running = false := by
  induction b generalizing s with
  | zero =>
    obtain ⟨t, hstep, hend | ⟨ht, hlen, hpos⟩⟩ := h.step
    · exact ⟨1, t, le_rfl, run_step hstep 0, hend⟩
    · have hle := ht.ok.reader_ok.position_le
      omega
  | succ b ih =>
    obtain ⟨t, hstep, hend | ⟨ht, hlen, hpos⟩⟩ := h.step
    · exact ⟨1, t, by omega, run_step hstep 0, hend⟩
    · obtain ⟨n, v, hn, hrun, hv⟩ := ih ht (by omega)
      exact ⟨n + 1, v, by omega, (run_step hstep n).trans hrun, hv⟩

/-- A START that begins a decode job puts the reader before the first of SRC_LEN bytes (R283). -/
theorem startJob_reader (hs : s.running = false) (hrun : s.startJob.running = true) :
    s.startJob.reader.len = s.srcLen ∧ s.startJob.reader.position = 0 := by
  unfold State.startJob at hrun ⊢
  rw [if_neg (by simp [hs])] at hrun ⊢
  simp only at hrun ⊢
  split at hrun
  · cases hrun
  · split at hrun
    · cases hrun
    · rename_i hcfg hsize
      rw [if_neg hcfg, if_neg hsize]
      unfold State.jobInit
      split <;> exact ⟨rfl, rfl⟩

/-- Settles O56: START leaves no job in RUN, or one with SRC_LEN bytes ahead that every step shortens. -/
theorem decodeJobsEnd : Obligations.DecodeJobsEnd := by
  intro s t hs hdec hcmd hstart
  cases hstart
  cases hrun : s.startJob.running with
  | false => exact ⟨0, s.startJob, Nat.zero_le _, rfl, hrun⟩
  | true =>
    have hkept := s.kept_startJob
    have hjob : s.startJob.cfg.job.isDecode = true := by rwa [hkept.cfg]
    have hruns : s.startJob.DecodeRuns :=
      ⟨decoding_iff.mpr ⟨hrun, hjob⟩, hkept.commands.trans hcmd, (State.startJob_ok hs hrun).1 hjob⟩
    obtain ⟨hlen, hpos⟩ := startJob_reader hs hrun
    exact hruns.ends (by omega)

end Sys2Proof.Machine
end

section
/-! Inversion (`spec/10_state.md` R199; `spec/42_g3_decoder.md` R65, R66): every rule of a decode job commutes with the
inversion of BLACK_IS_1, and the rows that it opens are drawn in complementary bits. -/

namespace Sys2Proof.Machine

/-! ### Complementary bytes -/

theorem setByteBit_complement (b : Byte) (k : Nat) (v : Bool) :
    setByteBit (~~~b) k (!v) = ~~~ setByteBit b k v := by
  unfold setByteBit
  cases v
  · simp [BitVec.not_and]
  · simp [BitVec.not_or]

section
variable {m m' : Memory} {b : Nat}

/-- A write of the complement makes the byte the complement, and leaves the others. -/
theorem Memory.complement_write (a : Nat) (v : Byte) (h : b = a ∨ m'.read b = ~~~ m.read b) :
    (m'.write a (~~~v)).read b = ~~~ (m.write a v).read b := by
  rw [Memory.read_write, Memory.read_write]
  split
  · rfl
  · rename_i hne
    exact h.resolve_left hne

theorem Memory.complement_fillBytes (v : Byte) (n a : Nat) (h : (a ≤ b ∧ b < a + n) ∨ m'.read b = ~~~ m.read b) :
    (m'.fillBytes (~~~v) n a).read b = ~~~ (m.fillBytes v n a).read b := by
  induction n generalizing a m m' with
  | zero => exact h.resolve_left (by omega)
  | succ n ih =>
    refine ih (a + 1) ?_
    by_cases hin : a + 1 ≤ b ∧ b < a + 1 + n
    · exact .inl hin
    · refine .inr (Memory.complement_write a v ?_)
      by_cases ha : b = a
      · exact .inl ha
      · exact .inr (h.resolve_left (by omega))

theorem Memory.complement_setPixel (base x : Nat) (v : Bool) (h : m'.read b = ~~~ m.read b) :
    (m'.setPixel base x (!v)).read b = ~~~ (m.setPixel base x v).read b := by
  unfold Memory.setPixel
  rw [Memory.read_write, Memory.read_write]
  split
  · rename_i hb
    rw [← hb, h, setByteBit_complement]
  · exact h

theorem Memory.complement_drawPixels (base : Nat) (v : Bool) (n x : Nat) (h : m'.read b = ~~~ m.read b) :
    (m'.drawPixels base (!v) n x).read b = ~~~ (m.drawPixels base v n x).read b := by
  induction n generalizing x m m' with
  | zero => exact h
  | succ n ih => exact ih (x + 1) (Memory.complement_setPixel base x v h)

end

/-! ### States of inverse jobs -/

/-- `s` with BLACK_IS_1 inverted and another DST (R199). -/
def State.invertedWith (s : State) (m : Memory) : State :=
  { s with cfg := { s.cfg with flags := s.cfg.flags ^^^ 4#6 }, dst := m }

/-- The opened rows of `m` are the complements of those of DST. -/
def State.RowsComplement (s : State) (m : Memory) : Prop :=
  ∀ r i, r < s.rows ∨ (r = s.rows ∧ s.rowOpen = true) → i < s.stride →
    m.read (r * s.stride + i) = ~~~ s.dst.read (r * s.stride + i)

variable {s u : State} {m : Memory}

theorem inverted_of_rowsComplement (h : s.RowsComplement m) : s.Inverted (s.invertedWith m) := ⟨rfl, h⟩

/-- The inverse of `s` is `s` with its flag inverted and its opened rows complemented. -/
theorem State.Inverted.out (h : s.Inverted u) : ∃ m, u = s.invertedWith m ∧ s.RowsComplement m :=
  ⟨u.dst, h.same, h.rows⟩

theorem getLsbD_invertedFlags (flags : BitVec 6) (i : Nat) :
    (flags ^^^ 4#6).getLsbD i = (flags.getLsbD i ^^ decide (i = 2)) := by
  rw [BitVec.getLsbD_xor]
  congr 1
  by_cases hi : i < 6
  · interval_cases i <;> rfl
  · rw [BitVec.getLsbD_of_ge _ _ (by omega)]
    simp
    omega

@[simp] theorem invertedWith_rowAlign (s : State) (m : Memory) : (s.invertedWith m).rowAlign = s.rowAlign :=
  (getLsbD_invertedFlags _ 1).trans (Bool.xor_false _)

@[simp] theorem invertedWith_hasEol (s : State) (m : Memory) : (s.invertedWith m).hasEol = s.hasEol :=
  (getLsbD_invertedFlags _ 3).trans (Bool.xor_false _)

@[simp] theorem invertedWith_hasEob (s : State) (m : Memory) : (s.invertedWith m).hasEob = s.hasEob :=
  (getLsbD_invertedFlags _ 4).trans (Bool.xor_false _)

@[simp] theorem invertedWith_destFixed (s : State) (m : Memory) : (s.invertedWith m).destFixed = s.destFixed :=
  (getLsbD_invertedFlags _ 5).trans (Bool.xor_false _)

@[simp] theorem invertedWith_blackIs1 (s : State) (m : Memory) : (s.invertedWith m).blackIs1 = !s.blackIs1 :=
  (getLsbD_invertedFlags _ 2).trans (Bool.xor_true _)

theorem invertedWith_bit (s : State) (m : Memory) (k : Colour) : (s.invertedWith m).bit k = !s.bit k := by
  unfold State.bit
  rw [invertedWith_blackIs1]
  cases s.blackIs1 <;> cases decide (k = .black) <;> rfl

theorem invertedWith_whiteByte (s : State) (m : Memory) : (s.invertedWith m).whiteByte = ~~~ s.whiteByte := by
  unfold State.whiteByte
  rw [invertedWith_blackIs1]
  cases s.blackIs1 <;> rfl

/-- An update that commutes with the inversion, and closes or opens no row. -/
theorem State.Inverted.map (h : s.Inverted u) (f : State → State)
    (hf : ∀ m, f (s.invertedWith m) = (f s).invertedWith m) (hrows : ∀ m, s.RowsComplement m → (f s).RowsComplement m) :
    (f s).Inverted (f u) := by
  obtain ⟨m, rfl, hm⟩ := h.out
  rw [hf m]
  exact inverted_of_rowsComplement (hrows m hm)

theorem State.Inverted.ite {p q : Prop} [Decidable p] [Decidable q] {s' u' : State} (hpq : p ↔ q)
    (ht : p → s.Inverted u) (hf : ¬ p → s'.Inverted u') : (if p then s else s').Inverted (if q then u else u') := by
  by_cases hp : p
  · rw [if_pos hp, if_pos (hpq.mp hp)]
    exact ht hp
  · rw [if_neg hp, if_neg (fun hq => hp (hpq.mpr hq))]
    exact hf hp

/-- Two flows that go on in inverse states, of which `P` holds, or end in such states. -/
inductive Flow.Inverted (P : State → Prop) : Flow → Flow → Prop where
  | go {s u : State} (h : s.Inverted u) (hp : P s) : Flow.Inverted P (.go s) (.go u)
  | halt {s u : State} (h : s.Inverted u) : Flow.Inverted P (.halt s) (.halt u)

/-- The current row is open: it counts when the row is closed. -/
abbrev State.RowIsOpen (s : State) : Prop := s.rowOpen = true

/-- Nothing more is known of the state. -/
abbrev State.Any (_ : State) : Prop := True

theorem Flow.Inverted.state {P : State → Prop} {w w' : Flow} (h : w.Inverted P w') : w.state.Inverted w'.state := by
  cases h with
  | go h => exact h
  | halt h => exact h

theorem Flow.Inverted.bind {P Q : State → Prop} {w w' : Flow} {f f' : State → Flow} (h : w.Inverted P w')
    (hf : ∀ {s u : State}, s.Inverted u → P s → (f s).Inverted Q (f' u)) : (w.bind f).Inverted Q (w'.bind f') := by
  cases h with
  | go h hp => exact hf h hp
  | halt h => exact .halt h

theorem Flow.Inverted.ite {P : State → Prop} {p q : Prop} [Decidable p] [Decidable q] {w w' v v' : Flow} (hpq : p ↔ q)
    (ht : p → w.Inverted P w') (hf : ¬ p → v.Inverted P v') :
    (if p then w else v).Inverted P (if q then w' else v') := by
  by_cases hp : p
  · rw [if_pos hp, if_pos (hpq.mp hp)]
    exact ht hp
  · rw [if_neg hp, if_neg (fun hq => hp (hpq.mpr hq))]
    exact hf hp

/-! ### The reader, stops and faults -/

theorem State.Inverted.setReader (h : s.Inverted u) (r : Reader) : (s.setReader r).Inverted (u.setReader r) :=
  h.map (State.setReader · r) (fun _ => rfl) fun _ => id

theorem State.Inverted.fillTo (h : s.Inverted u) (n : Nat) : (s.fillTo n).Inverted (u.fillTo n) :=
  h.map (State.fillTo · n) (fun _ => rfl) fun _ => id

theorem State.Inverted.clear (h : s.Inverted u) (n : Nat) : (s.clear n).Inverted (u.clear n) :=
  h.map (State.clear · n) (fun _ => rfl) fun _ => id

theorem State.Inverted.stop (h : s.Inverted u) (reason : StopCode) : (s.stop reason).Inverted (u.stop reason) := by
  obtain ⟨m, rfl, hm⟩ := h.out
  exact .ite .rfl (fun _ => ⟨rfl, hm⟩) fun _ => ⟨rfl, hm⟩

theorem State.Inverted.raiseDecodeCapacity (h : s.Inverted u) :
    s.raiseDecodeCapacity.Inverted u.raiseDecodeCapacity := by
  obtain ⟨m, rfl, hm⟩ := h.out
  exact .ite .rfl (fun _ => ⟨rfl, hm⟩) fun _ => ⟨rfl, hm⟩

/-! ### The pixel store (R185 to R188) -/

/-- The new row is white in both jobs: complementary bytes, padding included (R65, R66). -/
theorem State.Inverted.initRow (h : s.Inverted u) : s.initRow.Inverted u.initRow := by
  obtain ⟨m, rfl, hm⟩ := h.out
  refine ⟨rfl, fun r i hr hi => ?_⟩
  show (m.fillBytes (s.invertedWith m).whiteByte s.stride s.rowBase).read (r * s.stride + i) =
    ~~~ (s.dst.fillBytes s.whiteByte s.stride s.rowBase).read (r * s.stride + i)
  rw [invertedWith_whiteByte]
  refine Memory.complement_fillBytes _ _ _ ?_
  rcases hr with hr | ⟨rfl, _⟩
  · exact .inr (hm r i (.inl hr) hi)
  · exact .inl ⟨Nat.le_add_right _ _, Nat.add_lt_add_left hi _⟩

theorem State.Inverted.openRow (h : s.Inverted u) : s.openRow.Inverted State.RowIsOpen u.openRow := by
  obtain ⟨m, rfl, hm⟩ := h.out
  refine .ite .rfl (fun hopen => .go h hopen) fun _ => .ite .rfl (fun _ => ?_) fun _ => .go h.initRow rfl
  refine .ite (by rw [invertedWith_destFixed]) (fun _ => .halt h.raiseDecodeCapacity) fun _ => .go ?_ rfl
  exact (h.map (fun s => { s with capRows := max 1 (2 * s.capRows) }) (fun _ => rfl) fun _ => id).initRow

theorem State.Inverted.draw (h : s.Inverted u) (k : Colour) (x0 x1 : Nat) :
    (s.draw k x0 x1).Inverted (u.draw k x0 x1) := by
  obtain ⟨m, rfl, hm⟩ := h.out
  refine ⟨rfl, fun r i hr hi => ?_⟩
  show (m.drawPixels s.rowBase ((s.invertedWith m).bit k) (x1 - x0) x0).read (r * s.stride + i) =
    ~~~ (s.dst.drawPixels s.rowBase (s.bit k) (x1 - x0) x0).read (r * s.stride + i)
  rw [invertedWith_bit]
  exact Memory.complement_drawPixels _ _ _ _ (hm r i hr hi)

theorem State.Inverted.fill (h : s.Inverted u) (k : Colour) (x0 x1 : Nat) :
    (s.fill k x0 x1).Inverted State.RowIsOpen (u.fill k x0 x1) :=
  h.openRow.bind fun h hopen => .go (h.draw k x0 x1) hopen

theorem State.Inverted.record (h : s.Inverted u) (p : Nat) : (s.record p).Inverted (u.record p) := by
  obtain ⟨m, rfl, hm⟩ := h.out
  exact .ite .rfl (fun _ => h) fun _ =>
    h.map (fun s => { s with cur := recordChange s.cur p }) (fun _ => rfl) fun _ => id

theorem record_rowOpen (s : State) (p : Nat) : (s.record p).rowOpen = s.rowOpen := by
  rw [State.record_eq]

/-- The end of a run or of a vertical mode: `a0` moved, the position recorded, the colour flipped. -/
theorem State.Inverted.advance (h : s.Inverted u) (e : Nat) :
    ((s.moveTo e).record e).flipColour.Inverted ((u.moveTo e).record e).flipColour :=
  ((h.map (State.moveTo · e) (fun _ => rfl) fun _ => id).record e).map State.flipColour (fun _ => rfl) fun _ => id

/-! ### Row events (R189 to R193) -/

/-- An open row counts among the closed ones from here on. -/
theorem State.Inverted.nextRow (h : s.Inverted u) (hopen : s.RowIsOpen) : s.nextRow.Inverted u.nextRow :=
  h.map State.nextRow (fun _ => rfl) fun m hm r i hr hi => by
    refine hm r i ?_ hi
    rcases hr with hr | ⟨_, hclosed⟩
    · rcases Nat.lt_succ_iff_lt_or_eq.mp hr with hr | hr
      · exact .inl hr
      · exact .inr ⟨hr, hopen⟩
    · cases hclosed

theorem State.Inverted.closeRow (h : s.Inverted u) (hopen : s.RowIsOpen) (align : Bool) :
    (s.closeRow align).Inverted (u.closeRow align) := by
  have hnext := h.nextRow hopen
  have haligned :
      (if align && s.nextRow.rowAlign then s.nextRow.setReader s.nextRow.reader.byteAlign else s.nextRow).Inverted
      (if align && u.nextRow.rowAlign then u.nextRow.setReader u.nextRow.reader.byteAlign else u.nextRow) := by
    obtain ⟨m, hu, _⟩ := hnext.out
    rw [hu] at hnext ⊢
    exact .ite (by rw [invertedWith_rowAlign]) (fun _ => hnext.setReader _) fun _ => hnext
  have hlast : ∀ {t v : State}, t.Inverted v →
      (if t.imageHeight ≠ 0 ∧ t.rows = t.imageHeight then t.stop .height else t).Inverted
        (if v.imageHeight ≠ 0 ∧ v.rows = v.imageHeight then v.stop .height else v) := by
    intro t v h
    obtain ⟨m, rfl, _⟩ := h.out
    exact .ite .rfl (fun _ => h.stop .height) fun _ => h
  exact hlast haligned

theorem State.Inverted.closeIfFull (h : s.Inverted u) (hopen : s.RowIsOpen) : s.closeIfFull.Inverted u.closeIfFull := by
  obtain ⟨m, rfl, _⟩ := h.out
  exact .ite .rfl (fun _ => h.closeRow hopen true) fun _ => h

theorem State.Inverted.padRow (h : s.Inverted u) : s.padRow.Inverted State.RowIsOpen u.padRow := by
  have hwhite : (if s.c = .black then { s.record s.a0 with c := .white } else s).Inverted
      (if u.c = .black then { u.record u.a0 with c := .white } else u) := by
    obtain ⟨m, rfl, _⟩ := h.out
    exact .ite .rfl
      (fun _ => (h.record s.a0).map (fun t => { t with c := .white }) (fun _ => rfl) fun _ => id) fun _ => h
  have hfill : ∀ {t v : State}, t.Inverted v →
      ((t.fill .white t.a0 t.imageWidth).bind fun t => .go (t.moveTo t.imageWidth)).Inverted State.RowIsOpen
        ((v.fill .white v.a0 v.imageWidth).bind fun v => .go (v.moveTo v.imageWidth)) := by
    intro t v h
    obtain ⟨m, rfl, _⟩ := h.out
    exact (h.fill .white t.a0 t.imageWidth).bind
      fun h hopen => .go (h.map (fun s => s.moveTo s.imageWidth) (fun _ => rfl) fun _ => id) hopen
  exact hfill hwhite

theorem State.Inverted.onEOD (h : s.Inverted u) (fromMode : Bool) :
    (s.onEOD fromMode).Inverted State.Any (u.onEOD fromMode) := by
  obtain ⟨m, rfl, _⟩ := h.out
  refine .ite .rfl (fun _ => .go (h.stop .lenient) trivial) fun _ =>
    Flow.Inverted.bind (P := State.Any) ?_ fun h _ => .go (h.stop .eod) trivial
  exact .ite .rfl (fun _ => h.padRow.bind fun h hopen => .go (h.nextRow hopen) trivial) fun _ => .go h trivial

theorem State.Inverted.endOfBlock (h : s.Inverted u) : s.endOfBlock.Inverted u.endOfBlock := by
  obtain ⟨m, rfl, _⟩ := h.out
  refine .ite (by rw [invertedWith_hasEob]) (fun _ => ?_) fun _ => h
  exact .ite .rfl (fun _ => ((h.fillTo 12).clear 12).stop .eob) fun _ => h.fillTo 12

theorem State.Inverted.takeTag (h : s.Inverted u) (tag : Bool) : (s.takeTag tag).Inverted (u.takeTag tag) :=
  (h.clear 1).map (fun s => { s with lineMode := lineModeOfTag tag }) (fun _ => rfl) fun _ => id

theorem State.Inverted.afterEOL (h : s.Inverted u) : s.afterEOL.Inverted State.Any u.afterEOL := by
  obtain ⟨m, rfl, _⟩ := h.out
  refine .ite .rfl (fun _ => ?_) fun _ => .go h.endOfBlock trivial
  exact .ite .rfl (fun _ => (h.fillTo 1).onEOD false) fun _ => .go ((h.fillTo 1).takeTag _).endOfBlock trivial

theorem State.Inverted.settleRow (h : s.Inverted u) : s.settleRow.Inverted State.Any u.settleRow := by
  obtain ⟨m, rfl, _⟩ := h.out
  exact .ite .rfl (fun _ => h.padRow.bind fun h hopen => .go (h.closeRow hopen false) trivial)
    fun _ => .go (h.map (fun s => { s with c := .white, cur := [], atStart := true }) (fun _ => rfl) fun _ => id)
      trivial

/-- What a job in RUN goes on with after its row is closed. -/
theorem State.Inverted.ifRunning {f : State → Flow} (h : s.Inverted u) (hf : (f s).Inverted State.Any (f u)) :
    (if s.running then f s else .go s).Inverted State.Any (if u.running then f u else .go u) := by
  obtain ⟨m, rfl, _⟩ := h.out
  exact .ite .rfl (fun _ => hf) fun _ => .go h trivial

theorem State.Inverted.dropRun (h : s.Inverted u) : s.dropRun.Inverted u.dropRun :=
  h.map State.dropRun (fun _ => rfl) fun _ => id

theorem State.Inverted.onEOL (h : s.Inverted u) : s.onEOL.Inverted State.Any u.onEOL :=
  h.dropRun.settleRow.bind fun h _ => h.ifRunning h.afterEOL

theorem State.Inverted.scanForEOL (fuel : Nat) (h : s.Inverted u) :
    (State.scanForEOL fuel s).Inverted State.Any (State.scanForEOL fuel u) := by
  induction fuel generalizing s u with
  | zero => exact .go h trivial
  | succ fuel ih =>
    obtain ⟨m, rfl, _⟩ := h.out
    have hfill := h.fillTo 12
    have halign : ((s.invertedWith m).fillTo 12).rowAlign = (s.fillTo 12).rowAlign := invertedWith_rowAlign s m
    unfold State.scanForEOL
    simp only [halign]
    exact .ite .rfl (fun _ => (hfill.setReader _).onEOD false) fun _ =>
      .ite .rfl (fun _ => .go hfill trivial) fun _ => ih (hfill.clear _)

theorem State.Inverted.skipBit (h : s.Inverted u) : s.skipBit.Inverted u.skipBit := by
  obtain ⟨m, rfl, _⟩ := h.out
  exact .ite .rfl (fun _ => (h.fillTo 1).clear 1) fun _ => h.fillTo 1

theorem State.Inverted.resync (h : s.Inverted u) : s.resync.Inverted State.Any u.resync := by
  obtain ⟨m, rfl, _⟩ := h.out
  exact h.scanForEOL _

theorem State.Inverted.onError (h : s.Inverted u) : s.onError.Inverted State.Any u.onError := by
  obtain ⟨m, rfl, _⟩ := h.out
  refine .ite (by rw [invertedWith_hasEol]) (fun _ => ?_) fun _ =>
    .go (h.map (fun s => { s with afterZero := false }) (fun _ => rfl) fun _ => id).skipBit trivial
  exact (h.dropRun.padRow.bind (Q := State.Any) fun h hopen => .go (h.closeRow hopen true) trivial).bind
    fun h _ => h.ifRunning h.resync

/-! ### The rules of the codewords (R181 to R184, R223 to R229) -/

theorem State.Inverted.terminate (h : s.Inverted u) (v : Nat) : (s.terminate v).Inverted State.Any (u.terminate v) := by
  have hpay : ∀ {t v : State}, t.Inverted v → t.RowIsOpen → t.payRun.Inverted v.payRun := by
    intro t v h hopen
    have howed := h.map (fun s => { s with hphase := s.hphase - 1 }) (fun _ => rfl) fun _ => id
    obtain ⟨m, rfl, _⟩ := h.out
    exact .ite .rfl (fun _ => howed.closeIfFull hopen) fun _ => howed
  obtain ⟨m, rfl, _⟩ := h.out
  have hacc := h.map (fun s => { s with acc := 0 }) (fun _ => rfl) fun _ => id
  exact ((hacc.fill s.c s.a0 (s.runEnd (s.acc + v))).bind (Q := State.RowIsOpen)
    fun h hopen => .go (h.advance (s.runEnd (s.acc + v))) ((record_rowOpen _ _).trans hopen)).bind
    fun h hopen => .go (hpay h hopen) trivial

theorem State.Inverted.terminatingRule (h : s.Inverted u) (v : Nat) :
    (s.terminatingRule v).Inverted State.Any (u.terminatingRule v) := by
  obtain ⟨m, rfl, _⟩ := h.out
  exact .ite .rfl (fun _ => h.onError) fun _ => h.terminate v

theorem State.Inverted.makeupRule (h : s.Inverted u) (v : Nat) :
    (s.makeupRule v).Inverted State.Any (u.makeupRule v) := by
  obtain ⟨m, rfl, _⟩ := h.out
  exact .ite .rfl (fun _ => h.onError) fun _ => .go (h.map (State.makeUp v) (fun _ => rfl) fun _ => id) trivial

theorem State.Inverted.doPass (h : s.Inverted u) : s.doPass.Inverted State.Any u.doPass := by
  obtain ⟨m, rfl, _⟩ := h.out
  refine (h.fill s.c s.a0 (min s.findB.2 s.imageWidth)).bind fun h hopen => .go ?_ trivial
  exact (h.map (fun t => { t with a0 := min s.findB.2 s.imageWidth, atStart := false }) (fun _ => rfl)
    fun _ => id).closeIfFull hopen

theorem State.Inverted.doVertical (h : s.Inverted u) (d : Int) :
    (s.doVertical d).Inverted State.Any (u.doVertical d) := by
  obtain ⟨m, rfl, _⟩ := h.out
  exact (h.fill s.c s.a0 (s.verticalTarget d)).bind fun h hopen =>
    .go ((h.advance (s.verticalTarget d)).closeIfFull ((record_rowOpen _ _).trans hopen)) trivial

theorem State.Inverted.doExt1D (h : s.Inverted u) : s.doExt1D.Inverted State.Any u.doExt1D := by
  obtain ⟨m, rfl, _⟩ := h.out
  exact .ite .rfl (fun _ => .go ((h.fillTo 12).clear 1) trivial) fun _ =>
    .ite .rfl (fun _ => ((h.fillTo 12).clear 12).onEOL) fun _ => (h.fillTo 12).onError

/-! ### The decode step -/

/-- The lookups read the stream alone: the same result, and the reader moved alike. -/
theorem State.Inverted.decodeRun (h : s.Inverted u) (k : Colour) :
    (u.decodeRun k).1 = (s.decodeRun k).1 ∧ (s.decodeRun k).2.Inverted (u.decodeRun k).2 := by
  have hfill := h.fillTo 13
  have hreader : (u.fillTo 13).reader = (s.fillTo 13).reader := by
    obtain ⟨m, rfl, _⟩ := h.out
    rfl
  unfold State.decodeRun
  simp only [hreader]
  by_cases hend : (s.fillTo 13).reader.avail 13 = 0
  · simp only [if_pos hend]
    exact ⟨trivial, hfill⟩
  · simp only [if_neg hend]
    cases lookupRun k ((s.fillTo 13).reader.window 13) ((s.fillTo 13).reader.avail 13) with
    | some r => exact ⟨rfl, hfill.clear r.len⟩
    | none => exact ⟨rfl, hfill⟩

theorem State.Inverted.decodeMode (h : s.Inverted u) :
    u.decodeMode.1 = s.decodeMode.1 ∧ s.decodeMode.2.Inverted u.decodeMode.2 := by
  have hfill := h.fillTo 7
  have hreader : (u.fillTo 7).reader = (s.fillTo 7).reader := by
    obtain ⟨m, rfl, _⟩ := h.out
    rfl
  unfold State.decodeMode
  simp only [hreader]
  by_cases hend : (s.fillTo 7).reader.avail 7 = 0
  · simp only [if_pos hend]
    exact ⟨trivial, hfill⟩
  · simp only [if_neg hend]
    cases lookupMode ((s.fillTo 7).reader.window 7) ((s.fillTo 7).reader.avail 7) with
    | some r => exact ⟨rfl, hfill.clear r.len⟩
    | none => exact ⟨rfl, hfill⟩

theorem State.Inverted.runStep (h : s.Inverted u) : s.runStep.Inverted State.Any u.runStep := by
  have hc : u.c = s.c := by
    obtain ⟨m, rfl, _⟩ := h.out
    rfl
  obtain ⟨hres, hst⟩ := h.decodeRun s.c
  unfold State.runStep
  rw [hc]
  generalize s.decodeRun s.c = outs at *
  generalize u.decodeRun s.c = outu at *
  obtain ⟨res, s'⟩ := outs
  obtain ⟨resu, u'⟩ := outu
  obtain rfl : resu = res := hres
  cases resu with
  | run v => exact .ite .rfl (fun _ => hst.makeupRule v) fun _ => hst.terminatingRule v
  | eol => exact hst.onEOL
  | zero => exact .go ((hst.clear 1).map State.markZero (fun _ => rfl) fun _ => id) trivial
  | error => exact hst.onError
  | eod => exact hst.onEOD false

theorem State.Inverted.modeStep (h : s.Inverted u) : s.modeStep.Inverted State.Any u.modeStep := by
  obtain ⟨hres, hst⟩ := h.decodeMode
  unfold State.modeStep
  generalize s.decodeMode = outs at *
  generalize u.decodeMode = outu at *
  obtain ⟨res, s'⟩ := outs
  obtain ⟨resu, u'⟩ := outu
  obtain rfl : resu = res := hres
  cases resu with
  | pass => exact hst.doPass
  | horizontal => exact .go (hst.map (fun s => { s with hphase := 2 }) (fun _ => rfl) fun _ => id) trivial
  | vertical d => exact hst.doVertical d
  | ext2d => exact hst.onError
  | ext1d => exact hst.doExt1D
  | error => exact hst.onError
  | eod => exact hst.onEOD true

theorem State.Inverted.decodeStep (h : s.Inverted u) : s.decodeStep.Inverted State.Any u.decodeStep := by
  obtain ⟨m, rfl, _⟩ := h.out
  exact .ite .rfl (fun _ => h.runStep) fun _ => h.modeStep

/-- Settles O59: both steps are `DecodeStep`, which keeps the relation. -/
theorem inversionComplementsTheRows : Obligations.InversionComplementsTheRows := by
  intro s s' t hd hcmd _ _ _ h hstep
  rw [step_decodeStep hd hcmd] at hstep
  cases hstep
  obtain ⟨m, rfl, _⟩ := h.out
  exact ⟨_, step_decodeStep (s := s.invertedWith m) hd hcmd, h.decodeStep.state⟩

end Sys2Proof.Machine
end

section
/-! The pixel store and the row operations driven on their own (`spec/42_g3_decoder.md` R185 to R192), and DecodeStep
as a command (R181, R223). -/

namespace Sys2Proof.Machine

/-! ### What each unit operation answers with no job in RUN -/

section
variable {s : State} (hs : s.running = false)
include hs

theorem exec_fillRun (n : Nat) : exec (.fillRun n) s = (s.fillRun n).out :=
  show execFillRun n s = _ from unitOperation_go hs _

theorem exec_padRow : exec .padRow s = s.padRow.out := show execPadRow s = _ from unitOperation_go hs _

theorem exec_closeRow (align : Bool) : exec (.closeRow align) s = .next (s.closeRow align) :=
  show execCloseRow align s = _ from unitOperation_go hs _

theorem exec_onEOL : exec .onEOL s = s.onEOL.out := show execOnEOL s = _ from unitOperation_go hs _

theorem exec_onError : exec .onError s = s.onError.out := show execOnError s = _ from unitOperation_go hs _

theorem exec_onEOD (fromMode : Bool) : exec (.onEOD fromMode) s = (s.onEOD fromMode).out :=
  show execOnEOD fromMode s = _ from unitOperation_go hs _

/-- A CapacityFault with no job in RUN (R310, log 25). -/
theorem raiseDecodeCapacity_idle : s.raiseDecodeCapacity = { s with result := .raised .capacity } := by
  unfold State.raiseDecodeCapacity State.raise
  rw [if_neg (by simp [hs])]
  rfl

/-- No row close begins a job. -/
theorem rowClosed_idle (line : List Nat) (rd : Reader) : (s.rowClosed line rd).running = false := by
  have hstatus : (s.rowClosed line rd).status = s.status := if_neg (by simp [hs])
  exact (running_of_status hstatus).trans hs

end

variable {s : State}

/-- A CapacityFault ends a job in RUN (R304). -/
theorem raiseDecodeCapacity_run (hs : s.running = true) :
    s.raiseDecodeCapacity = { s with status := capacityStatus s.rows s.reader.consumed } := by
  unfold State.raiseDecodeCapacity State.raise
  rw [if_pos hs]
  rfl

/-! ### Record, Fill and FillRun (R186 to R188) -/

/-- Settles O31: at W nothing is recorded, below it by the last entry of `cur`. -/
theorem recordNotesAChange : Obligations.RecordNotesAChange := by
  intro s p hs
  refine ⟨fun hp => ?_, fun line hp hcur => ?_, fun hp hlast => ?_⟩
  · rw [exec_record hs, if_neg (by omega), State.record_eq, if_pos (by omega)]
  · have hcancel : recordChange s.cur p = line := by simp [recordChange, hcur]
    rw [exec_record hs, if_neg (by omega), State.record_eq, if_neg (by omega), hcancel]
  · have happend : recordChange s.cur p = s.cur ++ [p] := if_neg hlast
    rw [exec_record hs, if_neg (by omega), State.record_eq, if_neg (by omega), happend]

/-- Settles O27: the fill with room for the row, and without. -/
theorem fillDraws : Obligations.FillDraws := by
  intro s k x0 x1 hs hle hx
  rw [exec_fillPixels hs, if_neg (by omega)]
  refine ⟨fun hwf hroom => ?_, fun hroom => ?_⟩
  · obtain ⟨m, hm, hdrawn, hfill⟩ := drawn_wf_opened (k := k) (x0 := x0) hwf hx hroom
    exact ⟨m, hm, hdrawn, by rw [hfill, Flow.out_go]⟩
  · rw [s.fill_full k x0 x1 hroom, Flow.out_halt, raiseDecodeCapacity_idle hs]

theorem fillRun_full (n : Nat) (hroom : ¬ s.RoomForRow) : s.fillRun n = .halt s.raiseDecodeCapacity := by
  unfold State.fillRun
  simp only [s.fill_full _ _ _ hroom, Flow.bind_halt]

/-- What FillRun records: its end where it lies inside the row, which is then not clamped. -/
theorem recorded_runEnd (s : State) (n : Nat) :
    (if s.imageWidth ≤ s.runEnd n then s.cur else recordChange s.cur (s.runEnd n)) =
      if s.imageWidth ≤ s.a0 + n then s.cur else recordChange s.cur (s.a0 + n) := by
  by_cases hfull : s.imageWidth ≤ s.a0 + n
  · have hend : s.imageWidth ≤ s.runEnd n := Nat.le_min.mpr ⟨hfull, le_rfl⟩
    rw [if_pos hfull, if_pos hend]
  · have hend : s.runEnd n = s.a0 + n := Nat.min_eq_left (by omega)
    rw [hend]

/-- Settles O28: FillRun with room for the row, and without. -/
theorem fillRunAdvances : Obligations.FillRunAdvances := by
  intro s n hs
  rw [exec_fillRun hs]
  refine ⟨fun hwf hroom => ?_, fun hroom => ?_⟩
  · obtain ⟨m, hm, hdrawn, hrun⟩ := fillRun_eq (n := n) hwf hroom
    exact ⟨m, hm, hdrawn, by rw [hrun, Flow.out_go, recorded_runEnd]; rfl⟩
  · rw [fillRun_full n hroom, Flow.out_halt, raiseDecodeCapacity_idle hs]

/-! ### PadRow and CloseRow (R189, R192) -/

/-- The first statement of PadRow: the change at `a0` of a black run withdrawn or noted, the colour white. -/
def State.whitened (s : State) : State := { s with cur := s.paddedLine, c := .white }

theorem whitened_eq (s : State) :
    (if s.c = .black then { s.record s.a0 with c := .white } else s) = s.whitened := by
  unfold State.whitened State.paddedLine
  cases hc : s.c with
  | white => rw [if_neg (by decide), if_neg (by simp), ← hc]
  | black =>
    rw [if_pos rfl, State.record_eq]
    by_cases hfull : s.imageWidth ≤ s.a0
    · rw [if_pos hfull, if_neg (by omega)]
    · rw [if_neg hfull, if_pos ⟨rfl, by omega⟩]

theorem padRow_full (hroom : ¬ s.RoomForRow) : s.padRow = .halt s.whitened.raiseDecodeCapacity := by
  unfold State.padRow
  simp only [whitened_eq]
  rw [s.whitened.fill_full _ _ _ hroom, Flow.bind_halt]

/-- Settles O29: the padding with room for the row and without; the close with both operands. -/
theorem padAndCloseRow : Obligations.PadAndCloseRow := by
  intro s hs
  refine ⟨fun hwf hroom => ?_, fun hroom => ?_, fun hok => ?_, ?_⟩
  · obtain ⟨m, hm, hdrawn, hpad⟩ := padRow_eq hwf hroom
    exact ⟨m, hm, hdrawn, by rw [exec_padRow hs, hpad, Flow.out_go]⟩
  · rw [exec_padRow hs, padRow_full hroom, Flow.out_halt, raiseDecodeCapacity_idle (s := s.whitened) hs]
    rfl
  · obtain ⟨rd, hmoved, hclose⟩ := closeRow_true s hok
    exact ⟨rd, hmoved, by rw [exec_closeRow hs, hclose]⟩
  · rw [exec_closeRow hs, closeRow_false]

/-! ### The row part of OnEOL and OnError (R190, R191) -/

/-- `s` with its run dropped and its row padded, DST being `m` (R190 to R192). -/
def State.givenUp (s : State) (m : Memory) : State :=
  { s.opened m with
    a0 := s.imageWidth, cur := s.paddedLine, c := .white, acc := 0, hphase := 0, afterZero := false }

theorem dropRun_padRow (hwf : s.dst.wf = true) (hroom : s.RoomForRow) :
    ∃ m, m.wf = true ∧ s.Drawn .white s.a0 s.imageWidth m ∧ s.dropRun.padRow = .go (s.givenUp m) :=
  padRow_eq (s := s.dropRun) hwf hroom

theorem dropRun_padRow_full (hroom : ¬ s.RoomForRow) :
    s.dropRun.padRow = .halt s.dropRun.whitened.raiseDecodeCapacity :=
  padRow_full (s := s.dropRun) hroom

/-- OnEOL at a row start (R190). -/
theorem onEOL_start (h0 : s.a0 = 0) : s.onEOL = if s.running then s.framed.afterEOL else .go s.framed := by
  unfold State.onEOL State.settleRow
  rw [if_neg (show ¬ 0 < s.dropRun.a0 from Nat.not_lt.mpr h0.le)]
  rfl

/-- OnEOL in a begun row (R190). -/
theorem onEOL_begun {m : Memory} (h0 : 0 < s.a0) (hpad : s.dropRun.padRow = .go (s.givenUp m)) :
    s.onEOL = if ((s.opened m).rowClosed s.paddedLine s.reader).running
      then ((s.opened m).rowClosed s.paddedLine s.reader).afterEOL
      else .go ((s.opened m).rowClosed s.paddedLine s.reader) := by
  unfold State.onEOL State.settleRow
  rw [if_pos (show 0 < s.dropRun.a0 from h0), hpad]
  simp only [Flow.bind_go, closeRow_false]
  rfl

theorem onEOL_full (h0 : 0 < s.a0) (hroom : ¬ s.RoomForRow) :
    s.onEOL = .halt s.dropRun.whitened.raiseDecodeCapacity := by
  unfold State.onEOL State.settleRow
  rw [if_pos (show 0 < s.dropRun.a0 from h0), dropRun_padRow_full hroom]
  rfl

/-- OnError with HAS_EOL, after `k` bits were consumed (R191): the row given up, the stream aligned. -/
theorem onError_givesUp {k : Nat} {rd : Reader} {m : Memory} (heol : s.hasEol = true)
    (hmoved : s.reader.Moved s.src k rd)
    (hpad : (State.dropRun { s with reader := rd }).padRow = .go (State.givenUp { s with reader := rd } m)) :
    ∃ rd', s.reader.Moved s.src (s.closeMove k) rd' ∧
      State.onError { s with reader := rd } = if ((s.opened m).rowClosed s.paddedLine rd').running
        then ((s.opened m).rowClosed s.paddedLine rd').resync
        else .go ((s.opened m).rowClosed s.paddedLine rd') := by
  obtain ⟨rd', hmoved', hclose⟩ :=
    closeRow_true_after (u := State.givenUp { s with reader := rd } m) hmoved rfl rfl rfl
  refine ⟨rd', hmoved', ?_⟩
  unfold State.onError
  rw [if_pos (show State.hasEol { s with reader := rd } = true from heol), hpad]
  simp only [Flow.bind_go, hclose]
  rfl

theorem onError_full (heol : s.hasEol = true) (hroom : ¬ s.RoomForRow) :
    s.onError = .halt s.dropRun.whitened.raiseDecodeCapacity := by
  unfold State.onError
  rw [if_pos heol, dropRun_padRow_full hroom]
  rfl

/-- Settles O30: with no job in RUN both return once the row is settled, or with the CapacityFault of its padding. -/
theorem rowEventsOutsideRun : Obligations.RowEventsOutsideRun := by
  intro s hs
  rw [exec_onEOL hs, exec_onError hs]
  refine ⟨fun h0 => ?_, fun hwf hroom => ?_, fun hroom => ?_⟩
  · rw [onEOL_start h0, if_neg (by simp [hs]), Flow.out_go]
  · obtain ⟨m, hm, hdrawn, hpad⟩ := dropRun_padRow hwf hroom
    have hidle : ∀ rd, ¬ ((s.opened m).rowClosed s.paddedLine rd).running = true := fun rd =>
      Bool.eq_false_iff.mp (rowClosed_idle (s := s.opened m) hs s.paddedLine rd)
    refine ⟨m, hm, hdrawn, fun h0 => ?_, fun heol hok => ?_⟩
    · rw [onEOL_begun h0 hpad, if_neg (hidle _), Flow.out_go]
    · obtain ⟨rd, hmoved, herror⟩ := onError_givesUp heol (.rfl' hok) hpad
      exact ⟨rd, hmoved, by rw [herror, if_neg (hidle rd), Flow.out_go]⟩
  · have hfailed : s.dropRun.whitened.raiseDecodeCapacity = { s with
        acc := 0, hphase := 0, afterZero := false, cur := s.paddedLine, c := .white, result := .raised .capacity } :=
      raiseDecodeCapacity_idle (s := s.dropRun.whitened) hs
    exact ⟨fun h0 => by rw [onEOL_full h0 hroom, Flow.out_halt, hfailed],
      fun heol => by rw [onError_full heol hroom, Flow.out_halt, hfailed]⟩

/-! ### DecodeStep and ModeStep (R181, R223) -/

theorem stepOperation_running (hs : s.running = true) (entered : Bool) (f : State → Flow) :
    stepOperation entered f s = if entered then (f s).out else .refused .stepNotEntered :=
  if_pos hs

theorem exec_decodeStep (hd : s.decoding = true) : exec .decodeStep s = s.decodeStep.out := by
  obtain ⟨hrun, hdec⟩ := decoding_iff.mp hd
  exact (stepOperation_running hrun _ _).trans (if_pos hdec)

theorem exec_modeStep (hd : s.decoding = true) :
    exec .modeStep s = if s.context = .mode then s.modeStep.out else .refused .stepNotEntered := by
  obtain ⟨hrun, hdec⟩ := decoding_iff.mp hd
  refine (stepOperation_running hrun _ _).trans ?_
  simp [hdec]

/-- Settles O26: the command and the block's own step dispatch the same fetch; ModeStep is DecodeStep of the mode
context. -/
theorem decodeStepRunsTheCodeword : Obligations.DecodeStepRunsTheCodeword := by
  intro s hd
  have hstep := exec_decodeStep hd
  refine ⟨fun i hfetch => ?_, fun hcmd => ?_, ⟨_, hstep.trans (Flow.out_eq _)⟩, fun hctx => ?_, fun hctx => ?_⟩
  · rw [hstep, ← s.decodeStep_eq_dispatch hd, decodeDispatch_fetched hfetch]
  · rw [hstep, step_decodeStep hd hcmd, Flow.out_eq]
  · rw [exec_modeStep hd, if_pos hctx, ← s.modeStep_eq_dispatch hd hctx, s.decodeStep_eq_dispatch hd, hstep]
  · rw [exec_modeStep hd, if_neg hctx]

end Sys2Proof.Machine
end

section
/-! The codewords of a decode job, its error policy and the end of its data (`spec/42_g3_decoder.md` R182 to R195,
`spec/43_g4_predictor.md` R224 to R231). -/

namespace Sys2Proof.Machine

variable {s : State}

/-! ### Make-up codes (R182) -/

theorem makeupRule_go (hzero : s.afterZero = false) (v : Nat) : s.makeupRule v = .go (s.makeUp v) :=
  if_neg (by simp [hzero])

/-- Settles O15: the lookup consumes the code, its rule adds the value. -/
theorem makeUpCodesAccumulate : Obligations.MakeUpCodesAccumulate := by
  intro k r s hr hd hok hbits hzero
  obtain ⟨_, _, _, hlen⟩ := makeup_row k r hr
  obtain ⟨rd, hmoved, hgo⟩ := runCodeword_go hd hok hlen hbits (State.makeupRule r.value)
  refine ⟨rd, hmoved, ?_⟩
  rw [exec_makeup k r hr, hgo, makeupRule_go (s := { s with reader := rd }) hzero]
  rfl

/-! ### Terminating codes (R183, R188) -/

/-- `s` after a run of `n` pixels, DST being `m`, before a run owed is paid or the row is closed (R183, R188). -/
def State.ranTo (s : State) (n : Nat) (m : Memory) : State :=
  { s.opened m with
    acc := 0
    a0 := s.runEnd n
    cur := if s.imageWidth ≤ s.runEnd n then s.cur else recordChange s.cur (s.runEnd n)
    c := oppositeColour s.c
    atStart := false }

theorem terminatingRule_go (hzero : s.afterZero = false) (v : Nat) : s.terminatingRule v = s.terminate v :=
  if_neg (by simp [hzero])

theorem terminate_eq (hwf : s.dst.wf = true) (hroom : s.RoomForRow) (v : Nat) :
    ∃ m, m.wf = true ∧ s.Drawn s.c s.a0 (s.runEnd (s.acc + v)) m ∧
      s.terminate v = .go (s.ranTo (s.acc + v) m).payRun := by
  obtain ⟨m, hm, hdrawn, hrun⟩ := fillRun_eq (s := { s with acc := 0 }) (n := s.acc + v) hwf hroom
  refine ⟨m, hm, hdrawn, ?_⟩
  unfold State.terminate
  rw [hrun]
  rfl

theorem terminate_full (hroom : ¬ s.RoomForRow) (v : Nat) :
    s.terminate v = .halt (State.raiseDecodeCapacity { s with acc := 0 }) := by
  unfold State.terminate
  rw [fillRun_full _ (show ¬ State.RoomForRow { s with acc := 0 } from hroom), Flow.bind_halt]

/-- R183, where the row has reached W and no run is owed: it is closed. -/
theorem payRun_full {t : State} (hpaid : t.hphase ≤ 1) (hfull : t.imageWidth ≤ t.a0) : t.payRun = t.closeRow true := by
  rw [payRun_paid (by omega)]
  exact closeIfFull_ge hfull

/-- A terminating code of a running decode job: its bits consumed, then R183. -/
theorem exec_terminating_go {k : Colour} {r : CodeRow} (hr : r ∈ terminatingTable k) (hd : s.decoding = true)
    (hok : s.reader.Ok s.src) (hbits : r.len ≤ 8 * s.reader.len - s.reader.position) (hzero : s.afterZero = false) :
    ∃ rd, s.reader.Moved s.src r.len rd ∧ exec r.instr s = ((s.setReader rd).terminate r.value).out := by
  obtain ⟨_, _, _, hlen⟩ := terminating_row k r hr
  obtain ⟨rd, hmoved, hgo⟩ := runCodeword_go hd hok (by omega) hbits (State.terminatingRule r.value)
  refine ⟨rd, hmoved, ?_⟩
  rw [exec_terminating k r hr, hgo, terminatingRule_go (s := { s with reader := rd }) hzero]
  rfl

/-- Settles O16: the row goes on because its end is not reached, or because another run is owed. -/
theorem terminatingCodesFill : Obligations.TerminatingCodesFill := by
  intro k r s hr hd hok hbits hzero hwf hroom hon
  obtain ⟨rd, hmoved, hexec⟩ := exec_terminating_go hr hd hok hbits hzero
  obtain ⟨m, hm, hdrawn, hterm⟩ := terminate_eq (s := s.setReader rd) hwf hroom r.value
  refine ⟨rd, m, hmoved, hm, hdrawn, ?_⟩
  have hpay : ((s.setReader rd).ranTo (s.acc + r.value) m).payRun =
      { (s.setReader rd).ranTo (s.acc + r.value) m with hphase := s.hphase - 1 } := by
    rcases hon with hin | howed
    · exact payRun_inside (show s.runEnd (s.acc + r.value) < s.imageWidth from (Nat.min_le_left _ _).trans_lt hin)
    · exact payRun_owed (show s.hphase - 1 ≠ 0 by omega)
  rw [hexec, hterm, Flow.out_go]
  exact congrArg _ hpay

/-- Settles O17: the run is clamped to the row's end, the last run owed is paid, and the row is closed. -/
theorem terminatingCodesCloseRow : Obligations.TerminatingCodesCloseRow := by
  intro k r s hr hd hok hbits hzero hwf hroom hfull hlast
  obtain ⟨rd, hmoved, hexec⟩ := exec_terminating_go hr hd hok hbits hzero
  obtain ⟨m, hm, hdrawn, hterm⟩ := terminate_eq (s := s.setReader rd) hwf hroom r.value
  have hend : s.runEnd (s.acc + r.value) = s.imageWidth := Nat.min_eq_right hfull
  obtain ⟨rd', hmoved', hclose⟩ :=
    closeRow_true_after (u := (s.setReader rd).ranTo (s.acc + r.value) m) hmoved rfl rfl rfl
  have hcur : ((s.setReader rd).ranTo (s.acc + r.value) m).cur = s.cur := if_pos hend.ge
  refine ⟨rd', m, hmoved', hm, by rwa [← hend], ?_⟩
  have hpay := payRun_full (t := (s.setReader rd).ranTo (s.acc + r.value) m) hlast hend.ge
  rw [hexec, hterm, Flow.out_go]
  refine congrArg _ (hpay.trans (hclose.trans ?_))
  rw [hcur]
  rfl

/-! ### End of line (R190, R229) -/

/-- Both ways to meet an EOL consume its twelve bits and run OnEOL. -/
theorem exec_endOfLine {i : Instr} (hd : s.decoding = true) (hok : s.reader.Ok s.src)
    (hi : (i = .eol ∧ 12 ≤ 8 * s.reader.len - s.reader.position) ∨
      (i = .ext1d ∧ eolAhead (s.reader.rest s.src) = true)) :
    ∃ rd, s.reader.Moved s.src 12 rd ∧ exec i s = (s.setReader rd).onEOL.out := by
  rcases hi with ⟨rfl, hbits⟩ | ⟨rfl, heol⟩
  · exact runCodeword_go hd hok (by omega) hbits State.onEOL
  · obtain ⟨rd, hmoved, hgo⟩ := modeCodeword_go hd hok (len := 0) (by omega) (by omega) State.doExt1D
    have hrest : rd.rest s.src = s.reader.rest s.src := hmoved.rest
    have hprobe := (window_iff (s := s.setReader rd) hmoved.ok (n := 12) (by omega) 1 (by omega)).mpr
      (by rwa [← hrest] at heol)
    have hlen := eolAhead_length heol
    rw [← hrest, Reader.length_rest] at hlen
    obtain ⟨_, rd', hmoved', htake⟩ :=
      codeword_refill (s := s.setReader rd) hmoved.ok (n := 12) (by omega) le_rfl hlen
    have hext : (s.setReader rd).doExt1D = (((s.setReader rd).fillTo 12).clear 12).onEOL := by
      unfold State.doExt1D
      simp only
      rw [if_neg (by rw [hprobe.2]; simp), if_pos hprobe]
    rw [htake] at hext
    exact ⟨rd', (Nat.zero_add 12) ▸ hmoved.trans hmoved', hgo.trans (congrArg Flow.out hext)⟩

/-- Where the job goes on, a row close differs in the reader alone from one with another reader. -/
theorem rowClosed_setReader {u : State} (hlast : ¬ u.LastRow) (line : List Nat) (rd rd' : Reader) :
    u.rowClosed line rd' = (u.rowClosed line rd).setReader rd' := by
  unfold State.rowClosed
  simp only [hlast, false_and, if_false]
  rfl

/-- Settles O21: OnEOL with the reader behind the EOL, at a row start and in a begun row. -/
theorem endOfLine : Obligations.EndOfLine := by
  intro s i hd hok hi
  obtain ⟨rd, hmoved, hexec⟩ := exec_endOfLine hd hok hi
  have hrun := decoding_running hd
  have hrest : rd.rest s.src = (s.reader.rest s.src).drop 12 := hmoved.rest
  refine ⟨fun h0 => ?_, fun h0 hwf hroom => ?_⟩
  · obtain ⟨rd', hmoved', hafter⟩ := afterEOL_eq (u := (s.setReader rd).framed) hrun hmoved.ok hrest h0
    have heol : (s.setReader rd).onEOL = (s.setReader rd).framed.afterEOL :=
      (onEOL_start (s := s.setReader rd) h0).trans (if_pos hrun)
    refine ⟨rd', hmoved.trans hmoved', ?_⟩
    rw [hexec, heol, Flow.out_eq, hafter]
    rfl
  · obtain ⟨m, hm, hdrawn, hpad⟩ := dropRun_padRow (s := s.setReader rd) hwf hroom
    have heol := onEOL_begun (s := s.setReader rd) h0 hpad
    change _ = if ((s.opened m).rowClosed s.paddedLine rd).running then
      ((s.opened m).rowClosed s.paddedLine rd).afterEOL else .go ((s.opened m).rowClosed s.paddedLine rd) at heol
    have hclosed : ((s.opened m).rowClosed s.paddedLine rd).running = true ↔ ¬ s.LastRow :=
      rowClosed_running (u := s.opened m) hrun
    by_cases hlast : s.LastRow
    · refine ⟨rd, m, hm, hdrawn, ?_⟩
      rw [if_pos hlast, hexec, heol, if_neg (fun hgo => hclosed.mp hgo hlast), Flow.out_go]
      exact ⟨hmoved, rfl⟩
    · obtain ⟨rd', hmoved', hafter⟩ := afterEOL_eq (u := (s.opened m).rowClosed s.paddedLine rd)
        (hclosed.mpr hlast) hmoved.ok hrest rfl
      refine ⟨rd', m, hm, hdrawn, ?_⟩
      rw [if_neg hlast, hexec, heol, if_pos (hclosed.mpr hlast), Flow.out_eq, hafter,
        rowClosed_setReader (u := s.opened m) hlast s.paddedLine rd rd']
      exact ⟨hmoved.trans hmoved', rfl⟩

/-! ### The error policy (R191) -/

theorem terminatingRule_error (hzero : s.afterZero = true) (v : Nat) : s.terminatingRule v = s.onError := if_pos hzero

theorem makeupRule_error (hzero : s.afterZero = true) (v : Nat) : s.makeupRule v = s.onError := if_pos hzero

/-- A run code after a ZERO is an error (R184). -/
theorem exec_afterZero {k : Colour} {r : CodeRow} (hr : r ∈ terminatingTable k ∨ r ∈ makeupTable k)
    (hd : s.decoding = true) (hok : s.reader.Ok s.src) (hzero : s.afterZero = true)
    (hbits : r.len ≤ 8 * s.reader.len - s.reader.position) :
    ∃ rd, s.reader.Moved s.src r.len rd ∧ exec r.instr s = (s.setReader rd).onError.out := by
  have hlen := (runSet_patterns k r (mem_runSet.mpr (hr.imp_right Or.inl))).1
  rcases hr with hr | hr
  · obtain ⟨rd, hmoved, hgo⟩ := runCodeword_go hd hok hlen hbits (State.terminatingRule r.value)
    refine ⟨rd, hmoved, ?_⟩
    rw [exec_terminating k r hr, hgo, terminatingRule_error (s := { s with reader := rd }) hzero]
    rfl
  · obtain ⟨rd, hmoved, hgo⟩ := runCodeword_go hd hok hlen hbits (State.makeupRule r.value)
    refine ⟨rd, hmoved, ?_⟩
    rw [exec_makeup k r hr, hgo, makeupRule_error (s := { s with reader := rd }) hzero]
    rfl

/-- Every way into the error policy is OnError behind what the lookup consumed. -/
theorem State.MeetsError.onError {k : Nat} {o : Host.Outcome State Fault Refusal} (h : s.MeetsError k o)
    (hok : s.reader.Ok s.src) :
    ∃ rd, s.reader.Moved s.src k rd ∧ k ≤ 8 * s.reader.len - s.reader.position ∧ o = (s.setReader rd).onError.out := by
  obtain ⟨hd, ⟨rfl, hcmd, hfetch, rfl⟩ | ⟨rfl, hbits, rfl⟩ | ⟨rfl, hfill, heol, rfl⟩ |
    ⟨c, r, hr, hzero, rfl, hbits, rfl⟩⟩ := h
  · exact ⟨_, moved_fetchFill hok, Nat.zero_le _, step_noCodeword hd hcmd hfetch⟩
  · obtain ⟨rd, hmoved, hgo⟩ := modeCodeword_go hd hok le_rfl hbits State.onError
    exact ⟨rd, hmoved, hbits, hgo⟩
  · obtain ⟨rd, hmoved, hgo⟩ := ext1d_error hd hok hfill heol
    exact ⟨rd, hmoved, Nat.zero_le _, hgo⟩
  · obtain ⟨rd, hmoved, hgo⟩ := exec_afterZero hr hd hok hzero hbits
    exact ⟨rd, hmoved, hbits, hgo⟩

/-- Settles O22: OnError skips its bit behind what the lookup consumed. -/
theorem errorSkipsABit : Obligations.ErrorSkipsABit := by
  intro s k o hok heol h
  have herror : ∃ rd, s.reader.Moved s.src k rd ∧ k ≤ 8 * s.reader.len - s.reader.position ∧
      o = (s.setReader rd).onError.out := by
    rcases h with h | ⟨rfl, hs, rfl⟩
    · exact h.onError hok
    · exact ⟨s.reader, .rfl' hok, Nat.zero_le _, exec_onError hs⟩
  obtain ⟨rd, hmoved, hk, rfl⟩ := herror
  obtain ⟨rd', hmoved', hskip⟩ := onError_skip hmoved heol hk
  exact ⟨rd', hmoved', congrArg Flow.out hskip⟩

/-- The scan with its fuel, behind a row close (R191). -/
theorem resync_eq (hok : s.reader.Ok s.src) (h0 : s.a0 = 0) :
    ∃ rd, match scanAhead (if s.rowAlign then 8 else 1) (s.reader.rest s.src) with
      | some j => s.reader.Moved s.src ((if s.rowAlign then 8 else 1) * j) rd ∧ s.resync = .go (s.setReader rd)
      | none => s.reader.Moved s.src (8 * s.reader.len - s.reader.position) rd ∧
          s.resync = .go ((s.setReader rd).stop .eod) :=
  scan_eq (s.reader.bitsLeft + 1) s rfl hok h0 (by rw [hok.bitsLeft_eq]; exact Nat.lt_succ_self _)

/-- Settles O23: the row given up behind what the lookup consumed, then the scan from the aligned stream. -/
theorem errorGivesUpTheRow : Obligations.ErrorGivesUpTheRow := by
  intro s k o hok heol hwf hroom h
  have hrun := decoding_running h.1
  obtain ⟨rd0, hmoved0, _, rfl⟩ := h.onError hok
  obtain ⟨m, hm, hdrawn, hpad⟩ := dropRun_padRow (s := s.setReader rd0) hwf hroom
  obtain ⟨rd1, hmoved1, herror⟩ := onError_givesUp heol hmoved0 hpad
  change (s.setReader rd0).onError = _ at herror
  have hclosed : ((s.opened m).rowClosed s.paddedLine rd1).running = true ↔ ¬ s.LastRow :=
    rowClosed_running (u := s.opened m) hrun
  by_cases hlast : s.LastRow
  · refine ⟨rd1, m, hm, hdrawn, ?_⟩
    rw [if_pos hlast, herror, if_neg (fun hgo => hclosed.mp hgo hlast), Flow.out_go]
    exact ⟨hmoved1, rfl⟩
  · obtain ⟨rd, hscan⟩ := resync_eq (s := (s.opened m).rowClosed s.paddedLine rd1) hmoved1.ok rfl
    have hrest : rd1.rest s.src = (s.reader.rest s.src).drop (s.closeMove k) := hmoved1.rest
    change (match scanAhead (if s.rowAlign then 8 else 1) (rd1.rest s.src) with | some j => _ | none => _) at hscan
    rw [hrest] at hscan
    refine ⟨rd, m, hm, hdrawn, ?_⟩
    rw [if_neg hlast, herror, if_pos (hclosed.mpr hlast),
      rowClosed_setReader (u := s.opened m) hlast s.paddedLine rd1 rd]
    cases hfound : scanAhead (if s.rowAlign then 8 else 1) ((s.reader.rest s.src).drop (s.closeMove k)) with
    | some j =>
      rw [hfound] at hscan
      obtain ⟨hmoved, hresync⟩ := hscan
      exact ⟨hmoved1.trans hmoved, by rw [hresync, Flow.out_go]⟩
    | none =>
      rw [hfound] at hscan
      obtain ⟨hmoved, hresync⟩ := hscan
      have hposition := hmoved1.position
      have hlen := hmoved1.len
      have hbound := hmoved1.ok.position_le
      have hend : s.closeMove k + (8 * rd1.len - rd1.position) = 8 * s.reader.len - s.reader.position := by omega
      have hstatus : ((s.opened m).rowClosed s.paddedLine rd1).status = s.status := if_neg fun h => hlast h.1
      have hstop := stop_run (u := ((s.opened m).rowClosed s.paddedLine rd1).setReader rd) (hclosed.mpr hlast) .eod
      refine ⟨hend ▸ hmoved1.trans hmoved, ?_⟩
      rw [hresync, Flow.out_go, hstop]
      unfold State.stoppedStatus
      rw [setReader_status, hstatus]
      rfl

/-! ### The end of the data (R193) -/

/-- OnEOD in a begun row (R193). -/
theorem onEOD_begun {mode : Bool} (h0 : 0 < s.a0) (hlenient : s.lenientStop mode = false) (hwf : s.dst.wf = true)
    (hroom : s.RoomForRow) :
    ∃ m, m.wf = true ∧ s.Drawn .white s.a0 s.imageWidth m ∧
      s.onEOD mode = .go (s.endedBy .eod ((s.opened m).rowClosed s.paddedLine s.reader)) := by
  obtain ⟨m, hm, hdrawn, hpad⟩ := padRow_eq hwf hroom
  refine ⟨m, hm, hdrawn, ?_⟩
  unfold State.onEOD
  rw [if_neg (by simp [hlenient]), if_pos h0, hpad, Flow.bind_go, Flow.bind_go, stop_nextRow]
  rfl

theorem stop_eq (s : State) (reason : StopCode) : s.stop reason = s.endedBy reason s := by
  unfold State.endedBy
  cases hs : s.running with
  | true => exact stop_run hs reason
  | false => exact stop_idle hs reason

/-- A step at the end of the data is OnEOD behind an empty lookup (R165, R193). -/
theorem step_endOfData (hok : s.reader.Ok s.src) (hd : s.decoding = true) (hcmd : s.commands = [])
    (hend : s.reader.rest s.src = []) :
    step s = (State.onEOD (s.setReader s.fetchFill.reader) (decide (s.context = .mode))).out := by
  have hfetch : s.fetch = .reject .endOfData := by
    rw [fetchReadsTheStream s hok, hend]
    cases s.context <;> rfl
  rw [step_decoding hd hcmd]
  unfold decodeDispatch
  rw [hfetch]
  rfl

/-- Settles O24: OnEOD stops leniently, at a row start, or behind the padded row. -/
theorem endOfData : Obligations.EndOfData := by
  intro s mode o hok h
  have heod : ∃ rd, s.reader.Moved s.src 0 rd ∧ o = ((s.setReader rd).onEOD mode).out := by
    rcases h with ⟨hd, hcmd, hend, rfl, rfl⟩ | ⟨hs, rfl⟩
    · exact ⟨_, moved_fetchFill hok, step_endOfData hok hd hcmd hend⟩
    · exact ⟨s.reader, .rfl' hok, exec_onEOD hs mode⟩
  obtain ⟨rd, hmoved, rfl⟩ := heod
  have hiff := lenient_iff (s.setReader rd) mode
  refine ⟨rd, hmoved, fun hlenient => ?_, fun hnot h0 => ?_, fun hnot h0 hwf hroom => ?_⟩
  · have hgo : (s.setReader rd).onEOD mode = .go ((s.setReader rd).stop .lenient) := if_pos (hiff.mpr hlenient)
    rw [hgo, Flow.out_go, stop_eq]
    rfl
  · have hstrict := Bool.eq_false_iff.mpr fun hlenient => hnot (hiff.mp hlenient)
    rw [onEOD_a0 (u := s.setReader rd) h0 mode hstrict, Flow.out_go, stop_eq]
    rfl
  · have hstrict := Bool.eq_false_iff.mpr fun hlenient => hnot (hiff.mp hlenient)
    obtain ⟨m, hm, hdrawn, hgo⟩ := onEOD_begun (s := s.setReader rd) h0 hstrict hwf hroom
    exact ⟨m, hm, hdrawn, congrArg Flow.out hgo⟩

/-! ### No room for the row (R185, R304) -/

theorem doVertical_full (hroom : ¬ s.RoomForRow) (d : Int) : s.doVertical d = .halt s.raiseDecodeCapacity := by
  unfold State.doVertical
  simp only [s.fill_full _ _ _ hroom, Flow.bind_halt]

theorem doPass_full (hroom : ¬ s.RoomForRow) : s.doPass = .halt s.raiseDecodeCapacity := by
  unfold State.doPass
  simp only [s.fill_full _ _ _ hroom, Flow.bind_halt]

/-- A vertical or pass code runs a rule that halts where the row has no room. -/
theorem exec_drawingMode {r : ModeRow} (hr : r ∈ modeSet) {d : Int} (hres : r.result = .vertical d ∨ r.result = .pass) :
    ∃ rule : State → Flow, (∀ s, exec r.instr s = modeCodeword r.len rule s) ∧
      ∀ s : State, ¬ s.RoomForRow → rule s = .halt s.raiseDecodeCapacity := by
  have hexec := exec_modeRow r hr
  rcases hres with hres | hres
  · simp only [hres] at hexec
    exact ⟨State.doVertical d, hexec, fun _ hroom => doVertical_full hroom d⟩
  · simp only [hres] at hexec
    exact ⟨State.doPass, hexec, fun _ hroom => doPass_full hroom⟩

/-- Settles O25: each rule halts where it would open the row, with what it wrote before. -/
theorem decodeCapacityFault : Obligations.DecodeCapacityFault := by
  intro s hd hok hroom
  have hrun := decoding_running hd
  refine ⟨fun k r hr hbits hzero => ?_, fun r hr d hres hbits => ?_, fun k o heol h => ?_⟩
  · obtain ⟨rd, hmoved, hexec⟩ := exec_terminating_go hr hd hok hbits hzero
    refine ⟨rd, hmoved, ?_⟩
    rw [hexec, terminate_full (s := s.setReader rd) hroom, Flow.out_halt,
      raiseDecodeCapacity_run (s := { s.setReader rd with acc := 0 }) hrun]
    rfl
  · obtain ⟨rule, hexec, hhalt⟩ := exec_drawingMode hr hres
    obtain ⟨rd, hmoved, hgo⟩ := modeCodeword_go hd hok (modeSet_patterns r hr).1 hbits rule
    refine ⟨rd, hmoved, ?_⟩
    rw [hexec s, hgo, hhalt { s with reader := rd } hroom, Flow.out_halt,
      raiseDecodeCapacity_run (s := { s with reader := rd }) hrun]
  · obtain ⟨rd, hmoved, _, rfl⟩ := h.onError hok
    refine ⟨rd, hmoved, ?_⟩
    rw [onError_full (s := s.setReader rd) heol hroom, Flow.out_halt,
      raiseDecodeCapacity_run (s := (s.setReader rd).dropRun.whitened) hrun]
    rfl

end Sys2Proof.Machine
end

section
/-! The reference line (`spec/43_g4_predictor.md` R220, R221, R234): every rule of a decode job keeps `ref` and `cur` the
changing elements of the pixels in DST. -/

namespace Sys2Proof.Machine

/-! ### Changing elements of a line that grows -/

theorem changes_append (k : Colour) (x : Nat) (px px' : List Colour) :
    changes k x (px ++ px') = changes k x px ++ changes (px.getLast?.getD k) (x + px.length) px' := by
  induction px generalizing k x with
  | nil => rfl
  | cons p ps ih =>
    have hlast : (p :: ps).getLast?.getD k = ps.getLast?.getD p := by rw [List.getLast?_cons, Option.getD_some]
    have hlen : x + (p :: ps).length = x + 1 + ps.length := by rw [List.length_cons]; omega
    rw [hlast, hlen, List.cons_append, changes, changes, ih]
    split
    · rfl
    · rfl

theorem changes_replicate (k k' : Colour) (x n : Nat) :
    changes k x (List.replicate n k') = if 0 < n ∧ k ≠ k' then [x] else [] := by
  have hsame : ∀ x n, changes k' x (List.replicate n k') = [] := fun x n => by
    rw [← List.append_nil (List.replicate n k'), changes_replicate_append]
    rfl
  by_cases hk : k = k'
  · subst hk
    rw [hsame, if_neg (by simp)]
  · cases n with
    | zero => rfl
    | succ n => rw [List.replicate_succ, changes, if_neg (Ne.symm hk), hsame, if_pos ⟨Nat.succ_pos n, hk⟩]

/-- What `cur` lists where the pixels `px` of a row of width `w` are placed and the colour is `c` (R234): their changing
elements, and the position after them where the next pixel would be one. -/
def lineUpTo (px : List Colour) (w : Nat) (c : Colour) : List Nat :=
  changes .white 0 px ++ if px.length < w ∧ px.getLast?.getD .white ≠ c then [px.length] else []

theorem lineUpTo_nil (w : Nat) : lineUpTo [] w .white = [] := by simp [lineUpTo, changes]

/-- Behind the last pixel of a row nothing is noted. -/
theorem lineUpTo_full {px : List Colour} {w : Nat} (hfull : px.length = w) (c : Colour) :
    lineUpTo px w c = changes .white 0 px := by
  rw [lineUpTo, if_neg (by omega), List.append_nil]

/-- Pixels placed in the current colour: a change noted before them has become a change of the pixels. -/
theorem lineUpTo_drawn {px : List Colour} {w n : Nat} (c : Colour) (hn : px.length + n ≤ w) :
    lineUpTo (px ++ List.replicate n c) w c = lineUpTo px w c := by
  cases n with
  | zero => rw [List.replicate_zero, List.append_nil]
  | succ n =>
    have hlast : (px ++ List.replicate (n + 1) c).getLast?.getD .white = c := by
      rw [List.replicate_succ', ← List.append_assoc, List.getLast?_concat, Option.getD_some]
    have hin : px.length < w := by omega
    rw [lineUpTo, hlast, if_neg (by simp), List.append_nil, changes_append, changes_replicate, Nat.zero_add, lineUpTo]
    simp [hin]

/-- R187: Record notes the change that a flip of the colour makes, or withdraws the one that it undoes. -/
theorem recordChange_lineUpTo {px : List Colour} {w : Nat} (c : Colour) (hin : px.length < w) :
    recordChange (lineUpTo px w c) px.length = lineUpTo px w (oppositeColour c) := by
  by_cases hlast : px.getLast?.getD .white = c
  · have hne : c ≠ oppositeColour c := by cases c <;> decide
    have hnew : (changes .white 0 px).getLast? ≠ some px.length := fun hmem => by
      have hlt := ((changes_lineOk .white 0 px).2 _ (List.mem_of_getLast? hmem)).2
      omega
    simp [lineUpTo, recordChange, hlast, hne, hin, hnew]
  · have hopp : px.getLast?.getD .white = oppositeColour c := eq_opposite_of_ne hlast
    have hne : oppositeColour c ≠ c := by cases c <;> decide
    simp [lineUpTo, recordChange, hopp, hne, hin]

/-! ### The pixels of DST after a drawing (R64, R185, R186) -/

variable {s t : State} {k : Colour} {m : Memory} {x0 x1 e : Nat}

theorem length_rowPixels (s : State) (m : Memory) (r n : Nat) : (s.rowPixels m r n).length = n := by
  simp [State.rowPixels]

theorem rowPixels_add (s : State) (m : Memory) (r a n : Nat) :
    s.rowPixels m r (a + n) =
      s.rowPixels m r a ++ (List.range n).map fun i => s.colourOf (m.pixel (r * s.stride) (a + i)) := by
  simp [State.rowPixels, List.range_add]

/-- A pixel of the row that is drawn: the colour, or what stood there, white where the row was not open. -/
theorem State.Drawn.pixel (h : s.Drawn k x0 x1 m) {x : Nat} (hx : x < s.imageWidth) :
    m.pixel s.rowBase x = if x0 ≤ x ∧ x < x1 then s.bit k
      else if s.rowOpen then s.dst.pixel s.rowBase x else s.bit .white := by
  have hin : s.rowBase ≤ s.rowBase + x / 8 ∧ s.rowBase + x / 8 < s.rowBase + s.stride := by
    unfold State.stride
    omega
  have hpos : 8 * (s.rowBase + x / 8 - s.rowBase) + (7 - (7 - x % 8)) = x := by omega
  unfold Memory.pixel pixelByte pixelBit
  rw [h _ _ (by omega), State.drawnBit, if_pos hin, hpos]

/-- The rows above keep their pixels. -/
theorem State.Drawn.pixel_above (h : s.Drawn k x0 x1 m) {r x : Nat} (hr : r < s.rows) (hx : x < s.imageWidth) :
    m.pixel (r * s.stride) x = s.dst.pixel (r * s.stride) x := by
  have hrow : r * s.stride + s.stride ≤ s.rowBase := by
    rw [← Nat.succ_mul]
    exact Nat.mul_le_mul_right _ hr
  have hbyte : x / 8 < s.stride := by
    unfold State.stride
    omega
  unfold Memory.pixel pixelByte pixelBit
  rw [h _ _ (by omega), State.drawnBit, if_neg (by omega)]

theorem State.Drawn.rowPixels_above (h : s.Drawn k x0 x1 m) {r : Nat} (hr : r < s.rows) :
    s.rowPixels m r s.imageWidth = s.rowPixels s.dst r s.imageWidth :=
  List.map_congr_left fun _ hx => congrArg s.colourOf (h.pixel_above hr (List.mem_range.mp hx))

/-- The drawing continues the row's pixels from `a0` on. -/
theorem State.Drawn.rowPixels (h : s.Drawn k s.a0 e m) (hopen : 0 < s.a0 → s.rowOpen = true) (he : s.a0 ≤ e)
    (hfit : e ≤ s.imageWidth) :
    s.rowPixels m s.rows e = s.rowPixels s.dst s.rows s.a0 ++ List.replicate (e - s.a0) k := by
  obtain ⟨n, rfl⟩ := Nat.exists_eq_add_of_le he
  rw [rowPixels_add, Nat.add_sub_cancel_left]
  congr 1
  · refine List.map_congr_left fun x hx => congrArg s.colourOf ?_
    have hlt := List.mem_range.mp hx
    exact (h.pixel (by omega)).trans (by rw [if_neg (by omega), if_pos (hopen (by omega))]; rfl)
  · rw [List.eq_replicate_iff]
    refine ⟨by simp, fun b hb => ?_⟩
    obtain ⟨i, hi, rfl⟩ := List.mem_map.mp hb
    have hlt := List.mem_range.mp hi
    exact (s.colourOf_eq_iff _ _).mpr ((h.pixel (by omega)).trans (if_pos (by omega)))

/-! ### What the lines depend on -/

theorem lineSound_iff (s : State) : s.LineSound ↔
    s.ref = (if s.rows = 0 then [] else changes .white 0 (s.rowPixels s.dst (s.rows - 1) s.imageWidth)) ∧
      s.cur = lineUpTo (s.rowPixels s.dst s.rows s.a0) s.imageWidth s.c := by
  rw [lineUpTo, length_rowPixels]
  rfl

/-- The lines describe the pixels, in a state where the row can be drawn on (R28, R29, R234). -/
structure State.Traced (s : State) : Prop where
  sound : s.LineSound
  dst_wf : s.dst.wf = true
  a0_le : s.a0 ≤ s.imageWidth
  row_open : 0 < s.a0 → s.rowOpen = true

/-- The registers that the lines and the pixels are made of. -/
def State.page (s : State) : Cfg × Memory × Nat × Bool × Nat × Colour × List Nat × List Nat :=
  (s.cfg, s.dst, s.rows, s.rowOpen, s.a0, s.c, s.cur, s.ref)

theorem State.Traced.congr (h : s.Traced) (hpage : t.page = s.page) : t.Traced := by
  obtain ⟨hsound, hwf, hle, hopen⟩ := h
  simp only [State.page, Prod.mk.injEq] at hpage
  obtain ⟨hcfg, hdst, hrows, hrowOpen, ha0, hc, hcur, href⟩ := hpage
  have hwidth : t.imageWidth = s.imageWidth := congrArg (fun g : Cfg => g.width.toNat) hcfg
  have hstride : t.stride = s.stride := congrArg (fun w => (w + 7) / 8) hwidth
  have hcolour : t.colourOf = s.colourOf :=
    congrArg (fun (g : Cfg) b => if b = g.flags.getLsbD 2 then Colour.black else Colour.white) hcfg
  have hpixels : t.rowPixels = s.rowPixels := by
    funext m r n
    simp only [State.rowPixels, hstride, hcolour]
  refine ⟨?_, by rwa [hdst], by rwa [ha0, hwidth], by rwa [ha0, hrowOpen]⟩
  rw [lineSound_iff] at hsound ⊢
  rwa [hpixels, hwidth, hdst, hrows, ha0, hc, hcur, href]

theorem State.Traced.setReader (h : s.Traced) (r : Reader) : (s.setReader r).Traced := h.congr rfl

theorem State.Traced.fillTo (h : s.Traced) (n : Nat) : (s.fillTo n).Traced := h.setReader _

theorem State.Traced.clear (h : s.Traced) (n : Nat) : (s.clear n).Traced := h.setReader _

/-! ### The row operations (R185 to R192) -/

/-- A fill from `a0` on in the current colour: the row's pixels go on to its end. -/
theorem State.Traced.drawn (h : s.Traced) (hdrawn : s.Drawn s.c s.a0 e m) (hm : m.wf = true) (he : s.a0 ≤ e)
    (hfit : e ≤ s.imageWidth) : ((s.opened m).moveTo e).Traced := by
  obtain ⟨href, hcur⟩ := (lineSound_iff s).mp h.sound
  refine ⟨(lineSound_iff _).mpr ⟨?_, ?_⟩, hm, hfit, fun _ => rfl⟩
  · show s.ref = if s.rows = 0 then [] else changes .white 0 (s.rowPixels m (s.rows - 1) s.imageWidth)
    rw [href]
    split
    · rfl
    · rw [hdrawn.rowPixels_above (by omega)]
  · show s.cur = lineUpTo (s.rowPixels m s.rows e) s.imageWidth s.c
    rw [hcur, hdrawn.rowPixels h.row_open he hfit, lineUpTo_drawn s.c (by rw [length_rowPixels]; omega)]

theorem State.Traced.raiseDecodeCapacity (h : s.Traced) : s.raiseDecodeCapacity.Traced := by
  unfold State.raiseDecodeCapacity State.raise
  split
  · exact h.congr rfl
  · exact h.congr rfl

/-- What follows a fill goes on from the drawn row; a CapacityFault draws nothing. -/
theorem State.Traced.fill_bind {f : State → Flow} (h : s.Traced) (he : s.a0 ≤ e) (hfit : e ≤ s.imageWidth)
    (hf : ∀ m, ((s.opened m).moveTo e).Traced → (f (s.opened m)).state.Traced) :
    ((s.fill s.c s.a0 e).bind f).state.Traced := by
  by_cases hroom : s.RoomForRow
  · obtain ⟨m, hm, hdrawn, hfill⟩ := drawn_wf_opened (k := s.c) (x0 := s.a0) h.dst_wf hfit hroom
    rw [hfill]
    exact hf m (h.drawn hdrawn hm he hfit)
  · rw [s.fill_full _ _ _ hroom]
    exact h.raiseDecodeCapacity

theorem State.Traced.bind {w : Flow} {f : State → Flow} (h : w.state.Traced)
    (hf : ∀ t : State, t.Traced → (f t).state.Traced) : (w.bind f).state.Traced := by
  cases w with
  | go t => exact hf t h
  | halt t => exact h

/-- The colour flips at `a0` and Record notes it (R187, R188, R226). -/
theorem State.Traced.flip (h : s.Traced) : (s.record s.a0).flipColour.Traced := by
  obtain ⟨href, hcur⟩ := (lineSound_iff s).mp h.sound
  rw [State.record_eq]
  refine ⟨(lineSound_iff _).mpr ⟨href, ?_⟩, h.dst_wf, h.a0_le, h.row_open⟩
  show (if s.imageWidth ≤ s.a0 then s.cur else recordChange s.cur s.a0) =
    lineUpTo (s.rowPixels s.dst s.rows s.a0) s.imageWidth (oppositeColour s.c)
  have hlen := length_rowPixels s s.dst s.rows s.a0
  have hle := h.a0_le
  split
  · have hfull : (s.rowPixels s.dst s.rows s.a0).length = s.imageWidth := by omega
    rw [hcur, lineUpTo_full hfull, lineUpTo_full hfull]
  · have hnoted := recordChange_lineUpTo s.c (px := s.rowPixels s.dst s.rows s.a0) (w := s.imageWidth) (by omega)
    rwa [hlen, ← hcur] at hnoted

theorem State.Traced.fillRun (h : s.Traced) (n : Nat) : (s.fillRun n).state.Traced :=
  h.fill_bind (Nat.le_min.mpr ⟨Nat.le_add_right _ _, h.a0_le⟩) (Nat.min_le_right _ _) fun _ hdrawn => hdrawn.flip

theorem State.Traced.whitened (h : s.Traced) : s.whitened.Traced := by
  rw [← whitened_eq]
  split
  · rename_i hc
    refine h.flip.congr ?_
    unfold State.flipColour
    rw [State.record_eq, hc]
    rfl
  · exact h

theorem State.Traced.padRow_bind {f : State → Flow} (h : s.Traced)
    (hf : ∀ t : State, t.Traced → t.a0 = t.imageWidth → (f t).state.Traced) : (s.padRow.bind f).state.Traced := by
  unfold State.padRow
  simp only [whitened_eq]
  rw [Flow.bind_assoc]
  exact h.whitened.fill_bind h.a0_le le_rfl fun m hdrawn => hf _ hdrawn rfl

theorem State.Traced.stop (h : s.Traced) (reason : StopCode) : (s.stop reason).Traced := by
  unfold State.stop
  split
  · exact h.congr rfl
  · exact h.congr rfl

/-- A full row becomes the row before: its line is the reference line of the next (R189, R220). -/
theorem State.Traced.nextRow (h : s.Traced) (hfull : s.a0 = s.imageWidth) : s.nextRow.Traced := by
  obtain ⟨_, hcur⟩ := (lineSound_iff s).mp h.sound
  rw [hfull, lineUpTo_full (length_rowPixels ..)] at hcur
  exact ⟨(lineSound_iff _).mpr ⟨hcur, (lineUpTo_nil _).symm⟩, h.dst_wf, Nat.zero_le _,
    fun hpos => absurd hpos (Nat.lt_irrefl 0)⟩

theorem State.Traced.closeRow (h : s.Traced) (hfull : s.a0 = s.imageWidth) (align : Bool) :
    (s.closeRow align).Traced := by
  have hlast : ∀ {t : State}, t.Traced →
      (if t.imageHeight ≠ 0 ∧ t.rows = t.imageHeight then t.stop .height else t).Traced := by
    intro t ht
    split
    · exact ht.stop .height
    · exact ht
  refine hlast ?_
  split
  · exact (h.nextRow hfull).congr rfl
  · exact h.nextRow hfull

theorem State.Traced.closeIfFull (h : s.Traced) : s.closeIfFull.Traced := by
  unfold State.closeIfFull
  split
  · rename_i hfull
    exact h.closeRow (le_antisymm h.a0_le hfull) true
  · exact h

/-! ### Row events (R190 to R193) -/

theorem State.Traced.onEOD (h : s.Traced) (fromMode : Bool) : (s.onEOD fromMode).state.Traced := by
  unfold State.onEOD
  split
  · exact h.stop .lenient
  · refine State.Traced.bind ?_ fun t ht => ht.stop .eod
    split
    · exact h.padRow_bind fun t ht hfull => ht.nextRow hfull
    · exact h

theorem State.Traced.endOfBlock (h : s.Traced) : s.endOfBlock.Traced := by
  unfold State.endOfBlock
  split
  · simp only
    split
    · exact ((h.fillTo 12).clear 12).stop .eob
    · exact h.fillTo 12
  · exact h

theorem State.Traced.takeTag (h : s.Traced) (tag : Bool) : (s.takeTag tag).Traced := h.congr rfl

theorem State.Traced.afterEOL (h : s.Traced) : s.afterEOL.state.Traced := by
  unfold State.afterEOL
  split
  · simp only
    split
    · exact (h.fillTo 1).onEOD false
    · exact ((h.fillTo 1).takeTag _).endOfBlock
  · exact h.endOfBlock

/-- A row without pixels begins again white, with no changing element (R190, R220). -/
theorem State.Traced.restart (h : s.Traced) (h0 : s.a0 = 0) :
    State.Traced { s with c := .white, cur := [], atStart := true } := by
  obtain ⟨href, _⟩ := (lineSound_iff s).mp h.sound
  refine ⟨(lineSound_iff _).mpr ⟨href, ?_⟩, h.dst_wf, h.a0_le, h.row_open⟩
  show [] = lineUpTo (s.rowPixels s.dst s.rows s.a0) s.imageWidth .white
  rw [h0]
  exact (lineUpTo_nil _).symm

theorem State.Traced.settleRow (h : s.Traced) : s.settleRow.state.Traced := by
  unfold State.settleRow
  split
  · exact h.padRow_bind fun t ht hfull => ht.closeRow hfull false
  · exact h.restart (by omega)

/-- What a job in RUN goes on with after its row is closed. -/
theorem State.Traced.ifRunning {f : State → Flow} (h : s.Traced) (hf : (f s).state.Traced) :
    (if s.running then f s else .go s).state.Traced := by
  split
  · exact hf
  · exact h

theorem State.Traced.onEOL (h : s.Traced) : s.onEOL.state.Traced :=
  State.Traced.bind (State.Traced.settleRow (h.congr rfl)) fun _ ht => ht.ifRunning ht.afterEOL

theorem State.Traced.scanForEOL (fuel : Nat) (h : s.Traced) : (State.scanForEOL fuel s).state.Traced := by
  induction fuel generalizing s with
  | zero => exact h
  | succ fuel ih =>
    have hfill := h.fillTo 12
    unfold State.scanForEOL
    simp only
    split
    · exact (hfill.setReader _).onEOD false
    · split
      · exact hfill
      · exact ih (hfill.clear _)

theorem State.Traced.skipBit (h : s.Traced) : s.skipBit.Traced := by
  unfold State.skipBit
  simp only
  split
  · exact (h.fillTo 1).clear 1
  · exact h.fillTo 1

theorem State.Traced.onError (h : s.Traced) : s.onError.state.Traced := by
  unfold State.onError
  split
  · refine State.Traced.bind ?_ fun t ht => ht.ifRunning (ht.scanForEOL _)
    exact State.Traced.padRow_bind (h.congr rfl) fun t ht hfull => ht.closeRow hfull true
  · exact State.Traced.skipBit (h.congr rfl)

/-! ### The rules of the codewords (R181 to R184, R223 to R229) -/

theorem State.Traced.payRun (h : s.Traced) : s.payRun.Traced := by
  by_cases hpaid : s.hphase - 1 = 0
  · rw [payRun_paid hpaid]
    exact State.Traced.closeIfFull (h.congr rfl)
  · rw [payRun_owed hpaid]
    exact h.congr rfl

theorem State.Traced.terminate (h : s.Traced) (v : Nat) : (s.terminate v).state.Traced :=
  State.Traced.bind (State.Traced.fillRun (s := { s with acc := 0 }) (h.congr rfl) _) fun _ ht => ht.payRun

theorem State.Traced.terminatingRule (h : s.Traced) (v : Nat) : (s.terminatingRule v).state.Traced := by
  unfold State.terminatingRule
  split
  · exact h.onError
  · exact h.terminate v

theorem State.Traced.makeupRule (h : s.Traced) (v : Nat) : (s.makeupRule v).state.Traced := by
  unfold State.makeupRule
  split
  · exact h.onError
  · exact h.congr rfl

theorem State.Traced.doPass (h : s.Traced) (hb : s.a0 ≤ s.findB.2) : s.doPass.state.Traced :=
  h.fill_bind (Nat.le_min.mpr ⟨hb, h.a0_le⟩) (Nat.min_le_right _ _) fun _ hdrawn =>
    State.Traced.closeIfFull (hdrawn.congr rfl)

theorem State.Traced.doVertical (h : s.Traced) (d : Int) : (s.doVertical d).state.Traced := by
  obtain ⟨hge, hle⟩ := s.verticalTarget_bounds d h.a0_le
  exact h.fill_bind hge hle fun _ hdrawn => hdrawn.flip.closeIfFull

theorem State.Traced.doExt1D (h : s.Traced) : s.doExt1D.state.Traced := by
  have hfill := h.fillTo 12
  unfold State.doExt1D
  simp only
  split
  · exact hfill.clear 1
  · split
    · exact (hfill.clear 12).onEOL
    · exact hfill.onError

/-! ### The decode step -/

theorem State.Traced.runStep (h : s.Traced) (hok : s.reader.Ok s.src) : s.runStep.state.Traced := by
  obtain ⟨rd, _, hlookup⟩ := runLookup_eq hok s.c
  have hread := h.setReader rd
  unfold State.runStep
  rw [hlookup]
  cases (runAhead s.c (s.reader.rest s.src)).1 with
  | run v =>
    simp only
    split
    · exact hread.makeupRule v
    · exact hread.terminatingRule v
  | eol => exact hread.onEOL
  | zero => exact hread.congr rfl
  | error => exact hread.onError
  | eod => exact hread.onEOD false

theorem State.Traced.modeStep (h : s.Traced) (hok : s.DecodeOk) : s.modeStep.state.Traced := by
  obtain ⟨rd, hmoved, hlookup⟩ := modeLookup_eq hok.reader_ok
  have hread := h.setReader rd
  unfold State.modeStep
  rw [hlookup]
  cases (modeAhead (s.reader.rest s.src)).1 with
  | pass =>
    obtain ⟨hb1, hb2, _⟩ := (hok.with_reader hmoved.ok).findB_ge
    exact hread.doPass (hb1.trans hb2)
  | horizontal => exact hread.congr rfl
  | vertical d => exact hread.doVertical d
  | ext2d => exact hread.onError
  | ext1d => exact hread.doExt1D
  | error => exact hread.onError
  | eod => exact hread.onEOD true

theorem State.Traced.decodeStep (h : s.Traced) (hok : s.DecodeOk) : s.decodeStep.state.Traced := by
  unfold State.decodeStep
  split
  · exact h.runStep hok.reader_ok
  · exact h.modeStep hok

/-- The first row of a decode job has no row before it and no pixel yet (R221, R283). -/
theorem jobInit_lineSound (hdec : s.cfg.job.isDecode = true) : s.jobInit.LineSound := by
  unfold State.jobInit
  rw [if_pos hdec]
  exact (lineSound_iff _).mpr ⟨rfl, (lineUpTo_nil _).symm⟩

theorem startJob_lineSound (hs : s.running = false) (hdec : s.cfg.job.isDecode = true)
    (hrun : s.startJob.running = true) : s.startJob.LineSound := by
  unfold State.startJob at hrun ⊢
  rw [if_neg (by simp [hs])] at hrun ⊢
  simp only at hrun ⊢
  split at hrun
  · cases hrun
  · rename_i hcfg
    split at hrun
    · cases hrun
    · rename_i hsize
      rw [if_neg hcfg, if_neg hsize]
      exact jobInit_lineSound (s := s.setStatus (clearedStatus s.status.state)) hdec

/-- Settles O60: the step is `DecodeStep`, whose every rule keeps the lines true to the pixels; START begins with
none. -/
theorem linesDescribeThePixels : Obligations.LinesDescribeThePixels := by
  refine ⟨fun s t hd hcmd hok hwf hsound hstep _ => ?_, fun s t hs hdec hstart hrun => ?_⟩
  · have htraced : s.Traced := ⟨hsound, hwf, hok.a0_le, hok.row_open⟩
    rw [step_decodeStep hd hcmd] at hstep
    cases hstep
    exact (htraced.decodeStep hok).sound
  · cases hstart
    exact startJob_lineSound hs hdec hrun

end Sys2Proof.Machine
end

section
/-! The mode codes that draw and the codewords that only steer (`spec/43_g4_predictor.md` R224 to R229), and the search of
FindB (R222). -/

namespace Sys2Proof.Machine

variable {s : State}

/-! ### Vertical codes (R226) -/

/-- `s` after a vertical code drew to `e`, DST being `m`, before the row test (R226). -/
def State.turnedAt (s : State) (e : Nat) (m : Memory) : State :=
  { s.opened m with
    a0 := e
    cur := if s.imageWidth ≤ e then s.cur else recordChange s.cur e
    c := oppositeColour s.c
    atStart := false }

theorem doVertical_eq (hwf : s.dst.wf = true) (hroom : s.RoomForRow) (d : Int) :
    ∃ m, m.wf = true ∧ s.Drawn s.c s.a0 (s.verticalTarget d) m ∧
      s.doVertical d = .go (s.turnedAt (s.verticalTarget d) m).closeIfFull := by
  obtain ⟨m, hm, hdrawn, hfill⟩ :=
    drawn_wf_opened (k := s.c) (x0 := s.a0) (x1 := s.verticalTarget d) hwf (Nat.min_le_right _ _) hroom
  refine ⟨m, hm, hdrawn, ?_⟩
  unfold State.doVertical
  simp only [hfill, Flow.bind_go]
  rw [State.record_eq]
  rfl

/-- Settles O18: the row goes on at `a1` below W, and is closed where `a1` is W. -/
theorem verticalCodes : Obligations.VerticalCodes := by
  intro r d s hr hres hd hok hbits hwf hroom
  simp only [verticalTarget_eq]
  have hexec := exec_modeRow r hr s
  simp only [hres] at hexec
  obtain ⟨rd, hmoved, hgo⟩ := modeCodeword_go hd hok (modeSet_patterns r hr).1 hbits (State.doVertical d)
  obtain ⟨m, hm, hdrawn, hrule⟩ := doVertical_eq (s := s.setReader rd) hwf hroom d
  have hstep : exec r.instr s = .next ((s.setReader rd).turnedAt (s.verticalTarget d) m).closeIfFull :=
    (hexec.trans hgo).trans (congrArg Flow.out hrule)
  refine ⟨m, hm, hdrawn, fun hin => ⟨rd, hmoved, ?_⟩, fun hfull => ?_⟩
  · have hcur : ((s.setReader rd).turnedAt (s.verticalTarget d) m).cur = recordChange s.cur (s.verticalTarget d) :=
      if_neg (Nat.not_le.mpr hin)
    rw [hstep, closeIfFull_lt hin, ← hcur]
    rfl
  · obtain ⟨rd', hmoved', hclose⟩ :=
      closeRow_true_after (u := (s.setReader rd).turnedAt (s.verticalTarget d) m) hmoved rfl rfl rfl
    have hcur : ((s.setReader rd).turnedAt (s.verticalTarget d) m).cur = s.cur := if_pos hfull
    refine ⟨rd', hmoved', ?_⟩
    rw [hstep, closeIfFull_ge hfull, hclose, hcur]
    rfl

/-! ### The pass code (R224) -/

/-- `s` after a pass drew to `e`, DST being `m`, before the row test (R224). -/
def State.passedTo (s : State) (e : Nat) (m : Memory) : State := { s.opened m with a0 := e, atStart := false }

theorem doPass_eq (hwf : s.dst.wf = true) (hroom : s.RoomForRow) :
    ∃ m, m.wf = true ∧ s.Drawn s.c s.a0 (min s.findB.2 s.imageWidth) m ∧
      s.doPass = .go (s.passedTo (min s.findB.2 s.imageWidth) m).closeIfFull := by
  obtain ⟨m, hm, hdrawn, hfill⟩ :=
    drawn_wf_opened (k := s.c) (x0 := s.a0) (x1 := min s.findB.2 s.imageWidth) hwf (Nat.min_le_right _ _) hroom
  refine ⟨m, hm, hdrawn, ?_⟩
  unfold State.doPass
  simp only [hfill, Flow.bind_go]
  rfl

/-- Settles O19: the row goes on at `b2` below W, and is closed from W on. -/
theorem passCode : Obligations.PassCode := by
  intro s hd hok hbits hwf hroom
  obtain ⟨rd, hmoved, hgo⟩ := modeCodeword_go hd hok (by omega) hbits State.doPass
  obtain ⟨m, hm, hdrawn, hrule⟩ := doPass_eq (s := s.setReader rd) hwf hroom
  have hstep : exec .p s = .next ((s.setReader rd).passedTo (min s.findB.2 s.imageWidth) m).closeIfFull :=
    hgo.trans (congrArg Flow.out hrule)
  refine ⟨m, hm, hdrawn, fun hin => ⟨rd, hmoved, ?_⟩, fun hfull => ?_⟩
  · rw [Nat.min_eq_left hin.le] at hstep
    rw [hstep, closeIfFull_lt hin]
    rfl
  · rw [Nat.min_eq_right hfull] at hstep
    obtain ⟨rd', hmoved', hclose⟩ :=
      closeRow_true_after (u := (s.setReader rd).passedTo s.imageWidth m) hmoved rfl rfl rfl
    refine ⟨rd', hmoved', ?_⟩
    rw [hstep, closeIfFull_ge (t := (s.setReader rd).passedTo s.imageWidth m) le_rfl, hclose]
    rfl

/-! ### Codewords that only steer (R225, R184, R229, R105) -/

/-- EXT1D before twelve zeros: its probe finds fill, of which one bit is consumed (R229). -/
theorem exec_ext1d_fill (hd : s.decoding = true) (hok : s.reader.Ok s.src)
    (hfill : fillAhead (s.reader.rest s.src) = true) :
    ∃ rd, s.reader.Moved s.src 1 rd ∧ exec .ext1d s = .next (s.setReader rd) := by
  obtain ⟨rd, hmoved, hgo⟩ := modeCodeword_go hd hok (len := 0) (by omega) (by omega) State.doExt1D
  have hrest : rd.rest s.src = s.reader.rest s.src := hmoved.rest
  rw [← hrest, fillAhead, ← bitsOf_zero] at hfill
  have hprobe := (window_iff (s := s.setReader rd) hmoved.ok (n := 12) (by omega) 0 (by omega)).mpr hfill
  have hlen := prefix_length hfill
  rw [length_bitsOf, Reader.length_rest] at hlen
  obtain ⟨_, rd', hmoved', htake⟩ :=
    codeword_refill (s := s.setReader rd) hmoved.ok (n := 12) (len := 1) (by omega) (by omega)
      (show 1 ≤ 8 * rd.len - rd.position by omega)
  have hext : (s.setReader rd).doExt1D = .go (((s.setReader rd).fillTo 12).clear 1) := if_pos hprobe
  rw [htake] at hext
  exact ⟨rd', (Nat.zero_add 1) ▸ hmoved.trans hmoved', hgo.trans (congrArg Flow.out hext)⟩

/-- A tag bit that is there is consumed, and says how the next line is coded (R105). -/
theorem tagBit_go (hd : s.decoding = true) (hok : s.reader.Ok s.src) (hbits : 1 ≤ 8 * s.reader.len - s.reader.position) :
    ∃ rd, s.reader.Moved s.src 1 rd ∧
      ∀ tag, tagBit tag s = .next { s with reader := rd, lineMode := lineModeOfTag tag } := by
  obtain ⟨hcnt, rd, hmoved, htake⟩ := codeword_refill hok (n := 1) (len := 1) (by omega) le_rfl hbits
  refine ⟨rd, hmoved, fun tag => ?_⟩
  unfold tagBit State.takeTag
  rw [if_pos hd, if_neg (by omega), htake]

/-- Settles O20: H, FILL, EXT1D before fill, and the tag bits. -/
theorem steeringCodes : Obligations.SteeringCodes := by
  intro s hd hok
  refine ⟨fun hbits => ?_, fun hbits => ?_, exec_ext1d_fill hd hok, fun hbits => ?_⟩
  · exact modeCodeword_go hd hok (by omega) hbits State.doHorizontal
  · exact runCodeword_go hd hok (by omega) hbits State.zeroRule
  · obtain ⟨rd, hmoved, htag⟩ := tagBit_go hd hok hbits
    exact ⟨rd, hmoved, htag true, htag false⟩

/-! ### FindB (R222) -/

theorem exec_findB (hs : s.running = false) :
    exec .findB s = .next { s with result := .positions s.findB.1 s.findB.2 } :=
  show execFindB s = _ from unitOperation_go hs _

/-- The entries of the wanted parity are those of even index from the colour's number on. -/
theorem getElem?_drop_colour (l : List Nat) (k : Colour) (j : Nat) :
    (l.drop (colourNumber k))[j]? = l[j + colourNumber k]? := by
  rw [List.getElem?_drop, Nat.add_comm]

/-- Settles O32: the search stops at the first entry of the parity right of `a0`, or runs out of entries. -/
theorem findBSearchesRef : Obligations.FindBSearchesRef := by
  intro s hs
  refine ⟨s.findB.1, s.findB.2, exec_findB hs, ?_⟩
  have hspec := findChange_spec s.atStart s.a0 s.imageWidth (s.ref.drop (colourNumber s.c))
  simp only [getElem?_drop_colour] at hspec
  rcases hspec with ⟨j, b1, hb1, hright, hfirst, hfound⟩ | ⟨hnone, hfound⟩
  · have hb : s.findB = (b1, s.ref[2 * j + 1 + colourNumber s.c]?.getD s.imageWidth) := hfound
    rw [hb]
    exact .inl ⟨j, hb1, hright, hfirst, by rw [Nat.add_right_comm]⟩
  · have hb : s.findB = (s.imageWidth, s.imageWidth) := hfound
    rw [hb]
    exact .inr ⟨hnone, rfl, rfl⟩

end Sys2Proof.Machine
end

section
/-! The raster unit of the encoder (`spec/44_encoder.md` R254, R257, R258): CountPixels, SelectMode and EncodeStepG4. -/

namespace Sys2Proof.Machine

variable {s : State}

/-! ### Counting pixels (R254) -/

/-- A run of equal bits is a run of equal pixels (R65). -/
theorem runLength_bit (s : State) (k : Colour) (l : List Bool) :
    runLength (s.bit k) l = (l.takeWhile fun b => decide (s.colourOf b = k)).length := by
  have hpixel : (fun b => decide (s.colourOf b = k)) = (· == s.bit k) :=
    funext fun b => by rw [Bool.eq_iff_iff, decide_eq_true_iff, s.colourOf_eq_iff b k, beq_iff_eq]
  rw [hpixel, runLength]

theorem exec_countPixels (hs : s.running = false) (k : Colour) (max : Nat) :
    exec (.countPixels k max) s = .next ((s.countPixels k max).2.setResult (.count (s.countPixels k max).1)) :=
  show execCountPixels k max s = _ from unitOperation_go hs _

/-- Settles O33: the counted state differs from `s` in the reader alone. -/
theorem countPixelsCounts : Obligations.CountPixelsCounts := by
  intro s k max hs hok
  obtain ⟨hcount, hcounted⟩ := s.countPixels_spec k max hok
  rw [runLength_bit] at hcount hcounted
  refine ⟨_, hcounted.moved, ?_⟩
  rw [exec_countPixels hs, hcount, hcounted.same]
  rfl

/-! ### Selecting a mode (R257) -/

theorem selectMode_pass {a1 b1 b2 : Nat} (h : b2 < a1) : selectMode a1 b1 b2 = .pass := if_pos h

theorem selectMode_vertical {a1 b1 b2 : Nat} (hb2 : a1 ≤ b2) (hnear : ((a1 : Int) - b1).natAbs ≤ 3) :
    selectMode a1 b1 b2 = .vertical ((a1 : Int) - b1) := by
  rw [selectMode, if_neg (by omega), if_pos (by omega)]

theorem selectMode_horizontal {a1 b1 b2 : Nat} (hb2 : a1 ≤ b2) (hfar : 3 < ((a1 : Int) - b1).natAbs) :
    selectMode a1 b1 b2 = .horizontal := by
  rw [selectMode, if_neg (by omega), if_neg (by omega)]

/-- Settles O34: positions within the row are in the contract, and the three tests exclude one another. -/
theorem selectModeDecides : Obligations.SelectModeDecides := by
  intro s a1 b1 b2 hs ha1 hb1 hb2
  have hexec : exec (.selectMode a1 b1 b2) s = .next { s with result := .selected (selectMode a1 b1 b2) } := by
    rw [exec_selectMode hs, if_neg (by omega)]
  refine ⟨fun hpass => ?_, fun hin hnear => ?_, fun hin hfar => ?_⟩
  · rw [hexec, selectMode_pass hpass]
  · rw [hexec, selectMode_vertical hin hnear]
  · rw [hexec, selectMode_horizontal hin hfar]

/-! ### One mode selection (R258) -/

theorem exec_encodeStepG4 (hs : s.running = true) (hjob : s.cfg.job = .encodeG4) (ha0 : s.a0 < s.imageWidth) :
    exec .encodeStepG4 s = s.encodeStepG4.out := by
  show execEncodeStepG4 s = _
  rw [execEncodeStepG4, stepOperation_running hs, decide_eq_true hjob, decide_eq_true ha0]
  rfl

/-- Settles O35: the two outcomes of the mode selection. -/
theorem encodeStepG4Emits : Obligations.EncodeStepG4Emits := by
  intro s hs hjob ha0 hw hd
  rw [exec_encodeStepG4 hs hjob ha0]
  rcases s.encodeStepG4_cases hw hd with ⟨hroom, t, hwrote, hstep⟩ | ⟨hroom, t, hstep, hover⟩
  · exact ⟨fun _ => ⟨t, hwrote, by rw [hstep, Flow.out_go]⟩, fun hfull => absurd hroom hfull⟩
  · exact ⟨fun hfits => absurd hfits hroom, fun _ => ⟨t, by rw [hstep, Flow.out_halt], hover⟩⟩

end Sys2Proof.Machine
end

section
/-! The end of a row in an encode job (`spec/44_encoder.md` R251, R262 to R266): the row alignment, and after the last row
the trailer, the zero bits of `finish` and STATUS. -/

namespace Sys2Proof.Machine

variable {s t : State} {b b' : List Bool} {w : Flow}

/-! ### Emissions (R144) -/

/-- The flow puts `b` after what `s` has written and goes on, or has met the writer's CapacityFault. -/
def State.Emits (s : State) (b : List Bool) (w : Flow) : Prop :=
  (s.RoomForBits b.length ∧ ∃ t, w = .go t ∧ s.Wrote b t) ∨ (¬ s.RoomForBits b.length ∧ ∃ t, w = .halt t ∧ s.Overflowed b t)

theorem State.Emits.bind {f : State → Flow} (h : s.Emits b w) (hw : s.writer.Ok)
    (hf : ∀ t, s.Wrote b t → t.Emits b' (f t)) : s.Emits (b ++ b') (w.bind f) :=
  State.emit_bind hw h hf

theorem State.Emits.nothing (hw : s.writer.Ok) (hd : s.dst.wf = true) : s.Emits [] (.go s) :=
  .inl ⟨.inl hw.1, s, rfl, .refl hw hd⟩

theorem room_of_append (h : s.RoomForBits (b ++ b').length) : s.RoomForBits b.length := by
  simp only [State.RoomForBits, List.length_append] at h ⊢
  omega

/-- `s` with other output: what an emission leaves. -/
def State.withOutput (s : State) (m : Memory) (x : Writer) : State := { s with dst := m, writer := x }

theorem State.Wrote.output (h : s.Wrote b t) : ∃ m x, t = s.withOutput m x := ⟨_, _, h.same⟩

/-- Registers other than the output may differ from those of the state that emitted. -/
theorem State.Wrote.rebase {m : Memory} {x : Writer} (h : s.Wrote b (s.withOutput m x)) {r : State} (hdst : r.dst = s.dst)
    (hwriter : r.writer = s.writer) : r.Wrote b (r.withOutput m x) where
  same := rfl
  written := by
    have hbits := h.written
    unfold State.written at hbits ⊢
    rw [hdst, hwriter]
    exact hbits
  position := by rw [hwriter]; exact h.position
  outside := by rw [hdst, hwriter]; exact h.outside
  writer_ok := h.writer_ok
  dst_wf := h.dst_wf

/-- A CapacityFault writes nothing but the output, STATUS and `result`. -/
theorem State.Overflowed.keeps {α : Type} (h : s.Overflowed b t) (f : State → α)
    (hf : ∀ m x status result, f { s with dst := m, writer := x, status := status, result := result } = f s) :
    f t = f s := by
  rw [h.same]
  exact hf _ _ _ _

/-! ### Completing a byte (R145, R262) -/

/-- The zero bits that complete the byte after `n` more bits. -/
def State.padding (s : State) (n : Nat) : List Bool := List.replicate ((8 - (s.writer.wn + n) % 8) % 8) false

theorem completed_eq (s : State) (also : Bool) (b : List Bool) :
    s.completed also b = b ++ if also then s.padding b.length else [] := rfl

theorem State.Wrote.padding (h : s.Wrote b t) : t.padding 0 = s.padding b.length := by
  have hbyte : (t.writer.wn + 0) % 8 = (s.writer.wn + b.length) % 8 := by
    have hposition := h.position
    omega
  rw [State.padding, State.padding, hbyte]

theorem emits_putAlign (hw : s.writer.Ok) (hd : s.dst.wf = true) : s.Emits (s.padding 0) s.putAlign := by
  have hpad : s.padding 0 = List.replicate ((8 - s.writer.wn) % 8) false := by
    rw [State.padding, Nat.add_zero, Nat.mod_eq_of_lt hw.1]
  rw [hpad]
  exact s.putAlign_cases hw hd

theorem emits_alignRow (hw : s.writer.Ok) (hd : s.dst.wf = true) :
    s.Emits (if s.rowAlign then s.padding 0 else []) s.alignRow := by
  unfold State.alignRow
  split
  · exact emits_putAlign hw hd
  · exact .nothing hw hd

theorem State.Emits.putAlign (h : s.Emits b w) (hw : s.writer.Ok) :
    s.Emits (s.completed true b) (w.bind State.putAlign) :=
  h.bind hw fun t ht => by
    show t.Emits (s.padding b.length) t.putAlign
    rw [← ht.padding]
    exact emits_putAlign ht.writer_ok ht.dst_wf

theorem State.Emits.alignRow (h : s.Emits b w) (hw : s.writer.Ok) :
    s.Emits (s.completed s.rowAlign b) (w.bind State.alignRow) :=
  h.bind hw fun t ht => by
    have hflag : s.rowAlign = t.rowAlign := by rw [ht.same]; rfl
    show t.Emits (if s.rowAlign then s.padding b.length else []) t.alignRow
    rw [hflag, ← ht.padding]
    exact emits_alignRow ht.writer_ok ht.dst_wf

/-! ### The trailer (R263, R264, R266) -/

/-- What stands between the last row and `finish`: in an ENCODE_G4 job the end-of-block marker (R251), else nothing. -/
def State.trailer (s : State) : Flow := if s.cfg.job = .encodeG4 then s.putEOFB else .go s

/-- The bits of the trailer. -/
def State.trailerBits (s : State) : List Bool :=
  if s.hasEob ∧ s.cfg.job = .encodeG4 then bitsOf 1 12 ++ bitsOf 1 12 else []

theorem emits_putEOFB (hw : s.writer.Ok) (hd : s.dst.wf = true) :
    s.Emits (if s.hasEob then bitsOf 1 12 ++ bitsOf 1 12 else []) s.putEOFB := by
  unfold State.putEOFB
  split
  · exact State.Emits.bind (State.putCode_cases eolCode s hw hd) hw fun t ht =>
      State.putCode_cases eolCode t ht.writer_ok ht.dst_wf
  · exact .nothing hw hd

theorem emits_trailer (hw : s.writer.Ok) (hd : s.dst.wf = true) : s.Emits s.trailerBits s.trailer := by
  unfold State.trailer State.trailerBits
  by_cases hjob : s.cfg.job = .encodeG4
  · simp only [hjob, and_true, if_true]
    exact emits_putEOFB hw hd
  · simp only [hjob, and_false, if_false]
    exact .nothing hw hd

theorem State.Emits.trailer (h : s.Emits b w) (hw : s.writer.Ok) :
    s.Emits (b ++ s.trailerBits) (w.bind State.trailer) :=
  h.bind hw fun t ht => by
    have hbits : s.trailerBits = t.trailerBits := by rw [ht.same]; rfl
    rw [hbits]
    exact emits_trailer ht.writer_ok ht.dst_wf

/-- STATUS of an encode job that is done (R251, R266, R289). -/
def State.doneStatus (s : State) : Status :=
  { state := .done, stop := .encoded, rows := s.imageHeight, endedOnEod := s.status.endedOnEod
    faultCode := s.status.faultCode, outLen := s.writer.wlen, srcUsed := s.reader.consumed }

theorem finishEncode_eq (s : State) :
    s.finishEncode = s.putAlign.bind fun t => .go (t.setStatus t.doneStatus) := by
  unfold State.finishEncode State.finish
  rw [Flow.bind_assoc]
  rfl

/-! ### The row end (R251, R265) -/

/-- The registers of an encode job after its row. -/
def State.rowDone (s : State) (ref cur : List Nat) : State := { s with ref := ref, cur := cur, y := s.y + 1 }

theorem rowDone_withOutput (s : State) (m : Memory) (x : Writer) (ref cur : List Nat) :
    (s.withOutput m x).rowDone ref cur = (s.rowDone ref cur).withOutput m x := rfl

/-- What follows the row's alignment: the next row, or after the last row the trailer and the end of the job. -/
def State.afterRow (ref cur : List Nat) (s : State) : Flow :=
  if s.imageHeight ≤ s.y + 1 then (s.rowDone ref cur).trailer.bind State.finishEncode else .go (s.rowDone ref cur)

theorem afterRow_inside (hy : s.y + 1 < s.imageHeight) (ref cur : List Nat) :
    s.afterRow ref cur = .go (s.rowDone ref cur) := if_neg (Nat.not_le.mpr hy)

theorem afterRow_last (hy : ¬ s.y + 1 < s.imageHeight) (ref cur : List Nat) :
    s.afterRow ref cur = (s.rowDone ref cur).trailer.bind State.finishEncode := if_pos (Nat.not_lt.mp hy)

/-- The row end that both encode jobs share, `ref` and `cur` being the lines it leaves. -/
def State.endRow (ref cur : List Nat) (s : State) : Flow := s.alignRow.bind (State.afterRow ref cur)

theorem endRowG4_eq (hw : s.writer.Ok) (hd : s.dst.wf = true) (hjob : s.cfg.job = .encodeG4) :
    s.endRowG4 = s.endRow s.cur [] := by
  unfold State.endRowG4 State.endRow
  rcases emits_alignRow hw hd with ⟨_, t, ht, hwrote⟩ | ⟨_, t, ht, _⟩
  · obtain ⟨m, x, rfl⟩ := hwrote.output
    have htrailer : State.trailer ((s.withOutput m x).rowDone s.cur []) = ((s.withOutput m x).rowDone s.cur []).putEOFB :=
      if_pos hjob
    rw [ht, Flow.bind_go, Flow.bind_go, State.afterRow, htrailer]
    rfl
  · rw [ht, Flow.bind_halt, Flow.bind_halt]

theorem endRowG31D_eq (hw : s.writer.Ok) (hd : s.dst.wf = true) (hjob : s.cfg.job ≠ .encodeG4) :
    s.endRowG31D = (s.setReader s.reader.byteAlign).endRow s.ref s.cur := by
  unfold State.endRowG31D State.endRasterRow State.endRow
  rcases emits_alignRow (s := s.setReader s.reader.byteAlign) hw hd with ⟨_, t, ht, hwrote⟩ | ⟨_, t, ht, _⟩
  · obtain ⟨m, x, rfl⟩ := hwrote.output
    generalize hr : (s.setReader s.reader.byteAlign).withOutput m x = r at *
    have htrailer : State.trailer (r.rowDone s.ref s.cur) = .go (r.rowDone s.ref s.cur) :=
      if_neg (by rw [← hr]; exact hjob)
    have hlines : { r with y := r.y + 1 } = r.rowDone s.ref s.cur := by rw [← hr]; rfl
    rw [ht, Flow.bind_go, Flow.bind_go, State.afterRow, htrailer, ← hlines]
    rfl
  · rw [ht, Flow.bind_halt, Flow.bind_halt]

/-- `w` is the rest of a row of `s` that puts `b` and ends the row: the next row, the end of the job, or the CapacityFault
of the row or, met at `s.rowDone ref cur`, of the trailer. -/
def State.EndsRow (s : State) (ref cur : List Nat) (b : List Bool) (w : Flow) : Prop :=
  (s.RoomForBits (s.rowEndBits b).length → ∃ t, (s.rowDone ref cur).Wrote (s.rowEndBits b) t ∧
    w = .go (t.setStatus (s.rowEndStatus t.writer.wlen s.reader.consumed))) ∧
  (¬ s.RoomForBits (s.rowEndBits b).length → ∃ u t, (u = s ∨ u = s.rowDone ref cur) ∧ u.y = s.faultRow b ∧
    w = .halt t ∧ u.Overflowed (s.rowEndBits b) t)

theorem rowEndBits_inside (hy : s.y + 1 < s.imageHeight) (b : List Bool) : s.rowEndBits b = s.completed s.rowAlign b :=
  if_pos hy

theorem rowEndBits_last (hy : ¬ s.y + 1 < s.imageHeight) (b : List Bool) :
    s.rowEndBits b = s.completed true (s.completed s.rowAlign b ++ s.trailerBits) := if_neg hy

/-- What a row end puts begins with the aligned row. -/
theorem rowEndBits_append (s : State) (b : List Bool) : ∃ rest, s.rowEndBits b = s.completed s.rowAlign b ++ rest := by
  by_cases hy : s.y + 1 < s.imageHeight
  · exact ⟨[], by rw [rowEndBits_inside hy, List.append_nil]⟩
  · exact ⟨_, by rw [rowEndBits_last hy, completed_eq _ true, List.append_assoc]⟩

/-- What a row end puts begins with the row's own codes. -/
theorem rowEndBits_prefix (s : State) (b : List Bool) : ∃ rest, s.rowEndBits b = b ++ rest := by
  obtain ⟨rest, hrest⟩ := rowEndBits_append s b
  exact ⟨_, by rw [hrest, completed_eq, List.append_assoc]⟩

theorem rowEndStatus_inside (hy : s.y + 1 < s.imageHeight) (outLen used : Nat) : s.rowEndStatus outLen used = s.status :=
  if_pos hy

theorem rowEndStatus_last (hy : ¬ s.y + 1 < s.imageHeight) (outLen used : Nat) : s.rowEndStatus outLen used =
    { state := .done, stop := .encoded, rows := s.imageHeight, endedOnEod := s.status.endedOnEod
      faultCode := s.status.faultCode, outLen := outLen, srcUsed := used } := if_neg hy

theorem faultRow_row (hfull : ¬ s.RoomForBits (s.completed s.rowAlign b).length) : s.faultRow b = s.y := if_neg hfull

theorem faultRow_trailer (hroom : s.RoomForBits (s.completed s.rowAlign b).length) : s.faultRow b = s.y + 1 := if_pos hroom

/-- After the last row: the trailer and `finish`, `s` being the state whose row, aligned, `b` is. -/
theorem State.Emits.finishEncode (h : s.Emits b (.go t)) (hw : s.writer.Ok) :
    let bits := s.completed true (b ++ s.trailerBits)
    (s.RoomForBits bits.length ∧ ∃ v, s.Wrote bits v ∧
      t.trailer.bind State.finishEncode = .go (v.setStatus v.doneStatus)) ∨
    (¬ s.RoomForBits bits.length ∧ ∃ v, s.Overflowed bits v ∧ t.trailer.bind State.finishEncode = .halt v) := by
  intro bits
  have hchain : t.trailer.bind State.finishEncode =
      (t.trailer.bind State.putAlign).bind fun v => .go (v.setStatus v.doneStatus) := by
    rw [Flow.bind_assoc, funext finishEncode_eq]
  have hemits : s.Emits bits (t.trailer.bind State.putAlign) := (h.trailer hw).putAlign hw
  rw [hchain]
  rcases hemits with ⟨hroom, v, hv, hwrote⟩ | ⟨hfull, v, hv, hover⟩
  · exact .inl ⟨hroom, v, hwrote, by rw [hv, Flow.bind_go]⟩
  · exact .inr ⟨hfull, v, hover, by rw [hv, Flow.bind_halt]⟩

/-- After the codes of a row: its alignment, then the next row or the end of the job. -/
theorem State.Emits.endRow (h : s.Emits b w) (hw : s.writer.Ok) (ref cur : List Nat) :
    s.EndsRow ref cur b (w.bind (State.endRow ref cur)) := by
  have hchain : w.bind (State.endRow ref cur) = (w.bind State.alignRow).bind (State.afterRow ref cur) :=
    (Flow.bind_assoc _ _ _).symm
  rw [hchain]
  rcases h.alignRow hw with ⟨hroom, t, ht, hwrote⟩ | ⟨hfull, t, ht, hover⟩
  · obtain ⟨m, x, rfl⟩ := hwrote.output
    rw [ht, Flow.bind_go]
    have hdone : (s.rowDone ref cur).Wrote (s.completed s.rowAlign b) ((s.rowDone ref cur).withOutput m x) :=
      hwrote.rebase rfl rfl
    by_cases hy : s.y + 1 < s.imageHeight
    · rw [afterRow_inside (s := s.withOutput m x) hy, rowDone_withOutput, State.EndsRow, rowEndBits_inside hy]
      exact ⟨fun _ => ⟨_, hdone, by rw [rowEndStatus_inside hy]; rfl⟩, fun hfull => absurd hroom hfull⟩
    · rw [afterRow_last (s := s.withOutput m x) hy, rowDone_withOutput, State.EndsRow, rowEndBits_last hy,
        faultRow_trailer hroom]
      have hemits : (s.rowDone ref cur).Emits (s.completed s.rowAlign b) (.go _) := .inl ⟨hroom, _, rfl, hdone⟩
      rcases hemits.finishEncode hw with ⟨hfits, v, hv, hend⟩ | ⟨hfull, v, hv, hend⟩
      · refine ⟨fun _ => ⟨v, hv, ?_⟩, fun hfull => absurd hfits hfull⟩
        obtain ⟨m', x', rfl⟩ := hv.output
        rw [hend, rowEndStatus_last hy]
        rfl
      · exact ⟨fun hfits => absurd hfits hfull, fun _ => ⟨_, v, .inr rfl, rfl, hend, hv⟩⟩
  · obtain ⟨rest, hrest⟩ := rowEndBits_append s b
    rw [ht, Flow.bind_halt, State.EndsRow, faultRow_row hfull, hrest]
    exact ⟨fun hfits => absurd (room_of_append hfits) hfull, fun _ => ⟨s, t, .inl rfl, rfl, rfl, hover.append rest⟩⟩

end Sys2Proof.Machine
end

section
/-! The raster's pixels behind the reader (`spec/44_encoder.md` R252, R253), and one mode selection or one run with the row end
where it reaches W (R251, R258, R265). -/

namespace Sys2Proof.Machine

variable {s : State} {b : List Bool}

/-! ### The raster's pixels (R61, R252, R253) -/

/-- The bits from pixel `x` of raster row `r` on are the row's pixels from `x` on. -/
theorem map_colourOf_streamBits (s : State) {r x : Nat} :
    (streamBits s.src false (8 * s.stride * r + x) (s.imageWidth - x)).map s.colourOf =
      (s.rowPixels s.src r s.imageWidth).drop x := by
  apply List.ext_getElem
  · simp [State.rowPixels]
  intro i _ _
  have hbyte : (8 * s.stride * r + x + i) / 8 = r * s.stride + (x + i) / 8 := by
    have hrow : 8 * s.stride * r = 8 * (r * s.stride) := by ring
    omega
  have hbit : (8 * s.stride * r + x + i) % 8 = (x + i) % 8 := by
    have hrow : 8 * s.stride * r = 8 * (r * s.stride) := by ring
    omega
  simp [State.rowPixels, streamBits, streamBit, streamByte, Memory.pixel, pixelByte, pixelBit, hbyte, hbit]

/-- What is left of the raster's row `y` in front of a reader that stands at its pixel `x`. -/
theorem rest_rowPixels (hrev : s.reader.rev = false) {x : Nat} (hpos : s.reader.position = 8 * s.stride * s.y + x)
    (hleft : s.imageWidth - x ≤ 8 * s.reader.len - s.reader.position) :
    ((s.reader.rest s.src).take (s.imageWidth - x)).map s.colourOf =
      (s.rowPixels s.src s.y s.imageWidth).drop x := by
  rw [Reader.rest, take_streamBits, Nat.min_eq_left hleft, hrev, hpos, map_colourOf_streamBits]

/-- A run of equal bits is a run of equal pixels (R65). -/
theorem runLength_pixels (s : State) (k : Colour) (l : List Bool) :
    runLength (s.bit k) l = ((l.map s.colourOf).takeWhile fun p => decide (p = k)).length := by
  rw [runLength_bit, List.takeWhile_map, List.length_map]
  rfl

/-- A step whose own codes have no room: they begin what it has to put, and its row is not counted. -/
theorem stepBits_prefix (p : Prop) [Decidable p] (hfull : ¬ s.RoomForBits b.length) :
    ∃ rest, (if p then b else s.rowEndBits b) = b ++ rest ∧ (if p then s.y else s.faultRow b) = s.y := by
  by_cases hp : p
  · exact ⟨[], by rw [if_pos hp, List.append_nil], if_pos hp⟩
  · obtain ⟨rest, hrest⟩ := rowEndBits_prefix s b
    exact ⟨rest, (if_neg hp).trans hrest, (if_neg hp).trans (faultRow_row fun hrow => hfull (room_of_append hrow))⟩

/-! ### One mode selection with the row end (R251, R258) -/

/-- `s` after a mode selection that had room (R258). -/
def State.stepped (s : State) : State :=
  { s with a1 := s.findA.1, a2 := s.findA.2, b1 := s.findB.1, b2 := s.findB.2
           a0 := s.stepTarget, c := s.stepColour, atStart := false }

/-- The row end of an ENCODE_G4 step, where the selection has reached W (R251). -/
def State.closeG4 (s : State) : Flow := if s.imageWidth ≤ s.a0 then s.endRowG4 else .go s

theorem closeG4_inside (hin : s.a0 < s.imageWidth) : s.closeG4 = .go s := if_neg (Nat.not_le.mpr hin)

theorem closeG4_full (hin : ¬ s.a0 < s.imageWidth) : s.closeG4 = s.endRowG4 := if_pos (Nat.not_lt.mp hin)

theorem stepsG4_encodeStepG4 (hw : s.writer.Ok) (hd : s.dst.wf = true) (hjob : s.cfg.job = .encodeG4) :
    s.StepsG4 (s.encodeStepG4.bind State.closeG4).out := by
  unfold State.StepsG4
  rcases s.encodeStepG4_cases hw hd with ⟨hroom, t, hwrote, hstep⟩ | ⟨hfull, t, hstep, hover⟩
  · obtain ⟨m, x, rfl⟩ := hwrote.output
    have hgo : s.encodeStepG4 = .go (s.stepped.withOutput m x) := hstep
    have hstepped : s.stepped.Wrote s.stepBits (s.stepped.withOutput m x) := hwrote.rebase rfl rfl
    rw [hgo, Flow.bind_go]
    by_cases hin : s.stepTarget < s.imageWidth
    · rw [closeG4_inside (s := s.stepped.withOutput m x) hin]
      simp only [if_pos hin]
      exact ⟨fun _ => ⟨_, hwrote.rebase rfl rfl, rfl⟩, fun hfull => absurd hroom hfull⟩
    · rw [closeG4_full (s := s.stepped.withOutput m x) hin, endRowG4_eq hstepped.writer_ok hstepped.dst_wf hjob]
      simp only [if_neg hin]
      have hemits : s.stepped.Emits s.stepBits (.go _) := .inl ⟨hroom, _, rfl, hstepped⟩
      obtain ⟨hends, hfault⟩ := hemits.endRow hw s.cur []
      refine ⟨fun hfits => ?_, fun hfull => ?_⟩
      · obtain ⟨v, hv, hend⟩ := hends hfits
        obtain ⟨m', x', rfl⟩ := hv.output
        exact ⟨_, hv.rebase rfl rfl, congrArg Flow.out hend⟩
      · obtain ⟨u, v, hu, hy, hend, hv⟩ := hfault hfull
        have hrow : s.faultRow s.stepBits = u.y := hy.symm
        refine ⟨v, congrArg Flow.out hend, ?_⟩
        rw [hrow, hv.keeps (·.a0) fun _ _ _ _ => rfl, hv.keeps (·.c) fun _ _ _ _ => rfl,
          hv.keeps (·.atStart) fun _ _ _ _ => rfl, hv.keeps (·.ref) fun _ _ _ _ => rfl,
          hv.keeps (·.cur) fun _ _ _ _ => rfl]
        rcases hu with rfl | rfl <;> exact hv
  · rw [hstep, Flow.bind_halt, Flow.out_halt]
    obtain ⟨rest, hrest, hy⟩ := stepBits_prefix (s := s) (s.stepTarget < s.imageWidth) hfull
    simp only [hrest, hy]
    refine ⟨fun hfits => absurd (room_of_append hfits) hfull, fun _ => ⟨t, rfl, ?_⟩⟩
    rw [hover.keeps (·.a0) fun _ _ _ _ => rfl, hover.keeps (·.c) fun _ _ _ _ => rfl,
      hover.keeps (·.atStart) fun _ _ _ _ => rfl, hover.keeps (·.ref) fun _ _ _ _ => rfl,
      hover.keeps (·.cur) fun _ _ _ _ => rfl]
    exact hover.append rest

/-! ### One run with the row end (R265, R266) -/

/-- The row end moves the reader to the byte boundary after the run. -/
theorem Reader.Moved.byteAlign {src : Memory} {r r' : Reader} {n : Nat} (h : r.Moved src n r') :
    r.Moved src (r.toByte n) r'.byteAlign := by
  obtain ⟨hok, hposition⟩ := h.ok.byteAlign
  refine ⟨hok, ?_, h.len, h.rev⟩
  rw [hposition, h.position, Reader.toByte]
  omega

/-- The row end of an ENCODE_G31D step, where the run has reached W (R265). -/
def State.closeG31D (s : State) : Flow := if s.imageWidth ≤ s.a0 then s.endRowG31D else .go s

theorem closeG31D_inside (hin : s.a0 < s.imageWidth) : s.closeG31D = .go s := if_neg (Nat.not_le.mpr hin)

theorem closeG31D_full (hin : ¬ s.a0 < s.imageWidth) : s.closeG31D = s.endRowG31D := if_pos (Nat.not_lt.mp hin)

/-- `s` with `x` and `col` of R265 in `a0` and `c` (log 13), the reader at `rd`. -/
def State.runAt (s : State) (rd : Reader) (x : Nat) (k : Colour) : State := { s with reader := rd, a0 := x, c := k }

/-- `s` after a run of `n` pixels (R265). -/
def State.ranOn (s : State) (n : Nat) : State := { s with a0 := s.a0 + n, c := oppositeColour s.c, atStart := false }

/-- A step of an ENCODE_G31D job counts its run, puts it, and ends the row where it reaches W. -/
theorem jobStepG31D_eq (hok : s.reader.Ok s.src) {x : Nat} {k : Colour} (hstart : s.startRowG31D = s.runAt s.reader x k) :
    let n := runLength (s.bit k) ((s.reader.rest s.src).take (s.imageWidth - x))
    ∃ rd, s.reader.Moved s.src n rd ∧
      s.jobStepG31D = (State.putRun k n (s.runAt rd x k)).bind fun t => (t.ranOn n).closeG31D := by
  obtain ⟨hcount, hcounted⟩ := (s.runAt s.reader x k).countPixels_spec k (s.imageWidth - x) hok
  set counted := (s.runAt s.reader x k).countPixels k (s.imageWidth - x) with hpair
  refine ⟨counted.2.reader, hcounted.moved, ?_⟩
  have hreader : counted.2 = s.runAt counted.2.reader x k := hcounted.same
  unfold State.jobStepG31D
  rw [hstart]
  show (State.putRun k counted.1 counted.2).bind (fun t => (t.ranOn counted.1).closeG31D) = _
  rw [← hreader, hcount]
  rfl

theorem stepsG31D_jobStepG31D (hok : s.reader.Ok s.src) (hw : s.writer.Ok) (hd : s.dst.wf = true)
    (hjob : s.cfg.job ≠ .encodeG4) {x : Nat} {k : Colour} (hstart : s.startRowG31D = s.runAt s.reader x k) :
    s.StepsG31D x k (runLength (s.bit k) ((s.reader.rest s.src).take (s.imageWidth - x))) s.jobStepG31D.out := by
  obtain ⟨rd, hmoved, hstep⟩ := jobStepG31D_eq hok hstart
  generalize runLength (s.bit k) ((s.reader.rest s.src).take (s.imageWidth - x)) = n at *
  unfold State.StepsG31D
  rw [hstep]
  rcases State.putRun_cases k n (s.runAt rd x k) hw hd with ⟨hroom, t, ht, hwrote⟩ | ⟨hfull, t, ht, hover⟩
  · obtain ⟨m, y, rfl⟩ := hwrote.output
    rw [ht, Flow.bind_go]
    by_cases hin : x + n < s.imageWidth
    · rw [closeG31D_inside (s := ((s.runAt rd x k).withOutput m y).ranOn n) hin]
      simp only [if_pos hin]
      exact ⟨fun _ => ⟨rd, _, hwrote.rebase rfl rfl, hmoved, rfl⟩, fun hfull => absurd hroom hfull⟩
    · have hend : (((s.runAt rd x k).withOutput m y).ranOn n).endRowG31D =
          (Flow.go ((((s.runAt rd.byteAlign x k)).ranOn n).withOutput m y)).bind (State.endRow s.ref s.cur) :=
        endRowG31D_eq hwrote.writer_ok hwrote.dst_wf hjob
      have hemits : ((s.runAt rd.byteAlign x k).ranOn n).Emits (runBits k n) (.go _) :=
        .inl ⟨hroom, _, rfl, hwrote.rebase rfl rfl⟩
      rw [closeG31D_full (s := ((s.runAt rd x k).withOutput m y).ranOn n) hin, hend]
      simp only [if_neg hin]
      obtain ⟨hends, hfault⟩ := hemits.endRow hw s.ref s.cur
      refine ⟨fun hfits => ?_, fun hfull => ?_⟩
      · obtain ⟨v, hv, hend⟩ := hends hfits
        obtain ⟨m', y', rfl⟩ := hv.output
        exact ⟨rd.byteAlign, _, hv.rebase rfl rfl, hmoved.byteAlign, congrArg Flow.out hend⟩
      · obtain ⟨u, v, hu, hy, hend, hv⟩ := hfault hfull
        have hrow : s.faultRow (runBits k n) = u.y := hy.symm
        have hreader : v.reader = rd.byteAlign :=
          (hv.keeps (·.reader) fun _ _ _ _ => rfl).trans (by rcases hu with rfl | rfl <;> rfl)
        refine ⟨v, congrArg Flow.out hend, .inr (hreader ▸ hmoved.byteAlign), ?_⟩
        rw [hrow, hreader, hv.keeps (·.a0) fun _ _ _ _ => rfl, hv.keeps (·.c) fun _ _ _ _ => rfl,
          hv.keeps (·.atStart) fun _ _ _ _ => rfl]
        rcases hu with rfl | rfl <;> exact hv
  · rw [ht, Flow.bind_halt, Flow.out_halt]
    obtain ⟨rest, hrest, hy⟩ := stepBits_prefix (s := s) (x + n < s.imageWidth) hfull
    have hreader : t.reader = rd := hover.keeps (·.reader) fun _ _ _ _ => rfl
    simp only [hrest, hy]
    refine ⟨fun hfits => absurd (room_of_append hfits) hfull, fun _ => ⟨t, rfl, .inl (hreader ▸ hmoved), ?_⟩⟩
    rw [hreader, hover.keeps (·.a0) fun _ _ _ _ => rfl, hover.keeps (·.c) fun _ _ _ _ => rfl,
      hover.keeps (·.atStart) fun _ _ _ _ => rfl]
    exact hover.append rest

end Sys2Proof.Machine
end

section
/-! EncodeRowG31D and the steps of the encode jobs, from the raster to the trailer (`spec/44_encoder.md` R251 to R266), and what
STATUS reports where a job ends (R289, R304). -/

namespace Sys2Proof.Machine

variable {s t : State}

/-! ### EncodeRowG31D (R265) -/

theorem exec_encodeRowG31D (hs : s.running = false) : exec .encodeRowG31D s = s.encodeRowG31D.out :=
  show execEncodeRowG31D s = _ from unitOperation_go hs _

/-- The row's runs, before its alignment: put, or the CapacityFault they met. -/
theorem rowLoop_emits (hok : s.reader.Ok s.src) (hw : s.writer.Ok) (hd : s.dst.wf = true) (hwidth : 0 < s.imageWidth)
    (hleft : s.imageWidth ≤ 8 * s.reader.len - s.reader.position) {fuel : Nat} (hfuel : s.imageWidth + 1 ≤ fuel) :
    let bits := lineBits .white 0 (((s.reader.rest s.src).take s.imageWidth).map s.colourOf)
    ∃ rd, (s.setReader rd).Emits bits (State.rowLoopG31D fuel 0 .white s) ∧
      ((s.setReader rd).RoomForBits bits.length → s.reader.Moved s.src s.imageWidth rd) := by
  intro bits
  have hlen : s.imageWidth ≤ (s.reader.rest s.src).length := by rwa [Reader.length_rest]
  have hrow : ((s.reader.rest s.src).take s.imageWidth).map s.colourOf ≠ [] := by
    intro hnil
    have hzero := congrArg List.length hnil
    rw [List.length_map, List.length_take, List.length_nil] at hzero
    omega
  have htail : tailBits .white (((s.reader.rest s.src).take (s.imageWidth - 0)).map s.colourOf) = bits := if_neg hrow
  have hcases := State.rowLoopG31D_cases fuel 0 .white s hok hw hd hlen (by split <;> omega)
  simp only [htail] at hcases
  rcases hcases with ⟨hroom, t, rd, hloop, hwrote, hmoved⟩ | ⟨hfull, t, rd, hloop, hover⟩
  · obtain ⟨m, x, rfl⟩ := hwrote.output
    exact ⟨rd, .inl ⟨hroom, _, hloop, hwrote.rebase rfl rfl⟩, fun _ => hmoved⟩
  · exact ⟨rd, .inr ⟨hfull, t, hloop, hover⟩, fun hroom => absurd hroom hfull⟩

/-- Settles O36: the runs of the row, then the row end of R265. -/
theorem encodeRowG31DWritesTheRuns : Obligations.EncodeRowG31DWritesTheRuns := by
  intro s hs hok hw hd hwidth hleft
  rw [exec_encodeRowG31D hs, State.encodeRowG31D]
  obtain ⟨rd, hloop, hmoved⟩ := rowLoop_emits hok hw hd hwidth hleft (fuel := s.imageWidth + 8 * s.dstCap + 9) (by omega)
  generalize lineBits .white 0 (((s.reader.rest s.src).take s.imageWidth).map s.colourOf) = bits at *
  intro all
  rcases hloop with ⟨hroom, t, ht, hwrote⟩ | ⟨hfull, t, ht, hover⟩
  · obtain ⟨m, x, rfl⟩ := hwrote.output
    have hruns : (s.setReader rd.byteAlign).Emits bits (.go ((s.setReader rd.byteAlign).withOutput m x)) :=
      .inl ⟨hroom, _, rfl, hwrote.rebase rfl rfl⟩
    rw [ht, Flow.bind_go]
    rcases hruns.alignRow hw with ⟨hfits, v, hv, hall⟩ | ⟨hfull, v, hv, hover⟩
    · obtain ⟨m', x', rfl⟩ := hall.output
      refine ⟨fun _ => ⟨rd.byteAlign, _, (hmoved hroom).byteAlign, hall.rebase rfl rfl, ?_⟩, fun hfull => absurd hfits hfull⟩
      exact congrArg Flow.out hv
    · refine ⟨fun hfits => absurd hfits hfull, fun _ => ⟨v, congrArg Flow.out hv, ?_⟩⟩
      rw [hover.keeps (·.reader) fun _ _ _ _ => rfl]
      exact hover
  · rw [ht, Flow.bind_halt, Flow.out_halt]
    have hreader : t.reader = rd := hover.keeps (·.reader) fun _ _ _ _ => rfl
    refine ⟨fun hfits => absurd (room_of_append hfits) hfull, fun _ => ⟨t, rfl, ?_⟩⟩
    rw [hreader]
    exact hover.append _

/-! ### The steps of an ENCODE_G4 job (R251, R256) -/

theorem step_encodeG4 (hrun : s.running = true) (hcmd : s.commands = []) (hjob : s.cfg.job = .encodeG4) :
    step s = s.jobStepG4 := by
  unfold step blockStep
  simp only [hcmd, hrun, hjob, if_true]

theorem jobStepG4_eq (hstart : s.startRowG4 = some t) : s.jobStepG4 = (t.encodeStepG4.bind State.closeG4).out := by
  unfold State.jobStepG4
  rw [hstart]
  rfl

theorem startRowG4_inside (hrow : s.atRowStart = false) : s.startRowG4 = some s := if_neg (by rw [hrow]; decide)

/-- `s` after the row start work of R251: raster row `y` scanned, the reader at the row after it. -/
def State.rowStarted (s : State) (rd : Reader) : State :=
  { s with reader := rd, cur := changes .white 0 (s.rowPixels s.src s.y s.imageWidth), a0 := 0, atStart := true, c := .white }

theorem State.EncodeOk.rowStart (h : s.EncodeOk) (hrow : s.atRowStart = true) :
    ∃ rd, (rd.Ok s.src ∧ rd.position = 8 * s.stride * (s.y + 1) ∧ rd.len = s.reader.len ∧ rd.rev = s.reader.rev) ∧
      s.startRowG4 = some (s.rowStarted rd) := by
  obtain ⟨hpos, hleft⟩ := h.row_left hrow
  obtain ⟨rd, hscan, hok, hrdpos, hlen, hrev⟩ := s.scanRow_spec h.reader_ok hleft
  have hpixels := rest_rowPixels (x := 0) h.reader_rev hpos (by rwa [Reader.length_rest] at hleft)
  rw [Nat.sub_zero, List.drop_zero] at hpixels
  refine ⟨rd, ⟨hok, by rw [hrdpos, hpos, stride_covers], hlen, hrev⟩, ?_⟩
  rw [State.startRowG4, if_pos hrow, hscan, hpixels]
  rfl

/-- Settles O37: the row start scans raster row `y`, then one mode selection. -/
theorem encodeRowStartScans : Obligations.EncodeRowStartScans := by
  intro s hrun hjob hcmd hok hd hrow
  obtain ⟨rd, ⟨hrd, hpos, hlen, hrev⟩, hstart⟩ := hok.rowStart hrow
  refine ⟨rd, hrd, hpos, hlen, hrev, ?_⟩
  rw [step_encodeG4 hrun hcmd hjob, jobStepG4_eq hstart]
  exact stepsG4_encodeStepG4 (s := s.rowStarted rd) hok.writer_ok hd hjob

/-! ### The steps of an ENCODE_G31D job (R265) -/

theorem step_encodeG31D (hrun : s.running = true) (hcmd : s.commands = []) (hjob : s.cfg.job = .encodeG31D) :
    step s = s.jobStepG31D.out := by
  unfold step blockStep
  simp only [hcmd, hrun, hjob, if_true]

theorem startRowG31D_eq (s : State) : s.startRowG31D =
    s.runAt s.reader (if s.atRowStart then 0 else s.a0) (if s.atRowStart then .white else s.c) := by
  unfold State.startRowG31D
  split <;> rfl

/-- The raster reader of an ENCODE_G31D job stands where the next run begins. -/
theorem State.EncodeOk.run_left (h : s.EncodeOk) (hjob : s.cfg.job ≠ .encodeG4) :
    let x := if s.atRowStart then 0 else s.a0
    s.reader.position = 8 * s.stride * s.y + x ∧ s.imageWidth - x ≤ 8 * s.reader.len - s.reader.position := by
  intro x
  have hpos : s.reader.position = 8 * s.stride * s.y + x := by
    have hpos := h.position
    by_cases hrow : s.atRowStart = true <;> simpa [x, hrow, hjob] using hpos
  have hx : x ≤ s.imageWidth := by
    have ha0 := h.a0_le
    by_cases hrow : s.atRowStart = true <;> simp [x, hrow, ha0]
  have hin := h.row_in
  have hwidth := imageWidth_le_stride s
  have hnext : 8 * s.stride * (s.y + 1) = 8 * s.stride * s.y + 8 * s.stride := by ring
  exact ⟨hpos, by omega⟩

theorem State.EncodeOk.stepsG31D (h : s.EncodeOk) (hd : s.dst.wf = true) (hrun : s.running = true)
    (hcmd : s.commands = []) (hjob : s.cfg.job = .encodeG31D) :
    let x := if s.atRowStart then 0 else s.a0
    let k := if s.atRowStart then .white else s.c
    s.StepsG31D x k (((s.rowPixels s.src s.y s.imageWidth).drop x).takeWhile fun p => decide (p = k)).length (step s) := by
  intro x k
  have hjob' : s.cfg.job ≠ .encodeG4 := by rw [hjob]; decide
  obtain ⟨hpos, hleft⟩ := h.run_left hjob'
  rw [step_encodeG31D hrun hcmd hjob, ← rest_rowPixels h.reader_rev hpos hleft, ← runLength_pixels]
  exact stepsG31D_jobStepG31D h.reader_ok h.writer_ok hd hjob' (startRowG31D_eq s)

/-! ### The end of an encode job (R266, R289, R304) -/

/-- What STATUS reports where the encode job of `s` has ended at `t`. -/
def State.Reports (s t : State) : Prop :=
  (t.status.state = .done → t.writer.wn = 0 ∧ t.status = {
      state := .done, stop := .encoded, rows := s.imageHeight, endedOnEod := s.status.endedOnEod
      faultCode := s.status.faultCode, outLen := t.writer.wlen, srcUsed := t.reader.consumed }) ∧
  (t.status.state = .fault → t.status = capacityStatus t.y t.reader.consumed)

theorem State.Reports.of_running (hrun : s.running = true) (hstatus : t.status = s.status) : s.Reports t := by
  have hstate : t.status.state = .run := by rw [hstatus]; exact of_decide_eq_true hrun
  unfold State.Reports
  rw [hstate]
  exact ⟨nofun, nofun⟩

theorem State.Reports.of_overflowed {u : State} {b : List Bool} (h : u.Overflowed b t) (hrun : u.running = true) :
    s.Reports t := by
  have hstatus : t.status = capacityStatus u.y u.reader.consumed := by
    rw [h.same]
    exact if_pos hrun
  have hy : t.y = u.y := h.keeps (·.y) fun _ _ _ _ => rfl
  have hreader : t.reader = u.reader := h.keeps (·.reader) fun _ _ _ _ => rfl
  unfold State.Reports
  rw [hstatus, hy, hreader]
  exact ⟨nofun, fun _ => rfl⟩

/-- The zero bits of `finish` complete the last byte (R264). -/
theorem State.Wrote.whole {b : List Bool} {u : State} (h : u.Wrote (u.completed true b) t) : t.writer.wn = 0 := by
  have hpos := h.position
  have hwn := h.writer_ok.1
  rw [completed_eq, if_pos rfl, State.padding, List.length_append, List.length_replicate] at hpos
  omega

theorem State.Reports.of_rowEnd {u v : State} {b : List Bool} (hrun : s.running = true) (h : u.Wrote (s.rowEndBits b) t)
    (hwriter : u.writer = s.writer) (hw : v.writer = t.writer)
    (hstatus : v.status = s.rowEndStatus t.writer.wlen v.reader.consumed) : s.Reports v := by
  by_cases hy : s.y + 1 < s.imageHeight
  · exact .of_running hrun (hstatus.trans (rowEndStatus_inside hy _ _))
  · rw [rowEndBits_last hy, State.completed, ← hwriter] at h
    rw [rowEndStatus_last hy] at hstatus
    unfold State.Reports
    rw [hstatus, hw]
    exact ⟨fun _ => ⟨h.whole, rfl⟩, nofun⟩

theorem State.StepsG4.reports (h : s.StepsG4 (.next t)) (hrun : s.running = true) : s.Reports t := by
  obtain ⟨hfits, hfull⟩ := h
  by_cases hroom : s.RoomForBits (if s.stepTarget < s.imageWidth then s.stepBits else s.rowEndBits s.stepBits).length
  · obtain ⟨u, hwrote, hnext⟩ := hfits hroom
    by_cases hin : s.stepTarget < s.imageWidth
    · rw [if_pos hin] at hnext
      cases hnext
      exact .of_running hrun (by rw [hwrote.same])
    · rw [if_neg hin] at hnext hwrote
      cases hnext
      exact .of_rowEnd hrun hwrote rfl rfl (by rw [hwrote.same])
  · obtain ⟨u, hnext, hover⟩ := hfull hroom
    cases hnext
    exact .of_overflowed hover hrun

theorem State.StepsG31D.reports {x n : Nat} {k : Colour} (h : s.StepsG31D x k n (.next t)) (hrun : s.running = true) :
    s.Reports t := by
  obtain ⟨hfits, hfull⟩ := h
  by_cases hroom : s.RoomForBits (if x + n < s.imageWidth then runBits k n else s.rowEndBits (runBits k n)).length
  · obtain ⟨rd, u, hwrote, hnext⟩ := hfits hroom
    by_cases hin : x + n < s.imageWidth
    · rw [if_pos hin] at hnext
      obtain ⟨_, hnext⟩ := hnext
      cases hnext
      exact .of_running hrun (by rw [hwrote.same])
    · rw [if_neg hin] at hnext hwrote
      obtain ⟨_, hnext⟩ := hnext
      cases hnext
      exact .of_rowEnd hrun hwrote rfl rfl rfl
  · obtain ⟨u, hnext, _, hover⟩ := hfull hroom
    cases hnext
    exact .of_overflowed hover hrun

/-- Settles O38: the step of each encode job, and what STATUS reports where it ends the job. -/
theorem encodeJobSteps : Obligations.EncodeJobSteps := by
  intro s hrun hcmd hok hd
  have hg4 : s.cfg.job = .encodeG4 → s.atRowStart = false → s.StepsG4 (step s) := fun hjob hrow => by
    rw [step_encodeG4 hrun hcmd hjob, jobStepG4_eq (startRowG4_inside hrow)]
    exact stepsG4_encodeStepG4 hok.writer_ok hd hjob
  refine ⟨hg4, hok.stepsG31D hd hrun hcmd, fun t hdec hstep => ?_⟩
  show s.Reports t
  cases hjob : s.cfg.job with
  | decodeG3 => rw [hjob] at hdec; cases hdec
  | decodeG4 => rw [hjob] at hdec; cases hdec
  | encodeG4 =>
    by_cases hrow : s.atRowStart = true
    · obtain ⟨rd, _, _, _, _, hsteps⟩ := encodeRowStartScans s hrun hjob hcmd hok hd hrow
      exact (hstep ▸ hsteps).reports hrun
    · exact (hstep ▸ hg4 hjob (Bool.eq_false_iff.mpr hrow)).reports hrun
  | encodeG31D => exact (hstep ▸ hok.stepsG31D hd hrun hcmd hjob).reports hrun

end Sys2Proof.Machine
end

section
/-! START of a job that passes its tests, and the end of every encode job (`spec/45_jobs.md` R282, R283, R285, R342). -/

namespace Sys2Proof.Machine

variable {s t : State}

/-! ### START (R282, R283) -/

theorem configFaulty_iff : s.configFaulty = true ↔ s.imageWidth = 0 ∨ 2 ^ 31 - 1 < s.imageWidth ∨
    2 ^ 31 - 1 < s.imageHeight ∨ (s.imageHeight = 0 ∧ s.cfg.job ≠ .decodeG3) := by
  simp [State.configFaulty, Config.wMax, or_assoc]

theorem rasterTooSmall_iff : s.rasterTooSmall = true ↔
    s.cfg.job.isDecode = false ∧ s.srcLen < s.stride * s.imageHeight := by
  simp [State.rasterTooSmall]

/-- STATUS is cleared before `JobInit`, which keeps it; only then is STATE set to RUN. -/
theorem jobInit_setStatus (s : State) (st st' : Status) : (s.setStatus st).jobInit.setStatus st' = s.jobInit.setStatus st' := by
  unfold State.jobInit
  split <;> rename_i hjob
  · rw [if_pos (show s.cfg.job.isDecode = true from hjob)]
    rfl
  · rw [if_neg (show ¬ s.cfg.job.isDecode = true from hjob)]
    rfl

/-- A START that passes its tests runs `JobInit` and leaves the job in RUN. -/
theorem startJob_begins (hs : s.running = false) (hcfg : ¬ s.configFaulty = true) (hsize : ¬ s.rasterTooSmall = true) :
    s.startJob = s.jobInit.setStatus (clearedStatus .run) := by
  unfold State.startJob
  rw [if_neg (by rw [hs]; decide)]
  exact (if_neg hcfg).trans ((if_neg hsize).trans (jobInit_setStatus s _ _))

/-- A START that leaves a job in RUN has passed its tests. -/
theorem startJob_passed (hs : s.running = false) (hrun : s.startJob.running = true) :
    ¬ s.configFaulty = true ∧ ¬ s.rasterTooSmall = true := by
  unfold State.startJob at hrun
  rw [if_neg (by rw [hs]; decide)] at hrun
  simp only at hrun
  split at hrun
  · cases hrun
  · rename_i hcfg
    split at hrun
    · cases hrun
    · rename_i hsize
      exact ⟨hcfg, hsize⟩

theorem jobInit_decode (hdec : s.cfg.job.isDecode = true) : s.jobInit = s.initCommon.initDecode := if_pos hdec

theorem jobInit_encode (henc : s.cfg.job.isDecode = false) : s.jobInit = s.initCommon.initEncode :=
  if_neg (by rw [henc]; decide)

/-- Settles O42: the tests pass, and `JobInit` is the decode or the encode part of R283. -/
theorem startInitialisesTheJob : Obligations.StartInitialisesTheJob := by
  intro s hs hwidth hwmax hhmax hheight run
  have hcfg : ¬ s.configFaulty = true := by
    rw [configFaulty_iff]
    rintro (h | h | h | ⟨hzero, hjob⟩)
    · exact hwidth h
    · omega
    · omega
    · exact hjob (hheight hzero)
  have hstart : ¬ s.rasterTooSmall = true → exec .start s = .next (s.jobInit.setStatus run) := fun hsize =>
    congrArg Host.Outcome.next (startJob_begins hs hcfg hsize)
  refine ⟨fun hdec => ?_, fun henc hraster => ?_⟩
  · rw [hstart (by rw [rasterTooSmall_iff, hdec]; simp), jobInit_decode hdec, State.initCommon, hdec]
    rfl
  · rw [hstart (by rw [rasterTooSmall_iff]; omega), jobInit_encode henc, State.initCommon, henc]
    rfl

end Sys2Proof.Machine
end

section
/-! Every encode job ends (`spec/45_jobs.md` R285, R342): each of its steps places a pixel, is an empty run, or ends a row. -/

namespace Sys2Proof.Machine

variable {s t : State}

/-! ### The steps that are left (R251, R265) -/

/-- A bound on the steps until the row is done: two for each pixel ahead, an empty run and one that places the pixel, and
one for the empty run that a pixel of the other colour makes of the run due now. -/
def State.rowStepsLeft (s : State) : Nat :=
  if s.atRowStart then 2 * s.imageWidth + 2
  else 2 * (s.imageWidth - s.a0) +
    if (s.rowPixels s.src s.y s.imageWidth)[s.a0]? = some s.c then 0 else 1

/-- A bound on the steps until the job is done. -/
def State.stepsLeft (s : State) : Nat :=
  (s.imageHeight - (s.y + 1)) * (2 * s.imageWidth + 2) + s.rowStepsLeft

theorem atRowStart_false : s.atRowStart = false ↔ s.atStart = false ∧ s.a0 < s.imageWidth := by
  simp [State.atRowStart]

theorem rowStepsLeft_start (h : s.atRowStart = true) : s.rowStepsLeft = 2 * s.imageWidth + 2 := if_pos h

theorem rowStepsLeft_inside (h : s.atRowStart = false) : s.rowStepsLeft = 2 * (s.imageWidth - s.a0) +
    if (s.rowPixels s.src s.y s.imageWidth)[s.a0]? = some s.c then 0 else 1 := if_neg (by rw [h]; decide)

theorem rowStepsLeft_pos (s : State) : 0 < s.rowStepsLeft := by
  cases hrow : s.atRowStart with
  | true =>
    rw [rowStepsLeft_start hrow]
    omega
  | false =>
    have hin := (atRowStart_false.mp hrow).2
    rw [rowStepsLeft_inside hrow]
    omega

/-! ### What a step of an encode job leaves (R251, R265) -/

/-- `t` is in the row of `s`, at pixel `x`. -/
structure State.InRow (s : State) (x : Nat) (t : State) : Prop where
  cfg : t.cfg = s.cfg
  src : t.src = s.src
  y : t.y = s.y
  inside : t.atRowStart = false
  a0 : t.a0 = x

/-- `t` is at the end of the row of `s`, with rows left. -/
structure State.RowEnded (s t : State) : Prop where
  cfg : t.cfg = s.cfg
  y : t.y = s.y + 1
  rows : t.y < s.imageHeight
  full : s.imageWidth ≤ t.a0

/-- A step of `s` answers `t`, which no longer runs, is at the end of the row, or satisfies `P` within the row. -/
inductive State.EncodeStepped (s : State) (P : Prop) (t : State) : Prop
  | ended (h : t.running = false)
  | row (h : s.RowEnded t)
  | inside (h : P)

/-- A row end leaves rows to do, or the job is done. -/
theorem encodeStepped_rowEnd {P : Prop} {out used : Nat} (hcfg : t.cfg = s.cfg) (hy : t.y = s.y + 1)
    (hfull : s.imageWidth ≤ t.a0) (hstatus : t.status = s.rowEndStatus out used) : s.EncodeStepped P t := by
  by_cases hrows : s.y + 1 < s.imageHeight
  · exact .row ⟨hcfg, hy, by rwa [hy], hfull⟩
  · rw [rowEndStatus_last hrows] at hstatus
    exact .ended (not_running_of_ended (.inl (by rw [hstatus])))

theorem State.StepsG4.stepped (h : s.StepsG4 (.next t)) : s.EncodeStepped (s.InRow s.stepTarget t) t := by
  obtain ⟨hfits, hfull⟩ := h
  by_cases hroom : s.RoomForBits (if s.stepTarget < s.imageWidth then s.stepBits else s.rowEndBits s.stepBits).length
  · obtain ⟨u, hwrote, hnext⟩ := hfits hroom
    obtain ⟨m, w, rfl⟩ := hwrote.output
    by_cases hin : s.stepTarget < s.imageWidth
    · rw [if_pos hin] at hnext
      cases hnext
      exact .inside ⟨rfl, rfl, rfl, atRowStart_false.mpr ⟨rfl, hin⟩, rfl⟩
    · rw [if_neg hin] at hnext
      cases hnext
      exact encodeStepped_rowEnd rfl rfl (Nat.le_of_not_lt hin) rfl
  · obtain ⟨u, hnext, hover⟩ := hfull hroom
    cases hnext
    exact .ended hover.running

theorem State.StepsG31D.stepped {x n : Nat} {k : Colour} (h : s.StepsG31D x k n (.next t)) :
    s.EncodeStepped (s.InRow (x + n) t ∧ t.c = oppositeColour k) t := by
  obtain ⟨hfits, hfull⟩ := h
  by_cases hroom : s.RoomForBits (if x + n < s.imageWidth then runBits k n else s.rowEndBits (runBits k n)).length
  · obtain ⟨rd, u, hwrote, hnext⟩ := hfits hroom
    obtain ⟨m, w, rfl⟩ := hwrote.output
    by_cases hin : x + n < s.imageWidth
    · rw [if_pos hin] at hnext
      obtain ⟨_, hnext⟩ := hnext
      cases hnext
      exact .inside ⟨⟨rfl, rfl, rfl, atRowStart_false.mpr ⟨rfl, hin⟩, rfl⟩, rfl⟩
    · rw [if_neg hin] at hnext
      obtain ⟨_, hnext⟩ := hnext
      cases hnext
      exact encodeStepped_rowEnd rfl rfl (Nat.le_of_not_lt hin) rfl
  · obtain ⟨u, hnext, _, hover⟩ := hfull hroom
    cases hnext
    exact .ended hover.running

/-! ### Every step leaves fewer steps -/

theorem imageWidth_of_cfg (h : t.cfg = s.cfg) : t.imageWidth = s.imageWidth := by
  unfold State.imageWidth
  rw [h]

theorem imageHeight_of_cfg (h : t.cfg = s.cfg) : t.imageHeight = s.imageHeight := by
  unfold State.imageHeight
  rw [h]

theorem rowPixels_of_cfg (h : t.cfg = s.cfg) (m : Memory) (r n : Nat) : t.rowPixels m r n = s.rowPixels m r n := by
  unfold State.rowPixels State.colourOf State.blackIs1 State.stride
  rw [imageWidth_of_cfg h, h]

/-- The row start that follows a row end has the steps of its whole row, which `s` had beside those of its own. -/
theorem State.RowEnded.stepsLeft_lt (h : s.RowEnded t) : t.stepsLeft < s.stepsLeft := by
  have hwidth := imageWidth_of_cfg h.cfg
  have hrow : t.atRowStart = true := by simp [State.atRowStart, hwidth, h.full]
  have hrows : s.imageHeight - (s.y + 1) = s.imageHeight - (t.y + 1) + 1 := by
    have := h.rows
    have := h.y
    omega
  have hpos := rowStepsLeft_pos s
  rw [State.stepsLeft, State.stepsLeft, rowStepsLeft_start hrow, hwidth, imageHeight_of_cfg h.cfg, hrows,
    Nat.add_one_mul (s.imageHeight - (t.y + 1))]
  omega

/-- Within a row the steps left are those of the row. -/
theorem State.InRow.stepsLeft_lt {x : Nat} (h : s.InRow x t) (hrow : t.rowStepsLeft < s.rowStepsLeft) :
    t.stepsLeft < s.stepsLeft := by
  rw [State.stepsLeft, State.stepsLeft, imageWidth_of_cfg h.cfg, imageHeight_of_cfg h.cfg, h.y]
  exact Nat.add_lt_add_left hrow _

/-- The first step of a row. -/
theorem State.InRow.fewer_of_start {x : Nat} (h : s.InRow x t) (hs : s.atRowStart = true) :
    t.rowStepsLeft < s.rowStepsLeft := by
  rw [rowStepsLeft_start hs, rowStepsLeft_inside h.inside, imageWidth_of_cfg h.cfg]
  split <;> omega

/-- A step that places pixels. -/
theorem State.InRow.fewer_of_pixels {x : Nat} (h : s.InRow x t) (hs : s.atRowStart = false) (hx : s.a0 < x) :
    t.rowStepsLeft < s.rowStepsLeft := by
  have hin := (atRowStart_false.mp h.inside).2
  rw [imageWidth_of_cfg h.cfg, h.a0] at hin
  rw [rowStepsLeft_inside hs, rowStepsLeft_inside h.inside, imageWidth_of_cfg h.cfg, h.a0]
  split <;> omega

/-- An empty run: the pixel ahead has the colour of the next run. -/
theorem State.InRow.fewer_of_empty (h : s.InRow s.a0 t) (hs : s.atRowStart = false) (hc : t.c = oppositeColour s.c)
    (hpixel : (s.rowPixels s.src s.y s.imageWidth)[s.a0]? = some (oppositeColour s.c)) :
    t.rowStepsLeft < s.rowStepsLeft := by
  have hne : some (oppositeColour s.c) ≠ some s.c := by cases s.c <;> decide
  rw [rowStepsLeft_inside hs, rowStepsLeft_inside h.inside, imageWidth_of_cfg h.cfg, rowPixels_of_cfg h.cfg, h.src, h.y, h.a0,
    hc, hpixel, if_pos rfl, if_neg hne]
  omega

/-! ### ENCODE_G4 (R251, R255, R258) -/

/-- Inside a row the changing elements found lie right of `a0`. -/
theorem findChange_gt {a0 w : Nat} {l : List Nat} (hw : a0 < w) (hl : l.Pairwise (· < ·)) (hlt : ∀ p ∈ l, p < w) :
    a0 < (findChange false a0 w l).1 ∧ a0 < (findChange false a0 w l).2 := by
  have hle := (findChange_ge (b := false) nofun hw.le hl hlt).2
  suffices hfirst : a0 < (findChange false a0 w l).1 from ⟨hfirst, hfirst.trans_le hle⟩
  clear hl hlt hle
  fun_induction findChange false a0 w l with
  | case1 => exact hw
  | case2 p h => simpa using h
  | case3 => exact hw
  | case4 p q rest h => simpa using h
  | case5 p q rest h ih => exact ih

theorem findOn_gt (hstart : s.atStart = false) (ha0 : s.a0 < s.imageWidth) {line : List Nat}
    (h : LineOk s.imageWidth line) : s.a0 < (s.findOn line).1 ∧ s.a0 < (s.findOn line).2 := by
  rw [State.findOn, hstart]
  exact findChange_gt ha0 h.1.drop fun p hp => h.2 p (List.mem_of_mem_drop hp)

/-- Inside a row every mode moves `a0` right. -/
theorem stepTarget_gt (hstart : s.atStart = false) (ha0 : s.a0 < s.imageWidth) (hcur : LineOk s.imageWidth s.cur)
    (href : LineOk s.imageWidth s.ref) : s.a0 < s.stepTarget := by
  have ha : s.a0 < s.findA.1 ∧ s.a0 < s.findA.2 := findOn_gt hstart ha0 hcur
  have hb : s.a0 < s.findB.2 := (findOn_gt hstart ha0 href).2
  unfold State.stepTarget
  split
  · exact hb
  · exact ha.2
  · exact ha.1

/-- The row start work scans a row and leaves the row's number. -/
theorem stepped_of_rowStarted {rd : Reader} {x : Nat}
    (h : (s.rowStarted rd).EncodeStepped ((s.rowStarted rd).InRow x t) t) : s.EncodeStepped (s.InRow x t) t := by
  cases h with
  | ended h => exact .ended h
  | row h => exact .row ⟨h.cfg, h.y, h.rows, h.full⟩
  | inside h => exact .inside ⟨h.cfg, h.src, h.y, h.inside, h.a0⟩

theorem State.EncodeOk.stepped_encodeG4 (h : s.EncodeOk) (hd : s.dst.wf = true) (hrun : s.running = true)
    (hcmd : s.commands = []) (hjob : s.cfg.job = .encodeG4) (hstep : step s = .next t) :
    s.EncodeStepped (t.stepsLeft < s.stepsLeft) t := by
  cases hrow : s.atRowStart with
  | true =>
    obtain ⟨rd, _, _, _, _, hsteps⟩ := encodeRowStartScans s hrun hjob hcmd h hd hrow
    rw [hstep] at hsteps
    cases stepped_of_rowStarted (State.StepsG4.stepped hsteps) with
    | ended h => exact .ended h
    | row h => exact .row h
    | inside h => exact .inside (h.stepsLeft_lt (h.fewer_of_start hrow))
  | false =>
    have hsteps := (encodeJobSteps s hrun hcmd h hd).1 hjob hrow
    rw [hstep] at hsteps
    obtain ⟨hstart, ha0⟩ := atRowStart_false.mp hrow
    have hright := stepTarget_gt hstart ha0 (h.cur_ok hjob) (h.ref_ok hjob)
    cases hsteps.stepped with
    | ended h => exact .ended h
    | row h => exact .row h
    | inside h => exact .inside (h.stepsLeft_lt (h.fewer_of_pixels hrow hright))

/-! ### ENCODE_G31D (R265) -/

/-- Where no pixel of a row has the colour of the run, the next pixel has the other. -/
theorem pixel_of_empty_run {px : List Colour} {x : Nat} {k : Colour} (hx : x < px.length)
    (hempty : ((px.drop x).takeWhile fun p => decide (p = k)).length = 0) : px[x]? = some (oppositeColour k) := by
  rw [List.drop_eq_getElem_cons hx, List.takeWhile_cons] at hempty
  rw [List.getElem?_eq_getElem hx]
  refine congrArg some (eq_opposite_of_ne fun heq => ?_)
  simp [heq] at hempty

theorem State.EncodeOk.stepped_encodeG31D (h : s.EncodeOk) (hd : s.dst.wf = true) (hrun : s.running = true)
    (hcmd : s.commands = []) (hjob : s.cfg.job = .encodeG31D) (hstep : step s = .next t) :
    s.EncodeStepped (t.stepsLeft < s.stepsLeft) t := by
  have hsteps := h.stepsG31D hd hrun hcmd hjob
  rw [hstep] at hsteps
  cases hsteps.stepped with
  | ended h => exact .ended h
  | row h => exact .row h
  | inside hin =>
    obtain ⟨hin, hc⟩ := hin
    refine .inside (hin.stepsLeft_lt ?_)
    cases hrow : s.atRowStart with
    | true => exact hin.fewer_of_start hrow
    | false =>
      simp only [hrow, Bool.false_eq_true, if_false] at hin hc
      obtain hempty | hplaced := Nat.eq_zero_or_pos
        (((s.rowPixels s.src s.y s.imageWidth).drop s.a0).takeWhile fun p => decide (p = s.c)).length
      · rw [hempty] at hin
        have hlen : s.a0 < (s.rowPixels s.src s.y s.imageWidth).length := by
          rw [length_rowPixels]
          exact (atRowStart_false.mp hrow).2
        exact hin.fewer_of_empty hrow hc (pixel_of_empty_run hlen hempty)
      · exact hin.fewer_of_pixels hrow (Nat.lt_add_of_pos_right hplaced)

/-! ### The end of a job (R285) -/

/-- An encode job in RUN between two steps: no host command pending, the invariants true. -/
structure State.EncodeRuns (s : State) : Prop where
  running : s.running = true
  encodes : s.cfg.job.isDecode = false
  commands : s.commands = []
  memories : s.memoriesOk
  ok : s.EncodeOk

theorem State.EncodeRuns.stepped (h : s.EncodeRuns) (hstep : step s = .next t) :
    s.EncodeStepped (t.stepsLeft < s.stepsLeft) t := by
  have henc := h.encodes
  cases hjob : s.cfg.job with
  | decodeG3 => rw [hjob] at henc; cases henc
  | decodeG4 => rw [hjob] at henc; cases henc
  | encodeG4 => exact h.ok.stepped_encodeG4 h.memories.2 h.running h.commands hjob hstep
  | encodeG31D => exact h.ok.stepped_encodeG31D h.memories.2 h.running h.commands hjob hstep

/-- A step of such a job ends it, or leaves such a job with fewer steps. -/
theorem State.EncodeRuns.step (h : s.EncodeRuns) : ∃ t, Machine.step s = .next t ∧
    (t.running = false ∨ (t.EncodeRuns ∧ t.stepsLeft < s.stepsLeft)) := by
  have hjob : s.JobOk := fun _ => ⟨fun hdec => absurd (h.encodes.symm.trans hdec) (by decide), fun _ => h.ok⟩
  obtain ⟨t, hstep⟩ := jobsNeverGetStuck s h.memories hjob h.commands
  refine ⟨t, hstep, ?_⟩
  cases hrun : t.running with
  | false => exact .inl rfl
  | true =>
    obtain ⟨hcfg, _, hcmd⟩ := cfgAndSrcAreReadOnly.2 s t h.commands hstep
    have henc : t.cfg.job.isDecode = false := by rw [hcfg, h.encodes]
    have hok : t.EncodeOk := encoderInvariantsKept s t h.memories hstep
      (fun x y z rest hhost => by rw [h.commands] at hhost; cases hhost) (fun _ _ => h.ok) hrun henc
    refine .inr ⟨⟨hrun, henc, hcmd, memoriesStayCanonical s t h.memories hstep, hok⟩, ?_⟩
    cases h.stepped hstep with
    | ended hend => rw [hrun] at hend; cases hend
    | row hrow => exact hrow.stepsLeft_lt
    | inside hfewer => exact hfewer

theorem State.EncodeRuns.ends {b : Nat} (h : s.EncodeRuns) (hb : s.stepsLeft ≤ b) :
    ∃ n v, n ≤ b ∧ Host.Core.run Sys2Proof.core n s = .next v ∧ v.running = false := by
  induction b generalizing s with
  | zero =>
    have hpos := rowStepsLeft_pos s
    unfold State.stepsLeft at hb
    omega
  | succ b ih =>
    obtain ⟨t, hstep, hend | ⟨ht, hfewer⟩⟩ := h.step
    · exact ⟨1, t, by omega, run_step hstep 0, hend⟩
    · obtain ⟨n, v, hn, hrun, hv⟩ := ih ht (by omega)
      exact ⟨n + 1, v, by omega, (run_step hstep n).trans hrun, hv⟩

/-- START leaves an encode job at the start of row 0 (R283). -/
theorem startJob_stepsLeft (hs : s.running = false) (henc : s.cfg.job.isDecode = false)
    (hrun : s.startJob.running = true) (hheight : 0 < s.imageHeight) :
    s.startJob.stepsLeft = s.imageHeight * (2 * s.imageWidth + 2) := by
  obtain ⟨hcfg, hsize⟩ := startJob_passed hs hrun
  rw [startJob_begins hs hcfg hsize, jobInit_encode henc, State.stepsLeft, rowStepsLeft_start rfl]
  show (s.imageHeight - 1) * (2 * s.imageWidth + 2) + (2 * s.imageWidth + 2) = _
  rw [← Nat.add_one_mul (s.imageHeight - 1), Nat.sub_add_cancel hheight]

/-- Settles O57: START leaves no job in RUN, or one at the start of its first row; every step then leaves fewer steps. -/
theorem encodeJobsEnd : Obligations.EncodeJobsEnd := by
  intro s t hs henc hcmd hmem hstart
  cases hstart
  cases hrun : s.startJob.running with
  | false => exact ⟨0, s.startJob, Nat.zero_le _, rfl, hrun⟩
  | true =>
    have hkept := s.kept_startJob
    have hjob : s.startJob.cfg.job.isDecode = false := by rwa [hkept.cfg]
    have hok := (State.startJob_ok hs hrun).2 hjob
    have hheight : 0 < s.imageHeight := by
      rw [← imageHeight_of_cfg hkept.cfg]
      exact Nat.zero_lt_of_lt hok.y_lt
    have hruns : s.startJob.EncodeRuns := ⟨hrun, hjob, hkept.commands.trans hcmd, hkept.memoriesOk hmem, hok⟩
    exact hruns.ends (startJob_stepsLeft hs henc hrun hheight).le

end Sys2Proof.Machine
end

section
/-! What START answers, and where STATUS changes (`spec/45_jobs.md` R282, R309, R310; `spec/60_exceptions.md` R303, R305, R314;
log 25): by RESET, START and `finish`, and by Stop and raise of a job in RUN. -/

namespace Sys2Proof.Machine

variable {s t : State}

/-! ### The tests of START (R282, R303, R305) -/

/-- START is ignored in RUN (R338). -/
theorem startJob_running (hs : s.running = true) : s.startJob = s := if_pos hs

theorem startJob_configFault (hs : s.running = false) (hcfg : s.configFaulty = true) :
    s.startJob = s.raiseAtStart .config := by
  unfold State.startJob
  rw [if_neg (by rw [hs]; decide)]
  exact if_pos hcfg

theorem startJob_sizeFault (hs : s.running = false) (hcfg : ¬ s.configFaulty = true) (hsize : s.rasterTooSmall = true) :
    s.startJob = s.raiseAtStart .size := by
  unfold State.startJob
  rw [if_neg (by rw [hs]; decide)]
  exact (if_neg hcfg).trans (if_pos hsize)

/-- Settles O41: one equation of START for each outcome of its tests. -/
theorem startTestsInOrder : Obligations.StartTestsInOrder := by
  intro s faulty small
  have hfaulty : s.configFaulty = true ↔ faulty := configFaulty_iff
  have hsmall : s.rasterTooSmall = true ↔ small := rasterTooSmall_iff
  rw [← hfaulty, ← hsmall]
  exact ⟨fun hs => congrArg Host.Outcome.next (startJob_running hs),
    fun hs hcfg => congrArg Host.Outcome.next (startJob_configFault hs hcfg),
    fun hs hcfg hsize => congrArg Host.Outcome.next (startJob_sizeFault hs hcfg hsize),
    fun hs hcfg hsize => ⟨_, congrArg Host.Outcome.next (startJob_begins hs hcfg hsize), rfl⟩⟩

/-! ### The commands that leave STATUS to Stop and raise (log 25) -/

/-- A meaning that does no more to STATUS than Stop and raise do in a job (R194, R304). -/
def StatusRule (f : State → Host.Outcome State Fault Refusal) : Prop := ∀ s t : State, f s = .next t → s.StatusBy t

theorem StatusRule.next {g : State → State} (hg : ∀ s : State, s.StatusBy (g s)) : StatusRule fun s => .next (g s) := by
  rintro s t ⟨⟩
  exact hg s

theorem StatusRule.flow {w : State → Flow} (hw : ∀ s : State, s.StatusBy (w s).state) : StatusRule fun s => (w s).out := by
  rintro s t ⟨⟩
  exact hw s

/-- An operation that writes no STATUS register. -/
theorem StatusRule.quiet {g : State → State} (hg : ∀ s : State, (g s).status = s.status) :
    StatusRule fun s => .next (g s) :=
  .next fun s => .same (hg s)

/-- An operation that leaves a value in `result` (log 7). -/
theorem StatusRule.answer {g : State → State} (r : State → OpResult) (hg : ∀ s : State, (g s).status = s.status) :
    StatusRule fun s => .next ((g s).setResult (r s)) :=
  .quiet hg

theorem StatusRule.guarded {p : State → Prop} [∀ s, Decidable (p s)] {r : Refusal}
    {f : State → Host.Outcome State Fault Refusal} (hf : StatusRule f) :
    StatusRule fun s => if p s then .refused r else f s := by
  intro s t h
  simp only at h
  split at h
  · cases h
  · exact hf s t h

theorem StatusRule.codeResult (code : Option (Nat × Nat)) : StatusRule (codeResult code) := by
  intro s t h
  unfold Machine.codeResult at h
  split at h <;> cases h
  exact .same rfl

theorem StatusRule.unit {f : State → Host.Outcome State Fault Refusal} (hf : StatusRule f) :
    StatusRule (unitOperation f) := by
  intro s t h
  cases hs : s.running with
  | true => rw [unitOperation_running hs] at h; cases h
  | false => rw [unitOperation_go hs] at h; exact hf s t h

theorem StatusRule.step {entered : State → Bool} {f : State → Flow} (hf : ∀ s : State, s.StatusBy (f s).state) :
    StatusRule fun s => stepOperation (entered s) f s := by
  intro s t h
  obtain ⟨_, _, rfl⟩ := stepOperation_next h
  exact hf s

/-- What a unit command does to STATUS: RESET, START and `finish` write it by their rules, and no other command writes it but
by Stop and raise. -/
inductive CommandStatus : Instr → Prop where
  | reset : CommandStatus .reset
  | start : CommandStatus .start
  | finish : CommandStatus .finish
  | rule {i : Instr} (h : StatusRule (exec i)) : CommandStatus i

theorem exec_command_status {i : Instr} {opsel : Byte} {x y z : Word} (h : encode i = .select opsel x y z) :
    CommandStatus i := by
  cases i
  case reset => exact .reset
  case start => exact .start
  case finish => exact .finish
  case decodeStep => exact .rule (.step statusBy_decodeStep)
  case modeStep => exact .rule (.step statusBy_modeStep)
  case encodeStepG4 => exact .rule (.step fun s => (statusBy_encodeStepG4 s).state)
  case hasBits n => exact .rule (.unit (.guarded (.answer _ fun _ => rfl)))
  case peekBits n => exact .rule (.unit (.guarded (.answer _ fun _ => rfl)))
  case getBits n => exact .rule (.unit (.guarded (.guarded (.answer _ fun _ => rfl))))
  case clearBits n => exact .rule (.unit (.guarded (.quiet (status_clear · n))))
  case look n => exact .rule (.unit (.guarded (.answer _ fun _ => rfl)))
  case byteAlign => exact .rule (.unit (.quiet fun _ => rfl))
  case wordAlign => exact .rule (.unit (.quiet fun _ => rfl))
  case reverseBits => exact .rule (.unit (.quiet fun _ => rfl))
  case drain => exact .rule (.unit (.quiet fun _ => rfl))
  case putBits v n => exact .rule (.unit (.guarded (.flow fun s => (statusBy_putBits v n s).state)))
  case putAlign => exact .rule (.unit (.flow fun s => (statusBy_putAlign s).state))
  case decodeRun k => exact .rule (.unit (.answer _ (status_decodeRun · k)))
  case decodeMode => exact .rule (.unit (.answer _ status_decodeMode))
  case termCode k n => exact .rule (.unit (.codeResult _))
  case makeupCode k m => exact .rule (.unit (.codeResult _))
  case modeCode m => exact .rule (.unit (.codeResult _))
  case fillPixels k x0 x1 => exact .rule (.unit (.guarded (.flow fun s => (statusBy_fill s k x0 x1).state)))
  case fillRun n => exact .rule (.unit (.flow fun s => (statusBy_fillRun s n).state))
  case padRow => exact .rule (.unit (.flow fun s => (statusBy_padRow s).state))
  case closeRow align => exact .rule (.unit (.next (statusBy_closeRow · align)))
  case onEOL => exact .rule (.unit (.flow statusBy_onEOL))
  case onError => exact .rule (.unit (.flow statusBy_onError))
  case onEOD fromMode => exact .rule (.unit (.flow (statusBy_onEOD · fromMode)))
  case record p => exact .rule (.unit (.guarded (.quiet (status_record · p))))
  case findB => exact .rule (.unit (.answer _ fun _ => rfl))
  case countPixels k max => exact .rule (.unit (.answer _ (status_countPixels · k max)))
  case selectMode a1 b1 b2 => exact .rule (.unit (.guarded (.answer _ fun _ => rfl)))
  case putRun k n => exact .rule (.unit (.flow fun s => (statusBy_putRun k n s).state))
  case encodeRowG31D => exact .rule (.unit (.flow fun s => (statusBy_encodeRowG31D s).state))
  all_goals cases h

/-! ### What a step does to STATUS (R286, R309, R310, R313, R314) -/

/-- What a step that answers `t` does to STATUS: the three commands that write it, START and `finish` with no job in RUN;
otherwise nothing but Stop and raise of a job. -/
inductive State.StatusNext (s t : State) : Prop where
  | reset {x y z : Word} {rest : List HostCommand} (hcmd : s.commands = .select 0x00 x y z :: rest)
  | start {x y z : Word} {rest : List HostCommand} (hcmd : s.commands = .select 0x01 x y z :: rest) (hs : s.running = false)
  | finish {x y z : Word} {rest : List HostCommand} (hcmd : s.commands = .select 0x1B x y z :: rest) (hs : s.running = false)
      (h : t.status = { s.status with outLen := t.status.outLen })
  | rule (h : s.StatusBy t)

theorem CommandStatus.next {i : Instr} {opsel : Byte} {x y z x' y' z' : Word} {rest : List HostCommand}
    (hi : CommandStatus i) (he : encode i = .select opsel x' y' z') (hcmd : s.commands = .select opsel x y z :: rest)
    (h : exec i (s.setCommands rest) = .next t) : s.StatusNext t := by
  cases hi with
  | reset => cases he; exact .reset hcmd
  | start =>
    cases he
    cases hs : s.running with
    | false => exact .start hcmd hs
    | true =>
      cases h
      rw [startJob_running (s := s.setCommands rest) hs]
      exact .rule (.same rfl)
  | finish =>
    cases he
    have hunit := unitOperation_next .finish h
    exact .finish hcmd hunit.idle hunit.status
  | rule hrule => exact .rule ((hrule _ _ h).after rfl)

theorem step_statusNext (h : step s = .next t) : s.StatusNext t := by
  unfold step at h
  split at h
  · exact .rule (blockStep_next h).statusBy
  · exact .rule ((blockStep_next h).statusBy.after rfl)
  · rename_i hcmd
    obtain ⟨i, hi, hexec⟩ := selectDispatch_next h
    obtain ⟨_, _, _, he⟩ := decodeSelect_ok hi
    exact (exec_command_status he).next he hcmd hexec
  · exact .rule (.same (hostAccess_next h).1)

/-- The block does nothing of its own outside RUN (R313). -/
theorem step_idle (hcmd : s.commands = []) (hs : s.running = false) : step s = .next s := by
  have hown : step s = blockStep s := by simp only [step, hcmd]
  rw [hown]
  exact if_neg (by rw [hs]; decide)

/-- Stop and raise end a job in DONE or FAULT, never in IDLE. -/
theorem State.StatusBy.not_idle (h : s.StatusBy t) (hs : s.running = true) : t.status.state ≠ .idle := by
  cases h with
  | same h =>
    rw [h, of_decide_eq_true hs]
    decide
  | ended _ hend =>
    rcases hend with hend | hend <;> rw [hend] <;> decide

theorem State.StatusNext.leaves_run (h : s.StatusNext t) (hs : s.running = true) (ht : t.status.state = .idle) :
    ∃ x y z rest, s.commands = .select 0x00 x y z :: rest := by
  cases h with
  | reset hcmd => exact ⟨_, _, _, _, hcmd⟩
  | start _ hidle => rw [hs] at hidle; cases hidle
  | finish _ hidle => rw [hs] at hidle; cases hidle
  | rule h => exact absurd ht (h.not_idle hs)

/-- With no job in RUN a command other than RESET and START keeps STATUS, but for the OUT_LEN of `finish` (R146, R286). -/
theorem State.StatusNext.frame (h : s.StatusNext t) (hs : s.running = false)
    (hreset : ∀ x y z rest, s.commands ≠ .select 0x00 x y z :: rest)
    (hstart : ∀ x y z rest, s.commands ≠ .select 0x01 x y z :: rest) :
    t.status = { s.status with outLen := t.status.outLen } ∧
      ((∀ x y z rest, s.commands ≠ .select 0x1B x y z :: rest) → t.status = s.status) := by
  cases h with
  | reset hcmd => exact absurd hcmd (hreset _ _ _ _)
  | start hcmd _ => exact absurd hcmd (hstart _ _ _ _)
  | finish hcmd _ h => exact ⟨h, fun hfinish => absurd hcmd (hfinish _ _ _ _)⟩
  | rule h =>
    have hsame := h.idle hs
    exact ⟨by rw [hsame], fun _ => hsame⟩

/-- RESET leaves the block in IDLE (R330). -/
theorem step_reset {x y z : Word} {rest : List HostCommand} (hcmd : s.commands = .select 0x00 x y z :: rest)
    (h : step s = .next t) : t.running = false := by
  simp only [step, hcmd] at h
  cases h
  rfl

/-- Settles O52: the cases of what a step does to STATUS. -/
theorem stateTransitions : Obligations.StateTransitions := by
  refine ⟨fun s hcmd hs => step_idle hcmd hs, fun s t hstep => ?_⟩
  have hnext := step_statusNext hstep
  refine ⟨hnext.leaves_run, fun hs ht => ?_, fun hs hother => ?_⟩
  · cases hnext with
    | reset hcmd => rw [step_reset hcmd hstep] at ht; cases ht
    | start hcmd _ => exact ⟨_, _, _, _, hcmd⟩
    | finish _ _ h =>
      have hrun : t.running = s.running := by
        rw [State.running, h]
        rfl
      rw [hrun, hs] at ht
      cases ht
    | rule h => rw [running_of_status (h.idle hs), hs] at ht; cases ht
  · exact hnext.frame hs (fun x y z rest => (hother x y z rest).1) fun x y z rest => (hother x y z rest).2

end Sys2Proof.Machine
end

section
/-! With DEST_FIXED = 0 the pixel store grows, and no rule of a decode job raises a fault (`spec/60_exceptions.md` R306;
`spec/42_g3_decoder.md` R185). -/

namespace Sys2Proof.Machine

/-- DST may grow, and no fault has been raised (R306). -/
structure State.FaultFree (s : State) : Prop where
  growing : s.destFixed = false
  no_fault : s.status.state ≠ .fault

variable {s t : State}

theorem State.FaultFree.congr (h : s.FaultFree) (hcfg : t.cfg = s.cfg) (hstatus : t.status = s.status) : t.FaultFree := by
  obtain ⟨hgrow, hno⟩ := h
  exact ⟨by rwa [State.destFixed, hcfg], by rwa [hstatus]⟩

theorem State.FaultFree.setReader (h : s.FaultFree) (r : Reader) : (s.setReader r).FaultFree := h.congr rfl rfl

theorem State.FaultFree.fillTo (h : s.FaultFree) (n : Nat) : (s.fillTo n).FaultFree := h.setReader _

theorem State.FaultFree.clear (h : s.FaultFree) (n : Nat) : (s.clear n).FaultFree := h.setReader _

/-! ### The pixel store and the row events (R185 to R193) -/

theorem State.FaultFree.stop (h : s.FaultFree) (reason : StopCode) : (s.stop reason).FaultFree := by
  unfold State.stop
  split
  · exact ⟨h.growing, fun hfault => by cases hfault⟩
  · exact h.congr rfl rfl

/-- A row that DST has no room for makes it grow: OpenRow does not raise (R185). -/
theorem State.FaultFree.fill (h : s.FaultFree) (k : Colour) (x0 x1 : Nat) : (s.fill k x0 x1).state.FaultFree := by
  rcases s.fill_cases k x0 x1 with ⟨_, m, hgo⟩ | ⟨hfull, _⟩
  · rw [hgo]
    exact h.congr rfl rfl
  · exact absurd (.inr (.inr h.growing)) hfull

theorem State.FaultFree.bind {w : Flow} {f : State → Flow} (h : w.state.FaultFree)
    (hf : ∀ t : State, t.FaultFree → (f t).state.FaultFree) : (w.bind f).state.FaultFree := by
  cases w with
  | go t => exact hf t h
  | halt t => exact h

theorem State.FaultFree.record (h : s.FaultFree) (p : Nat) : (s.record p).FaultFree :=
  h.congr (s.kept_record p).cfg (status_record s p)

/-- The end of a run or of a vertical mode: `a0` moved, the position recorded, the colour flipped. -/
theorem State.FaultFree.advance (h : s.FaultFree) (e : Nat) : ((s.moveTo e).record e).flipColour.FaultFree :=
  (State.FaultFree.record (s := s.moveTo e) (h.congr rfl rfl) e).congr rfl rfl

theorem State.FaultFree.closeRow (h : s.FaultFree) (align : Bool) : (s.closeRow align).FaultFree := by
  rw [s.closeRow_eq align]
  simp only
  split
  · refine State.FaultFree.stop ?_ _
    exact h.congr rfl rfl
  · exact h.congr rfl rfl

theorem State.FaultFree.closeIfFull (h : s.FaultFree) : s.closeIfFull.FaultFree := by
  unfold State.closeIfFull
  split
  · exact h.closeRow true
  · exact h

theorem State.FaultFree.padRow (h : s.FaultFree) : s.padRow.state.FaultFree := by
  have hwhite : (if s.c = .black then { s.record s.a0 with c := .white } else s).FaultFree := by
    split
    · exact (h.record _).congr rfl rfl
    · exact h
  exact (hwhite.fill _ _ _).bind fun _ ht => ht.congr rfl rfl

theorem State.FaultFree.onEOD (h : s.FaultFree) (fromMode : Bool) : (s.onEOD fromMode).state.FaultFree := by
  unfold State.onEOD
  split
  · exact h.stop .lenient
  · refine State.FaultFree.bind ?_ fun t ht => ht.stop .eod
    split
    · exact h.padRow.bind fun _ ht => ht.congr rfl rfl
    · exact h

theorem State.FaultFree.endOfBlock (h : s.FaultFree) : s.endOfBlock.FaultFree := by
  unfold State.endOfBlock
  split
  · simp only
    split
    · exact ((h.fillTo 12).clear 12).stop .eob
    · exact h.fillTo 12
  · exact h

theorem State.FaultFree.takeTag (h : s.FaultFree) (tag : Bool) : (s.takeTag tag).FaultFree := h.congr rfl rfl

theorem State.FaultFree.afterEOL (h : s.FaultFree) : s.afterEOL.state.FaultFree := by
  unfold State.afterEOL
  split
  · simp only
    split
    · exact (h.fillTo 1).onEOD false
    · exact ((h.fillTo 1).takeTag _).endOfBlock
  · exact h.endOfBlock

theorem State.FaultFree.settleRow (h : s.FaultFree) : s.settleRow.state.FaultFree := by
  unfold State.settleRow
  split
  · exact h.padRow.bind fun _ ht => ht.closeRow false
  · exact h.congr rfl rfl

/-- What a job in RUN goes on with after its row is closed. -/
theorem State.FaultFree.ifRunning {f : State → Flow} (h : s.FaultFree) (hf : (f s).state.FaultFree) :
    (if s.running then f s else .go s).state.FaultFree := by
  split
  · exact hf
  · exact h

theorem State.FaultFree.onEOL (h : s.FaultFree) : s.onEOL.state.FaultFree :=
  State.FaultFree.bind (State.FaultFree.settleRow (h.congr rfl rfl)) fun _ ht => ht.ifRunning ht.afterEOL

theorem State.FaultFree.scanForEOL (fuel : Nat) (h : s.FaultFree) : (State.scanForEOL fuel s).state.FaultFree := by
  induction fuel generalizing s with
  | zero => exact h
  | succ fuel ih =>
    have hfill := h.fillTo 12
    unfold State.scanForEOL
    simp only
    split
    · exact (hfill.setReader _).onEOD false
    · split
      · exact hfill
      · exact ih (hfill.clear _)

theorem State.FaultFree.onError (h : s.FaultFree) : s.onError.state.FaultFree := by
  unfold State.onError
  split
  · refine State.FaultFree.bind ?_ fun t ht => ht.ifRunning (ht.scanForEOL _)
    exact (State.FaultFree.padRow (s := s.dropRun) (h.congr rfl rfl)).bind fun t ht => ht.closeRow true
  · exact h.congr (State.kept_skipBit _).cfg (status_skipBit _)

/-! ### The rules of the codewords (R181 to R184, R223 to R229) -/

theorem State.FaultFree.payRun (h : s.FaultFree) : s.payRun.FaultFree := by
  by_cases hpaid : s.hphase - 1 = 0
  · rw [payRun_paid hpaid]
    exact State.FaultFree.closeIfFull (h.congr rfl rfl)
  · rw [payRun_owed hpaid]
    exact h.congr rfl rfl

theorem State.FaultFree.terminate (h : s.FaultFree) (v : Nat) : (s.terminate v).state.FaultFree := by
  refine State.FaultFree.bind ?_ fun t ht => ht.payRun
  exact (State.FaultFree.fill (s := { s with acc := 0 }) (h.congr rfl rfl) _ _ _).bind fun t ht => ht.advance _

theorem State.FaultFree.terminatingRule (h : s.FaultFree) (v : Nat) : (s.terminatingRule v).state.FaultFree := by
  unfold State.terminatingRule
  split
  · exact h.onError
  · exact h.terminate v

theorem State.FaultFree.makeupRule (h : s.FaultFree) (v : Nat) : (s.makeupRule v).state.FaultFree := by
  unfold State.makeupRule
  split
  · exact h.onError
  · exact h.congr rfl rfl

theorem State.FaultFree.doPass (h : s.FaultFree) : s.doPass.state.FaultFree :=
  (h.fill _ _ _).bind fun _ ht => State.FaultFree.closeIfFull (ht.congr rfl rfl)

theorem State.FaultFree.doVertical (h : s.FaultFree) (d : Int) : (s.doVertical d).state.FaultFree :=
  (h.fill _ _ _).bind fun _ ht => (ht.advance _).closeIfFull

theorem State.FaultFree.doExt1D (h : s.FaultFree) : s.doExt1D.state.FaultFree := by
  have hfill := h.fillTo 12
  unfold State.doExt1D
  simp only
  split
  · exact hfill.clear 1
  · split
    · exact (hfill.clear 12).onEOL
    · exact hfill.onError

/-! ### The decode step (R181, R223) -/

theorem State.FaultFree.runStep (h : s.FaultFree) : s.runStep.state.FaultFree := by
  have hread : (s.decodeRun s.c).2.FaultFree := h.congr (s.kept_decodeRun s.c).cfg (status_decodeRun s s.c)
  unfold State.runStep
  generalize s.decodeRun s.c = out at *
  obtain ⟨r, t⟩ := out
  cases r with
  | run v =>
    simp only
    split
    · exact hread.makeupRule v
    · exact hread.terminatingRule v
  | eol => exact hread.onEOL
  | zero => exact (hread.clear 1).congr rfl rfl
  | error => exact hread.onError
  | eod => exact hread.onEOD false

theorem State.FaultFree.modeStep (h : s.FaultFree) : s.modeStep.state.FaultFree := by
  have hread : s.decodeMode.2.FaultFree := h.congr s.kept_decodeMode.cfg (status_decodeMode s)
  unfold State.modeStep
  generalize s.decodeMode = out at *
  obtain ⟨r, t⟩ := out
  cases r with
  | pass => exact hread.doPass
  | horizontal => exact hread.congr rfl rfl
  | vertical d => exact hread.doVertical d
  | ext2d => exact hread.onError
  | ext1d => exact hread.doExt1D
  | error => exact hread.onError
  | eod => exact hread.onEOD true

theorem State.FaultFree.decodeStep (h : s.FaultFree) : s.decodeStep.state.FaultFree := by
  unfold State.decodeStep
  split
  · exact h.runStep
  · exact h.modeStep

/-- A job in RUN that may grow DST has not met a fault. -/
theorem faultFree_of_decoding (hd : s.decoding = true) (hgrow : s.destFixed = false) : s.FaultFree := by
  have hrun : s.status.state = .run := of_decide_eq_true (decoding_iff.mp hd).1
  exact ⟨hgrow, by rw [hrun]; decide⟩

/-- Settles O53: the step is `DecodeStep`, whose every rule keeps a growing job free of faults. -/
theorem noCapacityFaultUnlessFixed : Obligations.NoCapacityFaultUnlessFixed := by
  intro s t hd hcmd hgrow hstep
  rw [step_decodeStep hd hcmd] at hstep
  cases hstep
  exact (faultFree_of_decoding hd hgrow).decodeStep.no_fault

end Sys2Proof.Machine
end

section
/-! RESET (R330, R44): what it writes to STATUS and what it leaves unchanged, in any state. -/

namespace Sys2Proof.Machine

/-- RESET is dispatched with no test of the state (R330), so it always answers a next state. -/
theorem exec_reset (s : State) : exec .reset s = .next s.resetBlock := rfl

@[simp] theorem resetBlock_status (s : State) : s.resetBlock.status = clearedStatus .idle := rfl

/-- The frame of RESET: the memories, CFG and the host's own registers (R330; log 3). -/
theorem resetBlock_frame (s : State) :
    s.resetBlock.src = s.src ∧ s.resetBlock.dst = s.dst ∧ s.resetBlock.cfg = s.cfg ∧
      s.resetBlock.commands = s.commands ∧ s.resetBlock.result = s.result :=
  ⟨rfl, rfl, rfl, rfl, rfl⟩

/-- Settles O40: the next state is `resetBlock`, whose STATUS is the cleared one and whose frame holds the rest. -/
theorem resetClearsStatus : Obligations.ResetClearsStatus := fun s =>
  ⟨s.resetBlock, exec_reset s, resetBlock_status s, resetBlock_frame s⟩

end Sys2Proof.Machine
end
